-- ==== Sys2Proof/Word.lean ====
section
/-! DEFINITION. The words of the part: bytes, 16-bit checks and digests, bucket sets. Everything the manual counts
(generations, ids, lengths, times, counters) is a natural number, bounded by the rule that names it. -/

namespace Sys2Proof

/-- One byte of a frame, a block, a record or the flash device. -/
abbrev Byte := BitVec 8

/-- A CRC-16 value: a frame check, value check, digest, band or record check (R2). -/
abbrev Half := BitVec 16

/-- A set of buckets 0 to 63: bucket b is bit b (R57, Table 5.6.1). -/
abbrev BucketSet := BitVec 64

/-- A level of the peer line (R45): dominant is logic 0, recessive is logic 1. -/
inductive Level where
  | recessive
  | dominant
deriving DecidableEq, Repr

/-- What a pin of the flash link carries: driven high, driven low, or floating (R171, R176). -/
inductive Pin where
  | high
  | low
  | floating
deriving DecidableEq, Repr

end Sys2Proof
end

