-- ==== Sys2Proof/Syntax.lean ====
section
/-! DEFINITION. The commands of the part, one constructor for each row of spec/opcode_table.json. The table gives a row no
operand bits: a constructor's operands are what the outside supplies at that event (bytes of a transaction or a frame, levels
of pins, what the flash device holds after a write), notes/assumptions/1.md. -/

namespace Sys2Proof

/-- The levels of the nine strap pins, sampled at the end of a reset (R162, Table 9.1.2). -/
structure Straps where
  sn : BitVec 5
  lr : BitVec 2
  bc : BitVec 2
deriving DecidableEq, Repr

/-- What the flash device makes of the program or erase it was given (notes/assumptions/7.md).
`whole`: every bit as sent. `part l`, a program: byte i of its range is ANDed with byte i of `l` instead of the byte sent, and
a byte `l` does not reach is left as it was (programming only turns 1 bits into 0 bits). `part l`, an erase: byte i of the
band is ORed with byte i of `l`, and a byte `l` does not reach is left as it was. -/
inductive DeviceLeft where
  | whole
  | part (l : List Byte)
deriving DecidableEq, Repr

/-- A command block as received after the command code: tag, parameter length byte, parameters, check byte (Table 11.2.1), and
how many whole bytes are clocked after it in the same transaction (R180, R183). When the length byte is above 40 the block ends
at that byte (R183), and the parameters and the check are not received. -/
structure Block where
  tag    : Byte
  len    : Byte
  params : List Byte
  check  : Byte
  extra  : Nat
deriving DecidableEq, Repr

/-- A transaction of a code that the part may not know: the code, and how many whole bytes are clocked after it (R180). -/
structure OtherCode where
  code  : Byte
  extra : Nat
deriving DecidableEq, Repr

/-- How much of a READ-RESPONSE or POP-EVENT transaction a command carries (notes/assumptions/18.md).
`whole n`: up to the deassertion of SSEL, with `n` whole bytes clocked after the code byte. `start`: up to the instant the code
byte is complete, the transaction going on. `rest n`: what is left of a transaction begun by `start`, `n` whole bytes. -/
inductive Portion where
  | whole (n : Nat)
  | start
  | rest (n : Nat)
deriving DecidableEq, Repr

/-- How much of a transaction READ_STATUS carries (notes/assumptions/18.md). `select`: SSEL is asserted, which takes the status
byte of the transaction, whatever its code will be (R180); the command that carries the transaction follows. `clocked bits`: a
READ-STATUS transaction up to the deassertion of SSEL, `bits` bits clocked in it. -/
inductive StatusRead where
  | select
  | clocked (bits : Nat)
deriving DecidableEq, Repr

/-- The change of the level on LRXD that START_BIT tells (R48, R49, R67; notes/assumptions/9.md). `start`: from recessive to
dominant, and dominant still at the middle of the bit. `noise`: from recessive to dominant, and recessive again before that
middle. `release`: from dominant to recessive. -/
inductive LineChange where
  | start
  | noise
  | release
deriving DecidableEq, Repr

/-- A stop bit of a frame, sampled dominant (R59): the bit of the frame that it is, the frame's first start bit being 0, and how many
whole tB the line has been dominant without a break. -/
structure DominantStop where
  bit : Nat
  run : Nat
deriving DecidableEq, Repr

/-- The 61 commands. Each constructor's docstring names its row and rule. -/
inductive Instr where
  /-- PIN_RESET (R160): RSTN is driven low. `left`: what the device made of a write in hand; `host`: what the host wrote to
  the device in a lend in hand. -/
  | pinReset (left : DeviceLeft) (host : List Host.Cell)
  /-- RESET_RELEASE (R162): RSTN is released; the strap levels. -/
  | resetRelease (straps : Straps)
  /-- RESTART (R185): a RESTART transaction with `extraBits` bits clocked after the code 0EH. -/
  | restart (extraBits : Nat)
  /-- RESTART_TAKES_EFFECT (R161). -/
  | restartTakesEffect (straps : Straps) (host : List Host.Cell)
  /-- READ_STATUS (R180, R181). -/
  | readStatus (r : StatusRead)
  /-- OTHER_TRANSACTION_CODE (R180). -/
  | otherTransactionCode (t : OtherCode)
  /-- COMMAND_BLOCK_ABORTED (R183): the bytes taken before SSEL was deasserted. -/
  | commandBlockAborted (bytes : List Byte)
  /-- UNKNOWN_COMMAND (R183). -/
  | unknownCommand (code : Byte) (b : Block)
  /-- READ_RESPONSE (R184). -/
  | readResponse (p : Portion)
  /-- POP_EVENT (R192). -/
  | popEvent (p : Portion)
  /-- STATUS (R187), code 10H. -/
  | cmdStatus (b : Block)
  /-- SETUP (R188), code 11H. -/
  | cmdSetup (b : Block)
  /-- OPEN (R90), code 12H. -/
  | cmdOpen (b : Block)
  /-- CLOSE (R93), code 13H. -/
  | cmdClose (b : Block)
  /-- PUT (R24), code 20H. -/
  | cmdPut (b : Block)
  /-- REMOVE (R27), code 21H. -/
  | cmdRemove (b : Block)
  /-- GET (R187), code 22H. -/
  | cmdGet (b : Block)
  /-- LIST (R187), code 23H. -/
  | cmdList (b : Block)
  /-- WATCH (R7), code 24H. -/
  | cmdWatch (b : Block)
  /-- FLUSH (R159), code 30H. -/
  | cmdFlush (b : Block)
  /-- FLUSH_COMPLETE (R159). -/
  | flushComplete
  /-- JOURNAL_INFO (R187), code 31H. -/
  | cmdJournalInfo (b : Block)
  /-- ROSTER (R187), code 40H. -/
  | cmdRoster (b : Block)
  /-- COUNTERS (R189), code 41H. -/
  | cmdCounters (b : Block)
  /-- FRAME_START (R72): the level of the line at the instant of starting. -/
  | frameStart (line : Level)
  /-- FRAME_COMPLETE (R62). -/
  | frameComplete
  /-- WITHDRAWAL (R76): the bit of the frame, its first start bit being 0. -/
  | withdrawal (bit : Nat)
  /-- DRIVE_FAULT (R77): the bit of the frame. -/
  | driveFault (bit : Nat)
  /-- PROBE_DUE (R82). -/
  | probeDue
  /-- PROBE_START (R82): the level of the line at the instant of starting. -/
  | probeStart (line : Level)
  /-- PROBE_COMPLETE (R83). -/
  | probeComplete
  /-- FRAME_RECEIVED (R64): all characters of the frame. -/
  | frameReceived (chars : List Byte)
  /-- FRAMING_ERROR (R59): the stop bit sampled dominant. -/
  | framingError (d : DominantStop)
  /-- FORMAT_ERROR (R59): the value of char 4. -/
  | formatError (char4 : Byte)
  /-- GAP_ERROR (R60): the quiet count at that instant. -/
  | gapError (quiet : Nat)
  /-- RECEIVER_IDLE (R58). -/
  | receiverIdle
  /-- STUCK_DECLARATION (R67). -/
  | stuckDeclaration
  /-- TAKE_FRAME (R65). -/
  | takeFrame
  /-- REPLY_TIMEOUT (R119). -/
  | replyTimeout
  /-- SUMMARY_TIMER_EXPIRY (R97). -/
  | summaryTimerExpiry
  /-- JOIN_WINDOW_EXPIRY (R91). -/
  | joinWindowExpiry
  /-- CLOSE_LIMIT_EXPIRY (R95). -/
  | closeLimitExpiry
  /-- PEER_LOST (R104): the station number. -/
  | peerLost (station : Nat)
  /-- PEER_ABSENT (R104): the station number. -/
  | peerAbsent (station : Nat)
  /-- APPEND (R143). -/
  | append
  /-- COPY (R150). -/
  | copy
  /-- ERASE (R152). -/
  | erase
  /-- PROGRAM_NOT_BUSY (R173): what the device made of the program or erase. -/
  | programNotBusy (left : DeviceLeft)
  /-- PROGRAM_VERIFY (R174). -/
  | programVerify
  /-- PROGRAM_TIMEOUT (R173): what the device made of the program. -/
  | programTimeout (left : DeviceLeft)
  /-- ERASE_CHECK (R174). -/
  | eraseCheck
  /-- ERASE_TIMEOUT (R173): what the device made of the erase. -/
  | eraseTimeout (left : DeviceLeft)
  /-- LREQ_ASSERTED (R176). -/
  | lreqAsserted
  /-- LEND_GRANT (R176). -/
  | lendGrant
  /-- LREQ_DEASSERTED (R177): what the host wrote to the device while it held the bus. -/
  | lreqDeasserted (host : List Host.Cell)
  /-- BUSY_CHECK_END (R177). -/
  | busyCheckEnd
  /-- BUSY_CHECK_TIMEOUT (R177). -/
  | busyCheckTimeout
  /-- HEADER_SURVEY (R164). -/
  | headerSurvey
  /-- BAND_WALK (R165). -/
  | bandWalk
  /-- START_BIT (R48): the change of the level on LRXD. -/
  | startBit (c : LineChange)
  /-- LOSS_OF_SUPPLY (R139): as for PIN_RESET. -/
  | lossOfSupply (left : DeviceLeft) (host : List Host.Cell)
deriving DecidableEq, Repr

end Sys2Proof
end

