-- ==== Sys2Proof/Decode.lean ====
section
/-! DEFINITION. From bits to commands. No row of spec/opcode_table.json has bits (every row's list of fields is empty and none has
a fixed pattern), so no word of the table spells a command. What the host clocks into the command port does: the first byte of a
transaction selects it (R180), and the first byte of a command block names its command (Table 11.3.1). Frames of the line are an
operand, and Machine/Operands.lean reads them. -/

namespace Sys2Proof

/-- No row of the table gives bits: there is no word to decode. -/
def decodeTableWord (_nbits _w : Nat) : Option Instr := none

/-! ### Bytes on the command port (R180) -/

/-- The bits of a byte as they pass on the command port, most significant bit first (R180). -/
def byteBits (b : Byte) : List Bool :=
  [b.getLsbD 7, b.getLsbD 6, b.getLsbD 5, b.getLsbD 4, b.getLsbD 3, b.getLsbD 2, b.getLsbD 1, b.getLsbD 0]

/-- The byte whose bits these are, most significant bit first (R180). -/
def byteOfBits (bits : List Bool) : Byte := bits.foldl (fun b x => (b <<< 1) ||| (if x then 1 else 0)) 0

/-- The whole bytes sampled on SMOSI, and how many bits of a byte not clocked out whole follow them (R180). -/
def sampledBytes : List Bool → List Byte × Nat
  | a :: b :: c :: d :: e :: f :: g :: h :: rest =>
    (byteOfBits [a, b, c, d, e, f, g, h] :: (sampledBytes rest).1, (sampledBytes rest).2)
  | part => ([], part.length)

/-! ### Transactions (R180) -/

/-- The transactions that the part knows (R180). -/
inductive TransactionKind where
  | sendCommand
  | readResponse
  | popEvent
  | readStatus
  | restart
deriving DecidableEq, Repr

/-- The transaction codes (R180). -/
def transactionTable : List (Byte × TransactionKind) :=
  [(0x01, .sendCommand), (0x02, .readResponse), (0x03, .popEvent), (0x04, .readStatus), (0x0E, .restart)]

/-- The transaction that a code byte selects; none for any other code (R180). -/
def transactionOf (code : Byte) : Option TransactionKind := transactionTable.lookup code

/-! ### Command blocks (R183, Table 11.3.1) -/

/-- The command codes (Table 11.3.1). -/
def commandTable : List (Byte × (Block → Instr)) :=
  [(0x10, .cmdStatus), (0x11, .cmdSetup), (0x12, .cmdOpen), (0x13, .cmdClose), (0x20, .cmdPut), (0x21, .cmdRemove),
    (0x22, .cmdGet), (0x23, .cmdList), (0x24, .cmdWatch), (0x30, .cmdFlush), (0x31, .cmdJournalInfo), (0x40, .cmdRoster),
    (0x41, .cmdCounters)]

/-- The command of a complete block with a command code; UNKNOWN_COMMAND for a code that Table 11.3.1 does not have (R183). -/
def commandOf (code : Byte) (b : Block) : Instr := ((commandTable.lookup code).getD (.unknownCommand code)) b

/-- The command of the bytes that follow the code of a SEND-COMMAND (R183, Table 11.2.1): a block is complete after 4 + n bytes, or
at a length byte n above 40, its check then not received; what follows it is counted only. Bytes that end before are an aborted
block. -/
def decodeBlock : List Byte → Instr
  | code :: tag :: len :: rest =>
    if 40 < len.toNat then commandOf code { tag := tag, len := len, params := [], check := 0, extra := rest.length }
    else if rest.length ≤ len.toNat then .commandBlockAborted (code :: tag :: len :: rest)
    else
      commandOf code
        { tag := tag, len := len, params := rest.take len.toNat, check := rest.getD len.toNat 0
          extra := rest.length - (len.toNat + 1) }
  | bytes => .commandBlockAborted bytes

/-- The command of a transaction from the bits sampled on SMOSI between the assertion of SSEL and its deassertion (R180): the first
byte, complete at its eighth bit, selects the transaction. Fewer than 8 bits select none, and only read the status byte as far as
they reach. -/
def decodeTransaction (bits : List Bool) : Instr :=
  match sampledBytes bits with
  | ([], _) => .readStatus (.clocked bits.length)
  | (code :: bytes, part) =>
    match transactionOf code with
    | some .sendCommand => decodeBlock bytes
    | some .readResponse => .readResponse (.whole bytes.length)
    | some .popEvent => .popEvent (.whole bytes.length)
    | some .readStatus => .readStatus (.clocked bits.length)
    | some .restart => .restart (8 * bytes.length + part)
    | none => .otherTransactionCode { code := code, extra := bytes.length }

end Sys2Proof
end

