-- ==== Sys2Proof/Config.lean ====
section
/-! DEFINITION. What the manual fixes for every NK410: capacities, limits and times. The manual leaves no value for an
implementation to choose and no result undefined after which the part goes on, so there is no free value here. -/

namespace Sys2Proof.Config

/-- Entries of the Parameter Table (R3). -/
def maxEntries : Nat := 512
/-- Slots of the slot pool (R9). -/
def maxSlots : Nat := 256
/-- The longest value held inline (R8). -/
def inlineLength : Nat := 8
/-- The longest value (R8). -/
def maxLength : Nat := 32
/-- The highest valid id, 0FFEH (R4). -/
def maxId : Nat := 4094
/-- The highest generation and band sequence, FFFFFFFEH (R11, R131). -/
def maxGeneration : Nat := 0xFFFFFFFE
/-- Where a 32-bit counter or count stops (R132, R164, R171, R193). -/
def countLimit : Nat := 0xFFFFFFFF
/-- Buckets (R4). -/
def buckets : Nat := 64
/-- Ids of the journal queue (R142). -/
def maxQueue : Nat := 64
/-- Frames of the receive buffer (R64). -/
def maxFrames : Nat := 4
/-- Requests of the reply queue (R123). -/
def maxRequests : Nat := 4
/-- Buckets one repair session asks for (R110). -/
def sessionBuckets : Nat := 8
/-- Ids of the want list (R116). -/
def maxWant : Nat := 32
/-- Records of one UPDATE, and the bytes they may take (R42). -/
def maxRecords : Nat := 4
def maxRecordBytes : Nat := 159
/-- Quads of one LISTING (R126). -/
def maxQuads : Nat := 16
/-- Failures after which a peer is no candidate (R109). -/
def maxFailures : Nat := 3
/-- Bytes of a band, and of its header (R130, R131). -/
def bandBytes : Nat := 4096
def headerBytes : Nat := 16
/-- Bytes of records a band can hold (R131). -/
def bandRoom : Nat := 4080
/-- Bytes of a page (R139). -/
def pageBytes : Nat := 256
/-- Fewest usable bands (R155). -/
def minUsable : Nat := 8
/-- ERASED rows at or below which compaction runs (R149). -/
def compactAt : Nat := 2
/-- Events the notify queue takes before the LOST marker (R191). -/
def maxEvents : Nat := 31
/-- Where the count of a LOST marker stops (R191). -/
def maxLost : Nat := 0xFFFF
/-- Program timeout in milliseconds (R173). -/
def programLimit : Nat := 5
/-- Erase timeout and busy check limit in milliseconds (R173, R177). -/
def eraseLimit : Nat := 500
/-- Where the quiet count stops (R49). -/
def quietLimit : Nat := 255
/-- The quiet count at which the receiver leaves SEEKING (R58). -/
def idleQuiet : Nat := 10
/-- The stuck count at which the line is declared stuck (R67). -/
def stuckLimit : Nat := 200
/-- The probe gap (R82). -/
def probeGap : Nat := 36
/-- The longest recovery wait in seconds (R83). -/
def maxWait : Nat := 16
/-- SETUP defaults (R160). -/
def defaultInterval : Nat := 20
def defaultTimeout : Nat := 64

end Sys2Proof.Config
end

