-- ==== Sys2Proof/Machine/State.lean ====
section
/-! DEFINITION. The state of the part as plain data, block by block (Fig. 0.3.1), and the state after reset (Table 9.1.1). -/

namespace Sys2Proof.Machine

/-! ### Parameter Table -/

/-- R5. -/
inductive Scope where
  | shared
  | loc
deriving DecidableEq, Repr

/-- How an entry stands with the journal (Table 1.2.1, R157). -/
inductive JState where
  | clean
  | queued
  | unsaved
deriving DecidableEq, Repr

/-- Dirty-from (R25). -/
inductive Dirty where
  | none
  | from_ (i : Nat)
  | whole
deriving DecidableEq, Repr

/-- The send mark (R28, R40). -/
inductive Mark where
  | none
  | new
  | push
deriving DecidableEq, Repr

/-- The version of an entry, a record or a quad (R11). -/
structure Version where
  gen    : Nat
  origin : Nat
  check  : Half
deriving DecidableEq, Repr

/-- One entry (Table 1.2.1); its length is the length of `value`. -/
structure Entry where
  id     : Nat
  scope  : Scope
  ver    : Version
  value  : List Byte
  slot   : Option Nat
  jstate : JState
  base   : Option Nat
  dirty  : Dirty
  mark   : Mark
  watch  : Bool
deriving DecidableEq, Repr

/-- The Parameter Table (R3, R15, R18, R19); a slot is in use when an entry names it (R9). -/
structure ParamTable where
  entries     : List Entry
  h           : Nat
  digests     : List Half
  entryCount  : Nat
  sharedCount : Nat
  slotsUsed   : Nat
deriving DecidableEq, Repr

/-! ### Replication Engine -/

/-- R99, R104. -/
inductive Presence where
  | absent
  | present
  | silent
deriving DecidableEq, Repr

/-- R102. -/
inductive Agreement where
  | unknown
  | agree
  | disagree
deriving DecidableEq, Repr

/-- One roster entry (Table 5.6.1). -/
structure Peer where
  presence  : Presence
  lastHeard : Option Nat
  interval  : Option Nat
  h         : Nat
  count     : Nat
  joining   : Bool
  agreement : Agreement
  mask      : BucketSet
  wanted    : Bool
  failures  : Nat
deriving DecidableEq, Repr

/-- The cleared values of Table 5.6.1. -/
def Peer.cleared : Peer :=
  { presence := .absent, lastHeard := none, interval := none, h := 0, count := 0, joining := false,
    agreement := .unknown, mask := 0, wanted := false, failures := 0 }

/-- R108. -/
inductive SessionState where
  | idle
  | awaitListing
  | awaitUpdates
deriving DecidableEq, Repr

/-- The repair session (Table 6.1.1). `raised`: the request is RAISED, otherwise SENT; `timer` counts tB of quiet line, 10 to a
tC (R112); `pos` is the place of the expected bucket in `buckets`. -/
structure Session where
  state   : SessionState
  peer    : Nat
  buckets : List Nat
  raised  : Bool
  reqSeq  : Byte
  attempt : Nat
  timer   : Nat
  pos     : Nat
  part    : Nat
  cursor  : Option Nat
  want    : List Nat
  more    : Bool
deriving DecidableEq, Repr

/-- IDLE with every other field cleared (R108). -/
def Session.cleared : Session :=
  { state := .idle, peer := 0, buckets := [], raised := false, reqSeq := 0, attempt := 1, timer := 0, pos := 0, part := 0,
    cursor := none, want := [], more := false }

/-- What a queued request asks for and how far it is served (Table 6.5.1): a listing's buckets with the place of the cursor's
bucket, the part index and the last id; a fetch's ids with the number consumed. -/
inductive Work where
  | listing (buckets : List Nat) (pos part : Nat) (last : Option Nat)
  | fetch (ids : List Nat) (consumed : Nat)
deriving DecidableEq, Repr

/-- A request of the reply queue (Table 6.5.1). `completed`: a frame of it has completed; it is served when this is set or a
frame of it is in flight. -/
structure Request where
  requester : Nat
  seq       : Byte
  work      : Work
  completed : Bool
deriving DecidableEq, Repr

/-- The Replication Engine. -/
structure Replication where
  outbound     : List Nat
  rxBuffer     : List (List Byte)
  session      : Session
  replyQueue   : List Request
  roster       : List Peer
  seq          : Byte
  summaryTimer : Option Nat
deriving DecidableEq, Repr

/-! ### Station Controller -/

/-- R85. -/
inductive Station where
  | replay
  | held
  | joining
  | active
  | muted
  | closing
deriving DecidableEq, Repr

/-- The Station Controller; a timer is `none` when stopped. -/
structure StationCtl where
  station    : Station
  joinWindow : Option Nat
  closeLimit : Option Nat
  converged  : Bool
deriving DecidableEq, Repr

/-! ### Line Interface -/

/-- R69, R71. -/
inductive GapClass where
  | a
  | b
  | c
deriving DecidableEq, Repr

/-- A packed id of an UPDATE in flight: the mark it carried and the version its record carried (R41). -/
structure Packed where
  id   : Nat
  mark : Mark
  ver  : Version
deriving DecidableEq, Repr

/-- What the end of a frame in flight acts on. `update`: the packed ids (R41). `request awaited`: a LISTING-REQUEST or FETCH,
and whether the session still awaits its completion (R122). `reply forHead ends moved`: a frame of the request at the head of
the reply queue if `forHead`; its END flag; the work with its cursor moved past the frame (R125). -/
inductive Cargo where
  | update (packed : List Packed)
  | summary
  | request (awaited : Bool)
  | reply (forHead ends : Bool) (moved : Work)
  | leave
deriving DecidableEq, Repr

/-- The frame this station is sending: its characters, the whole tB since its first bit, its class, whether it is a probe. -/
structure Flight where
  chars   : List Byte
  elapsed : Nat
  cls     : GapClass
  probe   : Bool
  cargo   : Cargo
deriving DecidableEq, Repr

/-- The receiver (Table 3.4.1); `receiving own elapsed`: the own mark (R62) and the whole tB since the frame's first start
bit. -/
inductive Receiver where
  | off
  | seeking
  | idle
  | receiving (own : Bool) (elapsed : Nat)
deriving DecidableEq, Repr

/-- The Line Interface. -/
structure LineIf where
  receiver      : Receiver
  quiet         : Nat
  stuck         : Nat
  stuckDeclared : Bool
  line          : Level
  flight        : Option Flight
deriving DecidableEq, Repr

/-! ### Access Control -/

/-- R69, R80. -/
inductive Cause where
  | none
  | drive
  | stuck
  | duplicate
deriving DecidableEq, Repr

/-- The state held on entering MUTED (R80). -/
inductive Prior where
  | joining
  | active
deriving DecidableEq, Repr

/-- Access Control (R69); the demands that follow a collection are computed from it. -/
structure AccessCtl where
  summaryDue : Bool
  leaveDue   : Bool
  rest       : Bool
  wait       : Nat
  recovery   : Option Nat
  probeDue   : Bool
  mutedCause : Cause
  prior      : Prior
deriving DecidableEq, Repr

/-! ### Journal Controller -/

/-- An id of the journal queue, with its delete flag (R142). -/
structure QItem where
  id  : Nat
  del : Bool
deriving DecidableEq, Repr

/-- R134. -/
inductive BandState where
  | erased
  | open_
  | full
  | retiring
  | bad
deriving DecidableEq, Repr

/-- A row of the band table (R134). A row held RETIRING until a replay erase has no sequence (R164). -/
structure BandRow where
  state : BandState
  seq   : Option Nat
  live  : Nat
deriving DecidableEq, Repr

/-- The head band and the head position (R138, R141). -/
structure Head where
  band : Nat
  pos  : Nat
deriving DecidableEq, Repr

/-- Compaction (R141, R149, R150): the RETIRING band and the copy cursor. -/
inductive Compaction where
  | idle
  | retiring (band : Nat) (cursor : Option Nat)
deriving DecidableEq, Repr

/-- R148. -/
inductive Side where
  | append
  | compaction
deriving DecidableEq, Repr

/-- The record kinds of R136. -/
inductive RecKind where
  | full
  | tail (offset : Nat)
  | tombShared
  | tombLocal
deriving DecidableEq, Repr

/-- An append or copy in progress (R141): the id, the kind and bytes of its record, its changed-during-write flag, and whether
the entry the record was built from has been deleted since (R144, R151). -/
structure WriteJob where
  side    : Side
  id      : Nat
  kind    : RecKind
  bytes   : List Byte
  changed : Bool
  gone    : Bool
deriving DecidableEq, Repr

/-- The job in progress (R148). -/
inductive Job where
  | write (w : WriteJob)
  | erase (band : Nat)
deriving DecidableEq, Repr

/-- What a program is for: the two programs of a close before an opening (R132), a band header (R131), the one or two programs
of a record (R139), the void and the close of R153, and the closes of R169. -/
inductive Purpose where
  | closeLength
  | closeMark
  | header
  | recordFirst
  | recordSecond
  | voidKind
  | forcedLength
  | forcedMark
  | replayLength
  | replayMark
deriving DecidableEq, Repr

/-- One program: what it is for, its band, the offset in the band and the bytes sent (R172). -/
structure Prog where
  purpose : Purpose
  band    : Nat
  offset  : Nat
  data    : List Byte
deriving DecidableEq, Repr

/-- How the walk of a band ended (Table 9.4.1). -/
inductive WalkEnd where
  | consumed
  | noRecord
  | bandEnd
  | voided
  | unreadable
deriving DecidableEq, Repr

/-- Where and how the walk of a band ended, kept for R169. -/
structure WalkNote where
  band   : Nat
  offset : Nat
  end_   : WalkEnd
deriving DecidableEq, Repr

/-- What replay does (R163 to R169): waits for the busy check or a lend before it starts; surveys headers, the next index;
walks bands, those to come; closes bands, those to come with the offset of their end. -/
inductive ReplayPhase where
  | starting
  | survey (next : Nat)
  | walk (todo : List Nat)
  | closing (todo : List (Nat × Nat))
deriving DecidableEq, Repr

/-- Replay in progress: what it does, the close lengths of the FULL bands surveyed, by band, and the ends of the walks so far.
-/
structure Replay where
  phase : ReplayPhase
  lens  : List (Nat × Nat)
  ends  : List WalkNote
deriving DecidableEq, Repr

/-- The Journal Controller (R141). `fault`: the condition is FAULT. `held`: an append whose rewrite the reserve holds back
(R153). `next`: the program the job goes on with at its lend point (R175). -/
structure Journal where
  queue      : List QItem
  bands      : List BandRow
  head       : Option Head
  lastSeq    : Nat
  compaction : Compaction
  fault      : Bool
  failCount  : Nat
  job        : Option Job
  held       : Option WriteJob
  next       : Option Prog
  stranded   : Nat
  anomalies  : Nat
  toErase    : List Nat
  lastSide   : Option Side
  unbased    : List Nat
  chooseHeld : Bool
  replay     : Option Replay
deriving DecidableEq, Repr

/-! ### Storage Port -/

/-- A program or erase: `busy`, the device is polled and the write window is open; `ready`, no longer busy and not yet
verified, a lend point; `verify`, the verification or check read is in progress (R173 to R175). -/
inductive Stage where
  | busy
  | ready
  | verify
deriving DecidableEq, Repr

/-- The flash command in progress (R171, R172); `read` is the reading of one band by replay (R175). -/
inductive SpCmd where
  | none
  | read
  | program (p : Prog) (stage : Stage)
  | erase (band : Nat) (stage : Stage)
deriving DecidableEq, Repr

/-- A busy check (R163, R177). -/
inductive Check where
  | none
  | startUp
  | returning
deriving DecidableEq, Repr

/-- R176. -/
inductive Lend where
  | idle
  | waiting
  | granted
  | returning
deriving DecidableEq, Repr

/-- The Storage Port (R171); `poll`: milliseconds since polling began; `lreq`: LREQ is asserted. -/
structure StoragePort where
  cmd       : SpCmd
  poll      : Option Nat
  check     : Check
  lend      : Lend
  lendCount : Nat
  lreq      : Bool
deriving DecidableEq, Repr

/-! ### Command Port -/

/-- The events of Table 11.4.1. -/
inductive EventKind where
  | remoteChange
  | peerJoined
  | peerLost
  | peerLeft
  | converged
  | diverged
  | lineMuted
  | lineRestored
  | duplicateStation
  | journalFault
  | unsaved
  | tableFull
  | lost
deriving DecidableEq, Repr

/-- An event and its parameter (Table 11.4.1). -/
structure Event where
  kind  : EventKind
  param : Nat
deriving DecidableEq, Repr

/-- The results of Table 11.3.2. -/
inductive Result where
  | done
  | same
  | part
  | refusedState
  | refusedId
  | refusedLength
  | refusedScope
  | refusedTableFull
  | refusedNoSlot
  | refusedGeneration
  | refusedNoStation
  | notFound
  | failedStorage
  | badBlock
  | unknownCommand
deriving DecidableEq, Repr

/-- A response (Table 11.2.2). -/
structure Response where
  code   : Byte
  tag    : Byte
  result : Result
  data   : List Byte
deriving DecidableEq, Repr

/-- The command slot (R183). -/
inductive Slot where
  | empty
  | executing (code tag : Byte)
  | done (r : Response)
deriving DecidableEq, Repr

/-- SETUP values (R188). -/
structure Setup where
  interval     : Nat
  replyTimeout : Nat
  watchNew     : Bool
deriving DecidableEq, Repr

/-- The defaults of R160. -/
def Setup.defaults : Setup :=
  { interval := Config.defaultInterval, replyTimeout := Config.defaultTimeout, watchNew := false }

/-- The 16 counters in the order of Table 11.5.1. -/
structure Counters where
  framesSent       : Nat
  framesReceived   : Nat
  checkErrors      : Nat
  framingErrors    : Nat
  formatErrors     : Nat
  overruns         : Nat
  contentionLosses : Nat
  updatesApplied   : Nat
  updatesStale     : Nat
  versionConflicts : Nat
  scopeConflicts   : Nat
  capacityDrops    : Nat
  replyDrops       : Nat
  recordsWritten   : Nat
  programFailures  : Nat
  bandsErased      : Nat
deriving DecidableEq, Repr

/-- All counters 0 (R193). -/
def Counters.zero : Counters :=
  { framesSent := 0, framesReceived := 0, checkErrors := 0, framingErrors := 0, formatErrors := 0, overruns := 0,
    contentionLosses := 0, updatesApplied := 0, updatesStale := 0, versionConflicts := 0, scopeConflicts := 0,
    capacityDrops := 0, replyDrops := 0, recordsWritten := 0, programFailures := 0, bandsErased := 0 }

/-- A transaction in progress, with the status byte taken at the assertion of SSEL (R180). `selected`: nothing of it has been
clocked. `read` and `pop`: the code byte is complete, and the content is fixed and still being clocked; `read none` returns the
no-response block, `pop none` the empty marker (R184, R192). -/
inductive Transaction where
  | selected (status : Byte)
  | read (status : Byte) (r : Option Response)
  | pop (status : Byte) (e : Option Event)
deriving DecidableEq, Repr

/-- The Command Port. `restarting`: a RESTART waits (R161). `smiso`: the bytes returned in the last transaction. -/
structure CommandPort where
  slot         : Slot
  notify       : List Event
  rejected     : Bool
  restarting   : Bool
  setup        : Setup
  setupAllowed : Bool
  counters     : Counters
  transaction  : Option Transaction
  smiso        : List Byte
deriving DecidableEq, Repr

/-! ### The whole part -/

/-- Whether the part runs: RSTN high, RSTN low (R160), or without supply (R139). -/
inductive Power where
  | running
  | inReset
  | off
deriving DecidableEq, Repr

/-- The tick time in milliseconds and the microseconds into the present tick (0.3, 0.6). -/
structure Clock where
  now : Nat
  us  : Nat
deriving DecidableEq, Repr

/-- The state: the eight blocks, the time base, the straps as sampled, the content of the attached flash device, and the
commands that wait. -/
structure State where
  power   : Power
  straps  : Straps
  clk     : Clock
  pt      : ParamTable
  re      : Replication
  sc      : StationCtl
  li      : LineIf
  ac      : AccessCtl
  jc      : Journal
  sp      : StoragePort
  cp      : CommandPort
  flash   : List Host.Cell
  pending : List Instr
deriving DecidableEq, Repr

/-- Why the machine stops: the manual stops the part nowhere, so there is no fault (notes/assumptions/25.md). -/
inductive Fault
deriving DecidableEq, Repr

/-- Why a command has no meaning. -/
inductive Refusal where
  /-- A command that is not modelled yet, by its mnemonic. No arm of exec answers it. Safe. -/
  | notModelled (mnemonic : String)
deriving DecidableEq, Repr

/-! ### Reset (Table 9.1.1) -/

def ParamTable.reset : ParamTable :=
  { entries := [], h := 0, digests := List.replicate Config.buckets 0, entryCount := 0, sharedCount := 0, slotsUsed := 0 }

def Replication.reset : Replication :=
  { outbound := [], rxBuffer := [], session := .cleared, replyQueue := [], roster := List.replicate 31 .cleared, seq := 0,
    summaryTimer := none }

def StationCtl.reset : StationCtl :=
  { station := .replay, joinWindow := none, closeLimit := none, converged := false }

def LineIf.reset : LineIf :=
  { receiver := .off, quiet := 0, stuck := 0, stuckDeclared := false, line := .recessive, flight := none }

def AccessCtl.reset : AccessCtl :=
  { summaryDue := false, leaveDue := false, rest := false, wait := 1, recovery := none, probeDue := false,
    mutedCause := .none, prior := .joining }

def Journal.reset : Journal :=
  { queue := [], bands := [], head := none, lastSeq := 0, compaction := .idle, fault := false, failCount := 0, job := none,
    held := none, next := none, stranded := 0, anomalies := 0, toErase := [], lastSide := none, unbased := [],
    chooseHeld := false, replay := some { phase := .starting, lens := [], ends := [] } }

def StoragePort.reset : StoragePort :=
  { cmd := .none, poll := none, check := .none, lend := .idle, lendCount := 0, lreq := false }

def CommandPort.reset : CommandPort :=
  { slot := .empty, notify := [], rejected := false, restarting := false, setup := .defaults, setupAllowed := true,
    counters := .zero, transaction := none, smiso := [] }

/-- The part as a pin reset leaves it, RSTN still low (R160); nothing has been sampled from the straps yet, and nothing is
listed in flash (notes/assumptions/4.md, 5.md, 6.md). -/
def State.reset : State :=
  { power := .inReset, straps := { sn := 0, lr := 0, bc := 0 }, clk := { now := 0, us := 0 }, pt := .reset, re := .reset,
    sc := .reset, li := .reset, ac := .reset, jc := .reset, sp := .reset, cp := .reset, flash := [], pending := [] }

end Sys2Proof.Machine
end

