-- ==== Sys2Proof/Machine/Ops.lean ====
section
/-! DEFINITION. The operations every block uses: byte order, CRC-16, saturating counts, the content of the flash device, the
straps' values, the bits of a frame, and the passing of line time and of milliseconds. -/

namespace Sys2Proof.Machine

/-! ### Bytes and checks (R1, R2) -/

/-- A two-byte field, low byte first (R1). -/
def le16 (n : Nat) : List Byte := [BitVec.ofNat 8 n, BitVec.ofNat 8 (n / 256)]

/-- A four-byte field, low byte first (R1). -/
def le32 (n : Nat) : List Byte := le16 n ++ le16 (n / 65536)

/-- The number a field of bytes holds, low byte first (R1). -/
def leNat : List Byte → Nat
  | [] => 0
  | b :: bs => b.toNat + 256 * leNat bs

/-- The bytes of a field at an offset. -/
def field (bs : List Byte) (off n : Nat) : List Byte := (bs.drop off).take n

/-- The number of a field at an offset, low byte first (R1). -/
def num (bs : List Byte) (off n : Nat) : Nat := leNat (field bs off n)

/-- One bit of the CRC-16, generator 1021H (R2). -/
def crcBit (c : Half) : Half := if c.msb then (c <<< 1) ^^^ 0x1021#16 else c <<< 1

/-- One byte of the CRC-16, most significant bit first (R2). -/
def crcByte (c : Half) (b : Byte) : Half :=
  crcBit (crcBit (crcBit (crcBit (crcBit (crcBit (crcBit (crcBit (c ^^^ (b.zeroExtend 16 <<< 8)))))))))

/-- CRC-16 of a sequence of bytes: initial value FFFFH, no final inversion (R2). -/
def crc16 (bs : List Byte) : Half := bs.foldl crcByte 0xFFFF#16

/-- The value check: the CRC-16 of the value bytes, 0000H for a tombstone (R11). -/
def valueCheck (value : List Byte) : Half := if value.isEmpty then 0 else crc16 value

/-- The sum of bytes modulo 256 (R183). -/
def byteSum (bs : List Byte) : Byte := bs.foldl (· + ·) 0

/-- A count that rises by `k` and stops at `limit`. -/
def satAdd (limit n k : Nat) : Nat := min limit (n + k)

/-- A 32-bit counter or count that rises by one and stops at FFFFFFFFH (R132, R164, R171, R193). -/
def satInc (n : Nat) : Nat := satAdd Config.countLimit n 1

/-- The buckets of a set in ascending order. -/
def bucketList (m : BucketSet) : List Nat := (List.range Config.buckets).filter fun b => m.getLsbD b

/-- The set of the buckets of a list. -/
def bucketSet (l : List Nat) : BucketSet := l.foldl (fun m b => m ||| (1#64 <<< b)) 0

/-- A bucket set as 8 bytes: bucket b in bit b mod 8 of byte b div 8 (R57). -/
def bucketBytes (m : BucketSet) : List Byte := (List.range 8).map fun i => (m >>> (8 * i)).setWidth 8

/-- The bucket set of 8 bytes (R57). -/
def bucketSetOf (bs : List Byte) : BucketSet := BitVec.ofNat 64 (leNat bs)

/-! ### Straps (R162, Tables 3.1.1 and 9.1.2) -/

/-- The station number. -/
def stationNumber (st : Straps) : Nat := st.sn.toNat

/-- The bit time tB in microseconds: 16, 8, 4, 2 (R46). -/
def bitTime (st : Straps) : Nat := 16 / 2 ^ st.lr.toNat

/-- The band count N: 16, 32, 64, 128 (R130). -/
def bandCount (st : Straps) : Nat := 16 * 2 ^ st.bc.toNat

/-! ### The flash device (chapter 7, R171) -/

/-- What a byte of the device reads when nothing lists it: erased (notes/assumptions/6.md). -/
def erasedByte : Byte := 0xFF

/-- The canonical form of the device's content: addresses strictly rising, no listed byte equal to an erased one. -/
abbrev Flash.wf (f : List Host.Cell) : Prop :=
  f.Pairwise (fun c d => c.1 < d.1) ∧ ∀ c ∈ f, c.2 ≠ erasedByte

/-- One byte of the device. -/
def Flash.byte : List Host.Cell → Nat → Byte
  | [], _ => erasedByte
  | c :: f, a => if c.1 = a then c.2 else Flash.byte f a

/-- Sets one byte of the device, keeping the canonical form. -/
def Flash.set : List Host.Cell → Nat → Byte → List Host.Cell
  | [], a, v => if v = erasedByte then [] else [(a, v)]
  | c :: f, a, v =>
    if a < c.1 then (if v = erasedByte then c :: f else (a, v) :: c :: f)
    else if a = c.1 then (if v = erasedByte then f else (a, v) :: f)
    else c :: Flash.set f a v

/-- `n` bytes of the device from an address. -/
def Flash.read (f : List Host.Cell) (a n : Nat) : List Byte := (List.range n).map fun i => Flash.byte f (a + i)

/-- Programs bytes at an address: programming only turns 1 bits into 0 bits (chapter 7). -/
def Flash.and : List Host.Cell → Nat → List Byte → List Host.Cell
  | f, _, [] => f
  | f, a, b :: bs => Flash.and (Flash.set f a (Flash.byte f a &&& b)) (a + 1) bs

/-- The bytes that a program lands in the device (notes/assumptions/7.md). -/
def landed (data : List Byte) : DeviceLeft → List Byte
  | .whole => data
  | .part l => (List.range data.length).map fun i => l.getD i 0xFF

/-- What a program of `data` at an address leaves (R172). -/
def Flash.program (f : List Host.Cell) (a : Nat) (data : List Byte) (left : DeviceLeft) : List Host.Cell :=
  Flash.and f a (landed data left)

/-- A cell of a band under erase: gone when erased whole; otherwise with some more of its bits 1 (notes/assumptions/7.md). -/
def erasedCell (base : Nat) (left : DeviceLeft) (c : Host.Cell) : Option Host.Cell :=
  if base ≤ c.1 ∧ c.1 < base + Config.bandBytes then
    match left with
    | .whole => none
    | .part l =>
      let v := c.2 ||| l.getD (c.1 - base) 0
      if v = erasedByte then none else some (c.1, v)
  else some c

/-- What an erase of the 4096 bytes from an address leaves (R172). -/
def Flash.erase (f : List Host.Cell) (base : Nat) (left : DeviceLeft) : List Host.Cell :=
  f.filterMap (erasedCell base left)

/-- What the host leaves in the device, at any address (R179). -/
def Flash.hostWrite (f host : List Host.Cell) : List Host.Cell :=
  host.foldl (fun f c => Flash.set f c.1 c.2) f

/-- The address of an offset in a band (R130). -/
def bandAddress (band off : Nat) : Nat := band * Config.bandBytes + off

/-! ### The bits of a frame (R45, R47) -/

/-- The bits of a character as sent: start bit 0, data bits least significant first, stop bit 1. -/
def charBits (c : Byte) : List Bool :=
  [false, c.getLsbD 0, c.getLsbD 1, c.getLsbD 2, c.getLsbD 3, c.getLsbD 4, c.getLsbD 5, c.getLsbD 6, c.getLsbD 7, true]

/-- The bits of a frame, characters back to back; `true` is recessive (R47). -/
def frameBits (chars : List Byte) : List Bool := chars.flatMap charBits

/-- The recessive bits at the end of a character's data, highest bit first: how long the line has been recessive when its stop
bit begins (notes/assumptions/10.md). -/
def trailingRecessive (c : Byte) : Nat :=
  ([c.getLsbD 7, c.getLsbD 6, c.getLsbD 5, c.getLsbD 4, c.getLsbD 3, c.getLsbD 2, c.getLsbD 1, c.getLsbD 0].takeWhile id).length

/-- The quiet count after a run of bits (R49). -/
def quietAfter (quiet : Nat) (bits : List Bool) : Nat :=
  bits.foldl (fun q b => if b then satAdd Config.quietLimit q 1 else 0) quiet

/-! ### Time (0.6, R49, R67, R112) -/

/-- A running timer rises by `ms`. -/
def tickTimer (t : Option Nat) (ms : Nat) : Option Nat := t.map (· + ms)

/-- The receiver is taking in a frame (R112). -/
def Receiver.busy : Receiver → Bool
  | .receiving _ _ => true
  | _ => false

/-- The quiet count and the stuck count over `n` whole tB of the level on LRXD, which is the one last told (R49, R67,
notes/assumptions/9.md). -/
def LineIf.counts (li : LineIf) (n : Nat) : LineIf :=
  match li.line with
  | .recessive => { li with quiet := satAdd Config.quietLimit li.quiet n, stuck := 0 }
  | .dominant => { li with quiet := 0, stuck := li.stuck + n }

/-- The level on LRXD changes (R49, R67): a dominant level ends the quiet count, a recessive one the stuck count. -/
def LineIf.change (li : LineIf) : LineChange → LineIf
  | .start => { li with quiet := 0, stuck := 0, stuckDeclared := false, line := .dominant }
  | .noise => { li with quiet := 0, stuck := 0, stuckDeclared := false, line := .recessive }
  | .release =>
    { li with
      quiet := match li.line with
        | .recessive => li.quiet
        | .dominant => 0
      stuck := 0, stuckDeclared := false, line := .recessive }

/-- The stuck count of a line known to have been dominant for `run` whole tB without a break (R67). The run began no earlier than
the level last told: a dominant level told, or the release of LTXD by a station that withdrew, from which the stuck count runs; or
a recessive level told, from which the quiet count runs. So nothing that this station drove is counted. -/
def LineIf.dominantRun (li : LineIf) (run : Nat) : Nat :=
  match li.line with
  | .dominant => min run li.stuck
  | .recessive => min run li.quiet

/-- The Line Interface over `n` whole tB (R49, R67). While this station sends, the line carries its bits; at every other time
while the Line Interface is on, within another station's frame as between frames, the counts follow the level on LRXD. -/
def LineIf.pass (li : LineIf) (n : Nat) : LineIf :=
  match li.receiver with
  | .off => li
  | .receiving true e =>
    match li.flight with
    | some f =>
      { li with
        receiver := .receiving true (e + n)
        quiet := quietAfter li.quiet (((frameBits f.chars).drop f.elapsed).take n)
        flight := some { f with elapsed := f.elapsed + n } }
    | none => { li with receiver := .receiving true (e + n) }
  | .receiving false e => { li.counts n with receiver := .receiving false (e + n) }
  | .seeking | .idle => li.counts n

/-- The reply timer over `n` tB: it runs while the request is SENT and the receiver takes in no frame (R112). The parts of a tC
on the two sides of a frame are added together (notes/assumptions/36.md). -/
def Session.pass (se : Session) (busy : Bool) (n : Nat) : Session :=
  if se.state = .idle ∨ se.raised = true ∨ busy = true then se else { se with timer := se.timer + n }

/-- `n` whole tB pass: line counts, the reply timer, and the milliseconds that end in that time with every timer on the tick
(0.6). In reset and without supply nothing runs (R160). -/
def State.passLine (s : State) (n : Nat) : State :=
  if s.power = .running then
    let us := s.clk.us + n * bitTime s.straps
    let ms := us / 1000
    { s with
      clk := { now := s.clk.now + ms, us := us % 1000 }
      re := { s.re with
        session := s.re.session.pass s.li.receiver.busy n
        summaryTimer := tickTimer s.re.summaryTimer ms }
      sc := { s.sc with joinWindow := tickTimer s.sc.joinWindow ms, closeLimit := tickTimer s.sc.closeLimit ms }
      li := s.li.pass n
      ac := { s.ac with recovery := tickTimer s.ac.recovery ms }
      sp := { s.sp with poll := tickTimer s.sp.poll ms } }
  else s

/-- The fewest tB in which `ms` more milliseconds end. -/
def State.lineTimeOf (s : State) (ms : Nat) : Nat :=
  (ms * 1000 - s.clk.us + (bitTime s.straps - 1)) / bitTime s.straps

/-- `ms` milliseconds end (notes/assumptions/3.md). -/
def State.passMs (s : State) (ms : Nat) : State := if ms = 0 then s else s.passLine (s.lineTimeOf ms)

/-- Time passes until a timer that reads `t` reads `limit`; none when it already does. -/
def State.passUntil (s : State) (t limit : Nat) : State := s.passMs (limit - t)

/-! ### Outcomes -/

/-- The command is no event of the part in this state: nothing happens (notes/assumptions/1.md). -/
def noEvent (s : State) : Host.Outcome State Fault Refusal := .next s

/-- A step of the running part; in reset and without supply the part does nothing (R160). -/
def whenRunning (s : State) (k : State → State) : Host.Outcome State Fault Refusal :=
  if s.power = .running then .next (k s) else noEvent s

end Sys2Proof.Machine
end

