-- ==== Sys2Proof/Machine/Flags.lean ====
section
/-! DEFINITION. Status, flags and reports: the codes of states, results and events, the status byte and ATN, the notify queue,
the counters, and the converged flag. -/

namespace Sys2Proof.Machine

/-! ### Codes -/

/-- Table 5.1.1. -/
def Station.code : Station → Nat
  | .replay => 0
  | .held => 1
  | .joining => 2
  | .active => 3
  | .muted => 4
  | .closing => 5

/-- Table 11.3.2. -/
def Result.code : Result → Byte
  | .done => 0x00
  | .same => 0x01
  | .part => 0x02
  | .refusedState => 0x10
  | .refusedId => 0x11
  | .refusedLength => 0x12
  | .refusedScope => 0x13
  | .refusedTableFull => 0x14
  | .refusedNoSlot => 0x15
  | .refusedGeneration => 0x16
  | .refusedNoStation => 0x17
  | .notFound => 0x20
  | .failedStorage => 0x30
  | .badBlock => 0x40
  | .unknownCommand => 0x41

/-- Table 11.4.1. -/
def EventKind.code : EventKind → Byte
  | .remoteChange => 0x01
  | .peerJoined => 0x02
  | .peerLost => 0x03
  | .peerLeft => 0x04
  | .converged => 0x05
  | .diverged => 0x06
  | .lineMuted => 0x07
  | .lineRestored => 0x08
  | .duplicateStation => 0x09
  | .journalFault => 0x0A
  | .unsaved => 0x0B
  | .tableFull => 0x0C
  | .lost => 0x0F

/-- The muted cause of STATUS and of LINE-MUTED (Tables 11.3.1, 11.4.1). -/
def Cause.code : Cause → Nat
  | .none => 0
  | .drive => 1
  | .stuck => 2
  | .duplicate => 3

/-- Table 11.3.1, GET. -/
def JState.code : JState → Nat
  | .clean => 0
  | .queued => 1
  | .unsaved => 2

/-- Table 11.3.1, GET and PUT. -/
def Scope.code : Scope → Nat
  | .shared => 0
  | .loc => 1

/-- Table 11.3.1, ROSTER. -/
def Presence.code : Presence → Nat
  | .absent => 0
  | .present => 1
  | .silent => 2

/-- Table 11.3.1, ROSTER. -/
def Agreement.code : Agreement → Nat
  | .unknown => 0
  | .agree => 1
  | .disagree => 2

/-- Table 11.3.1, JOURNAL-INFO. -/
def Lend.code : Lend → Nat
  | .idle => 0
  | .waiting => 1
  | .granted => 2
  | .returning => 3

def boolCode (b : Bool) : Nat := if b then 1 else 0

/-- A number as one byte. -/
def byte1 (n : Nat) : Byte := BitVec.ofNat 8 n

/-! ### Responses and events as bytes -/

/-- The response block (Table 11.2.2), with its check byte (R183). -/
def Response.block (r : Response) : List Byte :=
  let body := [r.code, r.tag, r.result.code, byte1 r.data.length] ++ r.data
  body ++ [-(byteSum body)]

/-- The no-response block (R184). -/
def noResponseBlock : List Byte := [0, 0, 0, 0, 0]

/-- The bytes a READ-RESPONSE returns (R184). -/
def responseBytes : Option Response → List Byte
  | some r => r.block
  | none => noResponseBlock

/-- The three bytes of an event, or the empty marker (R192). -/
def eventBytes : Option Event → List Byte
  | some e => e.kind.code :: le16 e.param
  | none => [0, 0, 0]

/-! ### Status byte and pins (R181, R182) -/

def Slot.isEmpty : Slot → Bool
  | .empty => true
  | _ => false

def Slot.isDone : Slot → Bool
  | .done _ => true
  | _ => false

/-- The status byte (Table 11.1.1). -/
def State.statusByte (s : State) : Byte :=
  byte1 (s.sc.station.code + 8 * boolCode s.cp.slot.isDone + 16 * boolCode (!s.cp.notify.isEmpty)
    + 32 * boolCode (!s.cp.slot.isEmpty) + 64 * boolCode s.cp.rejected + 128 * boolCode s.jc.fault)

/-- The status byte of a transaction (R180): the one taken at the assertion of SSEL, where READ_STATUS has told that instant;
otherwise SSEL is asserted in the same step. -/
def State.latched (s : State) : Byte :=
  match s.cp.transaction with
  | some (.selected status) => status
  | _ => s.statusByte

/-- The levels on SMISO over the bytes returned in the last transaction, each byte most significant bit first (R180). -/
def State.smisoBits (s : State) : List Bool := s.cp.smiso.flatMap byteBits

/-- SMISO floats: no transaction is open, or RSTN is low (R180). -/
def State.smisoFloats (s : State) : Bool := s.power ≠ .running || s.cp.transaction.isNone

/-- ATN is asserted (R182). -/
def State.atn (s : State) : Bool := s.cp.slot.isDone || !s.cp.notify.isEmpty

/-- LGNT is asserted (R176). -/
def State.lgnt (s : State) : Bool := s.sp.lend = .granted

/-- The level that LTXD puts on the line: the present bit of the frame in flight, else none driven (R45). -/
def State.ltxd (s : State) : Level :=
  match s.li.flight with
  | some f => if (frameBits f.chars).getD f.elapsed true then .recessive else .dominant
  | none => .recessive

/-- The write window is open (R171). -/
def SpCmd.windowOpen : SpCmd → Bool
  | .program _ .busy => true
  | .erase _ .busy => true
  | _ => false

/-! ### Notify queue (R191) -/

/-- An event coalesced with one that waits: a REMOTE-CHANGE of the same id, an UNSAVED, a TABLE-FULL. -/
def coalesces (q : List Event) (e : Event) : Bool :=
  match e.kind with
  | .remoteChange => q.contains e
  | .unsaved | .tableFull => q.any fun x => x.kind = e.kind
  | _ => false

/-- One more event lost (R191): the count of the marker stops at FFFFH. -/
def bumpLost (e : Event) : Event :=
  if e.kind = .lost then { e with param := satAdd Config.maxLost e.param 1 } else e

/-- The placing of an event, by the first case that holds (R191). -/
def placeEvent (q : List Event) (e : Event) : List Event :=
  if coalesces q e then q
  else if q.any fun x => x.kind = .lost then q.map bumpLost
  else if q.length = Config.maxEvents then q ++ [{ kind := .lost, param := 1 }]
  else q ++ [e]

/-- An event is raised (R191). -/
def State.notify (s : State) (kind : EventKind) (param : Nat) : State :=
  { s with cp := { s.cp with notify := placeEvent s.cp.notify { kind := kind, param := param } } }

/-- The queue after the event taken up has been clocked out whole (R192): a LOST marker whose count has risen since keeps the
difference; any other event leaves. -/
def popQueue (q : List Event) (taken : Event) : List Event :=
  match q with
  | [] => []
  | e :: rest =>
    if e.kind = .lost ∧ taken.kind = .lost ∧ taken.param < e.param then { e with param := e.param - taken.param } :: rest
    else rest

/-! ### Counters (R193) -/

/-- The counters as the bytes of COUNTERS (Table 11.5.1). -/
def Counters.bytes (c : Counters) : List Byte :=
  [c.framesSent, c.framesReceived, c.checkErrors, c.framingErrors, c.formatErrors, c.overruns, c.contentionLosses,
    c.updatesApplied, c.updatesStale, c.versionConflicts, c.scopeConflicts, c.capacityDrops, c.replyDrops, c.recordsWritten,
    c.programFailures, c.bandsErased].flatMap le32

/-- A change of the counters. -/
def State.count (s : State) (f : Counters → Counters) : State := { s with cp := { s.cp with counters := f s.cp.counters } }

/-! ### Convergence (R105 to R107) -/

/-- Some roster entry is PRESENT. -/
def State.anyPresent (s : State) : Bool := s.re.roster.any fun p => p.presence = .present

/-- The convergence condition (R106). -/
def State.convergence (s : State) : Bool :=
  (s.sc.station = .joining || s.sc.station = .active || s.sc.station = .muted)
    && s.re.outbound.isEmpty
    && s.re.roster.all fun p => p.presence ≠ .present || p.agreement = .agree

/-- The converged flag follows the condition at the end of an event (R106). -/
def State.judgeFlag (s : State) : State :=
  if s.convergence = s.sc.converged then s
  else { s with sc := { s.sc with converged := s.convergence } }.notify
    (if s.convergence then .converged else .diverged) 0

/-- The join window ends: JOINING becomes ACTIVE, or the prior state of MUTED does (R91). -/
def State.endJoinWindow (s : State) : State :=
  if s.sc.station = .joining then
    { s with sc := { s.sc with station := .active, joinWindow := none } }
  else if s.sc.station = .muted ∧ s.ac.prior = .joining then
    { s with sc := { s.sc with joinWindow := none }, ac := { s.ac with prior := .active } }
  else s

/-- The join window ends by convergence with a PRESENT peer (R107). -/
def State.joinByConvergence (s : State) : State :=
  if s.convergence && s.anyPresent then s.endJoinWindow else s

/-- The judgement at the end of an event that may change a part of the convergence condition (R106, R107). -/
def State.judge (s : State) : State := s.judgeFlag.joinByConvergence

end Sys2Proof.Machine
end

