-- ==== Sys2Proof/Machine/Operands.lean ====
section
/-! DEFINITION. What arrives and leaves in bytes: frames of the line (chapter 3), band headers and journal records (chapter 7),
and the parameters of command blocks (chapter 11). -/

namespace Sys2Proof.Machine

/-! ### Validity of fields -/

/-- R4. -/
def validId (n : Nat) : Bool := 1 ≤ n && n ≤ Config.maxId

/-- R11. -/
def validGen (n : Nat) : Bool := 1 ≤ n && n ≤ Config.maxGeneration

/-- A station number of the line (R11, R61). -/
def validStation (n : Nat) : Bool := 1 ≤ n && n ≤ 31

/-- The bucket of an id (R4). -/
def bucketOf (id : Nat) : Nat := id % Config.buckets

/-! ### Frames (R50 to R57) -/

/-- A record of an UPDATE (Table 3.3.2); length 0 is a tombstone (R54). -/
structure LineRecord where
  id     : Nat
  gen    : Nat
  origin : Nat
  value  : List Byte
deriving DecidableEq, Repr

/-- The version of a record: the receiver computes the check (R11, R32). -/
def LineRecord.ver (r : LineRecord) : Version := { gen := r.gen, origin := r.origin, check := valueCheck r.value }

/-- A quad of a LISTING (Table 3.3.4). -/
structure Quad where
  id  : Nat
  ver : Version
deriving DecidableEq, Repr

/-- A payload by kind (R54 to R57). -/
inductive Payload where
  | update (recs : List LineRecord)
  | summary (h count interval : Nat) (digests : List Half)
  | listingRequest (buckets : BucketSet)
  | listing (bucket part : Nat) (quads : List Quad)
  | fetch (ids : List Nat)
  | leave
deriving DecidableEq, Repr

/-- The flags of char 0 (Table 3.2.1). -/
structure FrameFlags where
  reply      : Bool
  end_       : Bool
  joining    : Bool
  bucketLast : Bool
deriving DecidableEq, Repr

/-- No flag set. -/
def FrameFlags.zero : FrameFlags := { reply := false, end_ := false, joining := false, bucketLast := false }

/-- A frame (Table 3.2.1). -/
structure Frame where
  flags   : FrameFlags
  src     : Nat
  dst     : Nat
  seq     : Byte
  payload : Payload
deriving DecidableEq, Repr

/-- Kind codes (Table 3.3.1). -/
def Payload.code : Payload → Nat
  | .update _ => 1
  | .summary _ _ _ _ => 2
  | .listingRequest _ => 3
  | .listing _ _ _ => 4
  | .fetch _ => 5
  | .leave => 6

/-- Table 3.3.2. -/
def LineRecord.bytes (r : LineRecord) : List Byte :=
  le16 r.id ++ le32 r.gen ++ [byte1 r.origin, byte1 r.value.length] ++ r.value

/-- Table 3.3.4. -/
def Quad.bytes (q : Quad) : List Byte := le16 q.id ++ le32 q.ver.gen ++ [byte1 q.ver.origin] ++ le16 q.ver.check.toNat

/-- The payload's bytes (R54 to R57). -/
def Payload.bytes : Payload → List Byte
  | .update recs => byte1 recs.length :: recs.flatMap LineRecord.bytes
  | .summary h count interval digests => le32 h ++ le16 count ++ [byte1 interval] ++ digests.flatMap fun d => le16 d.toNat
  | .listingRequest m => bucketBytes m
  | .listing bucket part quads => [byte1 bucket, byte1 part, byte1 quads.length] ++ quads.flatMap Quad.bytes
  | .fetch ids => byte1 ids.length :: ids.flatMap le16
  | .leave => []

/-- Char 0: kind and flags (Table 3.2.1). -/
def Frame.char0 (f : Frame) : Byte :=
  byte1 (f.payload.code + 16 * boolCode f.flags.reply + 32 * boolCode f.flags.end_ + 64 * boolCode f.flags.joining
    + 128 * boolCode f.flags.bucketLast)

/-- The characters of a frame: header, payload, frame check low byte first (R50). -/
def Frame.chars (f : Frame) : List Byte :=
  let body := f.payload.bytes
  let head := [f.char0, byte1 f.src, byte1 f.dst, f.seq, byte1 body.length] ++ body
  head ++ le16 (crc16 head).toNat

/-- The frame check matches (R61, test 1). -/
def frameCheckGood (chars : List Byte) : Bool :=
  le16 (crc16 (chars.take (chars.length - 2))).toNat == chars.drop (chars.length - 2)

/-- The records of an UPDATE: `n` of them that fill the bytes exactly, each field in range (Table 3.4.2). -/
def parseRecords : Nat → List Byte → Option (List LineRecord)
  | 0, bs => if bs.isEmpty then some [] else none
  | n + 1, bs =>
    let r : LineRecord :=
      { id := num bs 0 2, gen := num bs 2 4, origin := num bs 6 1, value := field bs 8 (num bs 7 1) }
    if bs.length < 8 + num bs 7 1 ∨ 32 < num bs 7 1 ∨ !validId r.id ∨ !validGen r.gen ∨ !validStation r.origin then none
    else (parseRecords n (bs.drop (8 + num bs 7 1))).map (r :: ·)

/-- The quads of a LISTING: `k` of them that fill the bytes exactly, in the bucket, ids strictly above `last` (Table 3.4.2). -/
def parseQuads (bucket : Nat) : Nat → Nat → List Byte → Option (List Quad)
  | 0, _, bs => if bs.isEmpty then some [] else none
  | k + 1, last, bs =>
    let q : Quad :=
      { id := num bs 0 2, ver := { gen := num bs 2 4, origin := num bs 6 1, check := BitVec.ofNat 16 (num bs 7 2) } }
    if bs.length < 9 ∨ !validId q.id ∨ q.id ≤ last ∨ bucketOf q.id ≠ bucket ∨ !validGen q.ver.gen ∨ !validStation q.ver.origin
    then none
    else (parseQuads bucket k q.id (bs.drop 9)).map (q :: ·)

/-- The ids of a FETCH: `n` of them that fill the bytes exactly (Table 3.4.2). -/
def parseIds : Nat → List Byte → Option (List Nat)
  | 0, bs => if bs.isEmpty then some [] else none
  | n + 1, bs => if bs.length < 2 ∨ !validId (num bs 0 2) then none else (parseIds n (bs.drop 2)).map (num bs 0 2 :: ·)

/-- The digests of a SUMMARY. -/
def parseDigests : Nat → List Byte → List Half
  | 0, _ => []
  | n + 1, bs => BitVec.ofNat 16 (num bs 0 2) :: parseDigests n (bs.drop 2)

/-- The payload of a kind (R61, test 3; Table 3.4.2). -/
def parsePayload (kind : Nat) (flags : FrameFlags) (p : List Byte) : Option Payload :=
  match kind with
  | 1 =>
    let n := num p 0 1
    if p.isEmpty ∨ 4 < n ∨ (n = 0 ∧ !(flags.reply && flags.end_)) then none
    else (parseRecords n (p.drop 1)).map .update
  | 2 =>
    if p.length ≠ 135 ∨ num p 0 4 = 0xFFFFFFFF ∨ 512 < num p 4 2 ∨ num p 6 1 = 0 then none
    else some (.summary (num p 0 4) (num p 4 2) (num p 6 1) (parseDigests 64 (p.drop 7)))
  | 3 => if p.length ≠ 8 ∨ bucketSetOf p = 0 then none else some (.listingRequest (bucketSetOf p))
  | 4 =>
    let k := num p 2 1
    if p.length < 3 ∨ 63 < num p 0 1 ∨ 16 < k ∨ (k = 0 ∧ !flags.bucketLast) then none
    else (parseQuads (num p 0 1) k 0 (p.drop 3)).map (.listing (num p 0 1) (num p 1 1))
  | 5 =>
    let n := num p 0 1
    if p.isEmpty ∨ n = 0 ∨ 32 < n then none else (parseIds n (p.drop 1)).map .fetch
  | 6 => if p.isEmpty then some .leave else none
  | _ => none

/-- The flags and the destination agree with Table 3.2.2 (R52). -/
def flagsGood (kind : Nat) (fl : FrameFlags) (src dst : Nat) : Bool :=
  let one := validStation dst && dst != src
  match kind with
  | 1 => !fl.joining && !fl.bucketLast && (if fl.reply then one else !fl.end_ && dst == 0)
  | 2 => !fl.reply && !fl.end_ && !fl.bucketLast && dst == 0
  | 3 | 5 => fl == .zero && one
  | 4 => fl.reply && !fl.joining && (!fl.end_ || fl.bucketLast) && one
  | 6 => fl == .zero && dst == 0
  | _ => false

/-- Tests 2 and 3 of R61 on a frame's characters; `none` is a FORMAT error. -/
def parseFrame (chars : List Byte) : Option Frame :=
  let c0 := chars.getD 0 0
  let fl : FrameFlags :=
    { reply := c0.getLsbD 4, end_ := c0.getLsbD 5, joining := c0.getLsbD 6, bucketLast := c0.getLsbD 7 }
  let kind := c0.toNat % 16
  let src := num chars 1 1
  let dst := num chars 2 1
  if validStation src && dst ≤ 31 && flagsGood kind fl src dst then
    (parsePayload kind fl (field chars 5 (num chars 4 1))).map fun p =>
      { flags := fl, src := src, dst := dst, seq := chars.getD 3 0, payload := p }
  else none

/-! ### Band headers (R131 to R133) -/

/-- The 16 bytes written when a band is opened (Table 7.2.1). -/
def headerBytes (st : Straps) (seq : Nat) : List Byte :=
  let open_ := le16 0x4B4E ++ [0x01, byte1 st.bc.toNat] ++ le32 seq
  open_ ++ le16 (crc16 open_).toNat ++ [0xFF, 0xFF, 0xFF, 0xFF, 0xFF, byte1 (stationNumber st)]

/-- The close check of a close length (R132). -/
def closeCheck (len : Nat) : Half := crc16 (0x00 :: le16 len)

/-- The four bytes of a close's first program (R132). -/
def closeBytes (len : Nat) : List Byte := le16 len ++ le16 (closeCheck len).toNat

/-- The condition read from a header (Table 7.2.2), with what a valid one says: its sequence, and a FULL one's close length. -/
inductive HeaderRead where
  | erased
  | full (seq closeLen : Nat)
  | opened (seq : Nat)
  | garbled
deriving DecidableEq, Repr

/-- The open part is valid (R133). -/
def openPartValid (h : List Byte) : Bool :=
  num h 0 2 == 0x4B4E && num h 2 1 == 0x01 && 1 ≤ num h 4 4 && num h 4 4 ≤ Config.maxGeneration
    && num h 8 2 == (crc16 (field h 0 8)).toNat

/-- The close part is good (R133). -/
def closePartGood (h : List Byte) : Bool :=
  num h 10 1 == 0x00 && num h 13 2 == (closeCheck (num h 11 2)).toNat && num h 11 2 ≤ Config.bandRoom

/-- The condition of a band, by the first test of Table 7.2.2 that holds (R133). -/
def readHeader (h : List Byte) : HeaderRead :=
  if h.all (· == 0xFF) then .erased
  else if openPartValid h && closePartGood h then .full (num h 4 4) (num h 11 2)
  else if openPartValid h && num h 10 1 == 0xFF then .opened (num h 4 4)
  else .garbled

/-! ### Journal records (R135, R136, R140) -/

/-- A record's fields (Table 7.3.1). -/
structure JRecord where
  kind   : Nat
  loc    : Bool
  id     : Nat
  gen    : Nat
  origin : Nat
  length : Nat
  offset : Nat
  data   : List Byte
deriving DecidableEq, Repr

/-- The 11 header bytes before the check. -/
def JRecord.head (r : JRecord) : List Byte :=
  [byte1 r.kind, byte1 (boolCode r.loc)] ++ le16 r.id ++ le32 r.gen ++ [byte1 r.origin, byte1 r.length, byte1 r.offset]

/-- The record as stored (Table 7.3.1). -/
def JRecord.bytes (r : JRecord) : List Byte := r.head ++ le16 (crc16 (r.head ++ r.data)).toNat ++ r.data

/-- The data bytes a kind, length and offset call for, when they fit the kind (R136, Table 7.3.2). -/
def dataLength (kind length offset : Nat) : Option Nat :=
  match kind with
  | 1 => if 1 ≤ length ∧ length ≤ 32 ∧ offset = 0 then some length else none
  | 2 => if 2 ≤ length ∧ length ≤ 32 ∧ 1 ≤ offset ∧ offset < length then some (length - offset) else none
  | 3 => if length = 0 ∧ offset = 0 then some 0 else none
  | _ => none

/-- What stands at an offset of a band (R140). -/
inductive RecordRead where
  | noRecord
  | voided
  | unreadable
  | record (r : JRecord) (size : Nat)
deriving DecidableEq, Repr

/-- Reads the record at offset `off` of the band at flash address `base` (R140). -/
def readRecord (f : List Host.Cell) (base off : Nat) : RecordRead :=
  let kind := (Flash.byte f (base + off)).toNat
  if kind = 0xFF then .noRecord
  else if kind = 0x00 then .voided
  else
    let h := Flash.read f (base + off) 13
    match dataLength kind (num h 9 1) (num h 10 1) with
    | none => .unreadable
    | some n =>
      let data := Flash.read f (base + off + 13) n
      if Config.bandBytes < off + 13 + n ∨ num h 11 2 ≠ (crc16 (field h 0 11 ++ data)).toNat then .unreadable
      else
        .record
          { kind := kind, loc := (h.getD 1 0).getLsbD 0, id := num h 2 2, gen := num h 4 4, origin := num h 8 1,
            length := num h 9 1, offset := num h 10 1, data := data }
          (13 + n)

/-! ### Command blocks (R183) -/

/-- The block is good: length at most 40 and all bytes summing to 0 (R183). -/
def blockGood (code : Byte) (b : Block) : Bool :=
  b.len.toNat ≤ 40 && byteSum ([code, b.tag, b.len] ++ b.params ++ [b.check]) == 0

/-- The bytes of a command block that reach the part after the transaction code. -/
def blockCount (b : Block) : Nat := if b.len.toNat ≤ 40 then 4 + b.len.toNat else 3

end Sys2Proof.Machine
end

