-- ==== Sys2Proof/Machine/Table.lean ====
section
/-! DEFINITION. The Parameter Table (chapter 1): lookups, precedence, values and slots, digests and counts, and the one way in
which a change of an entry reaches them. -/

namespace Sys2Proof.Machine

/-! ### Versions (R12) -/

/-- Version `a` supersedes version `b` (R12). -/
def Version.supersedes (a b : Version) : Bool :=
  b.gen < a.gen
    || (a.gen == b.gen && (a.origin < b.origin || (a.origin == b.origin && b.check.toNat < a.check.toNat)))

/-! ### Entries -/

/-- A tombstone (R10). -/
def Entry.isTombstone (e : Entry) : Bool := e.scope = .shared && e.value.isEmpty

/-- The record of an entry in an UPDATE (R41). -/
def Entry.record (e : Entry) : LineRecord := { id := e.id, gen := e.ver.gen, origin := e.ver.origin, value := e.value }

/-- The 9 bytes an entry feeds into its bucket's digest (R18). -/
def Entry.digestBytes (e : Entry) : List Byte :=
  le16 e.id ++ le32 e.ver.gen ++ [byte1 e.ver.origin] ++ le16 e.ver.check.toNat

/-! ### Lookups (R23) -/

/-- The entry of an id. -/
def findEntry (es : List Entry) (id : Nat) : Option Entry := es.find? fun e => e.id = id

/-- The SHARED entries of a bucket in ascending id order. -/
def sharedIn (es : List Entry) (b : Nat) : List Entry := es.filter fun e => e.scope = .shared && bucketOf e.id = b

/-- The digest of a bucket (R18). -/
def digestOf (es : List Entry) (b : Nat) : Half :=
  if (sharedIn es b).isEmpty then 0 else crc16 ((sharedIn es b).flatMap Entry.digestBytes)

/-! ### Slots (R9) -/

/-- The slots in use. -/
def usedSlots (es : List Entry) : List Nat := es.filterMap (·.slot)

/-- The lowest-numbered free slot. -/
def freeSlot (es : List Entry) : Option Nat := (List.range Config.maxSlots).find? fun n => !(usedSlots es).contains n

/-- The slot an entry holds with a value of the given length, its slot before being `old` (R8, R9); `none`: it needs a slot
and none is free. -/
def slotFor (es : List Entry) (old : Option Nat) (length : Nat) : Option (Option Nat) :=
  if length ≤ Config.inlineLength then some none
  else match old with
    | some k => some (some k)
    | none => (freeSlot es).map some

/-! ### Changes (R3, R19, R22) -/

/-- Puts an entry in its place in id order, in place of the entry of its id if there is one (R3). -/
def insertEntry : List Entry → Entry → List Entry
  | [], e => [e]
  | x :: es, e => if e.id < x.id then e :: x :: es else if e.id = x.id then e :: es else x :: insertEntry es e

/-- Takes the entry of an id out (R3). -/
def removeEntry (es : List Entry) (id : Nat) : List Entry := es.filter fun e => e.id ≠ id

/-- The table with new entries that differ from the old in bucket `b` only: the digest of the bucket and the counts are brought
up to date in the same change (R19). -/
def ParamTable.withEntries (t : ParamTable) (b : Nat) (es : List Entry) : ParamTable :=
  { t with
    entries := es
    digests := t.digests.set b (digestOf es b)
    entryCount := es.length
    sharedCount := es.countP fun e => e.scope = .shared
    slotsUsed := (usedSlots es).length }

/-- An entry with a new version joins or changes (R22). -/
def ParamTable.put (t : ParamTable) (e : Entry) : ParamTable := t.withEntries (bucketOf e.id) (insertEntry t.entries e)

/-- An entry leaves (R3). -/
def ParamTable.delete (t : ParamTable) (id : Nat) : ParamTable := t.withEntries (bucketOf id) (removeEntry t.entries id)

/-- A change of fields outside the version and the value: no digest and no count changes (R14, R19). -/
def ParamTable.mapEntries (t : ParamTable) (f : Entry → Entry) : ParamTable := { t with entries := t.entries.map f }

/-- H becomes the maximum of itself and a generation (R16). -/
def ParamTable.raiseH (t : ParamTable) (g : Nat) : ParamTable := { t with h := max t.h g }

/-- A change of one entry's fields outside the version and the value. -/
def State.mapEntry (s : State) (id : Nat) (f : Entry → Entry) : State :=
  { s with pt := s.pt.mapEntries fun e => if e.id = id then f e else e }

/-- The entry of an id (R23). -/
def State.entry (s : State) (id : Nat) : Option Entry := findEntry s.pt.entries id

/-! ### Dirty-from (R25) -/

/-- The lowest index at which two values of the same length differ. -/
def firstDiff : List Byte → List Byte → Nat
  | a :: as, b :: bs => if a = b then firstDiff as bs + 1 else 0
  | _, _ => 0

/-- Dirty-from after a change to a value, by Table 2.1.1; `none`: the entry is created. -/
def dirtyAfter (old : Option Entry) (value : List Byte) : Dirty :=
  match old with
  | none => .whole
  | some e =>
    if e.value.isEmpty ∨ value.isEmpty ∨ e.value.length ≠ value.length then .whole
    else if e.value = value then
      match e.dirty with
      | .none => .from_ (value.length - 1)
      | d => d
    else
      match e.dirty with
      | .none => .from_ (firstDiff e.value value)
      | .from_ d => .from_ (min d (firstDiff e.value value))
      | .whole => .whole

end Sys2Proof.Machine
end

