-- ==== Sys2Proof/Machine/Changing.lean ====
section
/-! DEFINITION. Changes of entries (chapter 2): the hooks a change raises in the journal, the outbound list, the roster and the
notify queue; local PUT and REMOVE; the applying of received records. -/

namespace Sys2Proof.Machine

/-! ### The journal's hook (R26, R30, R143, R150) -/

/-- A change reaches the entry or id that a record is being written for: the changed-during-write flag is set, and a deletion
is remembered (R143, R150). -/
def WriteJob.touch (w : WriteJob) (id : Nat) (deleted : Bool) : WriteJob :=
  if w.id = id then { w with changed := true, gone := w.gone || deleted } else w

/-- The job in progress is told of a change (R143, R150). -/
def Job.touch (j : Job) (id : Nat) (deleted : Bool) : Job :=
  match j with
  | .write w => .write (w.touch id deleted)
  | .erase b => .erase b

/-- The Journal Controller is told of a change (R143, R150). -/
def Journal.touch (jc : Journal) (id : Nat) (deleted : Bool) : Journal :=
  { jc with job := jc.job.map fun j => j.touch id deleted, held := jc.held.map fun w => w.touch id deleted }

/-- The id is in the journal queue. -/
def Journal.queued (jc : Journal) (id : Nat) : Bool := jc.queue.any fun q => q.id = id

/-- The journal state that the marking of R26 gives an entry. -/
def Journal.markState (jc : Journal) (id : Nat) : JState :=
  if jc.fault then .unsaved
  else if jc.queued id || jc.queue.length < Config.maxQueue then .queued
  else .unsaved

/-- The journal queue after the marking of R26. -/
def Journal.enqueue (jc : Journal) (id : Nat) : Journal :=
  if jc.fault then jc
  else if jc.queued id then { jc with queue := jc.queue.map fun q => if q.id = id then { q with del := false } else q }
  else if jc.queue.length < Config.maxQueue then { jc with queue := jc.queue ++ [{ id := id, del := false }] }
  else jc

/-- The journal queue after the delete demand of R30. -/
def Journal.enqueueDelete (jc : Journal) (id : Nat) : Journal :=
  if jc.queued id then { jc with queue := jc.queue.map fun q => if q.id = id then { q with del := true } else q }
  else if jc.fault then jc
  else if jc.queue.length < Config.maxQueue then { jc with queue := jc.queue ++ [{ id := id, del := true }] }
  else jc

/-- An entry has become UNSAVED from another journal state (R157). An entry created straight into UNSAVED had no journal state
before, and the model raises the event for it too (notes/assumptions/32.md). -/
def State.noteUnsaved (s : State) (before : Option JState) (after : JState) : State :=
  if after = .unsaved ∧ before ≠ some .unsaved then s.notify .unsaved 0 else s

/-- The table takes an entry with a new version, and the journal is told (R22, R26, R157). `old`: the entry before. -/
def State.commitEntry (s : State) (old : Option Entry) (e : Entry) : State :=
  let js := s.jc.markState e.id
  { s with
    pt := s.pt.put { e with jstate := js }
    jc := (s.jc.enqueue e.id).touch e.id false }.noteUnsaved (old.map Entry.jstate) js

/-! ### The roster's hook (R37) -/

/-- Every agreement becomes UNKNOWN (R37). -/
def State.forgetAgreements (s : State) : State :=
  { s with re := { s.re with roster := s.re.roster.map fun p => { p with agreement := .unknown } } }

/-! ### The outbound list (R28, R34, R40) -/

/-- The mark of an entry after a local change of a SHARED entry (R28). -/
def Mark.afterSend (m : Mark) : Mark := if m = .none then .new else m

/-- The id joins the tail of the outbound list if its entry was unmarked (R28, R40). -/
def joinOutbound (l : List Nat) (m : Mark) (id : Nat) : List Nat := if m = .none then l ++ [id] else l

/-- A push request (R40): an unmarked id joins the tail, a NEW one is upgraded in place. -/
def State.pushRequest (s : State) (id : Nat) : State :=
  match s.entry id with
  | some e =>
    ({ s with re := { s.re with outbound := joinOutbound s.re.outbound e.mark id } }).mapEntry id
      fun e => { e with mark := .push }
  | none => s

/-! ### Local PUT (R24) -/

/-- The version a local change takes: generation H + 1, own origin, the check of the value (R15, R24). -/
def State.localVersion (s : State) (value : List Byte) : Version :=
  { gen := s.pt.h + 1, origin := stationNumber s.straps, check := valueCheck value }

/-- PT's tests on a PUT in the order of Table 1.7.1: the failing test's result, or the slot the entry will hold. -/
def State.putTests (s : State) (id : Nat) (scope : Scope) (value : List Byte) : Result ⊕ Option Nat :=
  let old := s.entry id
  if old.any fun e => e.scope ≠ scope then .inl .refusedScope
  else if old.any fun e => !e.isTombstone && e.value == value then .inl .same
  else if s.pt.h = Config.maxGeneration then .inl .refusedGeneration
  else if old.isNone && Config.maxEntries ≤ s.pt.entries.length then .inl .refusedTableFull
  else match slotFor s.pt.entries (old.bind Entry.slot) value.length with
    | none => .inl .refusedNoSlot
    | some slot => .inr slot

/-- An entry just created (Table 1.2.2), before its version, value and slot. -/
def Entry.fresh (id : Nat) (scope : Scope) : Entry :=
  { id := id, scope := scope, ver := { gen := 0, origin := 0, check := 0 }, value := [], slot := none, jstate := .clean,
    base := none, dirty := .none, mark := .none, watch := false }

/-- A local change gives an entry a new version, value and slot: the table, H, the journal and, for a SHARED entry, the
outbound list, the agreements and the judgement of convergence (R24 to R28, R37, R106). -/
def State.localChange (s : State) (id : Nat) (scope : Scope) (value : List Byte) (slot : Option Nat) : State :=
  let old := s.entry id
  let e := old.getD (Entry.fresh id scope)
  let ver := s.localVersion value
  let e' : Entry :=
    { e with
      ver := ver, value := value, slot := slot, dirty := dirtyAfter old value
      mark := if scope = .shared then e.mark.afterSend else e.mark }
  let s' := ({ s with pt := s.pt.raiseH ver.gen }).commitEntry old e'
  if scope = .shared then
    { s' with re := { s'.re with outbound := joinOutbound s'.re.outbound e.mark id } }.forgetAgreements.judge
  else s'

/-- A local PUT (R20, R24). -/
def State.localPut (s : State) (id : Nat) (scope : Scope) (value : List Byte) : Result × State :=
  match s.putTests id scope value with
  | .inl r => (r, s)
  | .inr slot => (.done, s.localChange id scope value slot)

/-! ### Local REMOVE (R27, R30) -/

/-- The row whose count holds the entries of a base band (R145). Where replay left two rows of one sequence, only the one that it
kept as head can count any (R168, notes/assumptions/38.md). -/
def liveRow (rows : List BandRow) (seq : Nat) : Option Nat := rows.findIdx? fun r => r.seq = some seq && r.live ≠ 0

/-- The live-base count of a base band falls by one (R145). -/
def dropLive (rows : List BandRow) (base : Option Nat) : List BandRow :=
  match base.bind (liveRow rows) with
  | some band => rows.modify band fun r => { r with live := r.live - 1 }
  | none => rows

/-- A LOCAL entry is deleted with a delete demand (R30, R145). -/
def State.deleteLocal (s : State) (e : Entry) : State :=
  let jc := (s.jc.enqueueDelete e.id).touch e.id true
  { s with
    pt := s.pt.delete e.id
    jc := { jc with bands := dropLive jc.bands e.base, unbased := jc.unbased.filter fun i => i ≠ e.id } }

/-- A local REMOVE (Table 1.7.1, R27, R30). -/
def State.localRemove (s : State) (id : Nat) : Result × State :=
  match s.entry id with
  | none => (.notFound, s)
  | some e =>
    if e.isTombstone then (.same, s)
    else if s.pt.h = Config.maxGeneration then (.refusedGeneration, s)
    else match e.scope with
      | .shared => (.done, s.localChange id .shared [] none)
      | .loc => (.done, s.deleteLocal e)

/-! ### Received records (R31 to R38) -/

/-- A record that would be taken finds no room (R21). -/
def State.capacityDrop (s : State) : State :=
  (s.count fun c => { c with capacityDrops := satInc c.capacityDrops }).notify .tableFull 0

/-- REMOTE-CHANGE for a taken record (R38). -/
def State.remoteChange (s : State) (old : Option Entry) (id : Nat) : State :=
  if old.elim s.cp.setup.watchNew Entry.watch then s.notify .remoteChange id else s

/-- A record carries the generation and origin of the entry: a version conflict if the checks differ (R13, R36). -/
def sameIssue (old : Option Entry) (r : LineRecord) : Bool :=
  match old with
  | some e => e.ver.gen == r.gen && e.ver.origin == r.origin
  | none => false

/-- A record is taken (R33 to R37); `old`: the entry before; `slot`: the slot it will hold. -/
def State.takeRecord (s : State) (old : Option Entry) (r : LineRecord) (slot : Option Nat) : State :=
  let e := old.getD (Entry.fresh r.id .shared)
  let e' : Entry :=
    { e with ver := r.ver, value := r.value, slot := slot, dirty := dirtyAfter old r.value, mark := .none }
  let s' := s.commitEntry old e'
  ({ s' with re := { s'.re with outbound := s'.re.outbound.filter fun i => i ≠ r.id } }.forgetAgreements.remoteChange old
      r.id).count
    fun c =>
      { c with
        updatesApplied := satInc c.updatesApplied
        versionConflicts :=
          if sameIssue old r then satInc c.versionConflicts else c.versionConflicts }

/-- A record whose version would be taken, if PT has room (R21, R32). -/
def State.takeIfRoom (s : State) (old : Option Entry) (r : LineRecord) : State :=
  if old.isNone && Config.maxEntries ≤ s.pt.entries.length then s.capacityDrop
  else match slotFor s.pt.entries (old.bind Entry.slot) r.value.length with
    | none => s.capacityDrop
    | some slot => s.takeRecord old r slot

/-- One received record, by the first test of Table 2.3.1 that holds (R32, R36). -/
def State.applyRecord (s : State) (r : LineRecord) : State :=
  match s.entry r.id with
  | none => s.takeIfRoom none r
  | some e =>
    if e.scope = .loc then s.count fun c => { c with scopeConflicts := satInc c.scopeConflicts }
    else if r.ver.supersedes e.ver then s.takeIfRoom (some e) r
    else if r.ver = e.ver then s
    else s.count fun c =>
      { c with
        updatesStale := satInc c.updatesStale
        versionConflicts :=
          if sameIssue (some e) r then satInc c.versionConflicts else c.versionConflicts }

end Sys2Proof.Machine
end

