-- ==== Sys2Proof/Machine/Repair.lean ====
section
/-! DEFINITION. Repair (chapter 6): the requester's session, the comparison of listings, the responder's reply queue and what
its frames carry. -/

namespace Sys2Proof.Machine

/-! ### The roster by station number (R99) -/

/-- The roster entry of a station number 1 to 31; the cleared entry for the own number and any other (R99, R187). -/
def State.peer (s : State) (n : Nat) : Peer :=
  if n = 0 ∨ n = stationNumber s.straps then .cleared else s.re.roster.getD (n - 1) .cleared

/-- A change of one roster entry. -/
def State.updatePeer (s : State) (n : Nat) (f : Peer → Peer) : State :=
  if n = 0 then s else { s with re := { s.re with roster := s.re.roster.modify (n - 1) f } }

/-- A change of the session. -/
def State.setSession (s : State) (se : Session) : State := { s with re := { s.re with session := se } }

/-- The states in which a session may open and requests are served (Table 5.1.3). -/
def Station.onLine : Station → Bool
  | .joining => true
  | .active => true
  | _ => false

/-! ### The requester's session (R108 to R122) -/

/-- A frame in flight of the session's request is no longer awaited (R122). -/
def Flight.unawait (f : Flight) : Flight :=
  match f.cargo with
  | .request _ => { f with cargo := .request false }
  | _ => f

/-- A frame in flight of the session's request is no longer awaited (R122). -/
def State.unawait (s : State) : State := { s with li := { s.li with flight := s.li.flight.map Flight.unawait } }

/-- A peer is a candidate for repair (R109). -/
def Peer.candidate (p : Peer) : Bool :=
  p.presence = .present && p.agreement = .disagree && p.wanted && p.failures < Config.maxFailures

/-- A session opens with a peer and raises a LISTING-REQUEST (R110). -/
def State.openSession (s : State) (n : Nat) : State :=
  let buckets := (bucketList (s.peer n).mask).take Config.sessionBuckets
  (s.updatePeer n fun p => { p with mask := p.mask &&& ~~~bucketSet buckets, wanted := false }).setSession
    { Session.cleared with state := .awaitListing, peer := n, buckets := buckets, raised := true }

/-- The session is IDLE and one may open (R109). -/
def State.mayOpenSession (s : State) : Bool := s.re.session.state = .idle && s.sc.station.onLine

/-- The test for an opening with the sender of a disagreeing SUMMARY (R109). -/
def State.testSession (s : State) (n : Nat) : State :=
  if s.mayOpenSession && (s.peer n).candidate then s.openSession n else s

/-- The search of the roster for the lowest-numbered candidate (R109). -/
def State.searchSession (s : State) : State :=
  if s.mayOpenSession then
    match (List.range 32).find? fun n => (s.peer n).candidate with
    | some n => s.openSession n
    | none => s
  else s

/-- The session becomes IDLE (R119 to R122). -/
def State.closeSession (s : State) : State := s.unawait.setSession .cleared

/-- The buckets of the session go back to its peer's mask, and repair is wanted (R119, R121). -/
def State.giveBack (s : State) : State :=
  s.updatePeer s.re.session.peer fun p =>
    { p with mask := p.mask ||| bucketSet s.re.session.buckets, wanted := true }

/-- The session is abandoned without a failure, its buckets given back (R121); nothing when it is IDLE. -/
def State.abandonSession (s : State) : State :=
  if s.re.session.state = .idle then s else s.giveBack.closeSession

/-- The session ends in success (R120). -/
def State.sessionSuccess (s : State) : State :=
  let se := s.re.session
  (s.updatePeer se.peer fun p =>
    let mask := if se.more then p.mask ||| bucketSet se.buckets else p.mask
    { p with failures := 0, mask := mask, wanted := p.wanted || mask ≠ 0 }).closeSession.searchSession

/-- A timeout, by the attempt of the request in force (R119). -/
def State.sessionTimeout (s : State) : State :=
  let se := s.re.session
  if se.attempt = 1 then
    match se.state with
    | .awaitListing =>
      s.setSession
        { se with
          attempt := 2, raised := true, timer := 0, want := [], more := false, pos := 0, part := 0, cursor := none }
    | _ => s.setSession { se with attempt := 2, raised := true, timer := 0 }
  else
    (s.giveBack.updatePeer se.peer fun p => { p with failures := p.failures + 1 }).closeSession.searchSession

/-- A taken frame matches the session (R113). -/
def State.matchesSession (s : State) (f : Frame) : Bool :=
  let se := s.re.session
  !se.raised && f.dst == stationNumber s.straps && f.src == se.peer && f.flags.reply && f.seq == se.reqSeq
    && match se.state, f.payload with
      | .awaitListing, .listing _ _ _ => true
      | .awaitUpdates, .update _ => true
      | _, _ => false

/-- A wanted id joins the tail of the want list, or finds no room (R116). -/
def Session.addWant (se : Session) (id : Nat) : Session :=
  if se.want.contains id then se
  else if se.want.length < Config.maxWant then { se with want := se.want ++ [id] }
  else { se with more := true }

/-- An id lies above a cursor. -/
def above (cursor : Option Nat) (id : Nat) : Bool := cursor.all fun c => c < id

/-- Own SHARED entries of a bucket above a cursor and, where there is one, below a bound: absent at the peer, they are pushed
(R115). -/
def State.pushBetween (s : State) (b : Nat) (lo hi : Option Nat) : State :=
  ((sharedIn s.pt.entries b).filter fun e => above lo e.id && hi.all fun h => e.id < h).foldl
    (fun s e => s.pushRequest e.id) s

/-- One quad of a listing in the merge, with the cursor before and after it (R115). -/
def State.compareQuad (b : Nat) (sc : State × Option Nat) (q : Quad) : State × Option Nat :=
  let s := sc.1.pushBetween b sc.2 (some q.id)
  let s' :=
    match s.entry q.id with
    | none => s.setSession (s.re.session.addWant q.id)
    | some e =>
      if e.scope = .loc then s
      else if q.ver.supersedes e.ver then s.setSession (s.re.session.addWant q.id)
      else if e.ver.supersedes q.ver then s.pushRequest q.id
      else s
  (s', some q.id)

/-- The merge of a listing frame with the table (R115). -/
def State.compareListing (s : State) (b : Nat) (quads : List Quad) (bucketLast : Bool) : State :=
  let r := quads.foldl (State.compareQuad b) (s, s.re.session.cursor)
  if bucketLast then r.1.pushBetween b r.2 none else r.1

/-- The id of a list's last quad. -/
def lastQuad (quads : List Quad) (cursor : Option Nat) : Option Nat :=
  match quads.getLast? with
  | some q => some q.id
  | none => cursor

/-- The listing is complete: success, or a FETCH is raised (R117). -/
def State.listingComplete (s : State) : State :=
  if s.re.session.want.isEmpty then s.sessionSuccess
  else s.setSession { s.re.session with state := .awaitUpdates, attempt := 1, raised := true, timer := 0 }

/-- A matching LISTING (R114): compared and the expected pair moved on, or out of order and so a timeout. Table 6.1.1 has parts 0 to
255, and R114 does not say which part is expected after a part 255 without BUCKET-LAST: the model expects 256, which no frame can
carry, so that the next matching LISTING is out of order (DESIGN CHOICE, notes/assumptions/44.md). -/
def State.takeListing (s : State) (b part : Nat) (quads : List Quad) (fl : FrameFlags) : State :=
  let se := s.re.session
  let last := se.pos + 1 == se.buckets.length
  if se.buckets[se.pos]? = some b ∧ part = se.part ∧ !(fl.end_ && !(fl.bucketLast && last)) then
    let s := (s.setSession { se with timer := 0 }).compareListing b quads fl.bucketLast
    let se := s.re.session
    if !fl.bucketLast then s.setSession { se with part := se.part + 1, cursor := lastQuad quads se.cursor }
    else if !last then s.setSession { se with pos := se.pos + 1, part := 0, cursor := none }
    else s.listingComplete
  else s.sessionTimeout

/-- A matching reply UPDATE, its records applied (R118). -/
def State.takeReplyUpdate (s : State) (end_ : Bool) : State :=
  if end_ then s.sessionSuccess else s.setSession { s.re.session with timer := 0 }

/-! ### The responder's reply queue (R123 to R128) -/

/-- A frame of the request at the head is in flight (Table 6.5.1, served). -/
def State.headInFlight (s : State) : Bool :=
  match s.li.flight with
  | some f =>
    match f.cargo with
    | .reply forHead _ _ => forHead
    | _ => false
  | none => false

/-- A reply frame in flight no longer serves the head of the queue (R124, R128). -/
def Flight.orphan (f : Flight) : Flight :=
  match f.cargo with
  | .reply _ e m => { f with cargo := .reply false e m }
  | _ => f

/-- A reply frame in flight no longer serves the head of the queue (R124, R128). -/
def State.orphanReply (s : State) : State := { s with li := { s.li with flight := s.li.flight.map Flight.orphan } }

/-- The reply queue is set. -/
def State.setReplies (s : State) (q : List Request) : State := { s with re := { s.re with replyQueue := q } }

/-- The reply queue is emptied (Table 6.5.3). -/
def State.emptyReplies (s : State) : State := s.orphanReply.setReplies []

/-- The request of a requester leaves the queue; a frame of it in flight runs to its end (R128). -/
def State.dropRequest (s : State) (n : Nat) : State :=
  let s' := if (s.re.replyQueue.head?.map Request.requester) = some n then s.orphanReply else s
  s'.setReplies (s.re.replyQueue.filter fun r => r.requester ≠ n)

/-- The request at a place of the queue is served (Table 6.5.1). -/
def State.served (s : State) (r : Request) : Bool :=
  r.completed || (s.headInFlight && s.re.replyQueue.head? == some r)

/-- Places a request in the queue by the first case of Table 6.5.2 that holds (R124). -/
def State.placeRequest (s : State) (r : Request) : State :=
  match s.re.replyQueue.find? fun x => x.requester = r.requester with
  | some old =>
    if s.served old then
      let s' := s.dropRequest r.requester
      s'.setReplies (s'.re.replyQueue ++ [r])
    else s.setReplies (s.re.replyQueue.map fun x => if x.requester = r.requester then r else x)
  | none =>
    if Config.maxRequests ≤ s.re.replyQueue.length then s.count fun c => { c with replyDrops := satInc c.replyDrops }
    else s.setReplies (s.re.replyQueue ++ [r])

/-- The ids a fetch frame takes, with the records packed so far: its records, and how many ids it consumes (R127). -/
def packFetch (es : List Entry) : List Nat → Nat → Nat → List LineRecord × Nat
  | [], _, _ => ([], 0)
  | id :: ids, packed, bytes =>
    if packed = Config.maxRecords then ([], 0)
    else
      let pass := fun (r : List LineRecord × Nat) => (r.1, r.2 + 1)
      match findEntry es id with
      | none => pass (packFetch es ids packed bytes)
      | some e =>
        if e.scope = .loc then pass (packFetch es ids packed bytes)
        else if Config.maxRecordBytes < bytes + 8 + e.value.length then ([], 0)
        else
          let r := packFetch es ids (packed + 1) (bytes + 8 + e.value.length)
          (e.record :: r.1, r.2 + 1)

/-- The next frame of a request: its payload, its END and BUCKET-LAST flags, and the work with the cursor moved past it
(R126, R127). -/
def replyFrame (es : List Entry) : Work → Payload × FrameFlags × Work
  | .listing buckets pos part last =>
    let b := buckets.getD pos 0
    let rest := (sharedIn es b).filter fun e => above last e.id
    let quads := (rest.take Config.maxQuads).map fun e => ({ id := e.id, ver := e.ver } : Quad)
    let bucketLast : Bool := rest.length ≤ Config.maxQuads
    (.listing b part quads,
      { FrameFlags.zero with reply := true, end_ := bucketLast && pos + 1 == buckets.length, bucketLast := bucketLast },
      if bucketLast then .listing buckets (pos + 1) 0 none else .listing buckets pos (part + 1) (lastQuad quads last))
  | .fetch ids consumed =>
    let r := packFetch es (ids.drop consumed) 0 0
    (.update r.1, { FrameFlags.zero with reply := true, end_ := consumed + r.2 == ids.length },
      .fetch ids (consumed + r.2))

/-- A reply frame of the request at the head completes: its cursor moves, or END removes it (R125). -/
def State.replyCompleted (s : State) (forHead ends : Bool) (moved : Work) : State :=
  if forHead then
    match s.re.replyQueue with
    | [] => s
    | r :: q => if ends then s.setReplies q else s.setReplies ({ r with work := moved, completed := true } :: q)
  else s

end Sys2Proof.Machine
end

