-- ==== Sys2Proof/Machine/LineAccess.lean ====
section
/-! DEFINITION. Line access (chapter 4) and the ends of station states that it causes (chapter 5): demands, gaps, the frame a
start sends, the ends of an own frame, line health, MUTED and recovery. -/

namespace Sys2Proof.Machine

/-! ### Entering HELD and completing long commands (R95, R96, R190) -/

/-- A long command of a code completes: the slot passes from EXECUTING to DONE with its result and no data (R190). -/
def State.completeLong (s : State) (code : Byte) (r : Result) : State :=
  match s.cp.slot with
  | .executing c tag =>
    if c = code then
      { s with cp := { s.cp with slot := .done { code := c, tag := tag, result := r, data := [] } } }
    else s
  | _ => s

/-- The command code of CLOSE (Table 11.3.1). -/
def closeCode : Byte := 0x13

/-- The command code of FLUSH (Table 11.3.1). -/
def flushCode : Byte := 0x30

/-- The entry to HELD from CLOSING or MUTED (R96); the convergence condition is judged at the end of the event. -/
def State.enterHeld (s : State) : State :=
  { s with
    sc := { s.sc with station := .held, joinWindow := none, closeLimit := none }
    re := { s.re with summaryTimer := none }
    ac := { s.ac with leaveDue := false, mutedCause := .none } }

/-- CLOSING ends (R95). -/
def State.endClosing (s : State) (r : Result) : State := s.enterHeld.completeLong closeCode r

/-! ### Line health (R80, R81) -/

/-- The entry to MUTED from JOINING or ACTIVE (R80); the summary timer stops (R97). -/
def State.enterMuted (s : State) (c : Cause) : State :=
  let prior : Prior := if s.sc.station = .joining then .joining else .active
  let s' := s.abandonSession.emptyReplies
  { s' with
    sc := { s'.sc with station := .muted }
    re := { s'.re with summaryTimer := none }
    ac := { s'.ac with
      prior := prior, mutedCause := c, wait := 1, recovery := if c = Cause.duplicate then none else some 0
      probeDue := false } }.notify .lineMuted c.code

/-- A further cause in MUTED (R81). -/
def State.furtherCause (s : State) (c : Cause) : State :=
  match c, s.ac.mutedCause with
  | .stuck, .drive =>
    { s with ac := { s.ac with mutedCause := .stuck, recovery := some 0, probeDue := false } }.notify .lineMuted
      Cause.stuck.code
  | .stuck, .stuck => { s with ac := { s.ac with recovery := some 0, probeDue := false } }
  | .duplicate, .drive | .duplicate, .stuck =>
    { s with ac := { s.ac with mutedCause := .duplicate, recovery := none, probeDue := false } }.notify .lineMuted
      Cause.duplicate.code
  | _, _ => s

/-- Access Control takes a cause by the station state (Table 4.4.1); a change of state is judged (R106). -/
def State.takeCause (s : State) (c : Cause) : State :=
  match s.sc.station with
  | .replay | .held => s
  | .joining | .active => (s.enterMuted c).judge
  | .muted => s.furtherCause c
  | .closing => (s.endClosing .part).judge

/-! ### Demands and gaps (R70, R71) -/

/-- The demands of Table 4.1.1. -/
inductive Demand where
  | reply
  | repair
  | push
  | summary
  | newUpdate
  | leave
deriving DecidableEq, Repr

/-- The outbound list holds an id of a mark (R39). -/
def State.outboundHas (s : State) (m : Mark) : Bool :=
  s.re.outbound.any fun id => (s.entry id).any fun e => e.mark = m

/-- The demand is present (Table 4.1.1). -/
def State.demands (s : State) : Demand → Bool
  | .reply => !s.re.replyQueue.isEmpty
  | .repair => s.re.session.state ≠ .idle && s.re.session.raised
  | .push => s.outboundHas .push
  | .summary => s.ac.summaryDue
  | .newUpdate => s.outboundHas .new
  | .leave => s.ac.leaveDue

/-- The station state serves the demand (Table 4.1.1). -/
def State.servesDemand (s : State) : Demand → Bool
  | .reply | .repair | .summary => s.sc.station.onLine
  | .push | .newUpdate => s.sc.station.onLine || s.sc.station = .closing
  | .leave => s.sc.station = .closing && s.re.outbound.isEmpty

/-- The demand is present and served. -/
def State.wants (s : State) (d : Demand) : Bool := s.demands d && s.servesDemand d

/-- The class and the demand a start serves: the smallest gap first (R72), then the order of R73. -/
def State.nextDemand (s : State) : Option (GapClass × Demand) :=
  if s.wants .reply then some (.a, .reply)
  else if s.wants .repair then some (.b, .repair)
  else if s.wants .push then some (.b, .push)
  else if s.wants .summary then some (.c, .summary)
  else if s.wants .newUpdate then some (.c, .newUpdate)
  else if s.wants .leave then some (.c, .leave)
  else none

/-- The gap of a class (R71). -/
def State.gap (s : State) : GapClass → Nat
  | .a => 12
  | .b => 24
  | .c => 36 + 2 * stationNumber s.straps + (if s.ac.rest then 64 else 0)

/-! ### Building frames (R41, R42, R55, R73, R111) -/

/-- The entries packed from the outbound list for one mark: ids of the mark in list order, up to 4 records and 159 bytes
(R42). -/
def packOutbound (es : List Entry) (m : Mark) : List Nat → Nat → Nat → List Entry
  | [], _, _ => []
  | id :: ids, packed, bytes =>
    match findEntry es id with
    | none => packOutbound es m ids packed bytes
    | some e =>
      if e.mark ≠ m then packOutbound es m ids packed bytes
      else if packed = Config.maxRecords ∨ Config.maxRecordBytes < bytes + 8 + e.value.length then []
      else e :: packOutbound es m ids (packed + 1) (bytes + 8 + e.value.length)

/-- A frame that is not a reply, from this station (R51, R52). -/
def State.ownFrame (s : State) (flags : FrameFlags) (dst : Nat) (p : Payload) : Frame :=
  { flags := flags, src := stationNumber s.straps, dst := dst, seq := s.re.seq, payload := p }

/-- The SUMMARY this station sends (R55, R98). -/
def State.summaryFrame (s : State) (joining : Bool) : Frame :=
  s.ownFrame { FrameFlags.zero with joining := joining } 0
    (.summary s.pt.h s.pt.sharedCount s.cp.setup.interval s.pt.digests)

/-- The first bit of a frame goes out (R62, R72): LTXD is low, the receiver marks the frame as own. -/
def State.launch (s : State) (f : Frame) (cls : GapClass) (probe : Bool) (cargo : Cargo) : State :=
  { s with
    li := { s.li with
      receiver := .receiving true 0, quiet := 0, stuck := 0, stuckDeclared := false, line := .dominant
      flight := some { chars := f.chars, elapsed := 0, cls := cls, probe := probe, cargo := cargo } }
    ac := { s.ac with rest := if cls = .c then false else s.ac.rest } }

/-- The sequence counter rises at the first bit of a frame that is not a reply (R51). -/
def State.useSequence (s : State) : State := { s with re := { s.re with seq := s.re.seq + 1 } }

/-- An UPDATE of class B or C starts: its ids leave the list and their marks become NONE (R41), and convergence is judged
(R106). -/
def State.launchUpdate (s : State) (cls : GapClass) (m : Mark) : State :=
  let es := packOutbound s.pt.entries m s.re.outbound 0 0
  let ids := es.map Entry.id
  let f := s.ownFrame .zero 0 (.update (es.map Entry.record))
  let s' := s.useSequence.launch f cls false
    (.update (es.map fun e => { id := e.id, mark := e.mark, ver := e.ver }))
  { s' with
    re := { s'.re with outbound := s'.re.outbound.filter fun i => !ids.contains i }
    pt := s'.pt.mapEntries fun e => if ids.contains e.id then { e with mark := .none } else e }.judge

/-- The first bit of the frame that serves a demand (R73). -/
def State.startDemand (s : State) (cls : GapClass) : Demand → State
  | .reply =>
    match s.re.replyQueue with
    | [] => s
    | r :: _ =>
      let b := replyFrame s.pt.entries r.work
      s.launch { flags := b.2.1, src := stationNumber s.straps, dst := r.requester, seq := r.seq, payload := b.1 } cls false
        (.reply true b.2.1.end_ b.2.2)
  | .repair =>
    let se := s.re.session
    let p : Payload :=
      if se.state = .awaitListing then .listingRequest (bucketSet se.buckets) else .fetch se.want
    s.useSequence.launch (s.ownFrame .zero se.peer p) cls false (.request true)
  | .push => s.launchUpdate cls .push
  | .summary => s.useSequence.launch (s.summaryFrame (s.sc.station = .joining)) cls false .summary
  | .newUpdate => s.launchUpdate cls .new
  | .leave => s.useSequence.launch (s.ownFrame .zero 0 .leave) cls false .leave

/-- The line is dominant at the instant of starting: the part does not drive, and takes up the other station's frame (R72). -/
def State.deferStart (s : State) : State :=
  { s with li := { s.li with receiver := .receiving false 0, quiet := 0, stuck := 0, stuckDeclared := false, line := .dominant } }

/-- Nothing is being sent and the receiver waits for a frame (R58, R72). -/
def State.lineFree (s : State) : Bool :=
  s.li.flight.isNone && s.li.receiver = .idle && stationNumber s.straps ≠ 0

/-- FRAME_START (R72): the start of the served class with the smallest gap, at the instant the quiet count reaches that gap. -/
def execFrameStart (line : Level) (s : State) : Host.Outcome State Fault Refusal :=
  whenRunning s fun s =>
    match s.nextDemand with
    | some (cls, d) =>
      if s.lineFree then
        let s := s.passLine (s.gap cls - s.li.quiet)
        match line with
        | .dominant => s.deferStart
        | .recessive => s.startDemand cls d
      else s
    | none => s

/-! ### The end of an own frame (R43, R62, R74 to R77) -/

/-- A completed frame: its last bit has gone out, the receiver goes to SEEKING and FRAMES-SENT rises (R62); the post-send rest
is set by class C (R79). -/
def State.frameSent (s : State) (f : Flight) : State :=
  let s := s.passLine (10 * f.chars.length - f.elapsed)
  { s with
    li := { s.li with receiver := .seeking, line := .recessive, stuck := 0, stuckDeclared := false, flight := none }
    ac := { s.ac with rest := s.ac.rest || f.cls = GapClass.c } }.count fun c => { c with framesSent := satInc c.framesSent }

/-- What the completion of a frame does for its demand (R74, R111, R122, R125). A LEAVE that completes in CLOSING ends it with DONE
(R95), be it the LEAVE of an earlier CLOSING that ran on past its close limit (R75) and completes after a new OPEN and a new CLOSE,
whatever the outbound list then holds (DESIGN CHOICE, notes/assumptions/43.md). -/
def State.demandCompleted (s : State) (f : Flight) : State :=
  match f.cargo with
  | .update _ => s
  | .summary => { s with ac := { s.ac with summaryDue := false } }
  | .request awaited =>
    if awaited then s.setSession { s.re.session with raised := false, reqSeq := f.chars.getD 3 0, timer := 0 } else s
  | .reply forHead ends moved => s.replyCompleted forHead ends moved
  | .leave => if s.sc.station = .closing then (s.endClosing .done).judge else s

/-- FRAME_COMPLETE (R62); the completion of a probe in MUTED is PROBE_COMPLETE. -/
def execFrameComplete (s : State) : Host.Outcome State Fault Refusal :=
  whenRunning s fun s =>
    match s.li.flight with
    | some f => if f.probe = true ∧ s.sc.station = .muted then s else (s.frameSent f).demandCompleted f
    | none => s

/-- The ids of a withdrawn or cut UPDATE return to the head of the list, where they are not on it and their entry's version is
the one the frame carried (R43). -/
def State.restoreIds (s : State) (packed : List Packed) : State :=
  let back := packed.filter fun p =>
    !s.re.outbound.contains p.id && (s.entry p.id).any fun e => e.ver = p.ver
  { s with
    re := { s.re with outbound := back.map Packed.id ++ s.re.outbound }
    pt := s.pt.mapEntries fun e =>
      match back.find? fun p => p.id = e.id with
      | some p => { e with mark := p.mark }
      | none => e }

/-- A cut frame: ids restored, nothing cleared (R43, R74). -/
def State.frameUndone (s : State) (f : Flight) : State :=
  match f.cargo with
  | .update packed => s.restoreIds packed
  | _ => s

/-- The bit of a frame that goes out next or later, and has the given value. -/
def Flight.sends (f : Flight) (bit : Nat) (recessive : Bool) : Bool :=
  f.elapsed ≤ bit && (frameBits f.chars)[bit]? == some recessive

/-- The receiver without the own mark (R62). -/
def Receiver.disown : Receiver → Receiver
  | .receiving _ e => .receiving false e
  | r => r

/-- WITHDRAWAL (R76): a recessive bit read back dominant. -/
def execWithdrawal (bit : Nat) (s : State) : Host.Outcome State Fault Refusal :=
  whenRunning s fun s =>
    match s.li.flight with
    | some f =>
      if f.sends bit true then
        let s := s.passLine (bit - f.elapsed)
        let s := ({ s with
          li := { s.li with
            receiver := s.li.receiver.disown, quiet := 0, stuck := 0, stuckDeclared := false, line := .dominant
            flight := none } }).count fun c => { c with contentionLosses := satInc c.contentionLosses }
        match f.cargo with
        | .update packed => (s.restoreIds packed).judge
        | _ => s
      else s
    | none => s

/-- A probe cut by a drive fault in MUTED (R83). -/
def State.probeCut (s : State) : State :=
  { s with ac := { s.ac with
      mutedCause := .drive, wait := min Config.maxWait (2 * s.ac.wait), recovery := some 0, probeDue := false } }

/-- DRIVE_FAULT (R77): a dominant bit read back recessive. -/
def execDriveFault (bit : Nat) (s : State) : Host.Outcome State Fault Refusal :=
  whenRunning s fun s =>
    match s.li.flight with
    | some f =>
      if f.sends bit false then
        let s := s.passLine (bit - f.elapsed)
        let s := ({ s with
          li := { s.li with
            receiver := .seeking, quiet := 0, stuck := 0, stuckDeclared := false, line := .recessive
            flight := none } }).frameUndone f
        if f.probe = true ∧ s.sc.station = .muted then s.probeCut else s.takeCause .drive
      else s
    | none => s

/-! ### Recovery from MUTED (R82, R83) -/

/-- PROBE_DUE (R82): the recovery wait timer reaches W. -/
def execProbeDue (s : State) : Host.Outcome State Fault Refusal :=
  whenRunning s fun s =>
    match s.sc.station, s.ac.recovery with
    | .muted, some t =>
      if s.ac.probeDue then s
      else
        let s := s.passUntil t (1000 * s.ac.wait)
        { s with ac := { s.ac with probeDue := true } }
    | _, _ => s

/-- PROBE_START (R82): a due probe at a quiet count of 36 tB; its start clears the rest flag (R79). -/
def execProbeStart (line : Level) (s : State) : Host.Outcome State Fault Refusal :=
  whenRunning s fun s =>
    if s.sc.station = .muted ∧ s.ac.probeDue = true ∧ s.lineFree = true then
      let s := s.passLine (Config.probeGap - s.li.quiet)
      match line with
      | .dominant => s.deferStart
      | .recessive => s.useSequence.launch (s.summaryFrame (s.ac.prior = .joining)) .c true .summary
    else s

/-- The return from MUTED (R83, R97, R109). -/
def State.recover (s : State) : State :=
  (({ s with
    sc := { s.sc with station := match s.ac.prior with | .joining => .joining | .active => .active }
    re := { s.re with summaryTimer := some 0 }
    ac := { s.ac with mutedCause := .none, wait := 1, recovery := none, probeDue := false } }).notify .lineRestored
      0).searchSession

/-- PROBE_COMPLETE (R83): a probe completes with the station still in MUTED. -/
def execProbeComplete (s : State) : Host.Outcome State Fault Refusal :=
  whenRunning s fun s =>
    match s.li.flight with
    | some f =>
      if f.probe = true ∧ s.sc.station = .muted then ((s.frameSent f).demandCompleted f).recover.judge else s
    | none => s

end Sys2Proof.Machine
end

