-- ==== Sys2Proof/WellFormed.lean ====
section
/-! DEFINITION. Which terms of `Instr` name an event that the outside can bring: lengths, ranges and codes of the operands. -/

namespace Sys2Proof

/-- The parameters received are as many as the length byte says, or none when it ends the block (R183). -/
def Block.wf (b : Block) : Bool :=
  if b.len.toNat ≤ 40 then b.params.length == b.len.toNat else b.params.isEmpty

/-- The command codes of Table 11.3.1. -/
def knownCommands : List Byte := commandTable.map Prod.fst

/-- The characters are one whole frame: 7 + L, with L of char 4 at most 160 (R50, R59). -/
def wholeFrame (chars : List Byte) : Bool :=
  match chars[4]? with
  | some l => l.toNat ≤ 160 && chars.length == 7 + l.toNat
  | none => false

/-- The bytes, a command block's first bytes, do not make a complete block (R183): fewer than 3, or a length byte of at most 40
and fewer than 4 + n bytes. -/
def incompleteBlock (bytes : List Byte) : Bool :=
  match bytes[2]? with
  | some n => n.toNat ≤ 40 && bytes.length < 4 + n.toNat
  | none => true

/-- A station number that a roster entry stands for (R99). -/
def peerNumber (n : Nat) : Bool := 1 ≤ n && n ≤ 31

/-- A bit of a frame: at most 167 characters of 10 bits (R46, R47). -/
def frameBit (bit : Nat) : Bool := bit < 1670

/-- The well-formed commands. -/
def Instr.wf : Instr → Bool
  | .pinReset _ _ => true
  | .resetRelease _ => true
  | .restart _ => true
  | .restartTakesEffect _ _ => true
  | .readStatus _ => true
  | .otherTransactionCode t => (transactionOf t.code).isNone
  | .commandBlockAborted bytes => incompleteBlock bytes
  | .unknownCommand code b => !knownCommands.contains code && b.wf
  | .readResponse _ => true
  | .popEvent _ => true
  | .cmdStatus b => b.wf
  | .cmdSetup b => b.wf
  | .cmdOpen b => b.wf
  | .cmdClose b => b.wf
  | .cmdPut b => b.wf
  | .cmdRemove b => b.wf
  | .cmdGet b => b.wf
  | .cmdList b => b.wf
  | .cmdWatch b => b.wf
  | .cmdFlush b => b.wf
  | .flushComplete => true
  | .cmdJournalInfo b => b.wf
  | .cmdRoster b => b.wf
  | .cmdCounters b => b.wf
  | .frameStart _ => true
  | .frameComplete => true
  | .withdrawal bit => frameBit bit
  | .driveFault bit => frameBit bit
  | .probeDue => true
  | .probeStart _ => true
  | .probeComplete => true
  | .frameReceived chars => wholeFrame chars
  | .framingError d => 9 ≤ d.bit && d.run ≤ 9
  | .formatError char4 => 160 < char4.toNat
  | .gapError quiet => 4 ≤ quiet && quiet ≤ 12
  | .receiverIdle => true
  | .stuckDeclaration => true
  | .takeFrame => true
  | .replyTimeout => true
  | .summaryTimerExpiry => true
  | .joinWindowExpiry => true
  | .closeLimitExpiry => true
  | .peerLost n => peerNumber n
  | .peerAbsent n => peerNumber n
  | .append => true
  | .copy => true
  | .erase => true
  | .programNotBusy _ => true
  | .programVerify => true
  | .programTimeout _ => true
  | .eraseCheck => true
  | .eraseTimeout _ => true
  | .lreqAsserted => true
  | .lendGrant => true
  | .lreqDeasserted _ => true
  | .busyCheckEnd => true
  | .busyCheckTimeout => true
  | .headerSurvey => true
  | .bandWalk => true
  | .startBit _ => true
  | .lossOfSupply _ _ => true

end Sys2Proof
end

