-- ==== Sys2Proof/Machine/Receiver.lean ====
section
/-! DEFINITION. The receive path (chapter 3): start bits, the frames of other stations and their errors, the idle line and the
stuck line. -/

namespace Sys2Proof.Machine

/-- The receiver has left a frame and waits for quiet, the line being recessive with a quiet count (R58, R59). -/
def State.seekQuiet (s : State) (quiet : Nat) : State :=
  { s with li := { s.li with
      receiver := .seeking, quiet := quiet, stuck := 0, stuckDeclared := false, line := .recessive } }

/-- Within a frame of another station (R62): the tB since its first start bit. -/
def State.foreign (s : State) : Option Nat :=
  match s.li.receiver with
  | .receiving false e => some e
  | _ => none

/-- What a change of the level makes of the receiver in IDLE (R58): a start bit that passes R48 begins a frame. -/
def idleAfter : LineChange → Receiver
  | .start => .receiving false 0
  | .noise | .release => .idle

/-- START_BIT (R48, R49, R67): the level on LRXD changes. While the Line Interface is off the counts stay 0 and the level alone is
known; while this station sends, the line carries its bits. -/
def execStartBit (c : LineChange) (s : State) : Host.Outcome State Fault Refusal :=
  whenRunning s fun s =>
    match s.li.receiver with
    | .off => { s with li := { s.li with line := (s.li.change c).line } }
    | .idle => { s with li := { s.li.change c with receiver := idleAfter c } }
    | .seeking | .receiving false _ => { s with li := s.li.change c }
    | .receiving true _ => s

/-- A duplicate station number is detected (R63). -/
def State.duplicateStation (s : State) : State :=
  (if s.sc.station = .muted ∧ s.ac.mutedCause = .duplicate then s else s.notify .duplicateStation 0).takeCause .duplicate

/-- An accepted frame: it joins the receive buffer, or is dropped as an overrun (R64). -/
def State.bufferFrame (s : State) (chars : List Byte) : State :=
  if Config.maxFrames ≤ s.re.rxBuffer.length then s.count fun c => { c with overruns := satInc c.overruns }
  else
    { s with re := { s.re with rxBuffer := s.re.rxBuffer ++ [chars] } }.count
      fun c => { c with framesReceived := satInc c.framesReceived }

/-- A completed frame that is not marked as own (R61, R63, R64). -/
def State.testFrame (s : State) (chars : List Byte) : State :=
  if !frameCheckGood chars then s.count fun c => { c with checkErrors := satInc c.checkErrors }
  else match parseFrame chars with
    | none => s.count fun c => { c with formatErrors := satInc c.formatErrors }
    | some f => if f.src = stationNumber s.straps then s.duplicateStation else s.bufferFrame chars

/-- FRAME_RECEIVED (R59, R61, R64): the stop bit of the last character is sampled recessive. -/
def execFrameReceived (chars : List Byte) (s : State) : Host.Outcome State Fault Refusal :=
  whenRunning s fun s =>
    match s.foreign with
    | some e =>
      if wholeFrame chars then
        ((s.passLine (10 * chars.length - 1 - e)).seekQuiet (trailingRecessive (chars.getLastD 0))).testFrame chars
      else s
    | none => s

/-- FRAMING-ERRORS rises by one (R59, R60). -/
def State.countFraming (s : State) : State := s.count fun c => { c with framingErrors := satInc c.framingErrors }

/-- FRAMING_ERROR (R59): a stop bit is sampled dominant, at the end of a dominant run of which the stuck count takes the part in
which this station has not driven the line (R67). The first stop bit is bit 9, and a bit that has gone by is no event
(notes/assumptions/3.md). -/
def execFramingError (d : DominantStop) (s : State) : Host.Outcome State Fault Refusal :=
  whenRunning s fun s =>
    match s.foreign with
    | some e =>
      if 9 ≤ d.bit ∧ e ≤ d.bit ∧ d.run ≤ 9 then
        let s := s.passLine (d.bit - e)
        { s with li := { s.li with
            receiver := .seeking, quiet := 0, stuck := s.li.dominantRun d.run, stuckDeclared := false
            line := .dominant } }.countFraming
      else s
    | none => s

/-- FORMAT_ERROR (R59): char 4 above 160. -/
def execFormatError (char4 : Byte) (s : State) : Host.Outcome State Fault Refusal :=
  whenRunning s fun s =>
    match s.foreign with
    | some e =>
      if 160 < char4.toNat then
        ((s.passLine (49 - e)).seekQuiet (trailingRecessive char4)).count
          fun c => { c with formatErrors := satInc c.formatErrors }
      else s
    | none => s

/-- GAP_ERROR (R60): more than 3 tB of recessive after a stop bit inside a frame, the quiet count being `quiet`. The instant is
the end of the third tB after the stop bit, and a quiet count below 4, as a noise pulse between two characters leaves it, is no
event (notes/assumptions/33.md, notes/assumptions/34.md). -/
def execGapError (quiet : Nat) (s : State) : Host.Outcome State Fault Refusal :=
  whenRunning s fun s =>
    match s.foreign with
    | some e => if 4 ≤ quiet ∧ quiet ≤ 12 then ((s.passLine (13 - e)).seekQuiet quiet).countFraming else s
    | none => s

/-- RECEIVER_IDLE (R58): the quiet count reaches 10 in SEEKING. A line last told dominant is released at the command, since the
count is 0 until then (notes/assumptions/3.md). -/
def execReceiverIdle (s : State) : Host.Outcome State Fault Refusal :=
  whenRunning s fun s =>
    if s.li.receiver = .seeking then
      let s := { s with li := s.li.change .release }
      let s := s.passLine (Config.idleQuiet - s.li.quiet)
      { s with li := { s.li with receiver := .idle } }
    else s

/-- STUCK_DECLARATION (R67): the stuck count reaches 200, once for a dominant run. -/
def execStuckDeclaration (s : State) : Host.Outcome State Fault Refusal :=
  whenRunning s fun s =>
    if s.li.receiver = .seeking ∧ s.li.line = .dominant ∧ s.li.stuckDeclared = false then
      let s := s.passLine (Config.stuckLimit - s.li.stuck)
      { s with li := { s.li with stuckDeclared := true } }.takeCause .stuck
    else s

end Sys2Proof.Machine
end

