-- ==== Sys2Proof/Machine/Roster.lean ====
section
/-! DEFINITION. The taking of frames from the receive buffer (R65, R66), the Peer Roster and the timers of the station's life
(chapter 5). -/

namespace Sys2Proof.Machine

/-! ### Taking a frame -/

/-- The generations a frame carries (R16). -/
def Payload.generations : Payload → List Nat
  | .update recs => recs.map LineRecord.gen
  | .summary h _ _ _ => [h]
  | .listing _ _ quads => quads.map fun q => q.ver.gen
  | .listingRequest _ | .fetch _ | .leave => []

/-- H is raised by each generation a taken frame carries (R16). -/
def State.raiseH (s : State) (p : Payload) : State := { s with pt := p.generations.foldl ParamTable.raiseH s.pt }

/-- The refresh of the source's roster entry by any frame but a LEAVE (R100). -/
def State.refresh (s : State) (n : Nat) : State :=
  match (s.peer n).presence with
  | .present => s.updatePeer n fun p => { p with lastHeard := some s.clk.now }
  | .absent => (s.updatePeer n fun p => { p with lastHeard := some s.clk.now, presence := .present }).notify .peerJoined n
  | .silent =>
    (s.updatePeer n fun p =>
      { p with
        lastHeard := some s.clk.now, presence := .present, agreement := .unknown, mask := 0, wanted := false }).notify
      .peerJoined n

/-- The buckets in which digests differ (R102). -/
def differing (own theirs : List Half) : BucketSet :=
  bucketSet ((List.range Config.buckets).filter fun b => own[b]? ≠ theirs[b]?)

/-- The agreement set by a SUMMARY (R102). -/
def Peer.compare (p : Peer) (diff : BucketSet) : Peer :=
  if diff = 0 then { p with agreement := .agree, mask := 0, wanted := false, failures := 0 }
  else { p with agreement := .disagree, mask := diff, wanted := true }

/-- The station states in which records are applied and agreement is set (Table 5.1.3). -/
def Station.applies : Station → Bool
  | .joining | .active | .muted | .closing => true
  | .replay | .held => false

/-- The early summary on a JOINING flag (R98). -/
def State.earlySummary (s : State) : State :=
  if s.sc.station.onLine then
    { s with ac := { s.ac with summaryDue := true }, re := { s.re with summaryTimer := some 0 } }
  else s

/-- A SUMMARY is taken (R98, R101, R102, R109). -/
def State.takeSummary (s : State) (n h count interval : Nat) (digests : List Half) (joining : Bool) : State :=
  let s := s.updatePeer n fun p => { p with h := h, count := count, interval := some interval, joining := joining }
  if s.sc.station.applies then
    let diff := differing s.pt.digests digests
    let s := s.updatePeer n fun p => p.compare diff
    let s := if diff = 0 then s else s.testSession n
    if joining then s.earlySummary else s
  else s

/-- The source of a LEAVE departs (R103, R121, R128). -/
def State.peerLeft (s : State) (n : Nat) : State :=
  if (s.peer n).presence = .absent then s
  else
    let s := ((s.updatePeer n fun _ => .cleared).notify .peerLeft n).dropRequest n
    if s.re.session.state ≠ .idle ∧ s.re.session.peer = n then s.closeSession.searchSession else s

/-- A LISTING-REQUEST or FETCH is taken: placed when it is addressed to this station in JOINING or ACTIVE (R124). -/
def State.takeRequest (s : State) (f : Frame) (w : Work) : State :=
  if f.dst = stationNumber s.straps ∧ s.sc.station.onLine = true then
    s.placeRequest { requester := f.src, seq := f.seq, work := w, completed := false }
  else s

/-- The work of a frame's kind beyond H and the refresh (Table 3.4.3). -/
def State.takeKind (s : State) (f : Frame) : State :=
  match f.payload with
  | .update recs =>
    if s.sc.station.applies then
      let hit := s.matchesSession f
      let s := recs.foldl State.applyRecord s
      if hit then s.takeReplyUpdate f.flags.end_ else s
    else s
  | .summary h count interval digests => s.takeSummary f.src h count interval digests f.flags.joining
  | .listingRequest m => s.takeRequest f (.listing (bucketList m) 0 0 none)
  | .listing b part quads => if s.matchesSession f then s.takeListing b part quads f.flags else s
  | .fetch ids => s.takeRequest f (.fetch ids 0)
  | .leave => s.peerLeft f.src

/-- A frame leaves the buffer and acts: H, the roster, then its kind (R65, R66, R100). -/
def State.actOn (s : State) (f : Frame) : State :=
  let s := s.raiseH f.payload
  (if f.payload = .leave then s else s.refresh f.src).takeKind f

/-- TAKE_FRAME (R65). -/
def execTakeFrame (s : State) : Host.Outcome State Fault Refusal :=
  whenRunning s fun s =>
    match s.re.rxBuffer with
    | chars :: rest =>
      if s.sc.station = .replay then s
      else
        let s := { s with re := { s.re with rxBuffer := rest } }
        match parseFrame chars with
        | some f => (s.actOn f).judge
        | none => s
    | [] => s

/-! ### Timers (R91, R95, R97, R112) -/

/-- REPLY_TIMEOUT (R112, R119): the reply timer reaches the reply timeout, or has reached it already as a frame begins; while
the receiver takes in a frame the timer is held. -/
def execReplyTimeout (s : State) : Host.Outcome State Fault Refusal :=
  whenRunning s fun s =>
    let se := s.re.session
    if se.state ≠ .idle ∧ se.raised = false
        ∧ (s.li.receiver.busy = false ∨ 10 * s.cp.setup.replyTimeout ≤ se.timer) then
      (s.passLine (10 * s.cp.setup.replyTimeout - se.timer)).sessionTimeout
    else s

/-- SUMMARY_TIMER_EXPIRY (R97). -/
def execSummaryTimerExpiry (s : State) : Host.Outcome State Fault Refusal :=
  whenRunning s fun s =>
    match s.re.summaryTimer with
    | some t =>
      let s := s.passUntil t (100 * s.cp.setup.interval)
      { s with re := { s.re with summaryTimer := some 0 }, ac := { s.ac with summaryDue := true } }
    | none => s

/-- JOIN_WINDOW_EXPIRY (R91): three summary intervals. -/
def execJoinWindowExpiry (s : State) : Host.Outcome State Fault Refusal :=
  whenRunning s fun s =>
    match s.sc.joinWindow with
    | some t => (s.passUntil t (300 * s.cp.setup.interval)).endJoinWindow.judge
    | none => s

/-- CLOSE_LIMIT_EXPIRY (R93, R95): four summary intervals. -/
def execCloseLimitExpiry (s : State) : Host.Outcome State Fault Refusal :=
  whenRunning s fun s =>
    match s.sc.station, s.sc.closeLimit with
    | .closing, some t => ((s.passUntil t (400 * s.cp.setup.interval)).endClosing .part).judge
    | _, _ => s

/-! ### Silence (R104) -/

/-- The advertised interval of an entry, or the own interval while it has none (R104). -/
def State.intervalOf (s : State) (p : Peer) : Nat := p.interval.getD s.cp.setup.interval

/-- Time passes until a peer has been unheard for more than `ms` milliseconds. -/
def State.passSilence (s : State) (p : Peer) (ms : Nat) : State :=
  match p.lastHeard with
  | some t => s.passUntil s.clk.now (t + ms + 1)
  | none => s

/-- PEER_LOST (R104, R121, R128). -/
def execPeerLost (station : Nat) (s : State) : Host.Outcome State Fault Refusal :=
  whenRunning s fun s =>
    let p := s.peer station
    if s.sc.station ≠ .replay ∧ p.presence = .present then
      let s := s.passSilence p (400 * s.intervalOf p)
      let s := ((s.updatePeer station fun p => { p with presence := .silent }).notify .peerLost station).dropRequest station
      (if s.re.session.state ≠ .idle ∧ s.re.session.peer = station then s.abandonSession.searchSession else s).judge
    else s

/-- PEER_ABSENT (R104). -/
def execPeerAbsent (station : Nat) (s : State) : Host.Outcome State Fault Refusal :=
  whenRunning s fun s =>
    let p := s.peer station
    if s.sc.station ≠ .replay ∧ p.presence = .silent then
      let s := s.passSilence p (1600 * s.intervalOf p)
      (s.updatePeer station fun _ => .cleared).judge
    else s

end Sys2Proof.Machine
end

