-- ==== Sys2Proof/Machine/CommandPort.lean ====
section
/-! DEFINITION. The command port (chapter 11): transactions, the command slot, the commands, and the popping of events. -/

namespace Sys2Proof.Machine

/-! ### Transactions (R180, R181) -/

/-- A transaction begins: one that went on is over, and REJECTED clears, the status byte that carries it being clocked out whole
(R181). No block can be rejected between the assertion of SSEL and that instant, so the byte carries the flag as it stands. -/
def State.beginTransaction (s : State) : State :=
  { s with cp := { s.cp with transaction := none, rejected := false } }

/-- What the part returned in this transaction (R180). -/
def State.returns (s : State) (bytes : List Byte) : State := { s with cp := { s.cp with smiso := bytes } }

/-- A transaction that returns the status byte and then `n` bytes 00H, and has no other effect (R180). -/
def State.statusOnly (s : State) (n : Nat) : State := s.beginTransaction.returns (s.latched :: List.replicate n 0)

/-- A transaction of the host, from the assertion of SSEL to its deassertion, joins the waiting commands as the command that its
bits on SMOSI make (R180). One that comes in parts is told by its parts instead (notes/assumptions/18.md). -/
def State.clockIn (s : State) (bits : List Bool) : State := { s with pending := s.pending ++ [decodeTransaction bits] }

/-- SSEL is asserted: the status byte of the transaction is taken (R180). -/
def State.select (s : State) : State :=
  { s with cp := { s.cp with transaction := some (.selected s.statusByte), smiso := [] } }

/-- READ_STATUS (R180, R181): REJECTED clears only when the status byte has been clocked out whole; bytes after it return 00H. -/
def execReadStatus (r : StatusRead) (s : State) : Host.Outcome State Fault Refusal :=
  whenRunning s fun s =>
    match r with
    | .select => s.select
    | .clocked bits =>
      if bits < 8 then { s with cp := { s.cp with transaction := none, smiso := [] } } else s.statusOnly (bits / 8 - 1)

/-- OTHER_TRANSACTION_CODE (R180): a code that selects no transaction. -/
def execOtherTransactionCode (t : OtherCode) (s : State) : Host.Outcome State Fault Refusal :=
  whenRunning s fun s => if (transactionOf t.code).isNone then s.statusOnly t.extra else s

/-- RESTART (R185): effective when exactly the code has been clocked in. -/
def execRestart (extraBits : Nat) (s : State) : Host.Outcome State Fault Refusal :=
  whenRunning s fun s =>
    let s' := s.statusOnly (extraBits / 8)
    if extraBits = 0 then { s' with cp := { s'.cp with restarting := true } } else s'

/-- The slot is set. -/
def State.setSlot (s : State) (sl : Slot) : State := { s with cp := { s.cp with slot := sl } }

/-- What is returned while `n` bytes are clocked: the content as far as they reach, and 00H beyond its end (R180). -/
def clockedOut (content : List Byte) (n : Nat) : List Byte := content.take n ++ List.replicate (n - content.length) 0

/-- READ-RESPONSE up to its code byte: what it returns is fixed (R184). -/
def State.startRead (s : State) : State :=
  let r : Option Response := match s.cp.slot with
    | .done r => some r
    | _ => none
  let s' := s.beginTransaction.returns [s.latched]
  { s' with cp := { s'.cp with transaction := some (.read s.latched r) } }

/-- The rest of a READ-RESPONSE, `n` bytes of it: when they reach the last bit of a response's check, the slot becomes EMPTY
(R184). -/
def State.restRead (s : State) (n : Nat) : State :=
  match s.cp.transaction with
  | some (.read status r) =>
    let s' := { s with cp := { s.cp with transaction := none, smiso := status :: clockedOut (responseBytes r) n } }
    if r.isSome = true ∧ (responseBytes r).length ≤ n then s'.setSlot .empty else s'
  | _ => s

/-- READ_RESPONSE (R184). -/
def execReadResponse (p : Portion) (s : State) : Host.Outcome State Fault Refusal :=
  whenRunning s fun s =>
    match p with
    | .whole n => s.startRead.restRead n
    | .start => s.startRead
    | .rest n => s.restRead n

/-- POP-EVENT up to its code byte: the head event is taken up (R192). -/
def State.startPop (s : State) : State :=
  let s' := s.beginTransaction.returns [s.latched]
  { s' with cp := { s'.cp with transaction := some (.pop s.latched s.cp.notify.head?) } }

/-- The rest of a POP-EVENT, `n` bytes of it: when they reach the last bit of its third byte, the event leaves the queue (R192). -/
def State.restPop (s : State) (n : Nat) : State :=
  match s.cp.transaction with
  | some (.pop status e) =>
    { s with cp := { s.cp with
        transaction := none, smiso := status :: clockedOut (eventBytes e) n
        notify := match e with
          | some e => if 3 ≤ n then popQueue s.cp.notify e else s.cp.notify
          | none => s.cp.notify } }
  | _ => s

/-- POP_EVENT (R192). -/
def execPopEvent (p : Portion) (s : State) : Host.Outcome State Fault Refusal :=
  whenRunning s fun s =>
    match p with
    | .whole n => s.startPop.restPop n
    | .start => s.startPop
    | .rest n => s.restPop n

/-! ### The command slot (R183, R186) -/

/-- What a command's carrying out gives: a result with data, or a long command that goes on (R186, R190). -/
inductive Reply where
  | answer (r : Result) (data : List Byte) (s : State)
  | wait (s : State)

/-- A refusal: no state changes (R186). -/
def refuse (r : Result) (s : State) : Reply := .answer r [] s

/-- The slot after a command has been carried out (R186). -/
def Reply.settle (code tag : Byte) : Reply → State
  | .answer r data s => s.setSlot (.done { code := code, tag := tag, result := r, data := data })
  | .wait s => s.setSlot (.executing code tag)

/-- A complete command block is judged by the slot (R183); a good block with a known code is carried out by `body`. -/
def State.judgeBlock (s : State) (code : Byte) (b : Block) (body : List Byte → State → Reply) : State :=
  let s := s.statusOnly (blockCount b + b.extra)
  if !s.cp.slot.isEmpty then { s with cp := { s.cp with rejected := true } }
  else if !blockGood code b then s.setSlot (.done { code := code, tag := b.tag, result := .badBlock, data := [] })
  else (body b.params (s.setSlot (.executing code b.tag))).settle code b.tag

/-- A SEND-COMMAND transaction with a whole command block (R183, R186). -/
def sendCommand (code : Byte) (b : Block) (body : List Byte → State → Reply) (s : State) :
    Host.Outcome State Fault Refusal :=
  whenRunning s fun s => s.judgeBlock code b body

/-- COMMAND_BLOCK_ABORTED (R183): the bytes taken are discarded and the slot is not changed. -/
def execCommandBlockAborted (bytes : List Byte) (s : State) : Host.Outcome State Fault Refusal :=
  whenRunning s fun s => s.statusOnly bytes.length

/-- UNKNOWN_COMMAND (R183). -/
def execUnknownCommand (code : Byte) (b : Block) (s : State) : Host.Outcome State Fault Refusal :=
  sendCommand code b (fun _ s => refuse .unknownCommand s) s

/-- The tests 1 and 2 of R186 that every command has: the station state REPLAY, and the parameters' length and ranges. -/
def tested (inReplay fits : Bool) (s : State) (k : Reply) : Reply :=
  if s.sc.station = .replay && !inReplay then refuse .refusedState s
  else if !fits then refuse .refusedLength s
  else k

/-! ### Commands that read state (R187) -/

/-- The data of STATUS (Table 11.3.1). -/
def State.statusData (s : State) : List Byte :=
  [byte1 s.sc.station.code, byte1 (stationNumber s.straps)] ++ le32 s.pt.h ++ le16 s.pt.entryCount ++ le16 s.pt.slotsUsed
    ++ le16 s.re.outbound.length
    ++ [byte1 s.jc.queue.length, byte1 (boolCode s.sc.converged), byte1 (boolCode s.jc.fault), byte1 s.ac.mutedCause.code]

/-- STATUS (R187). -/
def statusBody (p : List Byte) (s : State) : Reply := tested true p.isEmpty s (.answer .done s.statusData s)

/-- STATUS. -/
def execCmdStatus (b : Block) (s : State) : Host.Outcome State Fault Refusal := sendCommand 0x10 b statusBody s

/-- The data of GET (Table 11.3.1). -/
def Entry.getData (e : Entry) : List Byte :=
  le16 e.id ++ [byte1 e.scope.code] ++ le32 e.ver.gen ++ [byte1 e.ver.origin] ++ le16 e.ver.check.toNat
    ++ [byte1 e.jstate.code, byte1 e.value.length] ++ e.value

/-- GET (R187). -/
def getBody (p : List Byte) (s : State) : Reply :=
  tested false (p.length == 2) s
    (if !validId (num p 0 2) then refuse .refusedId s
    else match s.entry (num p 0 2) with
      | some e => .answer .done e.getData s
      | none => refuse .notFound s)

/-- GET. -/
def execCmdGet (b : Block) (s : State) : Host.Outcome State Fault Refusal := sendCommand 0x22 b getBody s

/-- The filter of LIST (Table 11.3.1). -/
def Entry.passes (e : Entry) (filter : Nat) : Bool :=
  match filter with
  | 0 => true
  | 1 => e.scope = .shared
  | 2 => e.scope = .loc
  | _ => e.jstate = .unsaved

/-- The data of LIST: the count, more, and up to `max` ids above the from-id that pass the filter (R187). -/
def State.listData (s : State) (from_ max filter : Nat) : List Byte :=
  let hits := s.pt.entries.filter fun e => from_ < e.id && e.passes filter
  let ids := (hits.take max).map Entry.id
  [byte1 ids.length, byte1 (boolCode (max < hits.length))] ++ ids.flatMap le16

/-- LIST (R187). -/
def listBody (p : List Byte) (s : State) : Reply :=
  tested false (p.length == 4 && 1 ≤ num p 2 1 && num p 2 1 ≤ 20 && num p 3 1 ≤ 3) s
    (if Config.maxId < num p 0 2 then refuse .refusedId s
    else .answer .done (s.listData (num p 0 2) (num p 2 1) (num p 3 1)) s)

/-- LIST. -/
def execCmdList (b : Block) (s : State) : Host.Outcome State Fault Refusal := sendCommand 0x23 b listBody s

/-- The rows of the band table in a state. -/
def Journal.rows (jc : Journal) (st : BandState) : Nat := jc.bands.countP fun r => r.state = st

/-- The FULL count of JOURNAL-INFO: with a row RETIRING for compaction, without one held RETIRING until a replay erase (R187). -/
def Journal.fullRows (jc : Journal) : Nat :=
  jc.bands.countP fun r => r.state = .full || (r.state = .retiring && r.seq.isSome)

/-- The sequence of a band's row. -/
def Journal.seqOf (jc : Journal) (band : Nat) : Option Nat := (jc.bands[band]?).bind BandRow.seq

/-- The data of JOURNAL-INFO (Table 11.3.1). -/
def State.journalData (s : State) : List Byte :=
  let jc := s.jc
  [byte1 (bandCount s.straps), byte1 (jc.rows .erased), byte1 jc.fullRows, byte1 (jc.rows .bad), byte1 (boolCode jc.head.isSome)]
    ++ le32 ((jc.head.bind fun h => jc.seqOf h.band).getD 0)
    ++ le16 (match jc.head with | some h => Config.bandBytes - h.pos | none => 0)
    ++ le32 jc.stranded ++ le32 jc.anomalies
    ++ [byte1 (boolCode (jc.compaction ≠ .idle)), byte1 s.sp.lend.code] ++ le32 s.sp.lendCount

/-- JOURNAL-INFO (R187). -/
def journalBody (p : List Byte) (s : State) : Reply := tested true p.isEmpty s (.answer .done s.journalData s)

/-- JOURNAL_INFO. -/
def execCmdJournalInfo (b : Block) (s : State) : Host.Outcome State Fault Refusal := sendCommand 0x31 b journalBody s

/-- Milliseconds since a peer was last heard (R187). -/
def State.msSince (s : State) (p : Peer) : Nat :=
  match p.lastHeard with
  | some t => min (Config.countLimit - 1) (s.clk.now - t)
  | none => Config.countLimit

/-- The data of ROSTER (Table 11.3.1). -/
def State.rosterData (s : State) (n : Nat) : List Byte :=
  let p := s.peer n
  [byte1 p.presence.code] ++ le32 (s.msSince p) ++ [byte1 (p.interval.getD 0)] ++ le32 p.h ++ le16 p.count
    ++ [byte1 (boolCode p.joining), byte1 p.agreement.code] ++ bucketBytes p.mask
    ++ [byte1 (boolCode p.wanted), byte1 p.failures]

/-- ROSTER (R187). -/
def rosterBody (p : List Byte) (s : State) : Reply :=
  tested false (p.length == 1 && validStation (num p 0 1)) s (.answer .done (s.rosterData (num p 0 1)) s)

/-- ROSTER. -/
def execCmdRoster (b : Block) (s : State) : Host.Outcome State Fault Refusal := sendCommand 0x40 b rosterBody s

/-- COUNTERS (R189): read and, with clear 1, set to 0 in the same event. -/
def countersBody (p : List Byte) (s : State) : Reply :=
  tested true (p.length == 1 && num p 0 1 ≤ 1) s
    (.answer .done s.cp.counters.bytes (if num p 0 1 = 1 then s.count fun _ => .zero else s))

/-- COUNTERS. -/
def execCmdCounters (b : Block) (s : State) : Host.Outcome State Fault Refusal := sendCommand 0x41 b countersBody s

/-! ### Commands that change state (R188) -/

/-- SETUP (R188). -/
def setupBody (p : List Byte) (s : State) : Reply :=
  tested false (p.length == 3 && 1 ≤ num p 0 1 && 16 ≤ num p 1 1 && num p 2 1 ≤ 1) s
    (if s.sc.station = .held && s.cp.setupAllowed then
      .answer .done []
        { s with cp := { s.cp with
            setup := { interval := num p 0 1, replyTimeout := num p 1 1, watchNew := num p 2 1 == 1 }
            setupAllowed := false } }
    else refuse .refusedState s)

/-- SETUP. -/
def execCmdSetup (b : Block) (s : State) : Host.Outcome State Fault Refusal := sendCommand 0x11 b setupBody s

/-- What OPEN leaves of a roster entry (R90). -/
def Peer.opened (p : Peer) : Peer := { p with agreement := .unknown, mask := 0, wanted := false, failures := 0 }

/-- An accepted OPEN (R90). -/
def State.openStation (s : State) : State :=
  { s with
    sc := { s.sc with station := .joining, joinWindow := some 0 }
    re := { s.re with
      roster := s.re.roster.map Peer.opened
      summaryTimer := some 0 }
    ac := { s.ac with summaryDue := true }
    cp := { s.cp with setupAllowed := false } }.judge

/-- OPEN (R89, R90). -/
def openBody (p : List Byte) (s : State) : Reply :=
  tested false p.isEmpty s
    (if s.sc.station ≠ .held then refuse .refusedState s
    else if stationNumber s.straps = 0 then refuse .refusedNoStation s
    else .answer .done [] s.openStation)

/-- OPEN. -/
def execCmdOpen (b : Block) (s : State) : Host.Outcome State Fault Refusal := sendCommand 0x12 b openBody s

/-- CLOSE taken in JOINING or ACTIVE (R93). -/
def State.startClosing (s : State) : State :=
  let s' := s.abandonSession.emptyReplies
  { s' with
    sc := { s'.sc with station := .closing, joinWindow := none, closeLimit := some 0 }
    re := { s'.re with summaryTimer := none }
    ac := { s'.ac with summaryDue := false, leaveDue := true } }.judge

/-- CLOSE taken in MUTED (R84, R92). -/
def State.closeMuted (s : State) : State :=
  { s.enterHeld with ac := { s.enterHeld.ac with summaryDue := false, recovery := none, probeDue := false } }.judge

/-- CLOSE (R92, R93). -/
def closeBody (p : List Byte) (s : State) : Reply :=
  tested false p.isEmpty s
    (match s.sc.station with
    | .joining | .active => .wait s.startClosing
    | .muted => .answer .done [] s.closeMuted
    | .replay | .held | .closing => refuse .refusedState s)

/-- CLOSE. -/
def execCmdClose (b : Block) (s : State) : Host.Outcome State Fault Refusal := sendCommand 0x13 b closeBody s

/-- The states in which a SHARED entry may be put or removed (Table 5.1.3). -/
def Station.changesShared : Station → Bool
  | .joining | .active | .muted => true
  | .replay | .held | .closing => false

/-- The scope of a PUT's scope byte. -/
def scopeOf (n : Nat) : Scope := if n = 0 then .shared else .loc

/-- PUT (R24, R188). -/
def putBody (p : List Byte) (s : State) : Reply :=
  tested false (4 ≤ p.length && p.length ≤ 35 && num p 2 1 ≤ 1) s
    (if !validId (num p 0 2) then refuse .refusedId s
    else if scopeOf (num p 2 1) = .shared && !s.sc.station.changesShared then refuse .refusedState s
    else
      let r := s.localPut (num p 0 2) (scopeOf (num p 2 1)) (p.drop 3)
      .answer r.1 [] r.2)

/-- PUT. -/
def execCmdPut (b : Block) (s : State) : Host.Outcome State Fault Refusal := sendCommand 0x20 b putBody s

/-- REMOVE (R27, R30, R188): the state is judged on the scope of the entry held. -/
def removeBody (p : List Byte) (s : State) : Reply :=
  tested false (p.length == 2) s
    (if !validId (num p 0 2) then refuse .refusedId s
    else if (s.entry (num p 0 2)).any (fun e => e.scope = .shared) && !s.sc.station.changesShared then
      refuse .refusedState s
    else
      let r := s.localRemove (num p 0 2)
      .answer r.1 [] r.2)

/-- REMOVE. -/
def execCmdRemove (b : Block) (s : State) : Host.Outcome State Fault Refusal := sendCommand 0x21 b removeBody s

/-- WATCH (R7, R188). -/
def watchBody (p : List Byte) (s : State) : Reply :=
  tested false (p.length == 3 && num p 2 1 ≤ 1) s
    (if !validId (num p 0 2) then refuse .refusedId s
    else match s.entry (num p 0 2) with
      | none => refuse .notFound s
      | some e =>
        if e.scope = .loc then refuse .refusedScope s
        else .answer .done [] (s.mapEntry (num p 0 2) fun e => { e with watch := num p 2 1 == 1 }))

/-- WATCH. -/
def execCmdWatch (b : Block) (s : State) : Host.Outcome State Fault Refusal := sendCommand 0x24 b watchBody s

/-! ### FLUSH (R159) -/

/-- The condition of FLUSH: the journal queue is empty and no entry is UNSAVED (R159). -/
def State.flushed (s : State) : Bool := s.jc.queue.isEmpty && s.pt.entries.all fun e => e.jstate ≠ .unsaved

/-- FLUSH (R159). -/
def flushBody (p : List Byte) (s : State) : Reply :=
  tested false p.isEmpty s
    (if s.jc.fault then .answer .failedStorage [] s
    else if s.flushed then .answer .done [] s
    else .wait s)

/-- FLUSH. -/
def execCmdFlush (b : Block) (s : State) : Host.Outcome State Fault Refusal := sendCommand 0x30 b flushBody s

/-- A waiting FLUSH completes at the end of an event after which its condition holds (R159, R190). -/
def State.settleFlush (s : State) : State := if s.flushed then s.completeLong flushCode .done else s

/-- FLUSH_COMPLETE (R159, R190): a waiting FLUSH completes when its condition holds (notes/assumptions/16.md). -/
def execFlushComplete (s : State) : Host.Outcome State Fault Refusal :=
  whenRunning s fun s => if s.jc.fault then s.completeLong flushCode .failedStorage else s.settleFlush

end Sys2Proof.Machine
end

