-- ==== Sys2Proof/Machine/Journal.lean ====
section
/-! DEFINITION. The Journal Controller's jobs (chapter 8): the building of records, the head and the reserve, the scheduling of
jobs and their starts, the compaction trigger and the entry into FAULT; with the grant of a lend (chapter 10), which a FAULT may
bring. -/

namespace Sys2Proof.Machine

/-! ### Changes of one block -/

/-- A change of the Journal Controller. -/
def State.mapJournal (s : State) (f : Journal → Journal) : State := { s with jc := f s.jc }

/-- A change of the Storage Port. -/
def State.mapPort (s : State) (f : StoragePort → StoragePort) : State := { s with sp := f s.sp }

/-! ### Grants (R176) -/

/-- The grant of a lend (R176). -/
def StoragePort.grant (p : StoragePort) : StoragePort := { p with lend := .granted, lendCount := satInc p.lendCount }

/-- A request in WAITING is granted (R176, R178). -/
def State.grantWaiting (s : State) : State := if s.sp.lend = .waiting then s.mapPort .grant else s

/-! ### Rows of the band table (R134) -/

/-- A change of one row. -/
def Journal.mapRow (jc : Journal) (band : Nat) (f : BandRow → BandRow) : Journal :=
  { jc with bands := jc.bands.modify band f }

/-- A row takes a state, its sequence and count kept. -/
def BandRow.to (st : BandState) (r : BandRow) : BandRow := { r with state := st }

/-- A row without sequence and count (R152, R154, R155). -/
def BandRow.bare (st : BandState) (_ : BandRow) : BandRow := { state := st, seq := none, live := 0 }

/-- The ERASED band of lowest index (R146). -/
def Journal.lowestErased (jc : Journal) : Option Nat := jc.bands.findIdx? fun r => r.state = .erased

/-- The usable rows: not BAD (R155). -/
def Journal.usable (jc : Journal) : Nat := jc.bands.length - jc.rows .bad

/-- The live-base count of the head band rises by one, and of no other row, even one of the same sequence (R145). -/
def raiseLive (rows : List BandRow) (band : Nat) : List BandRow := rows.modify band fun r => { r with live := r.live + 1 }

/-! ### The entry into FAULT (R156) -/

/-- The Journal Controller after the entry into FAULT (R156). -/
def Journal.toFault (jc : Journal) : Journal :=
  { jc with
    fault := true, job := none, held := none, next := none, compaction := .idle, queue := [], chooseHeld := false
    bands := jc.bands.map fun r => if r.state = .retiring ∧ r.seq.isSome = true then r.to .full else r }

/-- A QUEUED entry becomes UNSAVED (R156). -/
def Entry.unqueue (e : Entry) : Entry := if e.jstate = .queued then { e with jstate := .unsaved } else e

/-- The entry into FAULT (R156); a waiting request is granted at once (R178). -/
def State.enterFault (s : State) : State :=
  let queued := s.pt.entries.any fun e => e.jstate = .queued
  let s := (({ s with
    pt := s.pt.mapEntries Entry.unqueue
    jc := s.jc.toFault
    sp := { s.sp with cmd := .none, poll := none } }).completeLong flushCode .failedStorage).notify .journalFault 0
  (if queued then s.notify .unsaved 0 else s).grantWaiting

/-! ### The compaction trigger (R149) -/

/-- A FULL row that may be chosen: passed over when another row holds its sequence and an entry that replay
left without base still has none. -/
def Journal.choosable (jc : Journal) (unbased : Bool) (r : BandRow) : Bool :=
  r.state = .full && !(unbased && 1 < jc.bands.countP fun x => x.seq = r.seq)

/-- The place of lower sequence, the earlier one of two equal (R149). -/
def lowerSeq (best : Option (Nat × Nat)) (x : Nat × Nat) : Option (Nat × Nat) :=
  match best with
  | none => some x
  | some b => if x.1 < b.1 then some x else some b

/-- A row that may be chosen, with its sequence. -/
def Journal.candidate (jc : Journal) (unbased : Bool) (band : Nat) : Option (Nat × Nat) :=
  match jc.bands[band]? with
  | some r => if jc.choosable unbased r then r.seq.map fun q => (q, band) else none
  | none => none

/-- The row that compaction chooses (R149). -/
def Journal.choose (jc : Journal) (unbased : Bool) : Option Nat :=
  (((List.range jc.bands.length).filterMap (jc.candidate unbased)).foldl lowerSeq none).map Prod.snd

/-- An entry to which replay gave base band none is still in the table with base band none (R149). -/
def State.unbasedLeft (s : State) : Bool := s.pt.entries.any fun e => e.base.isNone && s.jc.unbased.contains e.id

/-- The compaction trigger is judged (R149). -/
def State.judgeTrigger (s : State) : State :=
  let jc := s.jc
  if jc.compaction = .idle ∧ jc.fault = false ∧ jc.toErase = [] ∧ jc.rows .erased ≤ Config.compactAt then
    match jc.choose s.unbasedLeft with
    | some b => s.mapJournal fun jc => { jc.mapRow b (.to .retiring) with compaction := .retiring b none, chooseHeld := false }
    | none => s.mapJournal fun jc => { jc with chooseHeld := jc.bands.any fun r => r.state = .full }
  else s.mapJournal fun jc => { jc with chooseHeld := false }

/-- A band made BAD: the limit of usable bands, then the trigger (R154, R155). -/
def State.judgeUsable (s : State) : State :=
  if s.jc.usable < Config.minUsable then s.enterFault else s.judgeTrigger

/-! ### Records (R135 to R137) -/

/-- The kind of a record for a queued id, by the first row of Table 7.3.3 that holds; an id that names no entry is
delete-flagged (R142). -/
def recordKind (del : Bool) (e : Option Entry) : RecKind :=
  match e with
  | none => .tombLocal
  | some e =>
    if del then .tombLocal
    else if e.isTombstone then .tombShared
    else match e.dirty with
      | .whole | .none | .from_ 0 => .full
      | .from_ (d + 1) => if e.base.isNone then .full else .tail (d + 1)

/-- The kind of a compaction copy (R137, R150). -/
def copyKind (e : Entry) : RecKind := if e.isTombstone then .tombShared else .full

/-- A record of an entry (R135, R136). -/
def Entry.journalRecord (e : Entry) (kind : RecKind) : JRecord :=
  let off : Nat := match kind with
    | .tail o => o
    | _ => 0
  { kind := match kind with | .full => 1 | .tail _ => 2 | _ => 3
    loc := e.scope = .loc, id := e.id, gen := e.ver.gen, origin := e.ver.origin, length := e.value.length, offset := off
    data := e.value.drop off }

/-- The LOCAL TOMB of an id (R136). -/
def State.localTomb (s : State) (id : Nat) : JRecord :=
  { kind := 3, loc := true, id := id, gen := s.pt.h, origin := stationNumber s.straps, length := 0, offset := 0, data := [] }

/-- The write of an append for a queued id, built from the table as it stands (R143); `changed`: the flag it begins with. -/
def State.appendJob (s : State) (q : QItem) (changed : Bool) : WriteJob :=
  let e := s.entry q.id
  let kind := recordKind q.del e
  let rec_ : JRecord :=
    match kind, e with
    | .tombLocal, _ | _, none => s.localTomb q.id
    | k, some e => e.journalRecord k
  { side := .append, id := q.id, kind := kind, bytes := rec_.bytes, changed := changed, gone := false }

/-- The write of a compaction copy (R150). -/
def Entry.copyJob (e : Entry) (changed : Bool) : WriteJob :=
  { side := .compaction, id := e.id, kind := copyKind e, bytes := (e.journalRecord (copyKind e)).bytes, changed := changed
    gone := false }

/-- The entry a copy turn comes to: the least id above the cursor whose base band is the RETIRING band (R150). -/
def State.copyEntry (s : State) (band : Nat) (cursor : Option Nat) : Option Entry :=
  s.pt.entries.find? fun e => above cursor e.id && e.base.isSome && e.base == s.jc.seqOf band

/-! ### Programs (R138, R139, R175) -/

/-- The job may go on with a flash command: the bus is the part's own and no RESTART waits (R141, R161, R175). -/
def State.canBegin (s : State) : Bool := s.sp.lend = .idle && !s.cp.restarting

/-- A program begins, its polling with it; where a lend or a RESTART comes first it stays the job's next (R173, R175). -/
def State.issue (s : State) (p : Prog) : State :=
  if s.canBegin then
    { s with sp := { s.sp with cmd := .program p .busy, poll := some 0 }, jc := { s.jc with next := none } }
  else { s with sp := { s.sp with cmd := .none, poll := none }, jc := { s.jc with next := some p } }

/-- The bytes of a record at an offset up to the page boundary it crosses, or all of them (R139). -/
def firstPart (pos : Nat) (bytes : List Byte) : List Byte := bytes.take (Config.pageBytes - pos % Config.pageBytes)

/-- The bytes of a record from the page boundary it crosses (R139). -/
def secondPart (pos : Nat) (bytes : List Byte) : List Byte := bytes.drop (Config.pageBytes - pos % Config.pageBytes)

/-- The first or only program of a record at the head position (R139). -/
def State.writeRecord (s : State) (h : Head) (w : WriteJob) : State :=
  s.issue { purpose := .recordFirst, band := h.band, offset := h.pos, data := firstPart h.pos w.bytes }

/-- The first program of a close (R132). -/
def closeProg (purpose : Purpose) (band len : Nat) : Prog :=
  { purpose := purpose, band := band, offset := 11, data := closeBytes len }

/-- The second program of a close (R132). -/
def markProg (purpose : Purpose) (band : Nat) : Prog := { purpose := purpose, band := band, offset := 10, data := [0] }

/-- The unused bytes of a band join the stranded count (R132). -/
def Journal.strand (jc : Journal) (len : Nat) : Journal :=
  { jc with stranded := satAdd Config.countLimit jc.stranded (Config.bandRoom - len) }

/-! ### The head and the reserve (R146, R147) -/

/-- The record of a size does not fit in the head, or there is none (R138, R146). -/
def Journal.needsBand (jc : Journal) (size : Nat) : Bool :=
  match jc.head with
  | none => true
  | some h => Config.bandBytes < h.pos + size

/-- The reserve holds the write back (R147): an append never opens the last ERASED band. -/
def Journal.reserved (jc : Journal) : Side → Bool
  | .append => jc.rows .erased < 2
  | .compaction => false

/-- A new head is opened for a write, there being no head (R146); the write waits or the journal faults as R147 gives. An append
that the reserve holds back here waits with its changed-during-write flag: after a failed record it is R153's
(notes/assumptions/17.md); after a failed header program (R154) with no record of it failed, that it is still the append begun, and
not one that begins anew, is the model's choice (notes/assumptions/41.md). -/
def State.openBand (s : State) (w : WriteJob) : State :=
  if s.jc.reserved w.side then
    { s with
      jc := { s.jc with job := none, held := some w, next := none }
      sp := { s.sp with cmd := .none, poll := none } }
  else if s.jc.lastSeq = Config.maxGeneration then s.enterFault
  else match s.jc.lowestErased with
    | none => s.enterFault
    | some b =>
      (s.mapJournal fun jc => { jc with lastSeq := jc.lastSeq + 1 }).issue
        { purpose := .header, band := b, offset := 0, data := headerBytes s.straps (s.jc.lastSeq + 1) }

/-- The job becomes a write; a failed append that waits goes on waiting, its flag kept, through a copy (R153). -/
def Journal.startWrite (jc : Journal) (w : WriteJob) : Journal :=
  { jc with job := some (.write w), held := match w.side with | .append => none | .compaction => jc.held }

/-- A write begins: in the head where it fits, otherwise by the close and the opening it needs (R143, R150). -/
def State.beginWrite (s : State) (w : WriteJob) : State :=
  let s := s.mapJournal fun jc => jc.startWrite w
  match s.jc.head with
  | none => s.openBand w
  | some h =>
    if h.pos + w.bytes.length ≤ Config.bandBytes then s.writeRecord h w
    else s.issue (closeProg .closeLength h.band (h.pos - Config.headerBytes))

/-! ### Scheduling (R148) -/

/-- A job may start: the part runs, replay is over, NORMAL, the bus is not lent, no RESTART waits, nothing is in hand. -/
def State.jobsFree (s : State) : Bool :=
  s.jc.replay.isNone && !s.jc.fault && s.jc.job.isNone && s.canBegin && s.sp.cmd == .none && s.sp.check == .none

/-- The write that an append turn would begin: for the head of the queue, with the flag of a write that waits (R143, R153). -/
def State.nextAppend (s : State) : Option WriteJob :=
  s.jc.queue.head?.map fun q => s.appendJob q (s.jc.held.any fun w => w.changed)

/-- A job pends on the append side (R148). -/
def State.appendPends (s : State) : Bool :=
  s.nextAppend.any fun w => !(s.jc.needsBand w.bytes.length && s.jc.reserved .append)

/-- A job pends on the compaction side (R148). -/
def Journal.compactionPends (jc : Journal) : Bool := jc.toErase ≠ [] || jc.compaction ≠ .idle

/-- The next turn is an append's (R148). -/
def State.appendTurn (s : State) : Bool :=
  s.jobsFree && s.appendPends && (!s.jc.compactionPends || s.jc.lastSide = some .compaction)

/-- The next turn is the compaction side's (R148). -/
def State.compactionTurn (s : State) : Bool :=
  s.jobsFree && s.jc.compactionPends && (!s.appendPends || s.jc.lastSide ≠ some .compaction)

/-- The band whose erase is due: replay's first, then a RETIRING band whose count is 0 (R148, R149, R152). -/
def Journal.eraseDue (jc : Journal) : Option Nat :=
  match jc.toErase, jc.compaction with
  | b :: _, _ => some b
  | [], .retiring b _ => if (jc.bands[b]?).all fun r => r.live = 0 then some b else none
  | [], .idle => none

/-- APPEND (R143). -/
def execAppend (s : State) : Host.Outcome State Fault Refusal :=
  whenRunning s fun s =>
    match s.nextAppend with
    | some w => if s.appendTurn then s.beginWrite w else s
    | none => s

/-- COPY (R150): a copy that needs a band when none is ERASED puts the journal in FAULT (R147, notes/assumptions/21.md). -/
def execCopy (s : State) : Host.Outcome State Fault Refusal :=
  whenRunning s fun s =>
    match s.jc.compaction with
    | .retiring b cursor =>
      if s.compactionTurn = true ∧ s.jc.eraseDue = none then
        match s.copyEntry b cursor with
        | some e =>
          let w := e.copyJob false
          if s.jc.needsBand w.bytes.length = true ∧ s.jc.rows .erased = 0 then s.enterFault else s.beginWrite w
        | none => s
      else s
    | .idle => s

/-- ERASE (R152): the sector erase of the band that is due begins. -/
def execErase (s : State) : Host.Outcome State Fault Refusal :=
  whenRunning s fun s =>
    match s.jc.eraseDue with
    | some b =>
      if s.compactionTurn then
        { s with
          jc := { s.jc with job := some (.erase b) }
          sp := { s.sp with cmd := .erase b .busy, poll := some 0 } }
      else s
    | none => s

end Sys2Proof.Machine
end

