-- ==== Sys2Proof/Machine/Replay.lean ====
section
/-! DEFINITION. Start-up and replay (chapter 9): the header survey, the walk of the bands and the applying of records, the
settling of the table and the head, the end of replay, and the going on after a lend or a busy check. -/

namespace Sys2Proof.Machine

/-! ### Anomalies and phases -/

/-- The anomaly count rises by `k` (R164). -/
def State.addAnomalies (s : State) (k : Nat) : State :=
  s.mapJournal fun jc => { jc with anomalies := satAdd Config.countLimit jc.anomalies k }

/-- What replay does next. -/
def State.setPhase (s : State) (p : ReplayPhase) : State :=
  s.mapJournal fun jc => { jc with replay := jc.replay.map fun r => { r with phase := p } }

/-- Replay goes on with the reading of a band, or pauses at its lend point (R161, R170, R175). -/
def State.readOn (s : State) : State := s.mapPort fun p => { p with cmd := if s.canBegin then .read else .none }

/-! ### The newest OPEN band and the order of the walk (R164) -/

/-- A band with its sequence, placed by ascending sequence after those of equal sequence. -/
def insertBand (b : Nat × Nat) : List (Nat × Nat) → List (Nat × Nat)
  | [] => [b]
  | x :: l => if b.1 < x.1 then b :: x :: l else x :: insertBand b l

/-- The valid bands as (sequence, band), in ascending sequence and for equal ones in ascending index (R164). -/
def Journal.walkOrder (jc : Journal) : List (Nat × Nat) :=
  ((List.range jc.bands.length).filterMap fun i => (jc.seqOf i).map fun q => (q, i)).foldl (fun l b => insertBand b l) []

/-- The bands after the first of their sequence (R164). -/
def duplicates : List (Nat × Nat) → Nat
  | a :: b :: l => (if a.1 = b.1 then 1 else 0) + duplicates (b :: l)
  | _ => 0

/-- The newest OPEN band: the last OPEN one in the order of the walk (R164). -/
def Journal.newestOpen (jc : Journal) : Option (Nat × Nat) :=
  (jc.walkOrder.filter fun b => (jc.bands[b.2]?).any fun r => r.state = .open_).getLast?

/-! ### Applying records (R165 to R167) -/

/-- The version of a record whose entry holds `value` after it (R11, R166, R167). -/
def JRecord.ver (r : JRecord) (value : List Byte) : Version := { gen := r.gen, origin := r.origin, check := valueCheck value }

/-- An entry takes a FULL or a SHARED TOMB, if PT has room (R166). -/
def State.replayEntry (s : State) (seq : Nat) (r : JRecord) (old : Option Entry) : State :=
  if old.isNone && Config.maxEntries ≤ s.pt.entries.length then s.addAnomalies 1
  else match slotFor s.pt.entries (old.bind Entry.slot) r.data.length with
    | none => s.addAnomalies 1
    | some slot =>
      let e : Entry :=
        { old.getD (Entry.fresh r.id .shared) with
          ver := r.ver r.data, value := r.data, scope := if r.loc then .loc else .shared, slot := slot, base := some seq }
      { s with pt := s.pt.put e }

/-- A FULL or a SHARED TOMB (R166). -/
def State.replayWhole (s : State) (seq : Nat) (r : JRecord) : State :=
  match s.entry r.id with
  | none => s.replayEntry seq r none
  | some e =>
    if (r.ver r.data).supersedes e.ver || r.ver r.data == e.ver then s.replayEntry seq r (some e) else s

/-- A LOCAL TOMB (R166). -/
def State.replayDelete (s : State) (r : JRecord) : State :=
  match s.entry r.id with
  | some e => if e.scope = .loc ∧ e.ver.gen ≤ r.gen then { s with pt := s.pt.delete r.id } else s
  | none => s

/-- The value a TAIL would give (R167). -/
def tailValue (e : Entry) (r : JRecord) : List Byte := e.value.take r.offset ++ r.data

/-- A TAIL (R167). -/
def State.replayTail (s : State) (r : JRecord) : State :=
  match s.entry r.id with
  | none => s
  | some e =>
    let value := tailValue e r
    if !e.isTombstone && e.scope == (if r.loc then Scope.loc else Scope.shared) && e.value.length == r.length
        && (r.ver value).supersedes e.ver then
      { s with pt := s.pt.put { e with ver := r.ver value, value := value } }
    else s.addAnomalies 1

/-- A readable record of the band of a sequence (R165). -/
def State.replayRecord (s : State) (seq : Nat) (r : JRecord) : State :=
  if !validId r.id || !validGen r.gen || 31 < r.origin then s.addAnomalies 1
  else
    let s := { s with pt := s.pt.raiseH r.gen }
    if r.kind = 2 then s.replayTail r
    else if r.kind = 3 ∧ r.loc = true then s.replayDelete r
    else s.replayWhole seq r

/-! ### The walk of a band (R140, R165) -/

/-- Walks the records of a band from an offset; `closeEnd`: where a FULL band's close length ends. At most 314 records fit in a
band (R136). -/
def walkBand : Nat → State → Nat → Nat → Option Nat → Nat → State × Nat × WalkEnd
  | 0, s, _, _, _, off => (s, off, .bandEnd)
  | fuel + 1, s, band, seq, closeEnd, off =>
    if closeEnd.any fun c => c ≤ off then (s, off, .consumed)
    else if Config.bandBytes ≤ off then (s, off, .bandEnd)
    else match readRecord s.flash (bandAddress band 0) off with
      | .noRecord => (s, off, .noRecord)
      | .voided => (s, off, .voided)
      | .unreadable => (s, off, .unreadable)
      | .record r size => walkBand fuel (s.replayRecord seq r) band seq closeEnd (off + size)

/-- The anomalies that the end of a walk counts (Table 9.4.1). -/
def endAnomalies (newest full : Bool) : WalkEnd → Nat
  | .noRecord => if full then 1 else 0
  | .unreadable => if newest then 0 else 1
  | .consumed | .bandEnd | .voided => 0

/-! ### The end of replay (R87, R168 to R170) -/

/-- More than one row holds a sequence (R168). -/
def Journal.seqTwice (jc : Journal) (q : Nat) : Bool := 1 < jc.bands.countP fun r => r.seq = some q

/-- An entry whose base band cannot be told to one row (R168). -/
def Journal.lostBase (jc : Journal) (e : Entry) : Bool := e.base.any jc.seqTwice

/-- An entry as the end of replay leaves it (R168). -/
def Journal.settled (jc : Journal) (firsts : List Nat) (e : Entry) : Entry :=
  { e with
    jstate := if jc.lostBase e then (if firsts.contains e.id then .queued else .unsaved) else .clean
    dirty := .none, mark := .none, watch := false, base := if jc.lostBase e then none else e.base }

/-- The live-base count of a row computed afresh (R168). -/
def Journal.recount (jc : Journal) (es : List Entry) (r : BandRow) : BandRow :=
  { r with live := if r.seq.any jc.seqTwice then 0 else es.countP fun e => r.seq.isSome && e.base == r.seq }

/-- The table is settled (R168). -/
def State.settleTable (s : State) : State :=
  let lost := (s.pt.entries.filter s.jc.lostBase).map Entry.id
  let firsts := lost.take Config.maxQueue
  let s' := { s with
    pt := s.pt.mapEntries (s.jc.settled firsts)
    jc := { s.jc with
      bands := s.jc.bands.map (s.jc.recount s.pt.entries)
      queue := firsts.map fun i => { id := i, del := false }
      unbased := lost } }
  if Config.maxQueue < lost.length then s'.notify .unsaved 0 else s'

/-- The station leaves REPLAY for HELD and the Line Interface is turned on (R58, R87). The counts begin
from 0 on the level that the line has, which is the one last told (R49, R67, notes/assumptions/35.md). -/
def State.leaveReplay (s : State) : State :=
  { s with
    jc := { s.jc with replay := none, next := none }
    sp := { s.sp with cmd := .none, poll := none }
    sc := { s.sc with station := .held }
    li := { s.li with receiver := .seeking, quiet := 0, stuck := 0, stuckDeclared := false } }

/-- Replay is complete (R87, R170): with no erase left due, compaction's trigger is judged. -/
def State.completeReplay (s : State) : State := s.leaveReplay.judgeTrigger

/-- The next close of replay, or its completion (R169). -/
def State.nextClose (s : State) : List (Nat × Nat) → State
  | [] => s.completeReplay
  | (b, off) :: todo =>
    (s.setPhase (.closing ((b, off) :: todo))).issue (closeProg .replayLength b (off - Config.headerBytes))

/-- Where the walk of a band ended. -/
def Replay.noteOf (r : Replay) (band : Nat) : Option WalkNote := r.ends.find? fun n => n.band = band

/-- The newest OPEN band becomes the head (R169). -/
def Journal.headKept (jc : Journal) (r : Replay) (newest : Nat × Nat) : Bool :=
  ((r.noteOf newest.2).any fun n => n.end_ = .noRecord || n.end_ = .bandEnd)
    && jc.walkOrder.all fun b => b.1 ≤ newest.1

/-- The band that replay keeps as head (R169). -/
def Journal.keptBand (jc : Journal) (r : Replay) : Option Nat :=
  match jc.newestOpen with
  | some n => if jc.headKept r n then some n.2 else none
  | none => none

/-- The head is settled and the closes begin (R169). -/
def State.settleHead (s : State) (r : Replay) : State :=
  let jc := s.jc
  let kept := jc.keptBand r
  let offset := fun b => (r.noteOf b).elim Config.headerBytes WalkNote.offset
  let closes := ((List.range jc.bands.length).filter fun i =>
    ((jc.bands[i]?).any fun x => x.state = .open_) && kept ≠ some i).map fun i => (i, offset i)
  (s.mapJournal fun jc => { jc with head := kept.map fun b => { band := b, pos := offset b } }).nextClose closes

/-- The last valid band has been walked (R168, R169). -/
def State.finishWalk (s : State) : State :=
  match s.jc.replay with
  | some r => s.settleTable.settleHead r
  | none => s

/-- The row of a walked band as a FAULT in replay leaves it: at most one row is OPEN after replay, that of the head, and an OPEN
band that is no head is FULL, as a band left without its close is (R134, R154, notes/assumptions/12.md). -/
def Journal.walkedRow (jc : Journal) (i : Nat) (r : BandRow) : BandRow :=
  if r.state = .open_ && jc.head.all (fun h => h.band ≠ i) then r.to .full else r

/-- The rows of a replay ended by a FAULT, one for each of the N bands (R134): BAD where the records were not walked, whatever the
header showed (R170 and its note). -/
def Journal.badRows (jc : Journal) (bands : Nat) : List BandRow :=
  let walked : List Nat := (jc.replay.elim [] Replay.ends).map WalkNote.band
  (List.range bands).map fun i =>
    match jc.bands[i]? with
    | some r => if walked.contains i then jc.walkedRow i r else r.bare .bad
    | none => { state := .bad, seq := none, live := 0 }

/-- The table has been settled: replay is at its closes (R168, R169). -/
def Replay.settledTable (r : Replay) : Bool :=
  match r.phase with
  | .closing _ => true
  | _ => false

/-- The journal goes to FAULT during replay (R170): R168 is applied to the table as it stands, where it has not been applied
yet. -/
def State.replayFault (s : State) : State :=
  let t := s.mapJournal fun jc => { jc with bands := jc.badRows (bandCount s.straps), toErase := [] }
  (if s.jc.replay.any Replay.settledTable then t else t.settleTable).leaveReplay.enterFault

/-- The journal goes to FAULT, in replay as R170 gives, otherwise as R156 gives. -/
def State.fail (s : State) : State := if s.jc.replay.isSome then s.replayFault else s.enterFault

/-! ### Going on after a lend or a busy check (R163, R175, R177) -/

/-- Replay goes on (R163, R170). -/
def State.resumeReplay (s : State) (r : Replay) : State :=
  match r.phase with
  | .starting => (s.setPhase (.survey 0)).readOn
  | .survey _ | .walk _ => s.readOn
  | .closing _ => match s.jc.next with
    | some p => s.issue p
    | none => s

/-- The Journal Controller goes on at the command that follows its lend point (R175, R177), unless a RESTART waits (R161). -/
def State.resume (s : State) : State :=
  if s.canBegin then
    match s.jc.replay with
    | some r => s.resumeReplay r
    | none => match s.sp.cmd with
      | .program p .ready => s.mapPort fun sp => { sp with cmd := .program p .verify }
      | .erase b .ready => s.mapPort fun sp => { sp with cmd := .erase b .verify }
      | _ => match s.jc.next with
        | some p => s.issue p
        | none => s
  else s

/-! ### Steps -/

/-- The row of a surveyed header (R164). -/
def surveyRow : HeaderRead → BandRow
  | .erased => { state := .erased, seq := none, live := 0 }
  | .full q _ => { state := .full, seq := some q, live := 0 }
  | .opened q => { state := .open_, seq := some q, live := 0 }
  | .garbled => { state := .retiring, seq := none, live := 0 }

/-- The end of the header survey: the last sequence, the anomalies of equal sequences, and the order of the walk (R164). -/
def State.endSurvey (s : State) : State :=
  let order := s.jc.walkOrder
  let s := (s.addAnomalies (duplicates order)).mapJournal fun jc =>
    { jc with lastSeq := order.foldl (fun m b => max m b.1) 0 }
  match order with
  | [] => s.finishWalk
  | _ => (s.setPhase (.walk (order.map Prod.snd))).readOn

/-- One header read by the survey (R164). -/
def State.surveyHeader (s : State) (r : Replay) (i : Nat) : State :=
  let h := Flash.read s.flash (bandAddress i 0) Config.headerBytes
  let c := readHeader h
  let valid := match c with | .full _ _ | .opened _ => true | _ => false
  let s := (s.mapJournal fun jc =>
    { jc with
      bands := jc.bands ++ [surveyRow c]
      toErase := if c = .garbled then jc.toErase ++ [i] else jc.toErase
      replay := some { r with lens := match c with | .full _ n => r.lens ++ [(i, n)] | _ => r.lens } }).addAnomalies
    (if valid && num h 3 1 ≠ s.straps.bc.toNat then 1 else 0)
  if i + 1 < bandCount s.straps then (s.setPhase (.survey (i + 1))).readOn else s.endSurvey

/-- HEADER_SURVEY (R164). -/
def execHeaderSurvey (s : State) : Host.Outcome State Fault Refusal :=
  whenRunning s fun s =>
    match s.jc.replay with
    | some r => match r.phase with
      | .survey i => if s.sp.cmd = .read then s.surveyHeader r i else s
      | _ => s
    | none => s

/-- The walk of one valid band (R165). -/
def State.walkOne (s : State) (r : Replay) (band : Nat) (todo : List Nat) : State :=
  let full := (s.jc.bands[band]?).any fun x => x.state = .full
  let closeEnd := (r.lens.find? fun l => l.1 = band).map fun l => Config.headerBytes + l.2
  let newest := (s.jc.newestOpen.map Prod.snd) == some band
  let w := walkBand 320 s band ((s.jc.seqOf band).getD 0) closeEnd Config.headerBytes
  let note : WalkNote := { band := band, offset := w.2.1, end_ := w.2.2 }
  let s := (w.1.addAnomalies (endAnomalies newest full w.2.2)).mapJournal fun jc =>
    { jc with replay := some { r with phase := .walk todo, ends := r.ends ++ [note] } }
  match todo with
  | [] => s.finishWalk
  | _ => s.readOn

/-- BAND_WALK (R165). -/
def execBandWalk (s : State) : Host.Outcome State Fault Refusal :=
  whenRunning s fun s =>
    match s.jc.replay with
    | some r => match r.phase with
      | .walk (b :: todo) => if s.sp.cmd = .read then s.walkOne r b todo else s
      | _ => s
    | none => s

end Sys2Proof.Machine
end

