-- ==== Sys2Proof/Machine/Storage.lean ====
section
/-! DEFINITION. The Storage Port (chapter 10) and what the ends of its programs and erases bring about in the Journal Controller
(chapter 8): polling, verification, successes and failures, and the lend handshake. -/

namespace Sys2Proof.Machine

/-! ### The end of a write (R144, R151, R158) -/

/-- The sweep for UNSAVED entries when the journal queue is empty in NORMAL (R158). -/
def State.sweep (s : State) : State :=
  if s.jc.queue.isEmpty && !s.jc.fault then
    let ids := ((s.pt.entries.filter fun e => e.jstate = .unsaved).map Entry.id).take Config.maxQueue
    { s with
      jc := { s.jc with queue := ids.map fun i => { id := i, del := false } }
      pt := s.pt.mapEntries fun e => if ids.contains e.id then { e with jstate := .queued } else e }
  else s

/-- The base band of an entry moves to a band and its sequence, and the live-base counts of the old and the new band follow
(R145). -/
def State.moveBase (s : State) (id band seq : Nat) : State :=
  match s.entry id with
  | some e =>
    if e.base = some seq then s
    else
      ({ s with jc := { s.jc with bands := raiseLive (dropLive s.jc.bands e.base) band } }).mapEntry id
        fun e => { e with base := some seq }
  | none => s

/-- The record of a write is a FULL or a SHARED TOMB: it gives its entry a base (R144, R151). -/
def RecKind.setsBase : RecKind → Bool
  | .full | .tombShared => true
  | .tail _ | .tombLocal => false

/-- The record moves the base of its entry, unless the entry it was built from has been deleted (R144, R151). -/
def State.settleBase (s : State) (w : WriteJob) (h : Head) : State :=
  match s.jc.seqOf h.band with
  | some q => if w.kind.setsBase && !w.gone then s.moveBase w.id h.band q else s
  | none => s

/-- An entry that flash holds as it stands (R144, R151). -/
def Entry.saved (e : Entry) : Entry := { e with jstate := .clean, dirty := .none }

/-- The id leaves the journal queue, and a write of it that waits goes with it (R142). -/
def Journal.leave (jc : Journal) (id : Nat) : Journal :=
  { jc with queue := jc.queue.filter fun q => q.id ≠ id, held := jc.held.filter fun w => w.id ≠ id }

/-- The id leaves its place in the journal queue and joins the tail (R144). -/
def Journal.toTail (jc : Journal) (id : Nat) : Journal :=
  { jc with queue := (jc.queue.filter fun q => q.id ≠ id) ++ jc.queue.filter fun q => q.id = id }

/-- The fate of the id and its entry after an append (R144) or a copy (R151). -/
def State.settleId (s : State) (w : WriteJob) : State :=
  match w.side with
  | .append =>
    if w.changed then s.mapJournal fun jc => jc.toTail w.id
    else (s.mapJournal fun jc => jc.leave w.id).mapEntry w.id Entry.saved
  | .compaction =>
    if w.changed then s else (s.mapJournal fun jc => jc.leave w.id).mapEntry w.id Entry.saved

/-- The copy cursor becomes the copied id (R151). -/
def Compaction.moveCursor (c : Compaction) (w : WriteJob) : Compaction :=
  match w.side, c with
  | .compaction, .retiring b _ => .retiring b (some w.id)
  | _, c => c

/-- A job has ended (R148). -/
def Journal.endJob (jc : Journal) (side : Side) : Journal := { jc with job := none, next := none, lastSide := some side }

/-- A record has been written whole (R144, R151): counted, the failure count 0, the head position past it, base, counts and id
settled; then the sweep, the trigger where it waits for a record, and a waiting FLUSH whose condition now holds (R159). -/
def State.writeDone (s : State) (w : WriteJob) (h : Head) : State :=
  let s := ((s.count fun c => { c with recordsWritten := satInc c.recordsWritten }).mapJournal fun jc =>
    { jc with
      failCount := 0, head := some { h with pos := h.pos + w.bytes.length }
      compaction := jc.compaction.moveCursor w })
  let s := (((s.settleBase w h).settleId w).mapJournal fun jc => jc.endJob w.side).sweep
  (if s.jc.chooseHeld then s.judgeTrigger else s).settleFlush

/-! ### Rewriting (R153) -/

/-- The write of a failed record, built again: for the id at the head of the queue (R143), or for the entry the copy turn comes
to (R150); the changed-during-write flag is kept for the same id. That a copy passed over is followed in the same job by the copy
of the next entry is the model's choice (notes/assumptions/42.md). -/
def State.rebuild (s : State) (w : WriteJob) : Option WriteJob :=
  match w.side with
  | .append => (s.jc.queue.find? fun q => q.id = w.id).map fun q => s.appendJob q w.changed
  | .compaction =>
    match s.jc.compaction with
    | .retiring b cursor => (s.copyEntry b cursor).map fun e => e.copyJob (w.changed && e.id == w.id)
    | .idle => none

/-- The record is written again as a new write of the same job (R153). A copy with nothing left to copy ends its job, the last one
being the compaction side's (the model's choice, notes/assumptions/42.md). -/
def State.rewrite (s : State) (w : WriteJob) : State :=
  match s.rebuild w with
  | some w' => (s.mapJournal fun jc => { jc with job := some (.write w') }).openBand w'
  | none => s.mapJournal fun jc => jc.endJob w.side

/-! ### The ends of programs (R131, R132, R139, R153, R154, R169, R174) -/

/-- The write in hand. -/
def Journal.write (jc : Journal) : Option WriteJob :=
  match jc.job with
  | some (.write w) => some w
  | _ => none

/-- What a program's end does with the write in hand and the head. -/
def State.withWrite (s : State) (k : WriteJob → State) : State :=
  match s.jc.write with
  | some w => k w
  | none => s

/-- What a program's end does with the head. -/
def State.withHead (s : State) (k : Head → State) : State :=
  match s.jc.head with
  | some h => k h
  | none => s

/-- The band in hand is closed, or left: its row is FULL and there is no head (R132, R146, R154). -/
def Journal.leaveHead (jc : Journal) (band : Nat) : Journal := { jc.mapRow band (.to .full) with head := none }

/-- The close length of the close that a program failure forces: it takes in the voided record (R153). -/
def forcedLength (h : Head) (w : WriteJob) : Nat := h.pos + w.bytes.length - Config.headerBytes

/-- The second program of a close of replay follows the first, with no lend between (R170, R175). -/
def State.issueInReplay (s : State) (p : Prog) : State :=
  if s.cp.restarting then s.mapJournal fun jc => { jc with next := some p }
  else { s with sp := { s.sp with cmd := .program p .busy, poll := some 0 }, jc := { s.jc with next := none } }

/-- The close of replay in hand is over: its row is FULL, and the next one follows (R169); `written`: the close stands, and its
unused bytes are stranded. -/
def State.replayClosed (s : State) (written : Bool) : State :=
  match s.jc.replay.map Replay.phase with
  | some (.closing ((b, off) :: todo)) =>
    let s := s.mapJournal fun jc =>
      (if written then jc.strand (off - Config.headerBytes) else jc).mapRow b (.to .full)
    (s.setPhase (.closing todo)).nextClose todo
  | _ => s

/-- A band has been opened: it is the head, the trigger is judged, and the record follows (R146, R149). -/
def State.bandOpened (s : State) (band : Nat) (w : WriteJob) : State :=
  let h : Head := { band := band, pos := Config.headerBytes }
  let s := s.mapJournal fun jc =>
    { jc.mapRow band (fun _ => { state := .open_, seq := some jc.lastSeq, live := 0 }) with head := some h }
  s.judgeTrigger.writeRecord h w

/-- A program has succeeded (R174). -/
def State.programDone (s : State) (p : Prog) : State :=
  match p.purpose with
  | .closeLength => s.issue (markProg .closeMark p.band)
  | .closeMark => s.withWrite fun w => s.withHead fun h =>
      (s.mapJournal fun jc => (jc.strand (h.pos - Config.headerBytes)).leaveHead p.band).openBand w
  | .header => s.withWrite fun w => s.bandOpened p.band w
  | .recordFirst => s.withWrite fun w => s.withHead fun h =>
      if secondPart h.pos w.bytes = [] then s.writeDone w h
      else s.issue
        { purpose := .recordSecond, band := p.band, offset := p.offset + p.data.length, data := secondPart h.pos w.bytes }
  | .recordSecond => s.withWrite fun w => s.withHead fun h => s.writeDone w h
  | .voidKind => s.withWrite fun w => s.withHead fun h => s.issue (closeProg .forcedLength p.band (forcedLength h w))
  | .forcedLength => s.issue (markProg .forcedMark p.band)
  | .forcedMark => s.withWrite fun w => s.withHead fun h =>
      (s.mapJournal fun jc => (jc.strand (forcedLength h w)).leaveHead p.band).rewrite w
  | .replayLength => s.issueInReplay (markProg .replayMark p.band)
  | .replayMark => s.replayClosed true

/-- PROGRAM-FAILURES and the failure count rise by one (R153, R154). -/
def State.countFailure (s : State) : State :=
  (s.count fun c => { c with programFailures := satInc c.programFailures }).mapJournal
    fun jc => { jc with failCount := jc.failCount + 1 }

/-- The header program of a band being opened has failed: the row is BAD, and the next band is opened in its place (R154). -/
def State.headerFailed (s : State) (band : Nat) : State :=
  let s := (s.mapJournal fun jc => jc.mapRow band (.bare .bad)).judgeUsable
  if s.jc.fault then s else s.withWrite fun w => s.openBand w

/-- A program has failed (R153, R154): the second failure in a row puts the journal in FAULT. -/
def State.programFailed (s : State) (p : Prog) : State :=
  let s := s.countFailure
  if 2 ≤ s.jc.failCount then s.fail
  else match p.purpose with
    | .recordFirst | .recordSecond => s.withHead fun h =>
        s.issue { purpose := .voidKind, band := h.band, offset := h.pos, data := [0] }
    | .closeLength | .closeMark => s.withWrite fun w => (s.mapJournal fun jc => jc.leaveHead p.band).openBand w
    | .header => s.headerFailed p.band
    | .voidKind | .forcedLength | .forcedMark => s.fail
    | .replayLength | .replayMark => s.replayClosed false

/-! ### Polling and verification (R173, R174) -/

/-- The address of a program (R130). -/
def Prog.address (p : Prog) : Nat := bandAddress p.band p.offset

/-- What the device makes of the program or erase in progress. -/
def State.land (s : State) (left : DeviceLeft) : State :=
  match s.sp.cmd with
  | .program p .busy => { s with flash := Flash.program s.flash p.address p.data left }
  | .erase b .busy => { s with flash := Flash.erase s.flash (bandAddress b 0) left }
  | _ => s

/-- The stage after the busy period: a lend point, unless replay is closing bands (R170, R175); a RESTART comes first (R161). -/
def State.stageAfterBusy (s : State) : Stage :=
  if s.canBegin || (s.jc.replay.isSome && !s.cp.restarting) then .verify else .ready

/-- No command is in progress. -/
def State.endCommand (s : State) : State := s.mapPort fun p => { p with cmd := .none, poll := none }

/-- PROGRAM_NOT_BUSY (R173): a status read finds the device not busy within the timeout, after a program or an erase. -/
def execProgramNotBusy (left : DeviceLeft) (s : State) : Host.Outcome State Fault Refusal :=
  whenRunning s fun s =>
    match s.sp.cmd, s.sp.poll with
    | .program p .busy, some t =>
      if t ≤ Config.programLimit then
        (s.land left).mapPort fun sp => { sp with cmd := .program p s.stageAfterBusy, poll := none }
      else s
    | .erase b .busy, some t =>
      if t ≤ Config.eraseLimit then
        (s.land left).mapPort fun sp => { sp with cmd := .erase b s.stageAfterBusy, poll := none }
      else s
    | _, _ => s

/-- The read-back of a program matches the bytes sent (R174). -/
def State.matches (s : State) (p : Prog) : Bool := Flash.read s.flash p.address p.data.length == p.data

/-- PROGRAM_VERIFY (R174). -/
def execProgramVerify (s : State) : Host.Outcome State Fault Refusal :=
  whenRunning s fun s =>
    match s.sp.cmd with
    | .program p .verify => if s.matches p then s.endCommand.programDone p else s.endCommand.programFailed p
    | _ => s

/-- PROGRAM_TIMEOUT (R173): 5 ms without a clear busy flag. -/
def execProgramTimeout (left : DeviceLeft) (s : State) : Host.Outcome State Fault Refusal :=
  whenRunning s fun s =>
    match s.sp.cmd, s.sp.poll with
    | .program p .busy, some t => ((s.passUntil t Config.programLimit).land left).endCommand.programFailed p
    | _, _ => s

/-! ### The ends of erases (R152, R155) -/

/-- The erase job of a band has ended: replay's list or compaction goes on without it (R148, R152, R155). -/
def Journal.eraseOver (jc : Journal) (band : Nat) : Journal :=
  let jc := jc.endJob .compaction
  if jc.toErase.head? = some band then { jc with toErase := jc.toErase.tail } else { jc with compaction := .idle }

/-- A good erase (R152). -/
def State.eraseDone (s : State) (band : Nat) : State :=
  ((s.count fun c => { c with bandsErased := satInc c.bandsErased }).mapJournal fun jc =>
    (jc.eraseOver band).mapRow band (.bare .erased)).judgeTrigger

/-- A failed erase (R155). -/
def State.eraseFailed (s : State) (band : Nat) : State :=
  (s.mapJournal fun jc => (jc.eraseOver band).mapRow band (.bare .bad)).judgeUsable

/-- ERASE_CHECK (R174): the 16 bytes of the header area read FFH, or the erase has failed. -/
def execEraseCheck (s : State) : Host.Outcome State Fault Refusal :=
  whenRunning s fun s =>
    match s.sp.cmd with
    | .erase b .verify =>
      if (Flash.read s.flash (bandAddress b 0) Config.headerBytes).all (· == 0xFF) then s.endCommand.eraseDone b
      else s.endCommand.eraseFailed b
    | _ => s

/-- ERASE_TIMEOUT (R173): 500 ms without a clear busy flag. -/
def execEraseTimeout (left : DeviceLeft) (s : State) : Host.Outcome State Fault Refusal :=
  whenRunning s fun s =>
    match s.sp.cmd, s.sp.poll with
    | .erase b .busy, some t => ((s.passUntil t Config.eraseLimit).land left).endCommand.eraseFailed b
    | _, _ => s

/-! ### The lend handshake (R175 to R178) -/

/-- The command in progress leaves a lend point (R175): none, or past its busy period and not yet verified. -/
def SpCmd.pauses : SpCmd → Bool
  | .none => true
  | .program _ .ready => true
  | .erase _ .ready => true
  | _ => false

/-- The next program is the second one of a close of replay (R170). -/
def Journal.midClose (jc : Journal) : Bool := jc.next.any fun p => p.purpose = .replayMark

/-- A lend point (R175); in replay, between two readings of bands or two closes (R170). -/
def State.lendPoint (s : State) : Bool :=
  s.sp.check == .none
    && (if s.jc.replay.isSome then s.sp.cmd == .none && !s.jc.midClose else s.sp.cmd.pauses)

/-- LREQ_ASSERTED (Table 10.4.1, R176 to R178): from IDLE to WAITING, where a lend point in hand is taken at once and the start-up
busy check is none; in RETURNING the request is held; in reset it is not acted on. -/
def execLreqAsserted (s : State) : Host.Outcome State Fault Refusal :=
  if s.sp.lreq then noEvent s
  else
    let s := s.mapPort fun p => { p with lreq := true }
    if s.power = .running ∧ s.sp.lend = .idle then
      let s := s.mapPort fun p => { p with lend := .waiting }
      .next (if s.lendPoint then s.grantWaiting else s)
    else .next s

/-- LEND_GRANT (R176): a waiting request reaches a lend point. -/
def execLendGrant (s : State) : Host.Outcome State Fault Refusal :=
  whenRunning s fun s => if s.lendPoint then s.grantWaiting else s

/-- LREQ_DEASSERTED (R176, R177): a request in WAITING is withdrawn, and what it held back goes on, unless a busy check does; a
lend is returned and its busy check begins. -/
def execLreqDeasserted (host : List Host.Cell) (s : State) : Host.Outcome State Fault Refusal :=
  if s.sp.lreq then
    let s := s.mapPort fun p => { p with lreq := false }
    match s.sp.lend with
    | .waiting =>
      let s := s.mapPort fun p => { p with lend := .idle }
      .next (if s.sp.check = .none then s.resume else s)
    | .granted =>
      .next
        { s with
          flash := Flash.hostWrite s.flash host
          sp := { s.sp with lend := .returning, check := .returning, poll := some 0 } }
    | _ => .next s
  else noEvent s

/-- A busy check is over and the lend state is IDLE (R177). -/
def State.checkOver (s : State) : State := s.mapPort fun p => { p with check := .none, poll := none, lend := .idle }

/-- A request held through a busy check is granted as it ends (R177). -/
def State.grantHeld (s : State) : State := s.mapPort .grant

/-- BUSY_CHECK_END (R163, R177): the device is not busy; a held request is granted, or the Journal Controller goes on. -/
def execBusyCheckEnd (s : State) : Host.Outcome State Fault Refusal :=
  whenRunning s fun s =>
    match s.sp.check, s.sp.poll with
    | .none, _ => s
    | _, some t =>
      if t ≤ Config.eraseLimit then (if s.sp.lreq then s.checkOver.grantHeld else s.checkOver.resume) else s
    | _, none => s

/-- BUSY_CHECK_TIMEOUT (R163, R177): 500 ms without a clear busy flag; the journal goes to FAULT, and a held request is
granted. -/
def execBusyCheckTimeout (s : State) : Host.Outcome State Fault Refusal :=
  whenRunning s fun s =>
    match s.sp.check, s.sp.poll with
    | .none, _ => s
    | _, some t =>
      let s := (s.passUntil t Config.eraseLimit).checkOver
      let s := if s.jc.fault then s else s.fail
      if s.sp.lreq then s.grantHeld else s
    | _, none => s

end Sys2Proof.Machine
end

