-- ==== Sys2Proof/Machine/FlashBus.lean ====
section
/-! DEFINITION. The flash link (R171, R172): what passes on the bus for the flash command in progress, byte for byte, and the
levels of its pins. All of it follows from the state and is computed from it (notes/assumptions/20.md, 37.md). -/

namespace Sys2Proof.Machine

/-- What passes between one assertion of FCS and its deassertion: the bytes sent on FMOSI, the instruction first, then how many
bytes come in on FMISO (Table 10.1.1). Bytes go most significant bit first. -/
structure Transfer where
  out : List Byte
  ins : Nat
deriving DecidableEq, Repr

/-- A flash address as three bytes, most significant byte first (R171). -/
def addressBytes (a : Nat) : List Byte := [byte1 (a / 65536), byte1 (a / 256), byte1 a]

/-- The read instruction, 03H. -/
def readTransfer (a n : Nat) : Transfer := { out := 0x03 :: addressBytes a, ins := n }

/-- The write-enable instruction, 06H. -/
def writeEnable : Transfer := { out := [0x06], ins := 0 }

/-- The page-program instruction, 02H, with its data. -/
def Prog.transfer (p : Prog) : Transfer := { out := 0x02 :: addressBytes p.address ++ p.data, ins := 0 }

/-- The sector-erase instruction, 20H, with the address of the band's first byte. -/
def eraseTransfer (band : Nat) : Transfer := { out := 0x20 :: addressBytes (bandAddress band 0), ins := 0 }

/-- The status read, 05H: bit 0 of the byte that comes in is the busy flag. -/
def statusRead : Transfer := { out := [0x05], ins := 1 }

/-- What replay reads of the band it is at: the header in the survey, the bytes of the records in a walk, where R175 leaves open
of which commands the reading is made (notes/assumptions/37.md). -/
def ReplayPhase.transfers : ReplayPhase → List Transfer
  | .survey i => [readTransfer (bandAddress i 0) Config.headerBytes]
  | .walk (b :: _) => [readTransfer (bandAddress b Config.headerBytes) Config.bandRoom]
  | _ => []

/-- The transfers of the flash command in progress in their order (Table 10.1.1, R173, R174). A status read at the end stands for
as many of them as the polling or the busy check makes. -/
def State.busTransfers (s : State) : List Transfer :=
  match s.sp.cmd with
  | .program p .busy => [writeEnable, p.transfer, statusRead]
  | .program p .verify => [readTransfer p.address p.data.length]
  | .erase b .busy => [writeEnable, eraseTransfer b, statusRead]
  | .erase b .verify => [readTransfer (bandAddress b 0) Config.headerBytes]
  | .read => (s.jc.replay.map Replay.phase).elim [] ReplayPhase.transfers
  | .none | .program _ .ready | .erase _ .ready => if s.sp.check = .none then [] else [statusRead]

/-- The Storage Port drives FSCK, FMOSI and FCS; while it lends, they float (R176), as they do without supply. -/
def State.drivesFlash (s : State) : Bool := s.power ≠ .off && s.sp.lend ≠ .granted

/-- The levels that FCS takes in turn while the state stands: high before and after each transfer and low through it, from its
instruction byte to its last data byte (R171, Table 10.1.1); high alone between commands and in reset (R178). -/
def State.fcs (s : State) : List Pin :=
  if s.drivesFlash then .high :: s.busTransfers.flatMap fun _ => [.low, .high] else [.floating]

/-- FSCK, which rests low (R171, R177, R178); its edges are below the model's grain (notes/assumptions/28.md). -/
def State.fsck (s : State) : Pin := if s.drivesFlash then .low else .floating

end Sys2Proof.Machine
end

