-- ==== Sys2Proof/Machine/Reset.lean ====
section
/-! DEFINITION. Resets (R160 to R163, R178) and the loss of supply (R139). -/

namespace Sys2Proof.Machine

/-- What the device holds when a reset takes the flash bus away: the write in hand as the device made of it, and what the host
wrote in a lend in hand (R160, R178). -/
def State.flashAtReset (s : State) (left : DeviceLeft) (host : List Host.Cell) : List Host.Cell :=
  if s.sp.lend = .granted then Flash.hostWrite s.flash host else (s.land left).flash

/-- All state as a reset leaves it (R160, Table 9.1.1); the flash device, the LREQ pin and the waiting commands are outside the
part. A transaction in progress is dropped with the rest, and what the host clocks of it afterwards returns nothing: R184 and R192
do not say what becomes of it when a RESTART takes effect (notes/assumptions/39.md). -/
def State.cleared (s : State) (p : Power) (flash : List Host.Cell) : State :=
  { State.reset with
    power := p, straps := s.straps, sp := { StoragePort.reset with lreq := s.sp.lreq }, flash := flash, pending := s.pending }

/-- The end of a reset (R162, R163, R178): straps and LREQ are sampled; the lend is granted, or the start-up busy check begins.
-/
def State.startUp (s : State) (straps : Straps) : State :=
  let s := { s with power := .running, straps := straps }
  if s.sp.lreq then s.mapPort .grant else s.mapPort fun p => { p with check := .startUp, poll := some 0 }

/-- PIN_RESET (R160). -/
def execPinReset (left : DeviceLeft) (host : List Host.Cell) (s : State) : Host.Outcome State Fault Refusal :=
  if s.power = .inReset then noEvent s else .next (s.cleared .inReset (s.flashAtReset left host))

/-- RESET_RELEASE (R162, R163). -/
def execResetRelease (straps : Straps) (s : State) : Host.Outcome State Fault Refusal :=
  if s.power = .running then noEvent s else .next ((s.cleared s.power s.flash).startUp straps)

/-- No flash command is in progress, nor a busy period that one began (R161): such an instant is where a command leaves a lend
point (R175). A read of replay and a verification read are waited for (notes/assumptions/14.md). -/
def SpCmd.over (c : SpCmd) : Bool := c.pauses

/-- RESTART_TAKES_EFFECT (R161): no event while the flash command in progress goes on. -/
def execRestartTakesEffect (straps : Straps) (host : List Host.Cell) (s : State) : Host.Outcome State Fault Refusal :=
  whenRunning s fun s =>
    if s.cp.restarting = true ∧ s.sp.cmd.over = true then
      (s.cleared .running (s.flashAtReset .whole host)).startUp straps
    else s

/-- LOSS_OF_SUPPLY (R139): nothing in RAM is kept. -/
def execLossOfSupply (left : DeviceLeft) (host : List Host.Cell) (s : State) : Host.Outcome State Fault Refusal :=
  if s.power = .off then noEvent s else .next (s.cleared .off (s.flashAtReset left host))

end Sys2Proof.Machine
end

