-- ==== Sys2Proof/Machine/Dispatch.lean ====
section
/-! DEFINITION. One arm for each command: the meaning it calls. -/

namespace Sys2Proof.Machine

def exec (i : Instr) (s : State) : Host.Outcome State Fault Refusal :=
  match i with
  | .pinReset left host => Sys2Proof.Machine.execPinReset left host s
  | .resetRelease straps => Sys2Proof.Machine.execResetRelease straps s
  | .restart extraBits => Sys2Proof.Machine.execRestart extraBits s
  | .restartTakesEffect straps host => Sys2Proof.Machine.execRestartTakesEffect straps host s
  | .readStatus r => Sys2Proof.Machine.execReadStatus r s
  | .otherTransactionCode t => Sys2Proof.Machine.execOtherTransactionCode t s
  | .commandBlockAborted bytes => Sys2Proof.Machine.execCommandBlockAborted bytes s
  | .unknownCommand code b => Sys2Proof.Machine.execUnknownCommand code b s
  | .readResponse p => Sys2Proof.Machine.execReadResponse p s
  | .popEvent p => Sys2Proof.Machine.execPopEvent p s
  | .cmdStatus b => Sys2Proof.Machine.execCmdStatus b s
  | .cmdSetup b => Sys2Proof.Machine.execCmdSetup b s
  | .cmdOpen b => Sys2Proof.Machine.execCmdOpen b s
  | .cmdClose b => Sys2Proof.Machine.execCmdClose b s
  | .cmdPut b => Sys2Proof.Machine.execCmdPut b s
  | .cmdRemove b => Sys2Proof.Machine.execCmdRemove b s
  | .cmdGet b => Sys2Proof.Machine.execCmdGet b s
  | .cmdList b => Sys2Proof.Machine.execCmdList b s
  | .cmdWatch b => Sys2Proof.Machine.execCmdWatch b s
  | .cmdFlush b => Sys2Proof.Machine.execCmdFlush b s
  | .flushComplete => Sys2Proof.Machine.execFlushComplete s
  | .cmdJournalInfo b => Sys2Proof.Machine.execCmdJournalInfo b s
  | .cmdRoster b => Sys2Proof.Machine.execCmdRoster b s
  | .cmdCounters b => Sys2Proof.Machine.execCmdCounters b s
  | .frameStart line => Sys2Proof.Machine.execFrameStart line s
  | .frameComplete => Sys2Proof.Machine.execFrameComplete s
  | .withdrawal bit => Sys2Proof.Machine.execWithdrawal bit s
  | .driveFault bit => Sys2Proof.Machine.execDriveFault bit s
  | .probeDue => Sys2Proof.Machine.execProbeDue s
  | .probeStart line => Sys2Proof.Machine.execProbeStart line s
  | .probeComplete => Sys2Proof.Machine.execProbeComplete s
  | .frameReceived chars => Sys2Proof.Machine.execFrameReceived chars s
  | .framingError d => Sys2Proof.Machine.execFramingError d s
  | .formatError char4 => Sys2Proof.Machine.execFormatError char4 s
  | .gapError quiet => Sys2Proof.Machine.execGapError quiet s
  | .receiverIdle => Sys2Proof.Machine.execReceiverIdle s
  | .stuckDeclaration => Sys2Proof.Machine.execStuckDeclaration s
  | .takeFrame => Sys2Proof.Machine.execTakeFrame s
  | .replyTimeout => Sys2Proof.Machine.execReplyTimeout s
  | .summaryTimerExpiry => Sys2Proof.Machine.execSummaryTimerExpiry s
  | .joinWindowExpiry => Sys2Proof.Machine.execJoinWindowExpiry s
  | .closeLimitExpiry => Sys2Proof.Machine.execCloseLimitExpiry s
  | .peerLost station => Sys2Proof.Machine.execPeerLost station s
  | .peerAbsent station => Sys2Proof.Machine.execPeerAbsent station s
  | .append => Sys2Proof.Machine.execAppend s
  | .copy => Sys2Proof.Machine.execCopy s
  | .erase => Sys2Proof.Machine.execErase s
  | .programNotBusy left => Sys2Proof.Machine.execProgramNotBusy left s
  | .programVerify => Sys2Proof.Machine.execProgramVerify s
  | .programTimeout left => Sys2Proof.Machine.execProgramTimeout left s
  | .eraseCheck => Sys2Proof.Machine.execEraseCheck s
  | .eraseTimeout left => Sys2Proof.Machine.execEraseTimeout left s
  | .lreqAsserted => Sys2Proof.Machine.execLreqAsserted s
  | .lendGrant => Sys2Proof.Machine.execLendGrant s
  | .lreqDeasserted host => Sys2Proof.Machine.execLreqDeasserted host s
  | .busyCheckEnd => Sys2Proof.Machine.execBusyCheckEnd s
  | .busyCheckTimeout => Sys2Proof.Machine.execBusyCheckTimeout s
  | .headerSurvey => Sys2Proof.Machine.execHeaderSurvey s
  | .bandWalk => Sys2Proof.Machine.execBandWalk s
  | .startBit c => Sys2Proof.Machine.execStartBit c s
  | .lossOfSupply left host => Sys2Proof.Machine.execLossOfSupply left host s

end Sys2Proof.Machine
end

