-- ==== Sys2Proof/Machine/Step.lean ====
section
/-! DEFINITION. One step: the command at the front of the queue, or, when none waits, the passing of one bit time. -/

namespace Sys2Proof.Machine

/-- One step (notes/assumptions/1.md). On an empty queue one bit time of the strapped rate passes (notes/assumptions/2.md). -/
def step (s : State) : Host.Outcome State Fault Refusal :=
  match s.pending with
  | [] => .next (s.passLine 1)
  | c :: rest => exec c { s with pending := rest }

/-- The state with the command that a word spells at the front of its queue; no row of the table gives bits, so no word spells
one and the state is unchanged. -/
def State.withFetchWord (s : State) (nbits w : Nat) : State :=
  match decodeTableWord nbits w with
  | some c => { s with pending := c :: s.pending }
  | none => s

end Sys2Proof.Machine
end

