-- ==== Sys2Proof/Safety.lean ====
section
/-! DEFINITION. What counts as a safe outcome of a step, the laws that every step keeps, and the forms in which statements say
what a command leaves of the Command Port and of time. -/

namespace Sys2Proof.Machine

/-- The step goes on: no fault and no refusal. -/
def goesOn (o : Host.Outcome State Fault Refusal) : Prop := ∃ t, o = .next t

/-- `u` is `s` after some line time, nothing else having happened (0.6). -/
def later (s u : State) : Prop := u = s ∨ ∃ n, u = s.passLine n

/-- `u` is `s` when a timer that reads `t` has come to `limit`: line time passes until it has, none when it already had; on a
clock within its present millisecond the timer then reads exactly that (0.6, notes/assumptions/3.md). -/
def timerReaches (s u : State) (timer : State → Option Nat) (limit : Nat) : Prop :=
  later s u ∧ ∀ t, timer s = some t →
    (limit ≤ t → u = s) ∧ (∃ t', timer u = some t' ∧ limit ≤ t') ∧ (s.clk.us < 1000 → timer u = some (max t limit))

/-! ### Laws of the Parameter Table -/

/-- What every entry holds (R4, R8, R11): a valid id and generation, an origin that a station can have, the check of its value,
at most 32 bytes, at least one byte where it is LOCAL, and a slot exactly where its value is longer than 8 bytes. -/
def EntryLaw (e : Entry) : Prop :=
  validId e.id = true ∧ validGen e.ver.gen = true ∧ e.ver.origin ≤ 31 ∧ e.ver.check = valueCheck e.value
    ∧ e.value.length ≤ Config.maxLength ∧ (e.scope = .loc → e.value ≠ [])
    ∧ (e.slot.isSome = true ↔ Config.inlineLength < e.value.length)

/-- Entries stand in strictly ascending id order, at most 512; no two hold one slot, and slots are 0 to 255 (R3, R9). -/
def TableLaw (t : ParamTable) : Prop :=
  t.entries.Pairwise (fun a b => a.id < b.id) ∧ t.entries.length ≤ Config.maxEntries ∧ (∀ e ∈ t.entries, EntryLaw e)
    ∧ (usedSlots t.entries).Nodup ∧ ∀ k ∈ usedSlots t.entries, k < Config.maxSlots

/-- The digests and the counts are those of the entries (R18, R19). -/
def DigestLaw (t : ParamTable) : Prop :=
  t.digests = (List.range Config.buckets).map (digestOf t.entries) ∧ t.entryCount = t.entries.length
    ∧ (t.sharedCount = t.entries.countP fun e => e.scope = .shared) ∧ t.slotsUsed = (usedSlots t.entries).length

/-- H is at least every generation held and at most FFFFFFFEH (R17). -/
def HighMarkLaw (t : ParamTable) : Prop := t.h ≤ Config.maxGeneration ∧ ∀ e ∈ t.entries, e.ver.gen ≤ t.h

/-! ### Laws of the queues -/

/-- Events of a kind in the notify queue. -/
def eventsOf (q : List Event) (k : EventKind) : List Event := q.filter fun e => e.kind = k

/-- At most 32 events, the 32nd always a LOST marker, a LOST marker only as the last, no two REMOTE-CHANGE events of one id, at
most one UNSAVED and one TABLE-FULL (R191). -/
def NotifyLaw (q : List Event) : Prop :=
  q.length ≤ Config.maxEvents + 1 ∧ (∀ i e, q[i]? = some e → e.kind = .lost → i + 1 = q.length)
    ∧ (Config.maxEvents < q.length → ∃ e, q.getLast? = some e ∧ e.kind = .lost)
    ∧ (eventsOf q .remoteChange).Nodup ∧ (eventsOf q .unsaved).length ≤ 1 ∧ (eventsOf q .tableFull).length ≤ 1

/-- The ids of the journal queue. -/
def Journal.queueIds (jc : Journal) : List Nat := jc.queue.map QItem.id

/-- The flash commands that replay has of its own: readings of bands, and its closes (R163 to R170). -/
def SpCmd.ofReplay : SpCmd → Bool
  | .none => true
  | .read => true
  | .program p _ => p.purpose = .replayLength || p.purpose = .replayMark
  | .erase _ _ => false

/-- At most 64 ids, none twice; an entry is QUEUED exactly when its id is in the queue, and a delete-flagged id names no entry
(R142); in FAULT the queue is empty (R156); replay holds the station in REPLAY with the condition NORMAL, no job and no flash
command but its own, and fills the queue only as it settles the table (R163, R168). -/
def QueueLaw (s : State) : Prop :=
  s.jc.queue.length ≤ Config.maxQueue ∧ s.jc.queueIds.Nodup
    ∧ (∀ e ∈ s.pt.entries, e.jstate = .queued ↔ e.id ∈ s.jc.queueIds)
    ∧ (∀ q ∈ s.jc.queue, q.del = true ↔ ∀ e ∈ s.pt.entries, e.id ≠ q.id)
    ∧ (s.jc.fault = true → s.jc.queue = [])
    ∧ ∀ r, s.jc.replay = some r → s.jc.fault = false ∧ s.jc.job = none ∧ s.sc.station = .replay
        ∧ s.sp.cmd.ofReplay = true ∧ (∀ p, s.jc.next = some p → (SpCmd.program p .busy).ofReplay = true)
        ∧ ((∃ todo, r.phase = .closing todo) ∨ s.jc.queue = [])

/-- The outbound list and the send marks agree (R39): no id stands twice on the list, each is the id of a SHARED entry, and an entry
is marked NEW or PUSH exactly when its id is on it. What a frame in flight may give back (R43) names SHARED entries, each once and
with a mark. While replay goes on, the list is empty and no frame is in flight. -/
def OutboundLaw (s : State) : Prop :=
  s.re.outbound.Nodup ∧ (∀ i ∈ s.re.outbound, ∃ e ∈ s.pt.entries, e.id = i ∧ e.scope = .shared)
    ∧ (∀ e ∈ s.pt.entries, e.mark ≠ .none ↔ e.id ∈ s.re.outbound)
    ∧ (∀ f packed, s.li.flight = some f → f.cargo = .update packed →
        (packed.map Packed.id).Nodup
          ∧ ∀ p ∈ packed, p.mark ≠ .none ∧ ∃ e ∈ s.pt.entries, e.id = p.id ∧ e.scope = .shared)
    ∧ ∀ r, s.jc.replay = some r → s.sc.station = .replay ∧ s.re.outbound = [] ∧ s.li.flight = none

/-! ### Laws of the lend and of the counts -/

/-- A lend is granted only while LREQ is asserted and no flash command is in progress; a busy check runs with no flash command
in progress, and RETURNING is the state of the check after a lend (R175 to R177). -/
def LendLaw (p : StoragePort) : Prop :=
  (p.lend = .granted → p.lreq = true ∧ p.cmd.pauses = true ∧ p.check = .none)
    ∧ (p.lend = .waiting → p.lreq = true ∧ p.check ≠ .returning)
    ∧ (p.lend = .returning ↔ p.check = .returning)
    ∧ (p.check ≠ .none → p.cmd.pauses = true)

/-- The counters in the order of Table 11.5.1. -/
def Counters.all (c : Counters) : List Nat :=
  [c.framesSent, c.framesReceived, c.checkErrors, c.framingErrors, c.formatErrors, c.overruns, c.contentionLosses,
    c.updatesApplied, c.updatesStale, c.versionConflicts, c.scopeConflicts, c.capacityDrops, c.replyDrops, c.recordsWritten,
    c.programFailures, c.bandsErased]

/-- No count passes the value it stops at (R49, R132, R164, R171, R193), and the bounded collections keep their bounds: 31
roster entries (R99), at most 4 frames received (R64), 4 requests queued (R123) and 32 ids wanted (R116), W one of its five
lengths (R69). -/
def BoundLaw (s : State) : Prop :=
  (∀ n ∈ s.cp.counters.all, n ≤ Config.countLimit) ∧ s.sp.lendCount ≤ Config.countLimit
    ∧ s.jc.stranded ≤ Config.countLimit ∧ s.jc.anomalies ≤ Config.countLimit ∧ s.li.quiet ≤ Config.quietLimit
    ∧ s.re.roster.length = 31 ∧ s.re.rxBuffer.length ≤ Config.maxFrames ∧ s.re.replyQueue.length ≤ Config.maxRequests
    ∧ s.re.session.want.length ≤ Config.maxWant ∧ s.ac.wait ∈ [1, 2, 4, 8, 16]

/-! ### The Command Port after a transaction (R180, R181, R183) -/

/-- The Command Port after a transaction that returned its status byte and `n` bytes 00H: REJECTED is clear. -/
def portAfter (s : State) (n : Nat) : CommandPort :=
  { s.cp with transaction := none, rejected := false, smiso := s.latched :: List.replicate n 0 }

/-- The Command Port after a whole command block that is not rejected, with the bytes clocked after it: the slot holds what the
block came to. -/
def portWith (s : State) (b : Block) (sl : Slot) : CommandPort :=
  { portAfter s (4 + b.len.toNat + b.extra) with slot := sl }

/-- The slot after a command that completed at once (R186). -/
def doneSlot (code : Byte) (b : Block) (r : Result) (data : List Byte) : Slot :=
  .done { code := code, tag := b.tag, result := r, data := data }

/-- A good block of a code with parameters `p` reaches the running part, its slot EMPTY (R183). -/
def blockTaken (s : State) (code : Byte) (b : Block) (p : List Byte) : Prop :=
  s.power = .running ∧ s.cp.slot = .empty ∧ blockGood code b = true ∧ b.params = p

/-- The code and the block of a command that carries one (Table 11.3.1). -/
def commandBlock : Instr → Option (Byte × Block)
  | .unknownCommand code b => some (code, b)
  | .cmdStatus b => some (0x10, b)
  | .cmdSetup b => some (0x11, b)
  | .cmdOpen b => some (0x12, b)
  | .cmdClose b => some (0x13, b)
  | .cmdPut b => some (0x20, b)
  | .cmdRemove b => some (0x21, b)
  | .cmdGet b => some (0x22, b)
  | .cmdList b => some (0x23, b)
  | .cmdWatch b => some (0x24, b)
  | .cmdFlush b => some (0x30, b)
  | .cmdJournalInfo b => some (0x31, b)
  | .cmdRoster b => some (0x40, b)
  | .cmdCounters b => some (0x41, b)
  | _ => none

/-- The parameters of a command have a length and fields that Table 11.3.1 gives, its id fields apart (R186, test 2). -/
def parametersFit (code : Byte) (p : List Byte) : Bool :=
  match code.toNat with
  | 0x11 => p.length = 3 && 1 ≤ num p 0 1 && 16 ≤ num p 1 1 && num p 2 1 ≤ 1
  | 0x20 => 4 ≤ p.length && p.length ≤ 35 && num p 2 1 ≤ 1
  | 0x21 => p.length = 2
  | 0x22 => p.length = 2
  | 0x23 => p.length = 4 && 1 ≤ num p 2 1 && num p 2 1 ≤ 20 && num p 3 1 ≤ 3
  | 0x24 => p.length = 3 && num p 2 1 ≤ 1
  | 0x40 => p.length = 1 && 1 ≤ num p 0 1 && num p 0 1 ≤ 31
  | 0x41 => p.length = 1 && num p 0 1 ≤ 1
  | _ => p = []

/-- A job of the journal may start: the part runs, replay is over, the condition is NORMAL, nothing is in hand, the bus is the
part's own and no RESTART waits (R148, R161, R175). -/
def journalFree (s : State) : Prop :=
  s.power = .running ∧ s.jc.replay = none ∧ s.jc.fault = false ∧ s.jc.job = none ∧ s.sp.lend = .idle
    ∧ s.cp.restarting = false ∧ s.sp.cmd = .none ∧ s.sp.check = .none

/-! ### What the journal's shared steps come to -/

/-- Some entry that replay left without base is still in the table with base band none (R149). -/
def unbasedHeld (s : State) : Prop := ∃ e ∈ s.pt.entries, e.base = none ∧ e.id ∈ s.jc.unbased

/-- A row that compaction may choose (R149): FULL, with a sequence, and, while an entry that replay left without base has none
yet, a sequence that no other row holds. -/
def MayRetire (s : State) (band seq : Nat) : Prop :=
  ∃ r, s.jc.bands[band]? = some r ∧ r.state = .full ∧ r.seq = some seq
    ∧ (unbasedHeld s → ∀ i x, i ≠ band → s.jc.bands[i]? = some x → x.seq ≠ some seq)

/-- `t` is `s` after the compaction trigger has been judged (R149): with 2 or fewer ERASED rows the row of lowest sequence that may
be chosen, the lower index of two, becomes RETIRING with the copy cursor none; where no row is left to choose, that FULL rows
stood passed over is remembered. -/
def TriggerJudged (s t : State) : Prop :=
  (s.jc.compaction = .idle ∧ s.jc.fault = false ∧ s.jc.toErase = []
      ∧ (s.jc.bands.countP fun r => r.state = .erased) ≤ 2 →
    (∀ band seq, MayRetire s band seq → (∀ i q, MayRetire s i q → seq < q ∨ (seq = q ∧ band ≤ i)) →
      t = { s with jc := { s.jc with
        bands := s.jc.bands.modify band fun r => { r with state := .retiring }
        compaction := .retiring band none, chooseHeld := false } })
    ∧ ((∀ band seq, ¬ MayRetire s band seq) →
      t = { s with jc := { s.jc with chooseHeld := s.jc.bands.any fun r => r.state = .full } }))
  ∧ (¬ (s.jc.compaction = .idle ∧ s.jc.fault = false ∧ s.jc.toErase = []
      ∧ (s.jc.bands.countP fun r => r.state = .erased) ≤ 2) →
    t = { s with jc := { s.jc with chooseHeld := false } })

/-- `t` is `s` after replay has taken a readable record of the band of a sequence (R140, R165 to R167). One with an invalid field
is skipped and counted. Any other raises H; then a FULL or a SHARED TOMB is applied where its id is absent or its version supersedes
or equals the entry's, whatever the entry's scope, and is skipped, counted, where the table has no entry or slot for it; a LOCAL TOMB
deletes a LOCAL entry of its generation or an older one; a TAIL is applied to an entry with a value, of its scope and length, that it
supersedes, is counted where the entry fails one of these tests, and is an orphan, not counted, where there is none. -/
def RecordReplayed (s t : State) (seq : Nat) (r : JRecord) : Prop :=
  ∃ (read counted : State) (valid : Prop),
    read = { s with pt := { s.pt with h := max s.pt.h r.gen } }
    ∧ counted = { read with jc := { s.jc with anomalies := min 0xFFFFFFFF (s.jc.anomalies + 1) } }
    ∧ (valid ↔ validId r.id = true ∧ validGen r.gen = true ∧ r.origin ≤ 31)
    ∧ (¬ valid → t = { counted with pt := s.pt })
    ∧ (valid → r.kind = 1 ∨ (r.kind = 3 ∧ r.loc = false) → ∀ (v : Version) (applies room : Prop),
        v = { gen := r.gen, origin := r.origin, check := valueCheck r.data } →
        (applies ↔ s.entry r.id = none ∨ ∃ e, s.entry r.id = some e ∧ (v.supersedes e.ver = true ∨ v = e.ver)) →
        (room ↔ (s.entry r.id ≠ none ∨ s.pt.entries.length < 512)
          ∧ (r.data.length ≤ 8 ∨ (s.entry r.id).bind Entry.slot ≠ none ∨ freeSlot s.pt.entries ≠ none)) →
        (¬ applies → t = read) ∧ (applies → ¬ room → t = counted)
        ∧ (applies → room → t.entry r.id = some {
              id := r.id, scope := if r.loc then .loc else .shared, ver := v, value := r.data
              slot := if r.data.length ≤ 8 then none else (s.entry r.id).bind Entry.slot <|> freeSlot s.pt.entries
              jstate := (s.entry r.id).elim .clean Entry.jstate, base := some seq
              dirty := (s.entry r.id).elim .none Entry.dirty, mark := (s.entry r.id).elim .none Entry.mark
              watch := (s.entry r.id).elim false Entry.watch }
            ∧ (∀ j, j ≠ r.id → t.entry j = s.entry j) ∧ t = { read with pt := { t.pt with h := read.pt.h } }))
    ∧ (valid → r.kind = 3 → r.loc = true → ∀ deletes : Prop,
        (deletes ↔ ∃ e, s.entry r.id = some e ∧ e.scope = .loc ∧ e.ver.gen ≤ r.gen) →
        (¬ deletes → t = read)
        ∧ (deletes → t.entry r.id = none ∧ (∀ j, j ≠ r.id → t.entry j = s.entry j)
            ∧ t = { read with pt := { t.pt with h := read.pt.h } }))
    ∧ (valid → r.kind = 2 → (s.entry r.id = none → t = read)
        ∧ ∀ (e : Entry) (value : List Byte) (v : Version) (fits : Prop), s.entry r.id = some e →
          value = e.value.take r.offset ++ r.data → v = { gen := r.gen, origin := r.origin, check := valueCheck value } →
          (fits ↔ (e.scope = .loc ∨ e.value ≠ []) ∧ e.scope = (if r.loc then .loc else .shared) ∧ e.value.length = r.length
            ∧ v.supersedes e.ver = true) →
          (¬ fits → t = counted)
          ∧ (fits → t.entry r.id = some { e with ver := v, value := value }
              ∧ (∀ j, j ≠ r.id → t.entry j = s.entry j) ∧ t = { read with pt := { t.pt with h := read.pt.h } }))

/-- The walk of a band's records from an offset (R140, R165): the readable records taken one after another, each as R165 to R167
give, up to the close length of a FULL band, the end of the band, or what is no readable record. -/
inductive Walked (band seq : Nat) (closeEnd : Option Nat) : State → Nat → State → Nat → WalkEnd → Prop where
  | consumed {s : State} {off c : Nat} : closeEnd = some c → c ≤ off → Walked band seq closeEnd s off s off .consumed
  | bandEnd {s : State} {off : Nat} : (∀ c, closeEnd = some c → off < c) → 4096 ≤ off →
      Walked band seq closeEnd s off s off .bandEnd
  | noRecord {s : State} {off : Nat} : (∀ c, closeEnd = some c → off < c) → off < 4096 →
      readRecord s.flash (band * 4096) off = .noRecord → Walked band seq closeEnd s off s off .noRecord
  | voided {s : State} {off : Nat} : (∀ c, closeEnd = some c → off < c) → off < 4096 →
      readRecord s.flash (band * 4096) off = .voided → Walked band seq closeEnd s off s off .voided
  | unreadable {s : State} {off : Nat} : (∀ c, closeEnd = some c → off < c) → off < 4096 →
      readRecord s.flash (band * 4096) off = .unreadable → Walked band seq closeEnd s off s off .unreadable
  | record {s t : State} {off size off' : Nat} {r : JRecord} {how : WalkEnd} :
      (∀ c, closeEnd = some c → off < c) → off < 4096 → readRecord s.flash (band * 4096) off = .record r size →
      Walked band seq closeEnd (s.replayRecord seq r) (off + size) t off' how → Walked band seq closeEnd s off t off' how

/-- An OPEN band of highest sequence, the later one of two equal (R164). -/
def NewestOpen (rows : List BandRow) (band : Nat) : Prop :=
  ∃ r seq, rows[band]? = some r ∧ r.state = .open_ ∧ r.seq = some seq
    ∧ ∀ i x q, rows[i]? = some x → x.state = .open_ → x.seq = some q → q < seq ∨ (q = seq ∧ i ≤ band)

/-- The base band of an entry is a sequence that more than one row holds (R168). -/
def baseTwice (rows : List BandRow) (e : Entry) : Bool := e.base.any fun q => 1 < rows.countP fun r => r.seq = some q

/-- `t` is `s` with the table as the end of replay leaves it (R168): every entry CLEAN with dirty-from none, mark NONE and watch
off, the live-base counts computed afresh; the entries whose base cannot be told to one row have none, the first 64 of them are
queued and the rest UNSAVED. -/
def TableSettled (s t : State) : Prop :=
  ∃ lost, lost = (s.pt.entries.filter (baseTwice s.jc.bands)).map Entry.id
    ∧ t = { s with
        pt := { s.pt with entries := s.pt.entries.map fun e => { e with
          jstate := if baseTwice s.jc.bands e = true then (if e.id ∈ lost.take 64 then .queued else .unsaved) else .clean
          base := if baseTwice s.jc.bands e = true then none else e.base
          dirty := .none, mark := .none, watch := false } }
        jc := { s.jc with
          bands := s.jc.bands.map fun r => { r with
            live := s.pt.entries.countP fun e => r.seq ≠ none ∧ e.base = r.seq ∧ baseTwice s.jc.bands e = false }
          queue := (lost.take 64).map fun i => { id := i, del := false }
          unbased := lost }
        cp := { s.cp with notify :=
          if 64 < lost.length then placeEvent s.cp.notify { kind := .unsaved, param := 0 } else s.cp.notify } }

/-- `t` is `s` with a program begun and its polling with it (R173), or, where a lend or a RESTART comes first, with no command in
progress and the program the job's next (R141, R161, R175). -/
def Issued (s t : State) (p : Prog) : Prop :=
  t = { s with
    jc := { s.jc with next := if s.sp.lend = .idle ∧ s.cp.restarting = false then none else some p }
    sp := { s.sp with
      cmd := if s.sp.lend = .idle ∧ s.cp.restarting = false then .program p .busy else .none
      poll := if s.sp.lend = .idle ∧ s.cp.restarting = false then some 0 else none } }

/-- `t` is `s` going on at the command that follows its lend point, the bus being the part's own and no busy check running (R163,
R170, R175, R177): replay with its first header, with the reading of the next band or with the program of its closes that waits; a
job with its verification or check read, or with its next program; where nothing waits, nothing begins. While a RESTART waits none
begins (R161). -/
def Resumed (s t : State) : Prop :=
  (s.cp.restarting = true → t = s)
  ∧ (s.cp.restarting = false →
    (∀ r, s.jc.replay = some r →
      (r.phase = .starting → t = { s with
        jc := { s.jc with replay := some { r with phase := .survey 0 } }, sp := { s.sp with cmd := .read } })
      ∧ ((∃ i, r.phase = .survey i) ∨ (∃ todo, r.phase = .walk todo) → t = { s with sp := { s.sp with cmd := .read } })
      ∧ ((∃ todo, r.phase = .closing todo) → (s.jc.next = none → t = s) ∧ ∀ p, s.jc.next = some p → Issued s t p))
    ∧ (s.jc.replay = none →
      (∀ p, s.sp.cmd = .program p .ready → t = { s with sp := { s.sp with cmd := .program p .verify } })
      ∧ (∀ b, s.sp.cmd = .erase b .ready → t = { s with sp := { s.sp with cmd := .erase b .verify } })
      ∧ ((∀ p, s.sp.cmd ≠ .program p .ready) → (∀ b, s.sp.cmd ≠ .erase b .ready) →
          (s.jc.next = none → t = s) ∧ ∀ p, s.jc.next = some p → Issued s t p)))

/-- `t` is `s` going on to the closes of replay (R169): to the first program of the next one, or, with none left, to HELD with the
Line Interface turned on (R58, R87) and the trigger judged (R170). Where a lend or a RESTART comes first the program waits. -/
def ReplayCloses (s t : State) (todo : List (Nat × Nat)) : Prop :=
  (todo = [] → TriggerJudged { s with
      jc := { s.jc with replay := none, next := none }
      sp := { s.sp with cmd := .none, poll := none }
      sc := { s.sc with station := .held }
      li := { s.li with receiver := .seeking, quiet := 0, stuck := 0, stuckDeclared := false } } t)
  ∧ ∀ band off rest, todo = (band, off) :: rest →
      Issued { s with jc := { s.jc with replay := s.jc.replay.map fun r => { r with phase := .closing todo } } } t
        { purpose := .replayLength, band := band, offset := 11, data := closeBytes (off - 16) }

/-- The OPEN band that replay keeps as head (R169): the newest, where its walk ended at a kind FFH or at offset 4096 and no band
holds a higher sequence. -/
def KeptHead (jc : Journal) (r : Replay) (h : Head) : Prop :=
  NewestOpen jc.bands h.band
    ∧ (∃ n, (r.ends.find? fun n => n.band = h.band) = some n ∧ n.offset = h.pos ∧ (n.end_ = .noRecord ∨ n.end_ = .bandEnd))
    ∧ ∀ (i : Nat) (x : BandRow) (q : Nat), jc.bands[i]? = some x → x.seq = some q →
        ∃ (y : BandRow) (p : Nat), jc.bands[h.band]? = some y ∧ y.seq = some p ∧ q ≤ p

/-- `t` is `s`, replay being at `r`, after its last band (R168, R169): the table settled, the head kept or none, and the other
OPEN bands to be closed one after another in band table order, each at the offset where its walk ended. -/
def ReplaySettled (s t : State) (r : Replay) : Prop :=
  ∃ (u : State) (head : Option Head) (todo : List (Nat × Nat)), TableSettled s u
    ∧ (∀ h, head = some h ↔ KeptHead s.jc r h)
    ∧ (todo = (((List.range s.jc.bands.length).filter fun i =>
        ((s.jc.bands[i]?).any fun x => x.state = .open_) && (head.all fun h => h.band ≠ i)).map fun i =>
          (i, (r.ends.find? fun n => n.band = i).elim 16 WalkNote.offset)))
    ∧ ReplayCloses { u with jc := { u.jc with head := head } } t todo

/-! ### FAULT, openings and rewrites (R132, R143, R146, R147, R153, R156, R170) -/

/-- `t` is `s` after the entry into FAULT (R156): the jobs end and the queue empties, what was QUEUED is UNSAVED, a RETIRING band of
a sequence is FULL again, a waiting FLUSH is FAILED-STORAGE, and a waiting lend is granted at once (R178). -/
def FaultEntered (s t : State) : Prop :=
  ∃ (slot : Slot) (told : List Event),
    (∀ tag, s.cp.slot = .executing 0x30 tag →
      slot = .done { code := 0x30, tag := tag, result := .failedStorage, data := [] })
    ∧ ((∀ tag, s.cp.slot ≠ .executing 0x30 tag) → slot = s.cp.slot)
    ∧ told = placeEvent s.cp.notify { kind := .journalFault, param := 0 }
    ∧ t = { s with
        pt := { s.pt with
          entries := s.pt.entries.map fun e => if e.jstate = .queued then { e with jstate := .unsaved } else e }
        jc := { s.jc with
          fault := true, job := none, held := none, next := none, compaction := .idle, queue := [], chooseHeld := false
          bands := s.jc.bands.map fun r => if r.state = .retiring ∧ r.seq.isSome = true then { r with state := .full } else r }
        sp := { s.sp with
          cmd := .none, poll := none
          lend := if s.sp.lend = .waiting then .granted else s.sp.lend
          lendCount := if s.sp.lend = .waiting then min 0xFFFFFFFF (s.sp.lendCount + 1) else s.sp.lendCount }
        cp := { s.cp with
          slot := slot
          notify := if (s.pt.entries.any fun e => e.jstate = .queued) = true
            then placeEvent told { kind := .unsaved, param := 0 } else told } }

/-- `t` is `s` after a FAULT that ends replay, which was at `r` (R170): there is a row for each of the N bands, BAD where the band's
records were not walked, an ERASED band's among them; walked rows are as they were, but for OPEN ones that are no head, which are
FULL (the model's choice, notes/assumptions/12.md); the table is settled as R168 gives where that was not done before; then the station enters HELD and the
journal FAULT. -/
def ReplayFaulted (s t : State) (r : Replay) : Prop :=
  ∃ x y : State,
    x = { s with jc := { s.jc with
      toErase := []
      bands := (List.range (16 * 2 ^ s.straps.bc.toNat)).map fun i =>
        match s.jc.bands[i]? with
        | some row =>
          if (r.ends.any fun n => n.band = i) = true then
            (if row.state = .open_ ∧ (∀ h, s.jc.head = some h → h.band ≠ i) then { row with state := .full } else row)
          else { state := .bad, seq := none, live := 0 }
        | none => { state := .bad, seq := none, live := 0 } } }
    ∧ (∀ todo, r.phase = .closing todo → y = x)
    ∧ ((∀ todo, r.phase ≠ .closing todo) → TableSettled x y)
    ∧ FaultEntered { y with
        jc := { y.jc with replay := none, next := none }
        sp := { y.sp with cmd := .none, poll := none }
        sc := { y.sc with station := .held }
        li := { y.li with receiver := .seeking, quiet := 0, stuck := 0, stuckDeclared := false } } t

/-- `t` is `s`, which has no head, after the opening that a write needs (R146): an append that finds fewer than two ERASED bands
waits on the reserve (R147), the write kept with its flag whether a record of it has failed or only a header program
(notes/assumptions/17.md, 41.md); with no sequence or no ERASED band left the journal is in FAULT; otherwise the header of the ERASED band
of lowest index is begun with the next sequence, or waits for a lend or a RESTART. -/
def BandOpening (s t : State) (w : WriteJob) : Prop :=
  ∃ erased : Nat, erased = (s.jc.bands.countP fun r => r.state = .erased)
    ∧ (w.side = .append → erased < 2 → t = { s with
        jc := { s.jc with job := none, held := some w, next := none }, sp := { s.sp with cmd := .none, poll := none } })
    ∧ (w.side ≠ .append ∨ 2 ≤ erased → s.jc.lastSeq = 0xFFFFFFFE ∨ erased = 0 → FaultEntered s t)
    ∧ ∀ b row, w.side ≠ .append ∨ 2 ≤ erased → s.jc.lastSeq ≠ 0xFFFFFFFE →
        s.jc.bands[b]? = some row → row.state = .erased →
        (∀ i x, i < b → s.jc.bands[i]? = some x → x.state ≠ .erased) →
        Issued { s with jc := { s.jc with lastSeq := s.jc.lastSeq + 1 } } t
          { purpose := .header, band := b, offset := 0, data := headerBytes s.straps (s.jc.lastSeq + 1) }

/-- `w` is the write of an append for an item of the queue, its record built from the table as it stands (R136, R143, Table 7.3.3);
`changed`: the changed-during-write flag it begins with. -/
def BuiltFor (s : State) (q : QItem) (changed : Bool) (w : WriteJob) : Prop :=
  ∃ r : JRecord,
    w = { side := .append, id := q.id, kind := recordKind q.del (s.entry q.id), bytes := r.bytes, changed := changed
          gone := false }
    ∧ (q.del = true ∨ s.entry q.id = none →
        r = { kind := 3, loc := true, id := q.id, gen := s.pt.h, origin := s.straps.sn.toNat, length := 0
              offset := 0, data := [] })
    ∧ ∀ e, q.del = false → s.entry q.id = some e →
        r.id = e.id ∧ (r.loc = true ↔ e.scope = .loc) ∧ r.gen = e.ver.gen ∧ r.origin = e.ver.origin
        ∧ r.length = e.value.length ∧ r.data = e.value.drop r.offset
        ∧ (e.isTombstone = true → r.kind = 3 ∧ r.offset = 0)
        ∧ (e.isTombstone = false → ∀ d, e.dirty = .from_ d → 0 < d → e.base ≠ none → r.kind = 2 ∧ r.offset = d)
        ∧ (e.isTombstone = false → e.dirty = .whole ∨ e.dirty = .none ∨ e.dirty = .from_ 0 ∨ e.base = none →
            r.kind = 1 ∧ r.offset = 0)

/-- `w` is the write of a compaction copy of an entry (R137, R150). -/
def CopyOf (e : Entry) (changed : Bool) (w : WriteJob) : Prop :=
  w = { side := .compaction, id := e.id, kind := if e.isTombstone then .tombShared else .full
        bytes := JRecord.bytes
          { kind := if e.isTombstone then 3 else 1, loc := e.scope = .loc, id := e.id, gen := e.ver.gen
            origin := e.ver.origin, length := e.value.length, offset := 0, data := e.value }
        changed := changed, gone := false }

/-- `e` is the entry that a copy turn comes to: the least id above the cursor whose base is the RETIRING band (R150). -/
def CopyNext (s : State) (band : Nat) (cursor : Option Nat) (e : Entry) : Prop :=
  e ∈ s.pt.entries ∧ e.base ≠ none ∧ e.base = s.jc.seqOf band ∧ above cursor e.id = true
    ∧ ∀ x ∈ s.pt.entries, x.base ≠ none → x.base = s.jc.seqOf band → above cursor x.id = true → e.id ≤ x.id

/-- `t` is `s` after the record of a failed write is taken up again as a new write of the same job (R153): an append of the id, built
again with its changed-during-write flag kept; a copy of the entry the copy turn comes to now, the flag kept for the same id, and the
job's end where nothing is left to copy (where the failed entry is passed over, the model's choice, notes/assumptions/42.md). Either
opens a band, there being no head. -/
def Rewritten (s t : State) (w : WriteJob) : Prop :=
  (w.side = .append → ∀ q, (s.jc.queue.find? fun q => q.id = w.id) = some q →
      ∃ w', BuiltFor s q w.changed w' ∧ BandOpening { s with jc := { s.jc with job := some (.write w') } } t w')
    ∧ (∀ band cursor e, w.side = .compaction → s.jc.compaction = .retiring band cursor → CopyNext s band cursor e →
      ∃ w', CopyOf e (w.changed && e.id = w.id) w'
        ∧ BandOpening { s with jc := { s.jc with job := some (.write w') } } t w')
    ∧ (∀ band cursor, w.side = .compaction → s.jc.compaction = .retiring band cursor → (∀ e, ¬ CopyNext s band cursor e) →
      t = { s with jc := { s.jc with job := none, next := none, lastSide := some .compaction } })

/-! ### What a change tells the journal, and repair -/

/-- `jc'` is `jc` after the marking of R26 for an id, the job in progress told of the change (R143). -/
def JournalMarked (jc jc' : Journal) (id : Nat) : Prop :=
  jc' = { jc with
    queue :=
      if jc.fault = true then jc.queue
      else if id ∈ jc.queueIds then jc.queue.map fun q => if q.id = id then { q with del := false } else q
      else if jc.queue.length < 64 then jc.queue ++ [{ id := id, del := false }]
      else jc.queue
    job := jc.job.map fun j => match j with
      | .write w => .write (if w.id = id then { w with changed := true } else w)
      | .erase b => .erase b
    held := jc.held.map fun w => if w.id = id then { w with changed := true } else w }

/-- `jc'` is `jc` after the deletion of a LOCAL entry (R30, R143, R145): the delete demand stands in the queue where there is room,
the job in progress and a write that waits are told of it, and the count of the entry's base band falls by one (where replay left two
rows of one sequence, that of the one that counts any, notes/assumptions/38.md). -/
def JournalDeleted (jc jc' : Journal) (e : Entry) : Prop :=
  ∃ row : Option Nat, row = (e.base.bind fun b => jc.bands.findIdx? fun r => r.seq = some b && r.live ≠ 0)
    ∧ (∀ i : Nat, jc'.bands[i]? = (jc.bands[i]?).map fun r : BandRow =>
        { r with live := r.live - (if row = some i then 1 else 0) })
    ∧ jc' = { jc with
        queue :=
          if e.id ∈ jc.queueIds then jc.queue.map fun q => if q.id = e.id then { q with del := true } else q
          else if jc.fault = true then jc.queue
          else if jc.queue.length < 64 then jc.queue ++ [{ id := e.id, del := true }]
          else jc.queue
        job := jc.job.map fun j => match j with
          | .write w => .write (if w.id = e.id then { w with changed := true, gone := true } else w)
          | .erase b => .erase b
        held := jc.held.map fun w => if w.id = e.id then { w with changed := true, gone := true } else w
        bands := jc'.bands
        unbased := jc.unbased.filter fun i => i ≠ e.id }

/-- Dirty-from after a change of an entry to a value, by Table 2.1.1 (R25): WHOLE for an entry created, a tombstone revived, a
tombstone made or renewed, and another length; for the same length the lowest byte that differs, or the value standing where that is
lower; for the same bytes the value standing, or the last byte where it was none. -/
def DirtyLaw (old : Option Entry) (value : List Byte) (d : Dirty) : Prop :=
  (old = none → d = .whole)
  ∧ ∀ e, old = some e →
    (e.value = [] ∨ value = [] ∨ e.value.length ≠ value.length → d = .whole)
    ∧ (e.value ≠ [] → e.value = value → d = if e.dirty = .none then .from_ (value.length - 1) else e.dirty)
    ∧ (e.value.length = value.length → ∀ i : Nat, e.value[i]? ≠ value[i]? → (∀ j : Nat, j < i → e.value[j]? = value[j]?) →
        (e.dirty = .none → d = .from_ i) ∧ (∀ k, e.dirty = .from_ k → d = .from_ (min k i)) ∧ (e.dirty = .whole → d = .whole))

/-- The notify queue after the judgement of R106 that ends an event. -/
def judgedNotify (before after : Bool) (q : List Event) : List Event :=
  if after = before then q else placeEvent q { kind := if after then .converged else .diverged, param := 0 }

/-- `t` is `s` after the judgement that ends an event (R106, R107): the converged flag follows the condition, with CONVERGED or
DIVERGED where it changes; and where the condition holds with a PRESENT peer, the join window of JOINING, or of MUTED with prior state
JOINING, is over. -/
def Judged (s t : State) : Prop :=
  ∃ conv joined : Bool,
    (conv = true ↔ (s.sc.station = .joining ∨ s.sc.station = .active ∨ s.sc.station = .muted) ∧ s.re.outbound = []
      ∧ ∀ p ∈ s.re.roster, p.presence = .present → p.agreement = .agree)
    ∧ (joined = true ↔ conv = true ∧ (∃ p ∈ s.re.roster, p.presence = .present)
      ∧ (s.sc.station = .joining ∨ (s.sc.station = .muted ∧ s.ac.prior = .joining)))
    ∧ t = { s with
        sc := { s.sc with
          station := if joined = true ∧ s.sc.station = .joining then .active else s.sc.station
          joinWindow := if joined = true then none else s.sc.joinWindow
          converged := conv }
        ac := { s.ac with prior := if joined = true ∧ s.sc.station = .muted then .active else s.ac.prior }
        cp := { s.cp with notify := judgedNotify s.sc.converged conv s.cp.notify } }

/-- `t` is `s` after one received record, by the first row of Table 2.3.1 that holds (R12, R21, R32 to R38). -/
def RecordOutcome (s t : State) (r : LineRecord) : Prop :=
  ∃ takes room : Prop,
    (takes ↔ s.entry r.id = none ∨ ∃ e, s.entry r.id = some e ∧ e.scope = .shared ∧ r.ver.supersedes e.ver = true)
    ∧ (room ↔ (s.entry r.id ≠ none ∨ s.pt.entries.length < 512)
      ∧ (r.value.length ≤ 8 ∨ (s.entry r.id).bind Entry.slot ≠ none ∨ freeSlot s.pt.entries ≠ none))
    ∧ (∀ e, s.entry r.id = some e → e.scope = .loc → t = { s with cp := { s.cp with counters := { s.cp.counters with
        scopeConflicts := min 0xFFFFFFFF (s.cp.counters.scopeConflicts + 1) } } })
    ∧ (∀ e, s.entry r.id = some e → e.scope = .shared → r.ver = e.ver → t = s)
    ∧ (∀ e, s.entry r.id = some e → e.scope = .shared → e.ver.supersedes r.ver = true →
        t = { s with cp := { s.cp with counters := { s.cp.counters with
          updatesStale := min 0xFFFFFFFF (s.cp.counters.updatesStale + 1)
          versionConflicts := if r.gen = e.ver.gen ∧ r.origin = e.ver.origin
            then min 0xFFFFFFFF (s.cp.counters.versionConflicts + 1) else s.cp.counters.versionConflicts } } })
    ∧ (takes → ¬ room → t = { s with cp := { s.cp with
        notify := placeEvent s.cp.notify { kind := .tableFull, param := 0 }
        counters := { s.cp.counters with capacityDrops := min 0xFFFFFFFF (s.cp.counters.capacityDrops + 1) } } })
    ∧ (takes → room → ∃ (e' : Entry) (q : List Event), t.entry r.id = some e'
        ∧ e' = {
          id := r.id, scope := .shared, ver := { gen := r.gen, origin := r.origin, check := valueCheck r.value }
          value := r.value
          slot := if r.value.length ≤ 8 then none else (s.entry r.id).bind Entry.slot <|> freeSlot s.pt.entries
          jstate := if s.jc.fault = false ∧ (r.id ∈ s.jc.queueIds ∨ s.jc.queue.length < 64) then .queued else .unsaved
          base := (s.entry r.id).elim none Entry.base, dirty := e'.dirty, mark := .none
          watch := (s.entry r.id).elim false Entry.watch }
        ∧ DirtyLaw (s.entry r.id) r.value e'.dirty
        ∧ (∀ j, j ≠ r.id → t.entry j = s.entry j)
        ∧ JournalMarked s.jc t.jc r.id
        ∧ q = (if e'.jstate = .unsaved ∧ (s.entry r.id).map Entry.jstate ≠ some .unsaved
            then placeEvent s.cp.notify { kind := .unsaved, param := 0 } else s.cp.notify)
        ∧ t = { s with
            pt := { t.pt with h := s.pt.h }
            re := { s.re with
              outbound := s.re.outbound.filter fun i => i ≠ r.id
              roster := s.re.roster.map fun p => { p with agreement := .unknown } }
            jc := t.jc
            cp := { s.cp with
              notify := if (s.entry r.id).elim s.cp.setup.watchNew Entry.watch
                then placeEvent q { kind := .remoteChange, param := r.id } else q
              counters := { s.cp.counters with
                updatesApplied := min 0xFFFFFFFF (s.cp.counters.updatesApplied + 1)
                versionConflicts := if (s.entry r.id).any fun e => r.gen = e.ver.gen && r.origin = e.ver.origin
                  then min 0xFFFFFFFF (s.cp.counters.versionConflicts + 1) else s.cp.counters.versionConflicts } } })

/-- The records of an UPDATE are taken one after another, in the frame's order (R32). -/
def RecordsTaken : State → List LineRecord → State → Prop
  | s, [], t => t = s
  | s, r :: rs, t => ∃ u, RecordOutcome s u r ∧ RecordsTaken u rs t

/-- A peer that a session may open with (R109). -/
def MayRepair (s : State) (n : Nat) : Prop :=
  1 ≤ n ∧ n ≤ 31 ∧ (s.peer n).presence = .present ∧ (s.peer n).agreement = .disagree ∧ (s.peer n).wanted = true
    ∧ (s.peer n).failures < 3

/-- `t` is `s` with a session opened with a peer (R110): the first 8 buckets of its mask are asked for and leave the mask, and a
LISTING-REQUEST is RAISED. -/
def SessionOpened (s t : State) (n : Nat) : Prop :=
  ∃ buckets : List Nat, buckets = ((List.range 64).filter fun b => (s.peer n).mask.getLsbD b).take 8
    ∧ t = { s with re := { s.re with
        session := { Session.cleared with state := .awaitListing, peer := n, buckets := buckets, raised := true }
        roster := s.re.roster.modify (n - 1) fun p =>
          { p with mask := p.mask &&& ~~~bucketSet buckets, wanted := false } } }

/-- `t` is `s` after the search of R109: in JOINING and ACTIVE, with the session IDLE, a session opens with the lowest-numbered
candidate; otherwise nothing changes. -/
def SessionSearched (s t : State) : Prop :=
  (∀ n, (s.sc.station = .joining ∨ s.sc.station = .active) → s.re.session.state = .idle → MayRepair s n →
      (∀ m, MayRepair s m → n ≤ m) → SessionOpened s t n)
    ∧ (¬ ((s.sc.station = .joining ∨ s.sc.station = .active) ∧ s.re.session.state = .idle ∧ ∃ n, MayRepair s n) → t = s)

/-- The session and the roster of `t` are those of `s` with the session over and this roster, after the search of R109 (R119 to
R121). -/
def SessionEnded (s : State) (roster : List Peer) (t : State) : Prop :=
  ∃ w, SessionSearched { s with re := { s.re with session := .cleared, roster := roster } } w
    ∧ t.re.session = w.re.session ∧ t.re.roster = w.re.roster

/-- A roster entry refreshed by a frame of its station (R100). -/
def Peer.heard (now : Nat) (p : Peer) : Peer :=
  if p.presence = .silent then
    { p with lastHeard := some now, presence := .present, agreement := .unknown, mask := 0, wanted := false }
  else { p with lastHeard := some now, presence := .present }

/-- The entry of a peer whose session ends in success (R120). -/
def Peer.repaired (se : Session) (more : Bool) (p : Peer) : Peer :=
  { p with
    failures := 0
    mask := if more then p.mask ||| bucketSet se.buckets else p.mask
    wanted := p.wanted || (if more then p.mask ||| bucketSet se.buckets else p.mask) != 0 }

/-- The entry of a peer whose session is abandoned with a failure (R119). -/
def Peer.failed (se : Session) (p : Peer) : Peer :=
  { p with failures := p.failures + 1, mask := p.mask ||| bucketSet se.buckets, wanted := true }

/-- A frame in flight that runs on after the session it asks for, or the request at the head of the reply queue, is over, as told
(R122, R124, R128). -/
def Flight.left (session head : Bool) (f : Flight) : Flight :=
  { f with cargo := match f.cargo with
    | .request awaited => .request (awaited && !session)
    | .reply forHead ends moved => .reply (forHead && !head) ends moved
    | cargo => cargo }

/-- A quad of a listing is wanted (R115): its id is absent, or a SHARED entry's version is superseded. -/
def wantsQuad (s : State) (q : Quad) : Bool := (s.entry q.id).all fun e => e.scope = .shared && q.ver.supersedes e.ver

/-- An own entry that a listing frame of bucket `b` has pushed (R115): a SHARED one of the bucket that is listed in an older
version, or that the frame shows to be absent at the peer, lying above the merge cursor or a quad and below a quad or, with
BUCKET-LAST, anywhere. -/
def pushesEntry (b : Nat) (quads : List Quad) (cursor : Option Nat) (bucketLast : Bool) (e : Entry) : Bool :=
  e.scope = .shared && e.id % 64 = b
    && if quads.any fun q => q.id = e.id then quads.any fun q => q.id = e.id && e.ver.supersedes q.ver
      else ((cursor.all fun c => c < e.id) || quads.any fun q => q.id < e.id)
        && (bucketLast || quads.any fun q => e.id < q.id)

/-! ### The responder (R123 to R127) -/

/-- `t` is `s` after the placing of a request by the first case of Table 6.5.2 that holds (R124): it replaces a request of the same
requester that no frame has served, in its place; one that a frame has served leaves, a frame of it in flight serving the head no
more, and the new one joins the tail; with 4 requests of others in the queue it is dropped and counted; otherwise it joins the
tail. -/
def RequestPlaced (s t : State) (r : Request) : Prop :=
  (∀ old served, (s.re.replyQueue.find? fun x => x.requester = r.requester) = some old →
    (served ↔ old.completed = true ∨ (s.re.replyQueue.head? = some old
      ∧ ∃ f ends moved, s.li.flight = some f ∧ f.cargo = .reply true ends moved)) →
    (¬ served → t = { s with re := { s.re with
      replyQueue := s.re.replyQueue.map fun x => if x.requester = r.requester then r else x } })
    ∧ (served → t = { s with
        re := { s.re with replyQueue := (s.re.replyQueue.filter fun x => x.requester ≠ r.requester) ++ [r] }
        li := { s.li with flight :=
          if s.re.replyQueue.head? = some old then s.li.flight.map fun f => { f with cargo := match f.cargo with
            | .reply _ ends moved => .reply false ends moved
            | cargo => cargo }
          else s.li.flight } }))
  ∧ ((∀ x ∈ s.re.replyQueue, x.requester ≠ r.requester) →
    (4 ≤ s.re.replyQueue.length → t = { s with cp := { s.cp with counters := { s.cp.counters with
      replyDrops := min 0xFFFFFFFF (s.cp.counters.replyDrops + 1) } } })
    ∧ (s.re.replyQueue.length < 4 → t = { s with re := { s.re with replyQueue := s.re.replyQueue ++ [r] } }))

/-- What the next frame of a request carries, built from the table at its first bit, and the request's work past that frame.
A listing (R126): the SHARED entries of the cursor's bucket above its last id in ascending id order, up to 16; BUCKET-LAST where no more
of them follow, END with it in the last bucket; the cursor then goes to the frame's last id or to the next bucket. A fetch (R127): from
its cursor on, an id that is absent or LOCAL is consumed without a record, a SHARED one gives a record; packing stops at the first
record past 159 bytes, and once 4 records are packed; END where every id has been consumed. -/
def ReplyBuilt (s : State) (w : Work) (p : Payload) (flags : FrameFlags) (moved : Work) : Prop :=
  flags.reply = true ∧ flags.joining = false
  ∧ (∀ buckets pos part last b, w = .listing buckets pos part last → b = buckets.getD pos 0 →
    ∃ rest : List Entry,
      rest = (s.pt.entries.filter fun e => e.scope = .shared && e.id % 64 = b && last.all fun i => i < e.id)
      ∧ p = .listing b part ((rest.take 16).map fun e => { id := e.id, ver := e.ver })
      ∧ (flags.bucketLast = true ↔ rest.length ≤ 16)
      ∧ (flags.end_ = true ↔ rest.length ≤ 16 ∧ pos + 1 = buckets.length)
      ∧ (rest.length ≤ 16 → moved = .listing buckets (pos + 1) 0 none)
      ∧ (∀ e : Entry, 16 < rest.length → rest[15]? = some e → moved = .listing buckets pos (part + 1) (some e.id)))
  ∧ ∀ ids consumed, w = .fetch ids consumed →
    ∃ (held : Nat → Option Entry) (taken left : List Nat) (found : List Entry),
      (∀ i, held i = (s.entry i).filter fun e => e.scope = .shared)
      ∧ taken ++ left = ids.drop consumed ∧ found = taken.filterMap held
      ∧ p = .update (found.map fun e => { id := e.id, gen := e.ver.gen, origin := e.ver.origin, value := e.value })
      ∧ found.length ≤ 4 ∧ (found.map fun e => 8 + e.value.length).sum ≤ 159
      ∧ (found.length = 4 → ∃ i, taken.getLast? = some i ∧ held i ≠ none)
      ∧ (found.length < 4 → left = [] ∨ ∃ i tail e, left = i :: tail ∧ held i = some e
          ∧ 159 < (found.map fun e => 8 + e.value.length).sum + (8 + e.value.length))
      ∧ flags.bucketLast = false ∧ (flags.end_ = true ↔ consumed + taken.length = ids.length)
      ∧ moved = .fetch ids (consumed + taken.length)

/-! ### Frames -/

/-- What Table 3.4.2 asks of a payload, with the lengths that fit a frame (R42, R50, R54 to R57). -/
def PayloadLaw (flags : FrameFlags) : Payload → Prop
  | .update recs =>
    recs.length ≤ 4 ∧ (recs.map fun r => 8 + r.value.length).sum ≤ 159
      ∧ (recs = [] → flags.reply = true ∧ flags.end_ = true)
      ∧ ∀ r ∈ recs, validId r.id = true ∧ validGen r.gen = true ∧ validStation r.origin = true ∧ r.value.length ≤ 32
  | .summary h count interval digests =>
    h < 0xFFFFFFFF ∧ count ≤ 512 ∧ 1 ≤ interval ∧ interval ≤ 255 ∧ digests.length = 64
  | .listingRequest m => m ≠ 0
  | .listing bucket part quads =>
    bucket ≤ 63 ∧ part ≤ 255 ∧ quads.length ≤ 16 ∧ (quads = [] → flags.bucketLast = true)
      ∧ quads.Pairwise (fun a b => a.id < b.id)
      ∧ ∀ q ∈ quads, validId q.id = true ∧ bucketOf q.id = bucket ∧ validGen q.ver.gen = true
        ∧ validStation q.ver.origin = true
  | .fetch ids => 1 ≤ ids.length ∧ ids.length ≤ 32 ∧ ∀ i ∈ ids, validId i = true
  | .leave => True

/-- A frame that passes the tests of R61: source, destination, flags and payload (Tables 3.2.2 and 3.4.2). -/
def FrameLaw (f : Frame) : Prop :=
  validStation f.src = true ∧ f.dst ≤ 31 ∧ flagsGood f.payload.code f.flags f.src f.dst = true ∧ PayloadLaw f.flags f.payload

/-- Events that reach the part while RSTN is low or the supply is off: resets, the supply, and the level of LREQ (R160, R176). -/
def actsStopped : Instr → Bool
  | .pinReset _ _ => true
  | .resetRelease _ => true
  | .lossOfSupply _ _ => true
  | .lreqAsserted => true
  | .lreqDeasserted _ => true
  | _ => false

end Sys2Proof.Machine
end

