-- ==== Sys2Proof/Certificates/Slice0/Obligations.lean ====
section
/-! DEFINITION. The statements for the provers, one for each entry of OBLIGATIONS.json. -/

open Sys2Proof Sys2Proof.Machine

/-! ### The machine -/

/-- The step at a state with a command at the front of its queue is the command's meaning on the state with the queue's rest. -/
def Obligations.StepRunsTheFrontCommand : Prop :=
  ∀ (c : Instr) (rest : List Instr) (s : State),
    step { s with pending := c :: rest } = exec c { s with pending := rest }

/-- The model's choice of a tick (notes/assumptions/2.md): on an empty queue one bit time passes, and a part in reset or without
supply does nothing (R160). The clock counts the microseconds, and every timer on the tick the milliseconds that end; outside a
frame of this station a recessive line adds one to the quiet count, a dominant one to the stuck count (R49, R67), the level being
the one last told, within another station's frame too (the model's, notes/assumptions/9.md). The reply timer runs while the
request is SENT and no frame is taken in (R112); that it counts single bit times and adds those on the two sides of a frame
together, where R112 counts whole tC, is the model's (notes/assumptions/36.md). A frame in either direction is one bit further,
and the levels of a frame of this station are the line's (R45, R62). Nothing else changes. -/
def Obligations.IdleStepPassesOneBitTime : Prop :=
  ∀ s : State, s.pending = [] →
    (s.power ≠ .running → step s = .next s)
    ∧ (s.power = .running → ∃ (us ms : Nat) (li : LineIf),
      us = s.clk.us + 16 / 2 ^ s.straps.lr.toNat ∧ ms = us / 1000
      ∧ step s = .next { s with
          clk := { now := s.clk.now + ms, us := us % 1000 }
          re := { s.re with
            session := { s.re.session with timer :=
              if s.re.session.state ≠ .idle ∧ s.re.session.raised = false ∧ s.li.receiver.busy = false
              then s.re.session.timer + 1 else s.re.session.timer }
            summaryTimer := s.re.summaryTimer.map (· + ms) }
          sc := { s.sc with joinWindow := s.sc.joinWindow.map (· + ms), closeLimit := s.sc.closeLimit.map (· + ms) }
          li := li
          ac := { s.ac with recovery := s.ac.recovery.map (· + ms) }
          sp := { s.sp with poll := s.sp.poll.map (· + ms) } }
      ∧ (s.li.receiver = .off → li = s.li)
      ∧ (∀ r, (s.li.receiver = .seeking ∨ s.li.receiver = .idle) ∧ r = s.li.receiver
            ∨ (∃ e, s.li.receiver = .receiving false e ∧ r = .receiving false (e + 1)) →
          (s.li.line = .recessive → li = { s.li with receiver := r, quiet := min 255 (s.li.quiet + 1), stuck := 0 })
          ∧ (s.li.line = .dominant → li = { s.li with receiver := r, quiet := 0, stuck := s.li.stuck + 1 }))
      ∧ (∀ e, s.li.receiver = .receiving true e → s.li.flight = none →
          li = { s.li with receiver := .receiving true (e + 1) })
      ∧ (∀ e f, s.li.receiver = .receiving true e → s.li.flight = some f →
          li = { s.li with
            receiver := .receiving true (e + 1)
            quiet := match (frameBits f.chars)[f.elapsed]? with
              | some true => min 255 (s.li.quiet + 1)
              | some false => 0
              | none => s.li.quiet
            flight := some { f with elapsed := f.elapsed + 1 } }))

/-- A command, well-formed or not, goes on in every state, and leaves the queue of waiting commands as it is
(notes/assumptions/1.md, 25.md). -/
def Obligations.WellFormedCommandsGoOn : Prop :=
  ∀ (c : Instr) (s : State), ∃ t, exec c s = .next t ∧ t.pending = s.pending

/-- While RSTN is low the part does nothing more (R160), and nothing without supply, where it is off until a reset begins or ends
(notes/assumptions/19.md): every command but a reset, a change of supply and a change of the LREQ level leaves the state as it is.
-/
def Obligations.StoppedPartIgnoresCommands : Prop :=
  ∀ (c : Instr) (s : State), c.wf = true → actsStopped c = false → s.power ≠ .running → exec c s = .next s

/-! ### Laws every step keeps -/

/-- The content of the flash device stays in its canonical form, which is the model's own: addresses rising, no byte listed that
reads as an unlisted one does (notes/assumptions/6.md). -/
def Obligations.FlashStaysCanonical : Prop :=
  ∀ s t : State, step s = .next t → Flash.wf s.flash → Flash.wf t.flash

/-- The entries stay in ascending id order within their capacity, each with valid fields and its slot (R3, R4, R8, R9, R11); and
the outbound list, without repeats and of SHARED ids alone, holds exactly the ids marked NEW or PUSH (R39). -/
def Obligations.TableLawKept : Prop :=
  ∀ s t : State, step s = .next t → TableLaw s.pt → HighMarkLaw s.pt → TableLaw t.pt ∧ (OutboundLaw s → OutboundLaw t)

/-- The digests and the three counts stay those of the entries (R18, R19). -/
def Obligations.DigestsAndCountsKept : Prop :=
  ∀ s t : State, step s = .next t → DigestLaw s.pt → DigestLaw t.pt

/-- H stays at least every generation held and at most FFFFFFFEH (R17). -/
def Obligations.HighMarkLawKept : Prop :=
  ∀ s t : State, step s = .next t → HighMarkLaw s.pt → HighMarkLaw t.pt

/-- An event is placed in the notify queue by the first of R191's four cases that holds: a REMOTE-CHANGE of an id that waits, an
UNSAVED or a TABLE-FULL while one waits, is coalesced; with a LOST marker in the queue its count rises by one and stops at FFFFH;
as the 32nd, with 31 waiting, a LOST marker of count 1 joins the tail; otherwise the event does. So every step keeps the queue's
bounds, its marker last and its coalescing. -/
def Obligations.NotifyLawKept : Prop :=
  (∀ (q : List Event) (e : Event) (waits lost : Prop),
    (waits ↔ (e.kind = .remoteChange ∧ ∃ x ∈ q, x.kind = .remoteChange ∧ x.param = e.param)
      ∨ ((e.kind = .unsaved ∨ e.kind = .tableFull) ∧ ∃ x ∈ q, x.kind = e.kind)) →
    (lost ↔ ∃ x ∈ q, x.kind = .lost) →
    (waits → placeEvent q e = q)
    ∧ (¬ waits → lost → placeEvent q e
        = q.map fun x => if x.kind = .lost then { x with param := min 0xFFFF (x.param + 1) } else x)
    ∧ (¬ waits → ¬ lost → q.length = 31 → placeEvent q e = q ++ [{ kind := .lost, param := 1 }])
    ∧ (¬ waits → ¬ lost → q.length ≠ 31 → placeEvent q e = q ++ [e]))
  ∧ ∀ s t : State, step s = .next t → NotifyLaw s.cp.notify → NotifyLaw t.cp.notify

/-- The counts and the bounded collections keep their bounds (R49, R64, R69, R99, R116, R123, R132, R164, R171, R193). -/
def Obligations.BoundLawKept : Prop :=
  ∀ s t : State, step s = .next t → BoundLaw s → BoundLaw t

/-- LGNT is asserted only while LREQ is, and with no flash command in progress (R176). -/
def Obligations.LendLawKept : Prop :=
  ∀ s t : State, step s = .next t → LendLaw s.sp → LendLaw t.sp ∧ (t.lgnt = true → t.sp.lreq = true ∧ t.sp.cmd.pauses = true)

/-- The journal queue and the journal states of the entries stay in step (R142). -/
def Obligations.QueueLawKept : Prop :=
  ∀ s t : State, step s = .next t → s.pt.entries.Pairwise (fun a b => a.id < b.id) → QueueLaw s → QueueLaw t

/-- The laws hold at reset, and reset leaves what Table 9.1.1 gives, with the SETUP defaults of R160 and no demand (R69). -/
def Obligations.ResetMeetsTheLaws : Prop :=
  (Flash.wf State.reset.flash ∧ TableLaw State.reset.pt ∧ DigestLaw State.reset.pt ∧ HighMarkLaw State.reset.pt
    ∧ NotifyLaw State.reset.cp.notify ∧ BoundLaw State.reset ∧ LendLaw State.reset.sp ∧ QueueLaw State.reset
    ∧ OutboundLaw State.reset)
  ∧ (State.reset.pt.entries = [] ∧ State.reset.pt.h = 0 ∧ State.reset.pt.digests = List.replicate 64 0
    ∧ State.reset.pt.entryCount = 0 ∧ State.reset.pt.sharedCount = 0 ∧ State.reset.pt.slotsUsed = 0)
  ∧ (State.reset.re.outbound = [] ∧ State.reset.re.rxBuffer = [] ∧ State.reset.re.replyQueue = []
    ∧ State.reset.re.session.state = .idle ∧ State.reset.re.roster = List.replicate 31 .cleared ∧ State.reset.re.seq = 0
    ∧ State.reset.re.summaryTimer = none)
  ∧ (State.reset.sc.station = .replay ∧ State.reset.sc.joinWindow = none ∧ State.reset.sc.closeLimit = none
    ∧ State.reset.sc.converged = false)
  ∧ (State.reset.li.receiver = .off ∧ State.reset.li.quiet = 0 ∧ State.reset.li.stuck = 0 ∧ State.reset.ltxd = .recessive)
  ∧ ((∀ d, State.reset.demands d = false) ∧ State.reset.ac.rest = false ∧ State.reset.ac.wait = 1
    ∧ State.reset.ac.recovery = none ∧ State.reset.ac.mutedCause = .none)
  ∧ (State.reset.jc.queue = [] ∧ State.reset.jc.bands = [] ∧ State.reset.jc.head = none ∧ State.reset.jc.lastSeq = 0
    ∧ State.reset.jc.compaction = .idle ∧ State.reset.jc.fault = false ∧ State.reset.jc.failCount = 0
    ∧ State.reset.jc.job = none ∧ State.reset.jc.stranded = 0 ∧ State.reset.jc.anomalies = 0)
  ∧ (State.reset.sp.cmd = .none ∧ State.reset.sp.lend = .idle ∧ State.reset.sp.lendCount = 0 ∧ State.reset.lgnt = false)
  ∧ (State.reset.cp.slot = .empty ∧ State.reset.cp.notify = [] ∧ State.reset.cp.rejected = false
    ∧ State.reset.cp.setup = { interval := 20, replyTimeout := 64, watchNew := false }
    ∧ State.reset.cp.setupAllowed = true ∧ (∀ n ∈ State.reset.cp.counters.all, n = 0) ∧ State.reset.atn = false)

/-! ### Resets (R160 to R163, R178, R185) -/

/-- PIN_RESET and LOSS_OF_SUPPLY clear all state of the part: what stays is the straps as last sampled, the LREQ pin, the waiting
commands and the device's content, but for what the device made of a write in hand (notes/assumptions/7.md) or a host in its lend
wrote (notes/assumptions/8.md), which the statement after this one bounds byte by byte; the values that no rule gives are those of
the model's reset state (notes/assumptions/5.md), and that a loss of supply leaves the part off is the model's
(notes/assumptions/19.md). After a PIN_RESET the flash bus is the part's: LGNT is deasserted, FCS high and FSCK low (R178), and
SMISO floats (R180). A repeated reset is no event. -/
def Obligations.ResetsClearAllState : Prop :=
  ∀ (left : DeviceLeft) (host : List Host.Cell) (s : State),
    (s.power ≠ .inReset → ∃ t, exec (.pinReset left host) s = .next t
      ∧ t = { State.reset with
          power := .inReset, straps := s.straps, sp := { StoragePort.reset with lreq := s.sp.lreq }
          flash := s.flashAtReset left host, pending := s.pending }
      ∧ t.lgnt = false ∧ t.fcs = [.high] ∧ t.fsck = .low ∧ t.smisoFloats = true)
    ∧ (s.power = .inReset → exec (.pinReset left host) s = .next s)
    ∧ (s.power ≠ .off → exec (.lossOfSupply left host) s
      = .next { State.reset with
          power := .off, straps := s.straps, sp := { StoragePort.reset with lreq := s.sp.lreq }
          flash := s.flashAtReset left host, pending := s.pending })
    ∧ (s.power = .off → exec (.lossOfSupply left host) s = .next s)

/-- What a reset and a loss of supply leave in flash (R139, R160, R178): a program in hand turns 1 bits of its own range into 0
bits, as the device made of it (notes/assumptions/7.md); an erase in hand touches its band alone; a host that held the bus leaves
what it wrote; otherwise nothing changes. -/
def Obligations.ResetsTearOnlyTheWriteInHand : Prop :=
  ∀ (left : DeviceLeft) (host : List Host.Cell) (s t : State) (c : Instr), Flash.wf s.flash →
    (c = .pinReset left host ∧ s.power ≠ .inReset ∨ c = .lossOfSupply left host ∧ s.power ≠ .off) →
    exec c s = .next t →
    (s.sp.lend = .granted → t.flash = Flash.hostWrite s.flash host)
    ∧ (s.sp.lend ≠ .granted →
        (∀ p, s.sp.cmd = .program p .busy → ∀ a,
          Flash.byte t.flash a =
            if p.band * 4096 + p.offset ≤ a ∧ a < p.band * 4096 + p.offset + p.data.length then
              Flash.byte s.flash a &&& (landed p.data left).getD (a - (p.band * 4096 + p.offset)) 0xFF
            else Flash.byte s.flash a)
        ∧ (∀ b, s.sp.cmd = .erase b .busy → ∀ a, ¬ (b * 4096 ≤ a ∧ a < b * 4096 + 4096) →
            Flash.byte t.flash a = Flash.byte s.flash a)
        ∧ (s.sp.cmd.windowOpen = false → t.flash = s.flash))

/-- RESET_RELEASE and a RESTART that takes effect sample straps and LREQ (R161 to R163, R178): with LREQ asserted the lend is
granted and the lend count is 1, otherwise the start-up busy check begins; everything else is as reset leaves it, with the model's
values where no rule gives one (notes/assumptions/5.md). A RESTART waits while a flash command is in progress (R161): the busy
period of a program or erase, a verification or check read, a read of replay, each ended by its own command, after which none
begins. That it takes effect before a verification read that has not begun, that it drops a transaction in hand at that instant,
and that RESET_RELEASE also starts a part without supply, are the model's (notes/assumptions/14.md, 39.md, 19.md). -/
def Obligations.StartUpSamplesStrapsAndLreq : Prop :=
  ∀ (straps : Straps) (host : List Host.Cell) (s : State),
    (s.power ≠ .running → ∃ t, exec (.resetRelease straps) s = .next t ∧ t.flash = s.flash
      ∧ t = { State.reset with
          power := .running, straps := straps, flash := t.flash, pending := s.pending
          sp := if s.sp.lreq then { StoragePort.reset with lreq := true, lend := .granted, lendCount := 1 }
            else { StoragePort.reset with check := .startUp, poll := some 0 } })
    ∧ (s.sp.cmd.over = true ↔
        s.sp.cmd = .none ∨ (∃ p, s.sp.cmd = .program p .ready) ∨ ∃ b, s.sp.cmd = .erase b .ready)
    ∧ (s.power = .running → s.sp.cmd.over = false ∨ s.cp.restarting = false →
      exec (.restartTakesEffect straps host) s = .next s)
    ∧ (∀ r i, s.power = .running → s.cp.restarting = true → s.jc.replay = some r → s.sp.cmd = .read →
        r.phase = .survey i ∧ i + 1 < 16 * 2 ^ s.straps.bc.toNat →
      ∃ t, exec .headerSurvey s = .next t ∧ t.sp = { s.sp with cmd := .none } ∧ t.cp = s.cp)
    ∧ (s.power = .running → s.cp.restarting = true → s.sp.cmd.over = true →
      ∃ t, exec (.restartTakesEffect straps host) s = .next t
      ∧ t.flash = (if s.sp.lend = .granted then Flash.hostWrite s.flash host else s.flash)
      ∧ t = { State.reset with
          power := .running, straps := straps, flash := t.flash, pending := s.pending
          sp := if s.sp.lreq then { StoragePort.reset with lreq := true, lend := .granted, lendCount := 1 }
            else { StoragePort.reset with check := .startUp, poll := some 0 } })

/-- Exactly the code 0EH makes a RESTART (R185); it then resets the part, at once when no flash command is in progress (R161).
That it waits, and then takes effect in a second command, is the model's form of it (notes/assumptions/14.md). -/
def Obligations.RestartTakesOnlyItsCode : Prop :=
  ∀ (n : Nat) (straps : Straps) (s : State), s.power = .running →
    ∃ t, exec (.restart n) s = .next t
      ∧ t = { s with cp := { portAfter s (n / 8) with restarting := s.cp.restarting || n == 0 } }
      ∧ (n = 0 → s.sp.cmd = .none → ∃ u, exec (.restartTakesEffect straps []) t = .next u
          ∧ u.power = .running ∧ u.sc.station = .replay ∧ u.straps = straps ∧ u.pt.entries = [] ∧ u.cp.slot = .empty)

/-! ### Transactions and the command slot (R181 to R184, R192) -/

/-- R180 and R181: the status byte's fields; it is taken at the assertion of SSEL, whatever changes until the code and the rest of
the transaction are clocked; READ_STATUS returns it, and 00H for every further byte; REJECTED clears once the status byte has been
clocked out whole, at a pin reset and at a RESTART; after a reset the byte reads 00H. That a transaction may come in two commands,
and that a status byte cut short is recorded as no byte, is the model's (notes/assumptions/18.md). -/
def Obligations.StatusByteReports : Prop :=
  (∀ s : State,
    s.statusByte.toNat % 8 = s.sc.station.code
    ∧ (s.statusByte.getLsbD 3 = true ↔ ∃ r, s.cp.slot = .done r)
    ∧ (s.statusByte.getLsbD 4 = true ↔ s.cp.notify ≠ [])
    ∧ (s.statusByte.getLsbD 5 = true ↔ s.cp.slot ≠ .empty)
    ∧ s.statusByte.getLsbD 6 = s.cp.rejected
    ∧ s.statusByte.getLsbD 7 = s.jc.fault)
  ∧ (∀ s : State, s.power = .running →
    (∃ t, exec (.readStatus .select) s = .next t
      ∧ t = { s with cp := { s.cp with transaction := some (.selected s.statusByte), smiso := [] } }
      ∧ ∀ u : State, u.cp.transaction = t.cp.transaction → u.latched = s.statusByte)
    ∧ ((∀ b, s.cp.transaction ≠ some (.selected b)) → s.latched = s.statusByte)
    ∧ (∀ bits, 8 ≤ bits → exec (.readStatus (.clocked bits)) s
        = .next { s with cp := { s.cp with
            transaction := none, rejected := false, smiso := s.latched :: List.replicate (bits / 8 - 1) 0 } })
    ∧ (∀ bits, bits < 8 → exec (.readStatus (.clocked bits)) s
        = .next { s with cp := { s.cp with transaction := none, smiso := [] } }))
  ∧ (∀ (left : DeviceLeft) (s t : State), s.power ≠ .inReset → exec (.pinReset left []) s = .next t →
    t.cp.rejected = false ∧ t.statusByte = 0)
  ∧ (∀ (straps : Straps) (s t : State), s.power = .running → s.cp.restarting = true → s.sp.cmd.over = true →
    exec (.restartTakesEffect straps []) s = .next t → t.cp.rejected = false ∧ t.statusByte = 0)

/-- R182: ATN is asserted exactly while the slot is DONE or an event waits, and a pin reset deasserts it. ATN is computed from
slot and queue (notes/assumptions/20.md). -/
def Obligations.AttentionFollowsSlotAndQueue : Prop :=
  (∀ s : State, s.atn = true ↔ (∃ r, s.cp.slot = .done r) ∨ s.cp.notify ≠ [])
  ∧ (∀ (left : DeviceLeft) (s t : State), s.power ≠ .inReset → exec (.pinReset left []) s = .next t → t.atn = false)

/-- The first byte that the host sends, most significant bit first and complete at its eighth bit, selects the transaction (R180):
01H takes the bytes after it as a command block, whole at its check or at a length byte above 40, aborted before (R183); 02H is
READ-RESPONSE, 03H POP-EVENT, 04H READ-STATUS, 0EH RESTART. Every sequence of bits makes a well-formed command, and joins the
commands that wait. A transaction of any other code, and a block cut before its end, return the status byte and 00H for every byte
after it, and leave everything but the port's own record of the transaction. SMISO floats between transactions and in reset
(R180); that it is a pin computed from the transaction in hand, and floats without supply, is the model's
(notes/assumptions/20.md), and so is that a transaction is one command (notes/assumptions/18.md). -/
def Obligations.CodeByteSelectsTheTransaction : Prop :=
  (∀ (code : Byte) (bytes : List Byte) (part : List Bool) (i : Instr), part.length < 8 →
    i = decodeTransaction ((code :: bytes).flatMap byteBits ++ part) →
    (code = 0x01 →
      (incompleteBlock bytes = true → i = .commandBlockAborted bytes)
      ∧ ∀ (c tag len : Byte) (rest : List Byte), bytes = c :: tag :: len :: rest →
        (40 < len.toNat → ∃ check, commandBlock i
          = some (c, { tag := tag, len := len, params := [], check := check, extra := rest.length }))
        ∧ ∀ params check after, len.toNat ≤ 40 → params.length = len.toNat → rest = params ++ check :: after →
          commandBlock i = some (c, { tag := tag, len := len, params := params, check := check, extra := after.length }))
    ∧ (code = 0x02 → i = .readResponse (.whole bytes.length))
    ∧ (code = 0x03 → i = .popEvent (.whole bytes.length))
    ∧ (code = 0x04 → i = .readStatus (.clocked (8 * (bytes.length + 1) + part.length)))
    ∧ (code = 0x0E → i = .restart (8 * bytes.length + part.length))
    ∧ (code ∉ [0x01, 0x02, 0x03, 0x04, 0x0E] → i = .otherTransactionCode { code := code, extra := bytes.length }))
  ∧ (∀ part : List Bool, part.length < 8 → decodeTransaction part = .readStatus (.clocked part.length))
  ∧ (∀ (b : Byte) (i : Nat), i < 8 → (byteBits b)[i]? = some (b.getLsbD (7 - i)))
  ∧ (∀ (bits : List Bool) (s : State), (decodeTransaction bits).wf = true
    ∧ s.clockIn bits = { s with pending := s.pending ++ [decodeTransaction bits] })
  ∧ (∀ s : State, s.power = .running →
    (∀ t : OtherCode, t.code ∉ [0x01, 0x02, 0x03, 0x04, 0x0E] →
      exec (.otherTransactionCode t) s = .next { s with cp := portAfter s t.extra })
    ∧ ∀ bytes, exec (.commandBlockAborted bytes) s = .next { s with cp := portAfter s bytes.length })
  ∧ ∀ s : State, (s.smisoFloats = true ↔ s.power ≠ .running ∨ s.cp.transaction = none)
    ∧ ∀ n, ({ s with cp := portAfter s n } : State).smisoFloats = true

/-- READ_RESPONSE (R184, R180, Table 11.2.2): on a DONE slot the response block is returned as far as bytes are clocked, then 00H,
and the slot becomes EMPTY once the last byte of its check is out, and not before; on a slot not DONE the no-response block is
returned, and the slot stays. What is returned is fixed at the code byte, and the status byte before it at the assertion of SSEL.
That a transaction may come in parts is the model's (notes/assumptions/18.md). -/
def Obligations.ReadResponseEmptiesADoneSlot : Prop :=
  (∀ s : State, s.power = .running →
    (∀ r n, s.cp.slot = .done r →
      exec (.readResponse (.whole n)) s = .next { s with cp := { portAfter s 0 with
        slot := if r.block.length ≤ n then .empty else s.cp.slot
        smiso := s.latched :: (r.block.take n ++ List.replicate (n - r.block.length) 0) } })
    ∧ ((∀ r, s.cp.slot ≠ .done r) → ∀ n,
      exec (.readResponse (.whole n)) s = .next { s with cp := portAfter s n })
    ∧ (∃ t, exec (.readResponse .start) s = .next t
      ∧ t = { s with cp := { portAfter s 0 with transaction := t.cp.transaction } }
      ∧ ∀ (u : State) (n : Nat), u.power = .running → u.cp.transaction = t.cp.transaction →
        (∀ r, s.cp.slot = .done r →
          exec (.readResponse (.rest n)) u = .next { u with cp := { u.cp with
            transaction := none
            slot := if r.block.length ≤ n then .empty else u.cp.slot
            smiso := s.latched :: (r.block.take n ++ List.replicate (n - r.block.length) 0) } })
        ∧ ((∀ r, s.cp.slot ≠ .done r) →
          exec (.readResponse (.rest n)) u = .next { u with cp := { u.cp with
            transaction := none, smiso := s.latched :: List.replicate n 0 } }))
    ∧ ∀ n, (∀ b r, s.cp.transaction ≠ some (.read b r)) → exec (.readResponse (.rest n)) s = .next s)
  ∧ ∀ r : Response, ∃ check,
      r.block = [r.code, r.tag, r.result.code, BitVec.ofNat 8 r.data.length] ++ r.data ++ [check]
      ∧ (r.block.map BitVec.toNat).sum % 256 = 0

/-- POP_EVENT (R192, R180): the head event, its code and its parameter low byte first, or the empty marker, is returned as far as
bytes are clocked, then 00H; the event leaves once its third byte is out, and not before; a LOST marker whose count has risen
since the code byte stays with the difference. That a transaction may come in parts is the model's (notes/assumptions/18.md). -/
def Obligations.PopEventTakesTheHead : Prop :=
  ∀ s : State, s.power = .running →
    (∀ e q n, s.cp.notify = e :: q →
      exec (.popEvent (.whole n)) s = .next { s with cp := { portAfter s 0 with
        notify := if 3 ≤ n then q else s.cp.notify
        smiso := s.latched :: ([e.kind.code, BitVec.ofNat 8 e.param, BitVec.ofNat 8 (e.param / 256)].take n
          ++ List.replicate (n - 3) 0) } })
    ∧ (s.cp.notify = [] → ∀ n, exec (.popEvent (.whole n)) s = .next { s with cp := portAfter s n })
    ∧ (∃ t, exec (.popEvent .start) s = .next t
      ∧ t = { s with cp := { portAfter s 0 with transaction := t.cp.transaction } }
      ∧ ∀ (u : State) (n : Nat), u.power = .running → u.cp.transaction = t.cp.transaction →
        (s.cp.notify = [] → exec (.popEvent (.rest n)) u = .next { u with cp := { u.cp with
          transaction := none, smiso := s.latched :: List.replicate n 0 } })
        ∧ ∀ e q, s.cp.notify = e :: q → ∃ v, exec (.popEvent (.rest n)) u = .next v
          ∧ v = { u with cp := { u.cp with
              transaction := none, notify := v.cp.notify
              smiso := s.latched :: ([e.kind.code, BitVec.ofNat 8 e.param, BitVec.ofNat 8 (e.param / 256)].take n
                ++ List.replicate (n - 3) 0) } }
          ∧ (n < 3 → v.cp.notify = u.cp.notify)
          ∧ (3 ≤ n → ∀ e' q', u.cp.notify = e' :: q' → v.cp.notify =
              if e.kind = .lost ∧ e'.kind = .lost ∧ e.param < e'.param
              then { e' with param := e'.param - e.param } :: q' else q'))
    ∧ ∀ n, (∀ b e, s.cp.transaction ≠ some (.pop b e)) → exec (.popEvent (.rest n)) s = .next s

/-- R183: a block that completes on a slot not EMPTY is discarded and REJECTED is set; on an EMPTY slot a length above 40 or a sum
other than 0 gives BAD-BLOCK; a good block of an unknown code gives UNKNOWN-COMMAND. A good block of a known code is judged by
R186: in REPLAY all but STATUS, JOURNAL-INFO and COUNTERS give REFUSED-STATE; then parameters that do not fit give REFUSED-LENGTH;
then an invalid id gives REFUSED-ID, LIST taking a from-id of 0 as well; then a PUT of the SHARED scope, or a REMOVE of a SHARED
entry, in HELD and CLOSING gives REFUSED-STATE. In each case nothing else changes. -/
def Obligations.SlotJudgesBlocks : Prop :=
  (∀ (i : Instr) (code : Byte) (b : Block) (s : State), commandBlock i = some (code, b) → s.power = .running →
    (s.cp.slot ≠ .empty →
      exec i s = .next { s with cp := { portAfter s (blockCount b + b.extra) with rejected := true } })
    ∧ (s.cp.slot = .empty → blockGood code b = false →
      exec i s = .next { s with cp := { portAfter s (blockCount b + b.extra) with
        slot := .done { code := code, tag := b.tag, result := .badBlock, data := [] } } }))
  ∧ (∀ (code : Byte) (b : Block) (s : State), s.power = .running → s.cp.slot = .empty → blockGood code b = true →
    exec (.unknownCommand code b) s = .next { s with cp := portWith s b (doneSlot code b .unknownCommand []) })
  ∧ (∀ (code : Byte) (b : Block),
    blockGood code b = true ↔
      b.len.toNat ≤ 40 ∧ ((code :: b.tag :: b.len :: b.params ++ [b.check]).map BitVec.toNat).sum % 256 = 0)
  ∧ ∀ (i : Instr) (code : Byte) (b : Block) (p : List Byte) (id : Nat) (s : State), commandBlock i = some (code, b) →
    i ≠ .unknownCommand code b → blockTaken s code b p → id = (p.getD 0 0).toNat + 256 * (p.getD 1 0).toNat →
    (s.sc.station = .replay → code ∉ [(0x10 : Byte), 0x31, 0x41] →
      exec i s = .next { s with cp := portWith s b (doneSlot code b .refusedState []) })
    ∧ (s.sc.station ≠ .replay ∨ code ∈ [(0x10 : Byte), 0x31, 0x41] → parametersFit code p = false →
      exec i s = .next { s with cp := portWith s b (doneSlot code b .refusedLength []) })
    ∧ (s.sc.station ≠ .replay → parametersFit code p = true →
      (code ∈ [(0x20 : Byte), 0x21, 0x22, 0x24] ∧ ¬ (1 ≤ id ∧ id ≤ 4094)) ∨ (code = 0x23 ∧ 4094 < id) →
      exec i s = .next { s with cp := portWith s b (doneSlot code b .refusedId []) })
    ∧ (s.sc.station = .held ∨ s.sc.station = .closing → parametersFit code p = true → 1 ≤ id → id ≤ 4094 →
      (code = 0x20 ∧ p.getD 2 0 = 0) ∨ (code = 0x21 ∧ ∃ e, s.entry id = some e ∧ e.scope = .shared) →
      exec i s = .next { s with cp := portWith s b (doneSlot code b .refusedState []) })

/-! ### Commands that read state (R187, R189) -/

/-- STATUS, JOURNAL-INFO and ROSTER report the fields of Table 11.3.1 and change nothing but the slot (R187); STATUS and
JOURNAL-INFO are answered in every station state, ROSTER in every one but REPLAY. -/
def Obligations.ReportsOfTheState : Prop :=
  ∀ (b : Block) (s : State),
    (blockTaken s 0x10 b [] →
      exec (.cmdStatus b) s = .next { s with cp := portWith s b (doneSlot 0x10 b .done
        ([BitVec.ofNat 8 s.sc.station.code, BitVec.ofNat 8 s.straps.sn.toNat] ++ le32 s.pt.h ++ le16 s.pt.entryCount
          ++ le16 s.pt.slotsUsed ++ le16 s.re.outbound.length
          ++ [BitVec.ofNat 8 s.jc.queue.length, if s.sc.converged then 1 else 0, if s.jc.fault then 1 else 0,
            BitVec.ofNat 8 s.ac.mutedCause.code])) })
    ∧ (blockTaken s 0x31 b [] →
      exec (.cmdJournalInfo b) s = .next { s with cp := portWith s b (doneSlot 0x31 b .done
        ([BitVec.ofNat 8 (16 * 2 ^ s.straps.bc.toNat),
            BitVec.ofNat 8 (s.jc.bands.countP fun r => r.state = .erased),
            BitVec.ofNat 8 (s.jc.bands.countP fun r => r.state = .full ∨ (r.state = .retiring ∧ r.seq ≠ none)),
            BitVec.ofNat 8 (s.jc.bands.countP fun r => r.state = .bad), if s.jc.head.isSome then 1 else 0]
          ++ le32 ((s.jc.head.bind fun h => s.jc.seqOf h.band).getD 0)
          ++ le16 (s.jc.head.elim 0 fun h => 4096 - h.pos) ++ le32 s.jc.stranded ++ le32 s.jc.anomalies
          ++ [if s.jc.compaction = .idle then 0 else 1, BitVec.ofNat 8 s.sp.lend.code] ++ le32 s.sp.lendCount)) })
    ∧ (∀ n : Byte, 1 ≤ n.toNat → n.toNat ≤ 31 → blockTaken s 0x40 b [n] → s.sc.station ≠ .replay →
      exec (.cmdRoster b) s = .next { s with cp := portWith s b (doneSlot 0x40 b .done
        ([BitVec.ofNat 8 (s.peer n.toNat).presence.code]
          ++ le32 ((s.peer n.toNat).lastHeard.elim 0xFFFFFFFF fun h => min 0xFFFFFFFE (s.clk.now - h))
          ++ [BitVec.ofNat 8 ((s.peer n.toNat).interval.getD 0)] ++ le32 (s.peer n.toNat).h ++ le16 (s.peer n.toNat).count
          ++ [if (s.peer n.toNat).joining then 1 else 0, BitVec.ofNat 8 (s.peer n.toNat).agreement.code]
          ++ bucketBytes (s.peer n.toNat).mask
          ++ [if (s.peer n.toNat).wanted then 1 else 0, BitVec.ofNat 8 (s.peer n.toNat).failures])) })

/-- GET returns the entry of the id, or NOT-FOUND; LIST returns in ascending order up to max ids above the from-id that pass the
filter, and whether one more does (R187). Nothing changes but the slot. -/
def Obligations.GetAndListReport : Prop :=
  ∀ (b : Block) (lo hi : Byte) (s : State), s.sc.station ≠ .replay →
    (blockTaken s 0x22 b [lo, hi] → validId (lo.toNat + 256 * hi.toNat) = true →
      (∀ e, s.entry (lo.toNat + 256 * hi.toNat) = some e →
        exec (.cmdGet b) s = .next { s with cp := portWith s b (doneSlot 0x22 b .done
          (le16 e.id ++ [if e.scope = .shared then 0 else 1] ++ le32 e.ver.gen ++ [BitVec.ofNat 8 e.ver.origin]
            ++ le16 e.ver.check.toNat ++ [BitVec.ofNat 8 e.jstate.code, BitVec.ofNat 8 e.value.length] ++ e.value)) })
      ∧ (s.entry (lo.toNat + 256 * hi.toNat) = none →
        exec (.cmdGet b) s = .next { s with cp := portWith s b (doneSlot 0x22 b .notFound []) }))
    ∧ (∀ max filter : Byte, blockTaken s 0x23 b [lo, hi, max, filter] → lo.toNat + 256 * hi.toNat ≤ 4094 →
      1 ≤ max.toNat → max.toNat ≤ 20 → filter.toNat ≤ 3 →
      ∃ hits : List Entry,
        hits = (s.pt.entries.filter fun e => lo.toNat + 256 * hi.toNat < e.id
          ∧ (filter = 0 ∨ (filter = 1 ∧ e.scope = .shared) ∨ (filter = 2 ∧ e.scope = .loc)
            ∨ (filter = 3 ∧ e.jstate = .unsaved)))
        ∧ exec (.cmdList b) s = .next { s with cp := portWith s b (doneSlot 0x23 b .done
          ([BitVec.ofNat 8 (min max.toNat hits.length), if max.toNat < hits.length then 1 else 0]
            ++ (hits.take max.toNat).flatMap fun e => le16 e.id)) })

/-- R189: COUNTERS returns the 16 counters in the order of Table 11.5.1; with clear 1 they are set to 0 in the same event, with
clear 0 they are not changed, and any other clear is refused. -/
def Obligations.CountersReadAndClear : Prop :=
  ∀ (b : Block) (c : Byte) (s : State), blockTaken s 0x41 b [c] →
    (c = 0 → exec (.cmdCounters b) s
      = .next { s with cp := portWith s b (doneSlot 0x41 b .done (s.cp.counters.all.flatMap le32)) })
    ∧ (c = 1 → ∃ t, exec (.cmdCounters b) s = .next t
      ∧ t = { s with cp := { portWith s b (doneSlot 0x41 b .done (s.cp.counters.all.flatMap le32)) with
          counters := t.cp.counters } }
      ∧ ∀ n ∈ t.cp.counters.all, n = 0)
    ∧ (c ≠ 0 → c ≠ 1 → exec (.cmdCounters b) s
      = .next { s with cp := portWith s b (doneSlot 0x41 b .refusedLength []) })

/-! ### Commands that change state (R188) -/

/-- SETUP takes its values once, in HELD before the first OPEN, and is refused otherwise (R188). -/
def Obligations.SetupOnce : Prop :=
  ∀ (b : Block) (i r w : Byte) (s : State), blockTaken s 0x11 b [i, r, w] → 1 ≤ i.toNat → 16 ≤ r.toNat → w.toNat ≤ 1 →
    (s.sc.station = .held → s.cp.setupAllowed = true →
      exec (.cmdSetup b) s = .next { s with cp := { portWith s b (doneSlot 0x11 b .done []) with
        setup := { interval := i.toNat, replyTimeout := r.toNat, watchNew := w == 1 }, setupAllowed := false } })
    ∧ (s.sc.station ≠ .held ∨ s.cp.setupAllowed = false →
      exec (.cmdSetup b) s = .next { s with cp := portWith s b (doneSlot 0x11 b .refusedState []) })

/-- OPEN (R89, R90, R97, R106): in HELD with a station number it moves the station to JOINING, starts the join window and the
summary timer, raises a SUMMARY demand, clears what the roster holds of agreements and failures, ends the time for SETUP, and the
convergence condition is judged; with number 0, or in another state, it is refused. -/
def Obligations.OpenJoins : Prop :=
  ∀ (b : Block) (s : State), blockTaken s 0x12 b [] →
    (s.sc.station = .held → stationNumber s.straps ≠ 0 →
      ∃ t, exec (.cmdOpen b) s = .next t
        ∧ t.sc = { s.sc with
            station := .joining, joinWindow := some 0
            converged := s.re.outbound.isEmpty && s.re.roster.all fun p => p.presence ≠ .present }
        ∧ t.re = { s.re with
            summaryTimer := some 0
            roster := s.re.roster.map fun p => { p with agreement := .unknown, mask := 0, wanted := false, failures := 0 } }
        ∧ t.ac = { s.ac with summaryDue := true }
        ∧ t.cp = { portWith s b (doneSlot 0x12 b .done []) with
            setupAllowed := false
            notify := if t.sc.converged = s.sc.converged then s.cp.notify
              else placeEvent s.cp.notify { kind := if t.sc.converged then .converged else .diverged, param := 0 } }
        ∧ t = { s with sc := t.sc, re := t.re, ac := t.ac, cp := t.cp })
    ∧ (s.sc.station = .held → stationNumber s.straps = 0 →
      exec (.cmdOpen b) s = .next { s with cp := portWith s b (doneSlot 0x12 b .refusedNoStation []) })
    ∧ (s.sc.station ≠ .held →
      exec (.cmdOpen b) s = .next { s with cp := portWith s b (doneSlot 0x12 b .refusedState []) })

/-- CLOSE (R84, R92, R93, R96): in JOINING and ACTIVE it holds the slot EXECUTING and moves the station to CLOSING, with the
session abandoned, its buckets given back to the peer's mask with repair wanted (R121), the replies and the SUMMARY demand dropped
and a LEAVE due; a frame in flight runs on but serves neither. In MUTED it moves to HELD at once; elsewhere it is refused. The
values of a session that is over are the model's (notes/assumptions/24.md). -/
def Obligations.CloseLeaves : Prop :=
  ∀ (b : Block) (s : State), blockTaken s 0x13 b [] →
    (s.sc.station = .joining ∨ s.sc.station = .active →
      ∃ t, exec (.cmdClose b) s = .next t
        ∧ t.sc = { s.sc with station := .closing, joinWindow := none, closeLimit := some 0, converged := false }
        ∧ t.ac = { s.ac with summaryDue := false, leaveDue := true }
        ∧ t.re = { s.re with
            session := if s.re.session.state = .idle then s.re.session else .cleared
            roster := t.re.roster, replyQueue := [], summaryTimer := none }
        ∧ (s.re.session.state = .idle → t.re.roster = s.re.roster)
        ∧ (s.re.session.state ≠ .idle → 1 ≤ s.re.session.peer →
            t.re.roster = s.re.roster.modify (s.re.session.peer - 1) fun p =>
              { p with mask := p.mask ||| bucketSet s.re.session.buckets, wanted := true })
        ∧ t.li = { s.li with flight := s.li.flight.map fun f => { f with cargo := match f.cargo with
            | .request awaited => .request (awaited && s.re.session.state = .idle)
            | .reply _ ends moved => .reply false ends moved
            | cargo => cargo } }
        ∧ t.cp = { portWith s b (.executing 0x13 b.tag) with
            notify := if s.sc.converged then placeEvent s.cp.notify { kind := .diverged, param := 0 } else s.cp.notify }
        ∧ t = { s with sc := t.sc, re := t.re, ac := t.ac, li := t.li, cp := t.cp })
    ∧ (s.sc.station = .muted →
      ∃ t, exec (.cmdClose b) s = .next t
        ∧ t.sc = { s.sc with station := .held, joinWindow := none, closeLimit := none, converged := false }
        ∧ t.ac = { s.ac with
            summaryDue := false, leaveDue := false, mutedCause := .none, recovery := none, probeDue := false }
        ∧ t.re = { s.re with summaryTimer := none }
        ∧ t.cp = { portWith s b (doneSlot 0x13 b .done []) with
            notify := if s.sc.converged then placeEvent s.cp.notify { kind := .diverged, param := 0 } else s.cp.notify }
        ∧ t = { s with sc := t.sc, re := t.re, ac := t.ac, cp := t.cp })
    ∧ (s.sc.station = .replay ∨ s.sc.station = .held ∨ s.sc.station = .closing →
      exec (.cmdClose b) s = .next { s with cp := portWith s b (doneSlot 0x13 b .refusedState []) })

/-- A PUT that passes every test gives the entry generation H + 1 and the own origin (R24 to R28, R37, R143): the entry, H, the
journal's marking, and for a SHARED entry the outbound list with the send mark, the agreements and the judgement of convergence
(R106, R107). Dirty-from is Table 2.1.1's (R25). The UNSAVED event comes with an entry that becomes UNSAVED (R157), one created so
among them (the model's choice, notes/assumptions/32.md). Every other entry is as it was. -/
def Obligations.PutGivesANewVersion : Prop :=
  ∀ (b : Block) (lo hi sc : Byte) (value : List Byte) (s : State) (id : Nat) (scope : Scope),
    id = lo.toNat + 256 * hi.toNat → validId id = true → sc.toNat ≤ 1 → (scope = if sc = 0 then .shared else .loc) →
    blockTaken s 0x20 b (lo :: hi :: sc :: value) → 1 ≤ value.length → value.length ≤ 32 →
    s.sc.station ≠ .replay →
    (scope = .shared → s.sc.station = .joining ∨ s.sc.station = .active ∨ s.sc.station = .muted) →
    (∀ e, s.entry id = some e → e.scope = scope ∧ (e.isTombstone = true ∨ e.value ≠ value)) →
    s.pt.h ≠ 0xFFFFFFFE →
    (s.entry id = none → s.pt.entries.length < 512) →
    (8 < value.length → freeSlot s.pt.entries ≠ none ∨ ∃ e k, s.entry id = some e ∧ e.slot = some k) →
    ∃ (t : State) (e' : Entry) (q : List Event), exec (.cmdPut b) s = .next t
      ∧ t.pt.h = s.pt.h + 1
      ∧ t.entry id = some e'
      ∧ e'.id = id ∧ e'.scope = scope ∧ e'.value = value
      ∧ e'.ver = { gen := s.pt.h + 1, origin := stationNumber s.straps, check := crc16 value }
      ∧ (value.length ≤ 8 → e'.slot = none)
      ∧ (8 < value.length → e'.slot.isSome = true ∧ e'.slot = ((s.entry id).bind Entry.slot <|> freeSlot s.pt.entries))
      ∧ DirtyLaw (s.entry id) value e'.dirty
      ∧ (∀ e, s.entry id = some e → e'.base = e.base ∧ e'.watch = e.watch)
      ∧ (s.entry id = none → e'.base = none ∧ e'.watch = false)
      ∧ (e'.jstate = if s.jc.fault = false ∧ (id ∈ s.jc.queueIds ∨ s.jc.queue.length < 64) then .queued else .unsaved)
      ∧ (∀ j, j ≠ id → t.entry j = s.entry j)
      ∧ JournalMarked s.jc t.jc id
      ∧ (q = if e'.jstate = .unsaved ∧ (s.entry id).map Entry.jstate ≠ some .unsaved
          then placeEvent s.cp.notify { kind := .unsaved, param := 0 } else s.cp.notify)
      ∧ (scope = .loc → t.re = s.re ∧ t.sc = s.sc ∧ t.ac = s.ac ∧ t.cp.notify = q
          ∧ e'.mark = (s.entry id).elim .none Entry.mark)
      ∧ (scope = .shared →
          e'.mark = (if (s.entry id).elim .none Entry.mark = .none then .new else (s.entry id).elim .none Entry.mark)
          ∧ t.re = { s.re with
              outbound := if (s.entry id).elim .none Entry.mark = .none then s.re.outbound ++ [id] else s.re.outbound
              roster := s.re.roster.map fun p => { p with agreement := .unknown } }
          ∧ Judged { t with sc := s.sc, ac := s.ac, cp := { t.cp with notify := q } } t)
      ∧ t.cp = { portWith s b (doneSlot 0x20 b .done []) with notify := t.cp.notify }
      ∧ t = { s with pt := t.pt, re := t.re, sc := t.sc, ac := t.ac, jc := t.jc, cp := t.cp }

/-- A PUT that fails one of PT's tests gives the result of the first that fails, by the order of Table 1.7.1, and changes nothing
but the slot (R20). -/
def Obligations.PutTestsInOrder : Prop :=
  ∀ (b : Block) (lo hi sc : Byte) (value : List Byte) (s : State) (id : Nat) (scope : Scope) (r : Result),
    id = lo.toNat + 256 * hi.toNat → validId id = true → sc.toNat ≤ 1 → (scope = if sc = 0 then .shared else .loc) →
    blockTaken s 0x20 b (lo :: hi :: sc :: value) → 1 ≤ value.length → value.length ≤ 32 →
    s.sc.station ≠ .replay →
    (scope = .shared → s.sc.station = .joining ∨ s.sc.station = .active ∨ s.sc.station = .muted) →
    (r = if (s.entry id).any (fun e => e.scope ≠ scope) then .refusedScope
      else if (s.entry id).any (fun e => e.isTombstone = false ∧ e.value = value) then .same
      else if s.pt.h = 0xFFFFFFFE then .refusedGeneration
      else if s.entry id = none ∧ 512 ≤ s.pt.entries.length then .refusedTableFull
      else if 8 < value.length ∧ (s.entry id).bind Entry.slot = none ∧ freeSlot s.pt.entries = none then .refusedNoSlot
      else .done) →
    r ≠ .done →
    exec (.cmdPut b) s = .next { s with cp := portWith s b (doneSlot 0x20 b r []) }

/-- REMOVE (R20, R27, R28, R30, R37): of an absent id NOT-FOUND; of a tombstone SAME; at H FFFFFFFEH refused; of a SHARED entry a
tombstone with generation H + 1, marked for journal and line as a PUT is, with the UNSAVED event where it becomes UNSAVED (R26,
R157); of a LOCAL entry its deletion, with a delete demand where the journal can take one and the count of its base band less by
one (R145; where replay left two rows of one sequence, that of the one that counts any, notes/assumptions/38.md), the journal's
head and other rows as they were, and the write in hand or waiting told. -/
def Obligations.RemoveEndsAnEntry : Prop :=
  ∀ (b : Block) (lo hi : Byte) (s : State) (id : Nat), id = lo.toNat + 256 * hi.toNat → validId id = true →
    blockTaken s 0x21 b [lo, hi] → s.sc.station ≠ .replay →
    s.pt.entries.Pairwise (fun x y => x.id < y.id) →
    (s.entry id = none → exec (.cmdRemove b) s = .next { s with cp := portWith s b (doneSlot 0x21 b .notFound []) })
    ∧ ∀ e, s.entry id = some e →
      (e.scope = .shared → s.sc.station = .joining ∨ s.sc.station = .active ∨ s.sc.station = .muted) →
      (e.isTombstone = true → exec (.cmdRemove b) s = .next { s with cp := portWith s b (doneSlot 0x21 b .same []) })
      ∧ (e.isTombstone = false → s.pt.h = 0xFFFFFFFE →
          exec (.cmdRemove b) s = .next { s with cp := portWith s b (doneSlot 0x21 b .refusedGeneration []) })
      ∧ (e.isTombstone = false → s.pt.h ≠ 0xFFFFFFFE →
          ∃ t, exec (.cmdRemove b) s = .next t
            ∧ t.cp = { portWith s b (doneSlot 0x21 b .done []) with notify := t.cp.notify }
            ∧ (∀ j, j ≠ id → t.entry j = s.entry j)
            ∧ (e.scope = .shared → t.pt.h = s.pt.h + 1 ∧ ∃ e', t.entry id = some e' ∧ e'.value = [] ∧ e'.slot = none
                ∧ e'.ver = { gen := s.pt.h + 1, origin := stationNumber s.straps, check := 0 } ∧ e'.dirty = .whole
                ∧ e'.scope = .shared ∧ e'.watch = e.watch ∧ e'.base = e.base
                ∧ e'.mark = (if e.mark = .none then .new else e.mark)
                ∧ JournalMarked s.jc t.jc id
                ∧ t.re = { s.re with
                    outbound := if e.mark = .none then s.re.outbound ++ [id] else s.re.outbound
                    roster := s.re.roster.map fun p => { p with agreement := .unknown } }
                ∧ (e'.jstate = if s.jc.fault = false ∧ (id ∈ s.jc.queueIds ∨ s.jc.queue.length < 64) then .queued
                    else .unsaved)
                ∧ ∃ q : List Event, q = (if e'.jstate = .unsaved ∧ e.jstate ≠ .unsaved
                    then placeEvent s.cp.notify { kind := .unsaved, param := 0 } else s.cp.notify)
                  ∧ Judged { t with sc := s.sc, ac := s.ac, cp := { t.cp with notify := q } } t)
            ∧ (e.scope = .loc → t.entry id = none ∧ t.pt.h = s.pt.h ∧ t.re = s.re ∧ t.sc = s.sc ∧ t.ac = s.ac
                ∧ t.cp.notify = s.cp.notify ∧ JournalDeleted s.jc t.jc e)
            ∧ t = { s with pt := t.pt, re := t.re, sc := t.sc, ac := t.ac, jc := t.jc, cp := t.cp })

/-- WATCH sets the watch of a SHARED entry, and is refused for an absent id and for a LOCAL entry (R7, R188). -/
def Obligations.WatchSets : Prop :=
  ∀ (b : Block) (lo hi w : Byte) (s : State) (id : Nat), id = lo.toNat + 256 * hi.toNat → validId id = true → w.toNat ≤ 1 →
    blockTaken s 0x24 b [lo, hi, w] → s.sc.station ≠ .replay →
    (s.entry id = none → exec (.cmdWatch b) s = .next { s with cp := portWith s b (doneSlot 0x24 b .notFound []) })
    ∧ ∀ e, s.entry id = some e →
      (e.scope = .loc → exec (.cmdWatch b) s = .next { s with cp := portWith s b (doneSlot 0x24 b .refusedScope []) })
      ∧ (e.scope = .shared → ∃ t, exec (.cmdWatch b) s = .next t
          ∧ t.entry id = some { e with watch := w == 1 }
          ∧ (∀ j, j ≠ id → t.entry j = s.entry j)
          ∧ t = { s with
              pt := { s.pt with entries := t.pt.entries }
              cp := portWith s b (doneSlot 0x24 b .done []) })

/-- FLUSH (R159): FAILED-STORAGE at once in FAULT; DONE at once when the queue is empty and no entry is UNSAVED; otherwise it
waits, and FLUSH_COMPLETE completes it when that condition has come to hold, or with FAILED-STORAGE in FAULT. -/
def Obligations.FlushWaitsForFlash : Prop :=
  (∀ (b : Block) (s : State), blockTaken s 0x30 b [] → s.sc.station ≠ .replay →
    (s.jc.fault = true → exec (.cmdFlush b) s = .next { s with cp := portWith s b (doneSlot 0x30 b .failedStorage []) })
    ∧ (s.jc.fault = false → s.jc.queue = [] → (∀ e ∈ s.pt.entries, e.jstate ≠ .unsaved) →
      exec (.cmdFlush b) s = .next { s with cp := portWith s b (doneSlot 0x30 b .done []) })
    ∧ (s.jc.fault = false → (s.jc.queue ≠ [] ∨ ∃ e ∈ s.pt.entries, e.jstate = .unsaved) →
      exec (.cmdFlush b) s = .next { s with cp := portWith s b (.executing 0x30 b.tag) }))
  ∧ (∀ (tag : Byte) (s : State), s.power = .running → s.cp.slot = .executing 0x30 tag →
    (s.jc.fault = true → exec .flushComplete s = .next { s with cp := { s.cp with
      slot := .done { code := 0x30, tag := tag, result := .failedStorage, data := [] } } })
    ∧ (s.jc.fault = false → s.jc.queue = [] → (∀ e ∈ s.pt.entries, e.jstate ≠ .unsaved) →
      exec .flushComplete s = .next { s with cp := { s.cp with
        slot := .done { code := 0x30, tag := tag, result := .done, data := [] } } })
    ∧ (s.jc.fault = false → (s.jc.queue ≠ [] ∨ ∃ e ∈ s.pt.entries, e.jstate = .unsaved) →
      exec .flushComplete s = .next s))

/-! ### Line access (chapter 4) -/

/-- The gaps of the classes, with the relations that R71 draws from them; and a frame of a class goes out at the instant at which
the quiet count has come to the gap of that class (R71, R72), and nothing of it is out before. That the command itself brings the
line forward by the bit times that are missing, or acts late where the count has passed the gap, is the model's
(notes/assumptions/3.md). -/
def Obligations.GapsOfTheClasses : Prop :=
  ∀ s : State,
    s.gap .a = 12 ∧ s.gap .b = 24
    ∧ s.gap .c = 36 + 2 * s.straps.sn.toNat + (if s.ac.rest = true then 64 else 0)
    ∧ s.gap .a < s.gap .b ∧ s.gap .b < s.gap .c ∧ s.gap .c < 255 ∧ 2 * s.straps.sn.toNat ≤ 62
    ∧ (s.straps.sn ≠ 0 → s.ac.rest = true → 102 ≤ s.gap .c) ∧ (s.ac.rest = false → s.gap .c ≤ 98)
    ∧ ∀ (f : Flight) (t : State), s.li.flight = none → s.li.line = .recessive → s.li.quiet ≤ 255 →
        exec (.frameStart .recessive) s = .next t → t.li.flight = some f →
        (s.passLine (s.gap f.cls - s.li.quiet)).li.quiet = max s.li.quiet (s.gap f.cls)
        ∧ 1000 * t.clk.now + t.clk.us
            = 1000 * s.clk.now + s.clk.us + (s.gap f.cls - s.li.quiet) * (16 / 2 ^ s.straps.lr.toNat)
        ∧ f.elapsed = 0
        ∧ t.li = { receiver := .receiving true 0, quiet := 0, stuck := 0, stuckDeclared := false, line := .dominant
                   flight := some f }

/-- FRAME_START (R39, R41, R42, R51, R52, R55, R62, R70, R72, R73, R79, R111, R125, Table 4.1.1): the demand served is the first
of the smallest class whose demand is present in a station state that serves it; the quiet count comes to the gap of the class; on
a dominant line the part defers; otherwise the first bit goes out of a frame built at that instant for the demand. An UPDATE packs
the ids of its mark in list order up to the first that would be a fifth record or pass 159 bytes; the ids packed leave the list,
lose their marks and are kept with the frame, and convergence is judged (R106, R107). A reply carries the next part of a listing
(R126) or of a fetch (R127). With no demand to serve, or the line not free, the event is none. That the command brings the line
forward to the gap, and that no frame starts unless the receiver is IDLE, are the model's (notes/assumptions/3.md, 29.md). -/
def Obligations.FrameStartServesADemand : Prop :=
  (∀ (line : Level) (s : State), s.power = .running →
    (s.lineFree = true ↔ s.li.flight = none ∧ s.li.receiver = .idle ∧ s.straps.sn ≠ 0)
    ∧ (s.nextDemand = none ∨ s.lineFree = false → exec (.frameStart line) s = .next s))
  ∧ (∀ s : State, s.nextDemand =
      if (s.sc.station = .joining ∨ s.sc.station = .active) ∧ s.re.replyQueue ≠ [] then some (.a, .reply)
      else if (s.sc.station = .joining ∨ s.sc.station = .active) ∧ s.re.session.state ≠ .idle
          ∧ s.re.session.raised = true then some (.b, .repair)
      else if (s.sc.station = .joining ∨ s.sc.station = .active ∨ s.sc.station = .closing)
          ∧ (s.re.outbound.any fun i => (s.entry i).any fun e => e.mark = .push) = true then some (.b, .push)
      else if (s.sc.station = .joining ∨ s.sc.station = .active) ∧ s.ac.summaryDue = true then some (.c, .summary)
      else if (s.sc.station = .joining ∨ s.sc.station = .active ∨ s.sc.station = .closing)
          ∧ (s.re.outbound.any fun i => (s.entry i).any fun e => e.mark = .new) = true then some (.c, .newUpdate)
      else if s.sc.station = .closing ∧ s.ac.leaveDue = true ∧ s.re.outbound = [] then some (.c, .leave)
      else none)
  ∧ ∀ (cls : GapClass) (d : Demand) (s : State), s.power = .running → s.nextDemand = some (cls, d) → s.lineFree = true →
    s.li.line = .recessive → s.li.quiet ≤ 255 →
    ∃ u, u = s.passLine (s.gap cls - s.li.quiet) ∧ u.li.quiet = max s.li.quiet (s.gap cls)
      ∧ exec (.frameStart .dominant) s = .next { u with li := { u.li with
          receiver := .receiving false 0, quiet := 0, stuck := 0, stuckDeclared := false, line := .dominant } }
      ∧ ∃ (t : State) (f : Flight) (F : Frame), exec (.frameStart .recessive) s = .next t
        ∧ t.li = { receiver := .receiving true 0, quiet := 0, stuck := 0, stuckDeclared := false, line := .dominant,
                   flight := some f }
        ∧ f.chars = F.chars ∧ f.elapsed = 0 ∧ f.cls = cls ∧ f.probe = false ∧ F.src = s.straps.sn.toNat
        ∧ t.ac = { u.ac with rest := if cls = .c then false else u.ac.rest }
        ∧ (d = .reply → t = { u with li := t.li, ac := t.ac }
            ∧ ∃ r q moved, u.re.replyQueue = r :: q ∧ F.dst = r.requester ∧ F.seq = r.seq
              ∧ ReplyBuilt u r.work F.payload F.flags moved ∧ f.cargo = .reply true F.flags.end_ moved)
        ∧ (d ≠ .reply → F.seq = u.re.seq ∧ F.flags.reply = false ∧ F.flags.end_ = false ∧ F.flags.bucketLast = false
            ∧ t.re = { u.re with seq := u.re.seq + 1, outbound := t.re.outbound })
        ∧ (d = .repair → t = { u with li := t.li, ac := t.ac, re := { u.re with seq := u.re.seq + 1 } }
            ∧ F.dst = u.re.session.peer ∧ F.flags.joining = false ∧ f.cargo = .request true
            ∧ F.payload = (if u.re.session.state = .awaitListing then .listingRequest (bucketSet u.re.session.buckets)
                else .fetch u.re.session.want))
        ∧ (d = .summary → t = { u with li := t.li, ac := t.ac, re := { u.re with seq := u.re.seq + 1 } }
            ∧ F.dst = 0 ∧ (F.flags.joining = true ↔ u.sc.station = .joining) ∧ f.cargo = .summary
            ∧ F.payload = .summary u.pt.h u.pt.sharedCount u.cp.setup.interval u.pt.digests)
        ∧ (d = .leave → t = { u with li := t.li, ac := t.ac, re := { u.re with seq := u.re.seq + 1 } }
            ∧ F.dst = 0 ∧ F.flags.joining = false ∧ F.payload = .leave ∧ f.cargo = .leave)
        ∧ ∀ m : Mark, (d = .push ∧ m = .push) ∨ (d = .newUpdate ∧ m = .new) →
            ∃ es left : List Entry, F.dst = 0 ∧ F.flags.joining = false ∧ F.payload = .update (es.map Entry.record)
              ∧ f.cargo = .update (es.map fun e => { id := e.id, mark := m, ver := e.ver })
              ∧ es ++ left = s.re.outbound.filterMap (fun i => (s.entry i).filter fun e => e.mark = m)
              ∧ es.length ≤ 4 ∧ (es.map fun e => 8 + e.value.length).sum ≤ 159
              ∧ (left = [] ∨ es.length = 4 ∨ ∃ e tail, left = e :: tail
                  ∧ 159 < (es.map fun e => 8 + e.value.length).sum + (8 + e.value.length))
              ∧ (∀ e ∈ es, e.mark = m ∧ s.entry e.id = some e ∧ e.id ∈ s.re.outbound)
              ∧ t.re.outbound = (s.re.outbound.filter fun i => i ∉ es.map Entry.id)
              ∧ (∀ i, t.entry i = (s.entry i).map fun e => if i ∈ es.map Entry.id then { e with mark := .none } else e)
              ∧ Judged { u with
                  li := t.li, ac := t.ac, re := t.re, pt := { u.pt with entries := t.pt.entries } } t

/-- FRAME_COMPLETE (R62, R74, R75, R79, R95, R122, R125): the receiver goes to SEEKING, FRAMES-SENT rises, class C sets the rest
flag, and the demand that the frame served is cleared as its kind says. That a LEAVE of an earlier CLOSING, completing in a later
one, ends that one with DONE is the model's (notes/assumptions/43.md). -/
def Obligations.FrameCompletionClearsItsDemand : Prop :=
  ∀ (f : Flight) (s : State), s.power = .running → s.li.flight = some f → ¬ (f.probe = true ∧ s.sc.station = .muted) →
    ∃ u v t, u = s.passLine (10 * f.chars.length - f.elapsed)
      ∧ v = { u with
          li := { u.li with receiver := .seeking, line := .recessive, stuck := 0, stuckDeclared := false, flight := none }
          ac := { u.ac with rest := u.ac.rest || f.cls = .c }
          cp := { u.cp with counters := { u.cp.counters with framesSent := min 0xFFFFFFFF (u.cp.counters.framesSent + 1) } } }
      ∧ exec .frameComplete s = .next t
      ∧ (∀ packed, f.cargo = .update packed → t = v)
      ∧ (f.cargo = .summary → t = { v with ac := { v.ac with summaryDue := false } })
      ∧ (f.cargo = .request false → t = v)
      ∧ (f.cargo = .request true → t = { v with re := { v.re with
          session := { v.re.session with raised := false, reqSeq := f.chars.getD 3 0, timer := 0 } } })
      ∧ (∀ ends moved, f.cargo = .reply false ends moved → t = v)
      ∧ (∀ ends moved r q, f.cargo = .reply true ends moved → s.re.replyQueue = r :: q →
          t = { v with re := { v.re with
            replyQueue := if ends = true then q else { r with work := moved, completed := true } :: q } })
      ∧ (f.cargo = .leave → s.sc.station ≠ .closing → t = v)
      ∧ (f.cargo = .leave → s.sc.station = .closing → t = { v with
          sc := { v.sc with station := .held, joinWindow := none, closeLimit := none, converged := false }
          re := { v.re with summaryTimer := none }
          ac := { v.ac with leaveDue := false, mutedCause := .none }
          cp := { v.cp with
            slot := t.cp.slot
            notify := if s.sc.converged then placeEvent s.cp.notify { kind := .diverged, param := 0 } else s.cp.notify } }
          ∧ (∀ tag, s.cp.slot = .executing 0x13 tag →
              t.cp.slot = .done { code := 0x13, tag := tag, result := .done, data := [] })
          ∧ ((∀ tag, s.cp.slot ≠ .executing 0x13 tag) → t.cp.slot = s.cp.slot))

/-- Table 4.4.1 with R75, R80, R81, R106 and R107: what Access Control does with a cause in each station state. In JOINING and
ACTIVE the station mutes: its session is over, its replies are dropped, and a frame in flight runs on but serves neither; then the
convergence condition is judged, which in a station that was JOINING may end the join window. The values of a session that is over
are the model's (notes/assumptions/24.md). -/
def Obligations.CausesMuteTheStation : Prop :=
  ∀ (c : Cause) (s : State), c ≠ .none →
    (s.sc.station = .replay ∨ s.sc.station = .held → s.takeCause c = s)
    ∧ (s.sc.station = .joining ∨ s.sc.station = .active →
        ∃ (t : State) (conv joined : Bool), t = s.takeCause c
          ∧ conv = (s.re.outbound.isEmpty && s.re.roster.all fun p => p.presence ≠ .present || p.agreement = .agree)
          ∧ joined = (conv && s.sc.station = .joining && s.re.roster.any fun p => p.presence = .present)
          ∧ t.sc = { s.sc with
              station := .muted, converged := conv, joinWindow := if joined then none else s.sc.joinWindow }
          ∧ t.ac = { s.ac with
              prior := if s.sc.station = .joining ∧ joined = false then .joining else .active
              mutedCause := c, wait := 1, recovery := if c = .duplicate then none else some 0, probeDue := false }
          ∧ t.re = { s.re with
              session := if s.re.session.state = .idle then s.re.session else .cleared
              replyQueue := [], summaryTimer := none, roster := t.re.roster }
          ∧ (s.re.session.state = .idle → t.re.roster = s.re.roster)
          ∧ (s.re.session.state ≠ .idle → 1 ≤ s.re.session.peer →
              t.re.roster = s.re.roster.modify (s.re.session.peer - 1) fun p =>
                { p with mask := p.mask ||| bucketSet s.re.session.buckets, wanted := true })
          ∧ t.li = { s.li with flight := s.li.flight.map fun f => { f with cargo := match f.cargo with
              | .request awaited => .request (awaited && s.re.session.state = .idle)
              | .reply _ ends moved => .reply false ends moved
              | cargo => cargo } }
          ∧ t.cp = { s.cp with
              notify := judgedNotify s.sc.converged conv (placeEvent s.cp.notify { kind := .lineMuted, param := c.code }) }
          ∧ t = { s with sc := t.sc, ac := t.ac, re := t.re, li := t.li, cp := t.cp })
    ∧ (s.sc.station = .muted →
        (c = .stuck → s.ac.mutedCause = .drive → s.takeCause c = { s with
          ac := { s.ac with mutedCause := .stuck, recovery := some 0, probeDue := false }
          cp := { s.cp with notify := placeEvent s.cp.notify { kind := .lineMuted, param := 2 } } })
        ∧ (c = .stuck → s.ac.mutedCause = .stuck → s.takeCause c = { s with
          ac := { s.ac with recovery := some 0, probeDue := false } })
        ∧ (c = .duplicate → s.ac.mutedCause = .drive ∨ s.ac.mutedCause = .stuck → s.takeCause c = { s with
          ac := { s.ac with mutedCause := .duplicate, recovery := none, probeDue := false }
          cp := { s.cp with notify := placeEvent s.cp.notify { kind := .lineMuted, param := 3 } } })
        ∧ (s.ac.mutedCause = .duplicate → s.takeCause c = s))
    ∧ (s.sc.station = .closing →
        ∃ t, t = s.takeCause c
          ∧ t = { s with
              sc := { s.sc with station := .held, joinWindow := none, closeLimit := none, converged := false }
              re := { s.re with summaryTimer := none }
              ac := { s.ac with leaveDue := false, mutedCause := .none }
              cp := { s.cp with
                slot := t.cp.slot
                notify := if s.sc.converged then placeEvent s.cp.notify { kind := .diverged, param := 0 }
                  else s.cp.notify } }
          ∧ (∀ tag, s.cp.slot = .executing 0x13 tag →
              t.cp.slot = .done { code := 0x13, tag := tag, result := .part, data := [] })
          ∧ ((∀ tag, s.cp.slot ≠ .executing 0x13 tag) → t.cp.slot = s.cp.slot))

/-- WITHDRAWAL and DRIVE_FAULT (R43, R62, R76, R77, R83): at a recessive bit read back dominant the station withdraws and is
counted; at a dominant bit read back recessive the frame is cut, the cause DRIVE is taken, or, for a probe in MUTED, W doubles.
The ids of an UPDATE that still have its versions and are not on the list go back to the list's head with their marks, and
convergence is judged (R106, R107). LTXD carries the bits of a frame of this station while it is in flight, and is high at every
other time, so from either end on (R45); that it is a level computed from the frame in flight is the model's
(notes/assumptions/20.md). That the quiet count is 0 after a drive fault is the model's (notes/assumptions/10.md). -/
def Obligations.OwnFramesEndEarly : Prop :=
  (∀ s : State, (s.li.flight = none → s.ltxd = .recessive)
    ∧ ∀ f, s.li.flight = some f →
      ((frameBits f.chars)[f.elapsed]? = some true → s.ltxd = .recessive)
      ∧ ((frameBits f.chars)[f.elapsed]? = some false → s.ltxd = .dominant)
      ∧ ((frameBits f.chars)[f.elapsed]? = none → s.ltxd = .recessive))
  ∧ ∀ (f : Flight) (bit : Nat) (s : State), s.power = .running → s.li.flight = some f → f.elapsed ≤ bit →
    ∃ (u v : State) (back : List Packed), u = s.passLine (bit - f.elapsed)
      ∧ back = (match f.cargo with
          | .update packed => packed.filter fun p =>
              p.id ∉ s.re.outbound ∧ ∃ e, s.entry p.id = some e ∧ e.ver = p.ver
          | _ => [])
      ∧ v = { u with
          li := { u.li with quiet := 0, stuck := 0, stuckDeclared := false, flight := none }
          re := { u.re with outbound := back.map Packed.id ++ u.re.outbound }
          pt := { u.pt with entries := u.pt.entries.map fun e =>
            match back.find? fun p => p.id = e.id with
            | some p => { e with mark := p.mark }
            | none => e } }
      ∧ ((frameBits f.chars)[bit]? = some true →
          ∃ t w, exec (.withdrawal bit) s = .next t
            ∧ w = { v with
                li := { v.li with receiver := u.li.receiver.disown, line := .dominant }
                cp := { v.cp with counters := { v.cp.counters with
                  contentionLosses := min 0xFFFFFFFF (s.cp.counters.contentionLosses + 1) } } }
            ∧ ((∃ packed, f.cargo = .update packed) → Judged w t)
            ∧ ((∀ packed, f.cargo ≠ .update packed) → t = w)
            ∧ (back ≠ [] → t.sc = { s.sc with
                  joinWindow := u.sc.joinWindow, closeLimit := u.sc.closeLimit, converged := false }
                ∧ t.ac.prior = s.ac.prior)
            ∧ t.ltxd = .recessive)
      ∧ ((frameBits f.chars)[bit]? = some false →
          ∃ w, w = { v with li := { v.li with receiver := .seeking, line := .recessive } }
            ∧ (f.probe = true ∧ s.sc.station = .muted → exec (.driveFault bit) s = .next { w with
                ac := { w.ac with
                  mutedCause := .drive, wait := min 16 (2 * s.ac.wait), recovery := some 0, probeDue := false } })
            ∧ (¬ (f.probe = true ∧ s.sc.station = .muted) → exec (.driveFault bit) s = .next (w.takeCause .drive)))

/-- PROBE_DUE, PROBE_START and PROBE_COMPLETE (R82, R83): the recovery wait timer reaches W; a due probe waits for 36 tB of quiet
and is a SUMMARY whose JOINING flag follows the state it would return to; its completion ends MUTED, with the search for a session
(R109) and the judgement of convergence, which may end a join window at once (R106, R107). That a command brings time forward to
its limit, or acts late where that has passed, is the model's (notes/assumptions/3.md). -/
def Obligations.ProbesRecoverTheLine : Prop :=
  ∀ s : State, s.power = .running → s.sc.station = .muted →
    (s.ac.recovery ≠ none → s.ac.probeDue = false →
      ∃ u, timerReaches s u (fun x => x.ac.recovery) (1000 * s.ac.wait)
        ∧ exec .probeDue s = .next { u with ac := { u.ac with probeDue := true } })
    ∧ (s.ac.probeDue = true → s.lineFree = true → s.li.line = .recessive → s.li.quiet ≤ 255 →
      ∃ u, u = s.passLine (36 - s.li.quiet) ∧ u.li.quiet = max s.li.quiet 36
        ∧ exec (.probeStart .dominant) s = .next { u with li := { u.li with
            receiver := .receiving false 0, quiet := 0, stuck := 0, stuckDeclared := false, line := .dominant } }
        ∧ exec (.probeStart .recessive) s = .next { u with
            re := { u.re with seq := u.re.seq + 1 }
            ac := { u.ac with rest := false }
            li := {
              receiver := .receiving true 0, quiet := 0, stuck := 0, stuckDeclared := false, line := .dominant
              flight := some {
                chars := Frame.chars {
                  flags := { reply := false, end_ := false, joining := s.ac.prior = .joining, bucketLast := false }
                  src := s.straps.sn.toNat, dst := 0, seq := s.re.seq
                  payload := .summary s.pt.h s.pt.sharedCount s.cp.setup.interval s.pt.digests }
                elapsed := 0, cls := .c, probe := true, cargo := .summary } } })
    ∧ (∀ f, s.li.flight = some f → f.probe = true → f.cargo = .summary → f.cls = .c →
      ∃ u w t, u = s.passLine (10 * f.chars.length - f.elapsed) ∧ exec .probeComplete s = .next t
        ∧ SessionSearched { u with
            li := { u.li with receiver := .seeking, line := .recessive, stuck := 0, stuckDeclared := false, flight := none }
            ac := { u.ac with
              summaryDue := false, rest := true, mutedCause := .none, wait := 1, recovery := none, probeDue := false }
            sc := { u.sc with station := match s.ac.prior with
              | .joining => .joining
              | .active => .active }
            re := { u.re with summaryTimer := some 0 }
            cp := { u.cp with
              notify := placeEvent s.cp.notify { kind := .lineRestored, param := 0 }
              counters := { u.cp.counters with framesSent := min 0xFFFFFFFF (s.cp.counters.framesSent + 1) } } } w
        ∧ Judged w t)

/-! ### The receive path (chapter 3) -/

/-- START_BIT, RECEIVER_IDLE and STUCK_DECLARATION (R48, R49, R58, R67): a change of the level on LRXD ends the count of the level
before it, outside a frame and within another station's frame alike; a start bit that passes R48 takes the receiver from IDLE to
RECEIVING, noise does not. A quiet count of 10 takes the receiver from SEEKING to IDLE; a dominant run of 200 tB is declared stuck
once. While the Line Interface is off the counts stay 0; that the level is followed then, that START_BIT tells a release as well,
and that within a frame the level is the one last told, are the model's (notes/assumptions/35.md, 9.md). That the last two
commands bring the line forward to their count, a line last told dominant being released at RECEIVER_IDLE, or act late, is the
model's (notes/assumptions/3.md). -/
def Obligations.LineLevelsMoveTheReceiver : Prop :=
  ∀ s : State, s.power = .running →
    (∀ (c : LineChange) (line : Level) (li : LineIf), (line = .dominant ↔ c = .start) →
      li = { s.li with
        line := line, stuck := 0, stuckDeclared := false
        quiet := if c = .release ∧ s.li.line = .recessive then s.li.quiet else 0 } →
      (s.li.receiver = .idle → exec (.startBit c) s
        = .next { s with li := { li with receiver := if c = .start then .receiving false 0 else .idle } })
      ∧ (s.li.receiver = .seeking ∨ (∃ e, s.li.receiver = .receiving false e) → exec (.startBit c) s
        = .next { s with li := li })
      ∧ (s.li.receiver = .off → exec (.startBit c) s = .next { s with li := { s.li with line := line } })
      ∧ ((∃ e, s.li.receiver = .receiving true e) → exec (.startBit c) s = .next s))
    ∧ (s.li.receiver = .seeking → s.li.quiet ≤ 255 →
      ∃ (q : Nat) (u : State), q = (if s.li.line = .recessive then s.li.quiet else 0)
        ∧ (∃ r, u = State.passLine { s with li := r } (10 - q))
        ∧ exec .receiverIdle s = .next { u with li := { u.li with receiver := .idle } }
        ∧ u.li = { s.li with quiet := max q 10, stuck := 0, stuckDeclared := false, line := .recessive })
    ∧ (s.li.receiver = .seeking → s.li.line = .dominant → s.li.stuckDeclared = false →
      ∃ u, u = s.passLine (200 - s.li.stuck) ∧ u.li.stuck = max s.li.stuck 200
        ∧ exec .stuckDeclaration s
          = .next ({ u with li := { u.li with stuckDeclared := true } }.takeCause .stuck))

/-- FRAME_RECEIVED (R59, R61, R63, R64): at the stop bit of the last character the receiver goes to SEEKING, and the frame is
tested: a bad check, a FORMAT error, a duplicate station number, an overrun, or a place in the receive buffer. The quiet count
that the frame's last character leaves is the model's (notes/assumptions/10.md). -/
def Obligations.FrameReceivedIsJudged : Prop :=
  ∀ (chars : List Byte) (e : Nat) (s : State), s.power = .running → s.li.receiver = .receiving false e →
    wholeFrame chars = true →
    ∃ u v, u = s.passLine (10 * chars.length - 1 - e)
      ∧ v = { u with li := { u.li with
          receiver := .seeking, quiet := trailingRecessive (chars.getLastD 0), stuck := 0, stuckDeclared := false
          line := .recessive } }
      ∧ (frameCheckGood chars = false → exec (.frameReceived chars) s = .next { v with cp := { v.cp with
          counters := { v.cp.counters with checkErrors := min 0xFFFFFFFF (s.cp.counters.checkErrors + 1) } } })
      ∧ (frameCheckGood chars = true → parseFrame chars = none →
          exec (.frameReceived chars) s = .next { v with cp := { v.cp with
            counters := { v.cp.counters with formatErrors := min 0xFFFFFFFF (s.cp.counters.formatErrors + 1) } } })
      ∧ ∀ F, frameCheckGood chars = true → parseFrame chars = some F →
          (F.src = s.straps.sn.toNat →
            (s.sc.station = .muted ∧ s.ac.mutedCause = .duplicate → exec (.frameReceived chars) s = .next v)
            ∧ (¬ (s.sc.station = .muted ∧ s.ac.mutedCause = .duplicate) →
              exec (.frameReceived chars) s
                = .next ({ v with cp := { v.cp with
                    notify := placeEvent s.cp.notify { kind := .duplicateStation, param := 0 } } }.takeCause .duplicate)))
          ∧ (F.src ≠ s.straps.sn.toNat → 4 ≤ s.re.rxBuffer.length →
            exec (.frameReceived chars) s = .next { v with cp := { v.cp with
              counters := { v.cp.counters with overruns := min 0xFFFFFFFF (s.cp.counters.overruns + 1) } } })
          ∧ (F.src ≠ s.straps.sn.toNat → s.re.rxBuffer.length < 4 →
            exec (.frameReceived chars) s = .next { v with
              re := { v.re with rxBuffer := s.re.rxBuffer ++ [chars] }
              cp := { v.cp with
                counters := { v.cp.counters with framesReceived := min 0xFFFFFFFF (s.cp.counters.framesReceived + 1) } } })

/-- FRAMING_ERROR, FORMAT_ERROR and GAP_ERROR (R59, R60): the frame is dropped and counted, and the receiver goes to SEEKING. At a
FRAMING error the stuck count takes the dominant run as far as it lies after the level last told (R67); so a station that withdrew
counts from 0 at the release of LTXD, and no bit that it drove. The quiet counts left are the model's (notes/assumptions/10.md),
and so are the instant of a GAP error (notes/assumptions/33.md, 34.md), the bringing forward of the line to the stop bit, one that
has gone by being no event (notes/assumptions/3.md), and the level last told (notes/assumptions/9.md). -/
def Obligations.ReceiverErrorsAreCounted : Prop :=
  (∀ (f : Flight) (bit stop run : Nat) (s t : State), s.power = .running → s.li.flight = some f →
    s.li.receiver = .receiving true f.elapsed → f.elapsed ≤ bit → (frameBits f.chars)[bit]? = some true →
    exec (.withdrawal bit) s = .next t → 9 ≤ stop → bit ≤ stop → run ≤ 9 →
    ∃ u, exec (.framingError { bit := stop, run := run }) t = .next u ∧ u.li.stuck = min run (stop - bit)
      ∧ u.li.receiver = .seeking ∧ u.li.line = .dominant)
  ∧ ∀ (e : Nat) (s : State), s.power = .running → s.li.receiver = .receiving false e →
    (∀ stop run, 9 ≤ stop → e ≤ stop → run ≤ 9 → ∃ u, u = s.passLine (stop - e)
      ∧ exec (.framingError { bit := stop, run := run }) s = .next { u with
          li := { u.li with
            receiver := .seeking, quiet := 0, stuckDeclared := false, line := .dominant
            stuck := match u.li.line with
              | .dominant => min run u.li.stuck
              | .recessive => min run u.li.quiet }
          cp := { u.cp with
            counters := { u.cp.counters with framingErrors := min 0xFFFFFFFF (s.cp.counters.framingErrors + 1) } } })
    ∧ (∀ stop run, stop < 9 ∨ stop < e ∨ 9 < run → exec (.framingError { bit := stop, run := run }) s = .next s)
    ∧ (∀ char4 : Byte, 160 < char4.toNat → ∃ u, u = s.passLine (49 - e)
      ∧ exec (.formatError char4) s = .next { u with
          li := { u.li with
            receiver := .seeking, quiet := trailingRecessive char4, stuck := 0, stuckDeclared := false, line := .recessive }
          cp := { u.cp with
            counters := { u.cp.counters with formatErrors := min 0xFFFFFFFF (s.cp.counters.formatErrors + 1) } } })
    ∧ (∀ quiet, 4 ≤ quiet → quiet ≤ 12 → ∃ u, u = s.passLine (13 - e)
      ∧ exec (.gapError quiet) s = .next { u with
          li := { u.li with
            receiver := .seeking, quiet := quiet, stuck := 0, stuckDeclared := false, line := .recessive }
          cp := { u.cp with
            counters := { u.cp.counters with framingErrors := min 0xFFFFFFFF (s.cp.counters.framingErrors + 1) } } })

/-! ### Taking frames, the roster and repair (chapters 2, 5, 6) -/

/-- TAKE_FRAME (R16, R32, R65, R66, R100 to R103, R106, R107, R109 to R121, R124, Table 3.4.3): nothing in REPLAY; otherwise the
oldest frame leaves the buffer, H rises to every generation it carries, its source is PRESENT unless it leaves, with PEER-JOINED
where it was not, and its kind acts as the station state allows; then convergence is judged. The records of an UPDATE are taken
one after another. A LEAVE of a peer that is not ABSENT raises PEER-LEFT. A request is placed in the reply queue by the cases of
Table 6.5.2. A SUMMARY sets the agreement, and where digests differ the session opens, asking for the first 8 of these buckets,
or stays wanted. A LISTING that matches the session in the expected order is merged with the table: ids wanted, own entries
pushed, the expected pair moved on, the FETCH raised, or the session over; one out of order counts as a timeout. A matching
reply UPDATE restarts the timer or, with END, ends the session; a LEAVE of the session's peer ends it without a failure. A frame
in flight runs on, for a session or a request that is over without effect (R122, R128). Each kind leaves the rest as it was:
only an UPDATE changes the journal, only an UPDATE and a LISTING the entries, and only a SUMMARY with the JOINING flag, in
JOINING and ACTIVE, makes a SUMMARY due and restarts its timer (R98). The values of a session that is over are the model's
(notes/assumptions/24.md), and so is the order of the events of one frame, CONVERGED or DIVERGED last (notes/assumptions/26.md),
and the UNSAVED event of an entry that a record creates UNSAVED (notes/assumptions/32.md), and the part expected after a part 255
(notes/assumptions/44.md). -/
def Obligations.TakeFrameActsByState : Prop :=
  ∀ (chars : List Byte) (rest : List (List Byte)) (F : Frame) (s : State) (roster : List Peer) (heard : List Event),
    s.power = .running →
    s.re.rxBuffer = chars :: rest → parseFrame chars = some F → F.src ≠ s.straps.sn.toNat → s.re.roster.length = 31 →
    roster = s.re.roster.modify (F.src - 1) (Peer.heard s.clk.now) →
    (heard = if (s.peer F.src).presence = .present then s.cp.notify
      else placeEvent s.cp.notify { kind := .peerJoined, param := F.src }) →
    (s.sc.station = .replay → exec .takeFrame s = .next s)
    ∧ (s.sc.station ≠ .replay → ∃ (t : State) (told : List Event), exec .takeFrame s = .next t
      ∧ Judged { t with sc := s.sc, ac := { t.ac with prior := s.ac.prior }, cp := { t.cp with notify := told } } t
      ∧ (F.payload = .leave → told = (if (s.peer F.src).presence = .absent then s.cp.notify
          else placeEvent s.cp.notify { kind := .peerLeft, param := F.src }))
      ∧ (F.payload ≠ .leave → (∀ recs, F.payload ≠ .update recs) → told = heard)
      ∧ ((∀ recs, F.payload ≠ .update recs) → (∀ m, F.payload ≠ .listingRequest m) → (∀ ids, F.payload ≠ .fetch ids) →
          t.cp.counters = s.cp.counters)
      ∧ ((∀ recs, F.payload ≠ .update recs) → t.jc = s.jc ∧ t.pt = { s.pt with h := t.pt.h, entries := t.pt.entries })
      ∧ ((∀ recs, F.payload ≠ .update recs) → (∀ b part quads, F.payload ≠ .listing b part quads) →
          t.pt.entries = s.pt.entries)
      ∧ ((∀ h count interval digests, F.payload ≠ .summary h count interval digests) ∨ F.flags.joining = false
            ∨ ¬ (s.sc.station = .joining ∨ s.sc.station = .active) →
          t.ac.summaryDue = s.ac.summaryDue ∧ t.re.summaryTimer = s.re.summaryTimer)
      ∧ (∀ recs, F.payload = .update recs → s.sc.station = .held → told = heard ∧ t.cp.counters = s.cp.counters
          ∧ t.pt = { s.pt with h := t.pt.h } ∧ t.jc = s.jc ∧ t.re = { s.re with rxBuffer := rest, roster := roster }
          ∧ t.li = s.li)
      ∧ (∀ recs matched, F.payload = .update recs → s.sc.station ≠ .held →
          (matched ↔ s.re.session.state = .awaitUpdates ∧ s.re.session.raised = false
            ∧ F.flags.reply = true ∧ F.dst = s.straps.sn.toNat ∧ F.src = s.re.session.peer ∧ F.seq = s.re.session.reqSeq) →
          ∃ u : State, RecordsTaken { s with
            pt := { s.pt with h := t.pt.h }
            re := { s.re with rxBuffer := rest, roster := roster }
            cp := { s.cp with notify := heard } } recs u
          ∧ t.pt = u.pt ∧ t.jc = u.jc ∧ told = u.cp.notify ∧ t.cp.counters = u.cp.counters
          ∧ (¬ matched → t.re = u.re ∧ t.li = s.li)
          ∧ (matched → F.flags.end_ = false →
              t.re = { u.re with session := { s.re.session with timer := 0 } } ∧ t.li = s.li)
          ∧ (matched → F.flags.end_ = true → t.re = { u.re with session := t.re.session, roster := t.re.roster }
              ∧ t.li = { s.li with flight := s.li.flight.map (Flight.left true false) }
              ∧ SessionEnded u (u.re.roster.modify (F.src - 1) (Peer.repaired s.re.session s.re.session.more)) t))
      ∧ t.re.rxBuffer = rest
      ∧ t.pt.h = (F.payload.generations).foldl max s.pt.h
      ∧ (F.payload ≠ .leave → (t.peer F.src).presence = .present ∧ (t.peer F.src).lastHeard = some s.clk.now)
      ∧ (F.payload = .leave → (s.peer F.src).presence = .absent → t.re = { s.re with rxBuffer := rest } ∧ t.li = s.li)
      ∧ (F.payload = .leave → (s.peer F.src).presence ≠ .absent → t.peer F.src = Peer.cleared
          ∧ t.re = { s.re with
              rxBuffer := rest, session := t.re.session, roster := t.re.roster
              replyQueue := s.re.replyQueue.filter fun r => r.requester ≠ F.src }
          ∧ t.li = { s.li with flight := s.li.flight.map (Flight.left
              (s.re.session.state ≠ .idle && s.re.session.peer = F.src)
              (s.re.replyQueue.head?.any fun r => r.requester = F.src)) }
          ∧ (s.re.session.state ≠ .idle → s.re.session.peer = F.src →
              SessionEnded s (s.re.roster.modify (F.src - 1) fun _ => .cleared) t)
          ∧ (s.re.session.state = .idle ∨ s.re.session.peer ≠ F.src →
              t.re.session = s.re.session ∧ t.re.roster = s.re.roster.modify (F.src - 1) fun _ => .cleared))
      ∧ (∀ h count interval digests, F.payload = .summary h count interval digests →
          (t.peer F.src).h = h ∧ (t.peer F.src).count = count ∧ (t.peer F.src).interval = some interval
          ∧ (t.peer F.src).joining = F.flags.joining
          ∧ t.re = { s.re with
              rxBuffer := rest, session := t.re.session, summaryTimer := t.re.summaryTimer
              roster := s.re.roster.modify (F.src - 1) fun _ => t.peer F.src }
          ∧ t.li = s.li
          ∧ (s.sc.station = .held → t.re.session = s.re.session
              ∧ t.peer F.src = { Peer.heard s.clk.now (s.peer F.src) with
                  h := h, count := count, interval := some interval, joining := F.flags.joining })
          ∧ (s.sc.station ≠ .held → ∃ (diffs : List Nat) (opens : Prop),
              diffs = ((List.range 64).filter fun b => s.pt.digests[b]? ≠ digests[b]?)
              ∧ (opens ↔ diffs ≠ [] ∧ (s.sc.station = .joining ∨ s.sc.station = .active) ∧ s.re.session.state = .idle
                  ∧ (s.peer F.src).failures < 3)
              ∧ (t.peer F.src).agreement = (if diffs = [] then .agree else .disagree)
              ∧ (diffs = [] → (t.peer F.src).mask = 0 ∧ (t.peer F.src).wanted = false ∧ (t.peer F.src).failures = 0)
              ∧ (diffs ≠ [] → (t.peer F.src).failures = (s.peer F.src).failures)
              ∧ (opens → t.re.session = { Session.cleared with
                    state := .awaitListing, peer := F.src, buckets := diffs.take 8, raised := true }
                  ∧ (t.peer F.src).wanted = false ∧ ∀ b, (t.peer F.src).mask.getLsbD b = true ↔ b ∈ diffs.drop 8)
              ∧ (¬ opens → t.re.session = s.re.session)
              ∧ (¬ opens → diffs ≠ [] → (t.peer F.src).wanted = true
                  ∧ ∀ b, (t.peer F.src).mask.getLsbD b = true ↔ b ∈ diffs))
          ∧ (F.flags.joining = true → s.sc.station = .joining ∨ s.sc.station = .active →
              t.ac.summaryDue = true ∧ t.re.summaryTimer = some 0))
      ∧ (∀ b part quads matched inOrder, F.payload = .listing b part quads →
          (matched ↔ s.re.session.state = .awaitListing ∧ s.re.session.raised = false
            ∧ F.dst = s.straps.sn.toNat ∧ F.src = s.re.session.peer ∧ F.seq = s.re.session.reqSeq) →
          (inOrder ↔ s.re.session.buckets[s.re.session.pos]? = some b ∧ part = s.re.session.part
            ∧ (F.flags.end_ = true → F.flags.bucketLast = true ∧ s.re.session.pos + 1 = s.re.session.buckets.length)) →
          s.pt.entries.Pairwise (fun x y => x.id < y.id) →
          t.re = { s.re with
            rxBuffer := rest, session := t.re.session, roster := t.re.roster, outbound := t.re.outbound }
          ∧ (¬ (matched ∧ inOrder) → t.pt.entries = s.pt.entries ∧ t.re.outbound = s.re.outbound)
          ∧ (¬ matched → t.re.session = s.re.session ∧ t.re.roster = roster ∧ t.li = s.li)
          ∧ (matched → ¬ inOrder → s.re.session.attempt = 1 → t.re.roster = roster ∧ t.li = s.li
              ∧ t.re.session = { s.re.session with
                attempt := 2, raised := true, timer := 0, want := [], more := false, pos := 0, part := 0, cursor := none })
          ∧ (matched → ¬ inOrder → s.re.session.attempt ≠ 1 →
              SessionEnded s (roster.modify (F.src - 1) (Peer.failed s.re.session)) t
              ∧ t.li = { s.li with flight := s.li.flight.map (Flight.left true false) })
          ∧ (matched → inOrder → ∃ (pushed : Entry → Bool) (fresh : List Nat) (se : Session),
              pushed = pushesEntry b quads s.re.session.cursor F.flags.bucketLast
              ∧ fresh = (((quads.filter (wantsQuad s)).map Quad.id).filter fun i => i ∉ s.re.session.want)
              ∧ se = { s.re.session with
                  timer := 0
                  want := s.re.session.want ++ fresh.take (32 - s.re.session.want.length)
                  more := s.re.session.more || decide (32 - s.re.session.want.length < fresh.length) }
              ∧ t.pt.entries = (s.pt.entries.map fun e => if pushed e then { e with mark := .push } else e)
              ∧ t.re.outbound
                = s.re.outbound ++ ((s.pt.entries.filter fun e => pushed e && e.mark = .none).map Entry.id)
              ∧ (F.flags.bucketLast = false ∨ se.pos + 1 ≠ se.buckets.length ∨ se.want ≠ [] →
                t.re.roster = roster ∧ t.li = s.li)
              ∧ (F.flags.bucketLast = false → t.re.session
                = { se with part := se.part + 1, cursor := quads.getLast?.elim se.cursor fun q => some q.id })
              ∧ (F.flags.bucketLast = true → se.pos + 1 ≠ se.buckets.length → t.re.session
                = { se with pos := se.pos + 1, part := 0, cursor := none })
              ∧ (F.flags.bucketLast = true → se.pos + 1 = se.buckets.length → se.want ≠ [] → t.re.session
                = { se with state := .awaitUpdates, attempt := 1, raised := true, timer := 0 })
              ∧ (F.flags.bucketLast = true → se.pos + 1 = se.buckets.length → se.want = [] →
                SessionEnded s (roster.modify (F.src - 1) (Peer.repaired se se.more)) t
                ∧ t.li = { s.li with flight := s.li.flight.map (Flight.left true false) })))
      ∧ (∀ work, (∃ m, F.payload = .listingRequest m ∧ work = .listing (bucketList m) 0 0 none)
            ∨ (∃ ids, F.payload = .fetch ids ∧ work = .fetch ids 0) →
          ∃ u : State, t.re = { u.re with rxBuffer := rest, roster := roster } ∧ t.li = u.li
            ∧ t.cp.counters = u.cp.counters
            ∧ (F.dst = s.straps.sn.toNat ∧ (s.sc.station = .joining ∨ s.sc.station = .active) →
                RequestPlaced s u { requester := F.src, seq := F.seq, work := work, completed := false })
            ∧ (¬ (F.dst = s.straps.sn.toNat ∧ (s.sc.station = .joining ∨ s.sc.station = .active)) → u = s))
      ∧ t = { s with
          pt := t.pt, re := t.re, sc := t.sc, ac := { s.ac with summaryDue := t.ac.summaryDue, prior := t.ac.prior }
          li := { s.li with flight := t.li.flight }
          jc := { s.jc with queue := t.jc.queue, job := t.jc.job, held := t.jc.held }
          cp := { s.cp with notify := t.cp.notify, counters := t.cp.counters } })

/-- A received record by Table 2.3.1 (R12, R21, R32 to R38, R106): an UPDATE of one record is taken. An absent id or a superseding
version takes the record where the table has room for it, with CAPACITY-DROPS and TABLE-FULL where it has none; a LOCAL entry, the
same version and an older one do not. A record taken makes every agreement UNKNOWN and marks the id for the journal; REMOTE-CHANGE
comes for a watched entry, and for a new one as the SETUP says. Dirty-from is Table 2.1.1's (R25). The UNSAVED event of an entry
created UNSAVED, and the order of the events of one record, UNSAVED before REMOTE-CHANGE and CONVERGED or DIVERGED last, are the
model's choice (notes/assumptions/32.md, 26.md). -/
def Obligations.ReceivedRecordOutcome : Prop :=
  ∀ (chars : List Byte) (rest : List (List Byte)) (F : Frame) (r : LineRecord) (s : State) (takes room : Prop) (heard : List Event),
    s.power = .running →
    s.re.rxBuffer = chars :: rest → parseFrame chars = some F → F.payload = .update [r] →
    s.sc.station = .joining ∨ s.sc.station = .active ∨ s.sc.station = .muted ∨ s.sc.station = .closing →
    (takes ↔ s.entry r.id = none ∨ ∃ e, s.entry r.id = some e ∧ e.scope = .shared
      ∧ (e.ver.gen < r.gen ∨ (r.gen = e.ver.gen ∧ (r.origin < e.ver.origin
        ∨ (e.ver.origin = r.origin ∧ e.ver.check.toNat < (valueCheck r.value).toNat))))) →
    (room ↔ (s.entry r.id ≠ none ∨ s.pt.entries.length < 512)
      ∧ (r.value.length ≤ 8 ∨ (s.entry r.id).bind Entry.slot ≠ none ∨ freeSlot s.pt.entries ≠ none)) →
    (heard = if (s.peer F.src).presence = .present then s.cp.notify
      else placeEvent s.cp.notify { kind := .peerJoined, param := F.src }) →
    ∃ (t : State) (q : List Event), exec .takeFrame s = .next t ∧ (∀ j, j ≠ r.id → t.entry j = s.entry j)
      ∧ t.cp.notify = judgedNotify s.sc.converged t.sc.converged q
      ∧ (¬ (takes ∧ room) → t.entry r.id = s.entry r.id ∧ t.pt.entries = s.pt.entries ∧ t.re.outbound = s.re.outbound
          ∧ t.jc = s.jc)
      ∧ (∀ e, s.entry r.id = some e → e.scope = .loc → q = heard ∧ t.cp.counters = { s.cp.counters with
            scopeConflicts := min 0xFFFFFFFF (s.cp.counters.scopeConflicts + 1) })
      ∧ (∀ e, s.entry r.id = some e → e.scope = .shared → r.ver = e.ver → q = heard ∧ t.cp.counters = s.cp.counters)
      ∧ (∀ e, s.entry r.id = some e → e.scope = .shared →
          (r.gen < e.ver.gen ∨ (r.gen = e.ver.gen ∧ (e.ver.origin < r.origin
            ∨ (e.ver.origin = r.origin ∧ (valueCheck r.value).toNat < e.ver.check.toNat)))) →
          q = heard ∧ t.cp.counters = { s.cp.counters with
            updatesStale := min 0xFFFFFFFF (s.cp.counters.updatesStale + 1)
            versionConflicts := if r.gen = e.ver.gen ∧ r.origin = e.ver.origin
              then min 0xFFFFFFFF (s.cp.counters.versionConflicts + 1) else s.cp.counters.versionConflicts })
      ∧ (takes → ¬ room → q = placeEvent heard { kind := .tableFull, param := 0 } ∧ t.cp.counters = { s.cp.counters with
            capacityDrops := min 0xFFFFFFFF (s.cp.counters.capacityDrops + 1) })
      ∧ (takes → room →
          ∃ (e' : Entry) (q' : List Event), t.entry r.id = some e' ∧ e'.id = r.id ∧ e'.scope = .shared
            ∧ e'.ver = { gen := r.gen, origin := r.origin, check := valueCheck r.value } ∧ e'.value = r.value
            ∧ e'.mark = .none ∧ DirtyLaw (s.entry r.id) r.value e'.dirty
            ∧ e'.slot = (if r.value.length ≤ 8 then none
                else (s.entry r.id).bind Entry.slot <|> freeSlot s.pt.entries)
            ∧ (e'.jstate = if s.jc.fault = false ∧ (r.id ∈ s.jc.queueIds ∨ s.jc.queue.length < 64) then .queued
                else .unsaved)
            ∧ e'.watch = (s.entry r.id).elim false Entry.watch ∧ e'.base = (s.entry r.id).elim none Entry.base
            ∧ JournalMarked s.jc t.jc r.id
            ∧ t.re.outbound = (s.re.outbound.filter fun i => i ≠ r.id)
            ∧ (∀ p ∈ t.re.roster, p.agreement = .unknown)
            ∧ t.cp.counters = { s.cp.counters with
                updatesApplied := min 0xFFFFFFFF (s.cp.counters.updatesApplied + 1)
                versionConflicts :=
                  if (s.entry r.id).any fun e => r.gen = e.ver.gen && r.origin = e.ver.origin
                  then min 0xFFFFFFFF (s.cp.counters.versionConflicts + 1) else s.cp.counters.versionConflicts }
            ∧ q' = (if e'.jstate = .unsaved ∧ (s.entry r.id).map Entry.jstate ≠ some .unsaved
                then placeEvent heard { kind := .unsaved, param := 0 } else heard)
            ∧ q = (if (s.entry r.id).elim s.cp.setup.watchNew Entry.watch
                then placeEvent q' { kind := .remoteChange, param := r.id } else q'))

/-- REPLY_TIMEOUT (R112, R119, R109): the reply timer reaches the timeout, or has reached it as a frame begins; the first attempt
is raised once more, a LISTING-REQUEST from its beginning; after the second the buckets go back to the peer, its failures rise,
the session is over, and the next is searched for. That the command brings time forward to the timeout, or acts late past it, that
the timer counts single bit times over frames between and expires as a frame begins, and the values of a session that is over are
the model's (notes/assumptions/3.md, 36.md, 24.md). -/
def Obligations.ReplyTimeoutResendsOrAbandons : Prop :=
  ∀ s : State, s.power = .running → s.re.session.state ≠ .idle → s.re.session.raised = false →
    s.li.receiver.busy = false ∨ 10 * s.cp.setup.replyTimeout ≤ s.re.session.timer →
    ∃ u, u = s.passLine (10 * s.cp.setup.replyTimeout - s.re.session.timer)
      ∧ u.re.session = { s.re.session with timer := max s.re.session.timer (10 * s.cp.setup.replyTimeout) }
      ∧ (s.re.session.attempt = 1 → s.re.session.state = .awaitListing →
          exec .replyTimeout s = .next { u with re := { u.re with session := { u.re.session with
            attempt := 2, raised := true, timer := 0, want := [], more := false, pos := 0, part := 0, cursor := none } } })
      ∧ (s.re.session.attempt = 1 → s.re.session.state = .awaitUpdates →
          exec .replyTimeout s = .next { u with re := { u.re with
            session := { u.re.session with attempt := 2, raised := true, timer := 0 } } })
      ∧ (s.re.session.attempt ≠ 1 → 1 ≤ s.re.session.peer →
          ∃ t v, exec .replyTimeout s = .next t ∧ SessionSearched v t
            ∧ v = { u with
                re := { u.re with
                  session := .cleared
                  roster := s.re.roster.modify (s.re.session.peer - 1) (Peer.failed s.re.session) }
                li := { u.li with flight := u.li.flight.map fun f => match f.cargo with
                  | .request _ => { f with cargo := .request false }
                  | _ => f } })

/-- SUMMARY_TIMER_EXPIRY, JOIN_WINDOW_EXPIRY and CLOSE_LIMIT_EXPIRY (R91, R93, R95, R97): the timer reaches one, three and four
times the summary interval; a SUMMARY is due, JOINING gives way to ACTIVE, CLOSING to HELD with PARTIAL. That the command brings
time forward to the limit, or acts late where the timer has passed it, is the model's (notes/assumptions/3.md). The end of the
join window and of CLOSING is followed by the judgement of convergence (R106), which in HELD can only clear the flag. -/
def Obligations.LifeTimersExpire : Prop :=
  ∀ s : State, s.power = .running →
    (s.re.summaryTimer ≠ none → ∃ u, timerReaches s u (fun x => x.re.summaryTimer) (100 * s.cp.setup.interval)
      ∧ exec .summaryTimerExpiry s = .next { u with
          re := { u.re with summaryTimer := some 0 }, ac := { u.ac with summaryDue := true } })
    ∧ (s.sc.joinWindow ≠ none → ∃ u x t, timerReaches s u (fun x => x.sc.joinWindow) (300 * s.cp.setup.interval)
      ∧ exec .joinWindowExpiry s = .next t ∧ Judged x t
      ∧ (s.sc.station = .joining → x = { u with sc := { u.sc with station := .active, joinWindow := none } })
      ∧ (s.sc.station = .muted → s.ac.prior = .joining →
          x = { u with sc := { u.sc with joinWindow := none }, ac := { u.ac with prior := .active } })
      ∧ (s.sc.station ≠ .joining → ¬ (s.sc.station = .muted ∧ s.ac.prior = .joining) → x = u))
    ∧ (s.sc.station = .closing → s.sc.closeLimit ≠ none →
      ∃ u t, timerReaches s u (fun x => x.sc.closeLimit) (400 * s.cp.setup.interval)
      ∧ exec .closeLimitExpiry s = .next t
      ∧ (∀ tag, s.cp.slot = .executing 0x13 tag →
          t.cp.slot = .done { code := 0x13, tag := tag, result := .part, data := [] })
      ∧ ((∀ tag, s.cp.slot ≠ .executing 0x13 tag) → t.cp.slot = s.cp.slot)
      ∧ t = { u with
          sc := { u.sc with station := .held, joinWindow := none, closeLimit := none, converged := false }
          re := { u.re with summaryTimer := none }
          ac := { u.ac with leaveDue := false, mutedCause := .none }
          cp := { u.cp with
            slot := t.cp.slot
            notify := if s.sc.converged then placeEvent s.cp.notify { kind := .diverged, param := 0 } else s.cp.notify } })

/-- PEER_LOST and PEER_ABSENT (R104, R121, R128): more than four times the advertised interval without a frame makes a peer
SILENT, with its requests dropped; a session with it is abandoned, its buckets given back to the peer's mask with repair wanted,
and the next is searched for (R109, R121); more than sixteen times makes it ABSENT and cleared; convergence is judged (R106,
R107). The instant is the present one where the silence has lasted so long already, and otherwise the first whole bit time in
which the millisecond past the limit ends: that the command brings time forward to it, or acts late past it, and the values of a
session that is over, are the model's (notes/assumptions/3.md, 24.md). A frame in flight runs on, for a session or a request
that is over without effect (R122, R128). -/
def Obligations.SilentPeersAreLost : Prop :=
  ∀ (n : Nat) (s : State), s.power = .running → s.sc.station ≠ .replay → 1 ≤ n → n ≤ 31 → n ≠ s.straps.sn.toNat →
    s.re.roster.length = 31 →
    ((s.peer n).presence = .present → ∃ u t, exec (.peerLost n) s = .next t
      ∧ (∀ h, (s.peer n).lastHeard = some h →
          timerReaches s u (fun x => some x.clk.now) (h + 400 * (s.peer n).interval.getD s.cp.setup.interval + 1))
      ∧ ((s.peer n).lastHeard = none → u = s)
      ∧ (t.peer n).presence = .silent ∧ (t.peer n).lastHeard = (s.peer n).lastHeard
      ∧ t.re.replyQueue = (s.re.replyQueue.filter fun r => r.requester ≠ n)
      ∧ (s.re.session.peer = n → s.re.session.state ≠ .idle →
          SessionEnded s (s.re.roster.modify (n - 1) fun p =>
            { p with presence := .silent, mask := p.mask ||| bucketSet s.re.session.buckets, wanted := true }) t)
      ∧ (s.re.session.peer ≠ n ∨ s.re.session.state = .idle → t.re.session = u.re.session
          ∧ t.re.roster = s.re.roster.modify (n - 1) fun p => { p with presence := .silent })
      ∧ Judged { t with
          sc := u.sc, ac := u.ac, cp := { u.cp with notify := placeEvent s.cp.notify { kind := .peerLost, param := n } } } t
      ∧ t = { u with
          re := { u.re with session := t.re.session, roster := t.re.roster, replyQueue := t.re.replyQueue }
          li := { u.li with flight := u.li.flight.map (Flight.left
            (s.re.session.peer = n && s.re.session.state ≠ .idle) (s.re.replyQueue.head?.any fun r => r.requester = n)) }
          sc := t.sc, ac := { u.ac with prior := t.ac.prior }, cp := { u.cp with notify := t.cp.notify } })
    ∧ ((s.peer n).presence = .silent → ∃ u t, exec (.peerAbsent n) s = .next t
      ∧ (∀ h, (s.peer n).lastHeard = some h →
          timerReaches s u (fun x => some x.clk.now) (h + 1600 * (s.peer n).interval.getD s.cp.setup.interval + 1))
      ∧ ((s.peer n).lastHeard = none → u = s)
      ∧ Judged { u with re := { u.re with roster := s.re.roster.modify (n - 1) fun _ => .cleared } } t ∧ t.peer n = .cleared)

/-! ### The journal (chapters 7 and 8) -/

/-- APPEND (R132, R135 to R139, R143, R146, R147): the head of the queue is written in the head band where its record fits;
otherwise the head is closed, or a band is opened with the next sequence, unless the reserve of the last ERASED band holds it
back; with no sequence left the opening puts the journal in FAULT (R146, R156). The record is of the kind that Table 7.3.3 gives,
and a record built again for a write that the reserve held back keeps that write's changed-during-write flag (R153,
notes/assumptions/17.md), after a failed header program too (notes/assumptions/41.md). That a FAULT leaves a RETIRING row without
a sequence, whose erase replay left due, RETIRING is the model's (notes/assumptions/31.md). -/
def Obligations.AppendBeginsItsProgram : Prop :=
  ∀ (q : QItem) (rest : List QItem) (s : State), journalFree s → s.jc.queue = q :: rest →
    (s.jc.compaction = .idle ∧ s.jc.toErase = []) ∨ s.jc.lastSide = some .compaction →
    ∃ (w : WriteJob) (r : JRecord) (erased : Nat) (begins : Prog → State),
      w = { side := .append, id := q.id, kind := recordKind q.del (s.entry q.id), bytes := r.bytes
            changed := s.jc.held.any fun x => x.changed, gone := false }
      ∧ erased = (s.jc.bands.countP fun x => x.state = .erased)
      ∧ (∀ p, begins p = { s with
          jc := { s.jc with job := some (.write w), held := none, next := none }
          sp := { s.sp with cmd := .program p .busy, poll := some 0 } })
      ∧ (q.del = true → r = { kind := 3, loc := true, id := q.id, gen := s.pt.h, origin := s.straps.sn.toNat, length := 0
                              offset := 0, data := [] })
      ∧ (∀ e, q.del = false → s.entry q.id = some e →
          r.id = q.id ∧ (r.loc = true ↔ e.scope = .loc) ∧ r.gen = e.ver.gen ∧ r.origin = e.ver.origin
          ∧ r.length = e.value.length ∧ r.data = e.value.drop r.offset
          ∧ (e.isTombstone = true → r.kind = 3 ∧ r.offset = 0)
          ∧ (e.isTombstone = false → ∀ d, e.dirty = .from_ d → 0 < d → e.base ≠ none → r.kind = 2 ∧ r.offset = d)
          ∧ (e.isTombstone = false → (e.dirty = .whole ∨ e.dirty = .none ∨ e.dirty = .from_ 0 ∨ e.base = none) →
              r.kind = 1 ∧ r.offset = 0))
      ∧ (∀ h, s.jc.head = some h → h.pos + w.bytes.length ≤ 4096 →
          exec .append s = .next (begins
            { purpose := .recordFirst, band := h.band, offset := h.pos, data := w.bytes.take (256 - h.pos % 256) }))
      ∧ (∀ h, s.jc.head = some h → 4096 < h.pos + w.bytes.length → 2 ≤ erased →
          exec .append s = .next (begins
            { purpose := .closeLength, band := h.band, offset := 11, data := closeBytes (h.pos - 16) }))
      ∧ (s.jc.head = none → 2 ≤ erased → s.jc.lastSeq ≠ 0xFFFFFFFE →
          ∃ b, s.jc.lowestErased = some b
            ∧ exec .append s = .next { begins
                { purpose := .header, band := b, offset := 0, data := headerBytes s.straps (s.jc.lastSeq + 1) } with
                jc := { s.jc with
                  job := some (.write w), held := none, next := none, lastSeq := s.jc.lastSeq + 1 } })
      ∧ (s.jc.head = none → 2 ≤ erased → s.jc.lastSeq = 0xFFFFFFFE → ∃ t, exec .append s = .next t ∧ FaultEntered s t)
      ∧ (s.jc.head = none ∨ (∃ h, s.jc.head = some h ∧ 4096 < h.pos + w.bytes.length) → erased < 2 →
          exec .append s = .next s)

/-- COPY and ERASE (R137, R148 to R150, R152): the compaction side's turn, which comes with nothing queued, after a job that was
none of its own, and after one of its own while the reserve holds the append at the head of the queue back (R147), copies, for
the least id above the cursor whose base is the RETIRING band, a FULL or a TOMB of it, and an append that waits on the reserve
keeps waiting (R153): in the head where it fits, else by closing the head, or with no head by opening the lowest ERASED band
with the next sequence, the last one too (R146, R147); with no sequence left there the journal is in FAULT, and likewise, before
any close, where the copy needs a band and none is ERASED (the model's reading of R147, notes/assumptions/21.md). With the
band's live-base count 0, or with an erase left by replay, it erases. That a FAULT leaves a RETIRING row without a sequence
RETIRING is the model's (notes/assumptions/31.md). -/
def Obligations.CopyAndEraseBegin : Prop :=
  ∀ (s : State), journalFree s →
    (s.jc.queue = [] ∨ s.jc.lastSide ≠ some .compaction
      ∨ ∃ q rest w, s.jc.queue = q :: rest ∧ BuiltFor s q (s.jc.held.any fun x => x.changed) w
        ∧ (s.jc.bands.countP fun x => x.state = .erased) < 2 ∧ ∀ h, s.jc.head = some h → 4096 < h.pos + w.bytes.length) →
    (∀ (band : Nat) (cursor : Option Nat) (e : Entry) (row : BandRow), s.jc.toErase = [] →
      s.jc.compaction = .retiring band cursor → s.jc.bands[band]? = some row → row.live ≠ 0 → row.seq ≠ none →
      s.pt.entries.Pairwise (fun x y => x.id < y.id) → e ∈ s.pt.entries → e.base = row.seq → above cursor e.id = true →
      (∀ e' ∈ s.pt.entries, e'.base = row.seq → above cursor e'.id = true → e.id ≤ e'.id) →
      ∃ w : WriteJob,
        w = { side := .compaction, id := e.id, kind := if e.isTombstone then .tombShared else .full
              bytes := JRecord.bytes
                { kind := if e.isTombstone then 3 else 1, loc := e.scope = .loc, id := e.id, gen := e.ver.gen
                  origin := e.ver.origin, length := e.value.length, offset := 0, data := e.value }
              changed := false, gone := false }
        ∧ (∀ h, s.jc.head = some h → h.pos + w.bytes.length ≤ 4096 →
            exec .copy s = .next { s with
              jc := { s.jc with job := some (.write w), next := none }
              sp := { s.sp with
                cmd := .program { purpose := .recordFirst, band := h.band, offset := h.pos
                                  data := w.bytes.take (256 - h.pos % 256) } .busy
                poll := some 0 } })
        ∧ (∀ h, s.jc.head = some h → 4096 < h.pos + w.bytes.length → (∃ x ∈ s.jc.bands, x.state = .erased) →
            exec .copy s = .next { s with
              jc := { s.jc with job := some (.write w), next := none }
              sp := { s.sp with
                cmd := .program { purpose := .closeLength, band := h.band, offset := 11
                                  data := closeBytes (h.pos - 16) } .busy
                poll := some 0 } })
        ∧ (s.jc.head = none → s.jc.lastSeq ≠ 0xFFFFFFFE → ∀ b row, s.jc.bands[b]? = some row → row.state = .erased →
            (∀ i x, i < b → s.jc.bands[i]? = some x → x.state ≠ .erased) →
            exec .copy s = .next { s with
              jc := { s.jc with job := some (.write w), next := none, lastSeq := s.jc.lastSeq + 1 }
              sp := { s.sp with
                cmd := .program { purpose := .header, band := b, offset := 0
                                  data := headerBytes s.straps (s.jc.lastSeq + 1) } .busy
                poll := some 0 } })
        ∧ (s.jc.head = none ∧ s.jc.lastSeq = 0xFFFFFFFE ∨ (∀ x ∈ s.jc.bands, x.state ≠ .erased)
              ∧ (∀ h, s.jc.head = some h → 4096 < h.pos + w.bytes.length) →
            ∃ t, exec .copy s = .next t ∧ FaultEntered s t))
    ∧ (∀ (band : Nat), (∃ l, s.jc.toErase = band :: l)
        ∨ (s.jc.toErase = [] ∧ ∃ cursor row, s.jc.compaction = .retiring band cursor ∧ s.jc.bands[band]? = some row
          ∧ row.live = 0) →
      exec .erase s = .next { s with
        jc := { s.jc with job := some (.erase band) }
        sp := { s.sp with cmd := .erase band .busy, poll := some 0 } })

/-- PROGRAM_NOT_BUSY (R171 to R173, R175, Table 10.1.1): the bus carries a write-enable, the program or the erase with the address
of its first byte, most significant byte first, and status reads; in time, the device holds what it made of the write
(notes/assumptions/7.md), the write window closes, and the verification read follows, unless a lend or a RESTART comes first
(R161, notes/assumptions/14.md, 15.md); later it is no event. The bytes on the bus are computed from the state, and one status
read stands for as many as a polling makes one after another (R173), or a busy check: both are the model's
(notes/assumptions/20.md, 28.md). So is the reading of a header in the survey as one read of its 16 bytes, of which R175 leaves
the commands open (notes/assumptions/37.md). -/
def Obligations.PollingEndsTheWriteWindow : Prop :=
  (∀ (left : DeviceLeft) (t : Nat) (stage : Stage) (s : State), s.power = .running → s.sp.poll = some t →
    (stage = if s.cp.restarting = false ∧ (s.sp.lend = .idle ∨ s.jc.replay ≠ none) then .verify else .ready) →
    (∀ p, s.sp.cmd = .program p .busy →
      (t ≤ 5 → exec (.programNotBusy left) s = .next { s with
        flash := Flash.and s.flash (p.band * 4096 + p.offset) (landed p.data left)
        sp := { s.sp with cmd := .program p stage, poll := none } })
      ∧ (5 < t → exec (.programNotBusy left) s = .next s))
    ∧ (∀ b, s.sp.cmd = .erase b .busy →
      (t ≤ 500 → ∃ f, exec (.programNotBusy left) s = .next { s with
          flash := f, sp := { s.sp with cmd := .erase b stage, poll := none } }
        ∧ (∀ a, ¬ (b * 4096 ≤ a ∧ a < b * 4096 + 4096) → Flash.byte f a = Flash.byte s.flash a)
        ∧ (left = .whole → ∀ a, b * 4096 ≤ a → a < b * 4096 + 4096 → Flash.byte f a = 0xFF))
      ∧ (500 < t → exec (.programNotBusy left) s = .next s)))
  ∧ ∀ (s : State) (a : Nat) (addr : List Byte),
    addr = [BitVec.ofNat 8 (a / 65536), BitVec.ofNat 8 (a / 256), BitVec.ofNat 8 a] →
    (∀ p, a = p.band * 4096 + p.offset →
      (s.sp.cmd = .program p .busy → s.busTransfers
        = [{ out := [0x06], ins := 0 }, { out := 0x02 :: addr ++ p.data, ins := 0 }, { out := [0x05], ins := 1 }])
      ∧ (s.sp.cmd = .program p .verify → s.busTransfers = [{ out := 0x03 :: addr, ins := p.data.length }]))
    ∧ (∀ b, a = b * 4096 →
      (s.sp.cmd = .erase b .busy → s.busTransfers
        = [{ out := [0x06], ins := 0 }, { out := 0x20 :: addr, ins := 0 }, { out := [0x05], ins := 1 }])
      ∧ (s.sp.cmd = .erase b .verify → s.busTransfers = [{ out := 0x03 :: addr, ins := 16 }]))
    ∧ (∀ r b, a = b * 4096 → s.sp.cmd = .read → s.jc.replay = some r → r.phase = .survey b →
      s.busTransfers = [{ out := 0x03 :: addr, ins := 16 }])
    ∧ (s.sp.cmd.pauses = true → s.sp.check ≠ .none → s.busTransfers = [{ out := [0x05], ins := 1 }])
    ∧ (s.sp.cmd.pauses = true → s.sp.check = .none → s.busTransfers = [])

/-- PROGRAM_VERIFY of a record's last program that reads back as sent (R138, R142, R144, R145, R149, R151, R158, R159): the record
counts, the head position passes it, the job ends; an id unchanged meanwhile leaves the queue and its entry is CLEAN, a changed
one goes to the tail; a FULL or a TOMB moves the base, and the live-base counts follow it: the head band's rises by one, the old
base band's falls by one (where replay left two rows of one sequence, that of the one that counts any, notes/assumptions/38.md); a
copy moves the copy cursor; when the queue has emptied, the UNSAVED entries are swept into it; and a waiting FLUSH whose condition
now holds is DONE. That the trigger is judged at a record only where it passed FULL rows over before, and that a copy of an entry
deleted and created again since moves no base, are the model's reading (notes/assumptions/23.md, 30.md). -/
def Obligations.WrittenRecordsSaveTheirEntries : Prop :=
  ∀ (p : Prog) (w : WriteJob) (h : Head) (s : State), s.power = .running → s.sp.cmd = .program p .verify →
    Flash.read s.flash (p.band * 4096 + p.offset) p.data.length = p.data → s.jc.job = some (.write w) →
    s.jc.head = some h → s.jc.fault = false →
    (p.purpose = .recordFirst ∧ w.bytes.length ≤ 256 - h.pos % 256) ∨ p.purpose = .recordSecond →
    ∃ t u v, exec .programVerify s = .next t
      ∧ v.jc.failCount = 0 ∧ v.jc.head = some { h with pos := h.pos + w.bytes.length } ∧ v.jc.job = none
      ∧ v.jc.lastSide = some w.side
      ∧ (w.changed = false → w.id ∉ v.jc.queueIds
          ∧ ∀ e, s.entry w.id = some e → ∃ e', v.entry w.id = some e'
            ∧ e' = { e with jstate := .clean, dirty := .none, base := e'.base })
      ∧ (∀ e q, s.entry w.id = some e → s.jc.seqOf h.band = some q → w.gone = false →
          w.kind = .full ∨ w.kind = .tombShared → ∃ e' old, v.entry w.id = some e' ∧ e'.base = some q
            ∧ old = (e.base.bind fun b => s.jc.bands.findIdx? fun r => r.seq = some b && r.live ≠ 0)
            ∧ (e.base ≠ some q → ∀ i : Nat, v.jc.bands[i]? = (s.jc.bands[i]?).map fun r : BandRow => { r with
                live := r.live - (if old = some i then 1 else 0) + (if i = h.band then 1 else 0) })
            ∧ (e.base = some q → v.jc.bands = s.jc.bands))
      ∧ ((w.gone = true ∨ (∃ o, w.kind = .tail o) ∨ w.kind = .tombLocal ∨ s.entry w.id = none) →
          v.jc.bands = s.jc.bands
          ∧ ∀ e, s.entry w.id = some e → ∃ e', v.entry w.id = some e' ∧ e'.base = e.base)
      ∧ (w.changed = true → w.side = .append → w.id ∈ s.jc.queueIds →
          v.jc.queue = (s.jc.queue.filter fun x => x.id ≠ w.id) ++ (s.jc.queue.filter fun x => x.id = w.id))
      ∧ (w.changed = true → w.side = .compaction → s.jc.queue ≠ [] → v.jc.queue = s.jc.queue)
      ∧ (w.changed = false → (s.jc.queue.filter fun x => x.id ≠ w.id) ≠ [] →
          v.jc.queue = (s.jc.queue.filter fun x => x.id ≠ w.id)
          ∧ ∀ j, j ≠ w.id → v.entry j = s.entry j)
      ∧ (w.changed = false → (s.jc.queue.filter fun x => x.id ≠ w.id) = [] →
          v.jc.queue = ((((s.pt.entries.filter fun e => e.jstate = .unsaved ∧ e.id ≠ w.id).map Entry.id).take 64).map fun i =>
            { id := i, del := false })
          ∧ ∀ e' ∈ v.pt.entries, e'.id ∈ v.jc.queueIds → e'.jstate = .queued)
      ∧ (∀ j e, j ≠ w.id → s.entry j = some e → ∃ js, v.entry j = some { e with jstate := js })
      ∧ v.jc.held = (if w.changed then s.jc.held else s.jc.held.filter fun x => x.id ≠ w.id)
      ∧ v.jc.compaction = (match w.side, s.jc.compaction with
          | .compaction, .retiring b _ => .retiring b (some w.id)
          | _, c => c)
      ∧ v = { s with
          pt := { s.pt with entries := v.pt.entries }
          sp := { s.sp with cmd := .none, poll := none }
          jc := { s.jc with
            queue := v.jc.queue, bands := v.jc.bands, head := v.jc.head, compaction := v.jc.compaction, failCount := 0
            job := none, held := v.jc.held, next := none, lastSide := some w.side }
          cp := { s.cp with counters := { s.cp.counters with
            recordsWritten := min 0xFFFFFFFF (s.cp.counters.recordsWritten + 1) } } }
      ∧ (s.jc.chooseHeld = false → u = v) ∧ (s.jc.chooseHeld = true → TriggerJudged v u)
      ∧ t = { u with cp := { u.cp with slot := t.cp.slot } }
      ∧ (∀ tag, s.cp.slot = .executing 0x30 tag →
          ((v.jc.queue = [] ∧ ∀ e ∈ v.pt.entries, e.jstate ≠ .unsaved) →
            t.cp.slot = .done { code := 0x30, tag := tag, result := .done, data := [] })
          ∧ (¬ (v.jc.queue = [] ∧ ∀ e ∈ v.pt.entries, e.jstate ≠ .unsaved) → t.cp.slot = s.cp.slot))
      ∧ ((∀ tag, s.cp.slot ≠ .executing 0x30 tag) → t.cp.slot = s.cp.slot)

/-- PROGRAM_VERIFY of the programs that lead to a record, each as sent (R131, R132, R139, R146, R149): the second part of a record
follows the first; the close's mark follows its length; a closed band is FULL, its unused bytes are stranded and the next band is
opened; an opened band is the head, the trigger is judged, and the band takes the record. After a failure (R153): a good void is
followed by a close that takes the voided record in, its mark follows its length, and the closed band's record is written again in
another band. The closes of replay follow one another in the same way (R169), and the Line Interface is turned on after the last,
on the line level last told (the model's, notes/assumptions/35.md). Where a lend (R141, R175) or a RESTART (R161) comes first, the
program waits as the job's next; no lend parts the two programs of a close of replay (notes/assumptions/15.md). That a FAULT
leaves a RETIRING row without a sequence RETIRING, and that a record built again keeps its write's changed-during-write flag, are
the model's reading (notes/assumptions/31.md, 17.md), and that a failed copy passed over is followed by the next entry's in the same
job, or ends it where none is left, is the model's choice (notes/assumptions/42.md). -/
def Obligations.BandsCloseAndOpen : Prop :=
  (∀ (p : Prog) (w : WriteJob) (s : State), s.power = .running → s.sp.cmd = .program p .verify →
    Flash.read s.flash (p.band * 4096 + p.offset) p.data.length = p.data → s.jc.job = some (.write w) →
    (∀ h, s.jc.head = some h → p.purpose = .recordFirst → 256 - h.pos % 256 < w.bytes.length →
      ∃ t, exec .programVerify s = .next t
        ∧ Issued s t { purpose := .recordSecond, band := p.band, offset := p.offset + p.data.length
                       data := w.bytes.drop (256 - h.pos % 256) })
    ∧ (p.purpose = .closeLength → ∃ t, exec .programVerify s = .next t
        ∧ Issued s t { purpose := .closeMark, band := p.band, offset := 10, data := [0] })
    ∧ (∀ h, s.jc.head = some h → p.purpose = .closeMark → ∃ t, exec .programVerify s = .next t
      ∧ BandOpening { s with
          jc := { s.jc with
            bands := s.jc.bands.modify p.band fun r => { r with state := .full }
            stranded := min 0xFFFFFFFF (s.jc.stranded + (4080 - (h.pos - 16))), head := none }
          sp := { s.sp with cmd := .none, poll := none } } t w)
    ∧ (p.purpose = .header → ∃ t u, exec .programVerify s = .next t
        ∧ TriggerJudged { s with
            jc := { s.jc with
              bands := s.jc.bands.modify p.band fun _ => { state := .open_, seq := some s.jc.lastSeq, live := 0 }
              head := some { band := p.band, pos := 16 } }
            sp := { s.sp with cmd := .none, poll := none } } u
        ∧ Issued u t { purpose := .recordFirst, band := p.band, offset := 16, data := w.bytes.take 240 })
    ∧ (∀ h, s.jc.head = some h → p.purpose = .voidKind → ∃ t, exec .programVerify s = .next t
        ∧ Issued s t { purpose := .forcedLength, band := p.band, offset := 11
                       data := closeBytes (h.pos + w.bytes.length - 16) })
    ∧ (p.purpose = .forcedLength → ∃ t, exec .programVerify s = .next t
        ∧ Issued s t { purpose := .forcedMark, band := p.band, offset := 10, data := [0] })
    ∧ (∀ h, s.jc.head = some h → p.purpose = .forcedMark → s.pt.entries.Pairwise (fun x y => x.id < y.id) →
      ∃ t, exec .programVerify s = .next t
      ∧ Rewritten { s with
          jc := { s.jc with
            bands := s.jc.bands.modify p.band fun r => { r with state := .full }
            stranded := min 0xFFFFFFFF (s.jc.stranded + (4080 - (h.pos + w.bytes.length - 16))), head := none }
          sp := { s.sp with cmd := .none, poll := none } } t w))
  ∧ ∀ (p : Prog) (r : Replay) (band off : Nat) (todo : List (Nat × Nat)) (s : State), s.power = .running →
    s.sp.cmd = .program p .verify → Flash.read s.flash (p.band * 4096 + p.offset) p.data.length = p.data →
    s.jc.replay = some r → r.phase = .closing ((band, off) :: todo) →
    (p.purpose = .replayLength → ∀ mark : Prog, mark = { purpose := .replayMark, band := p.band, offset := 10, data := [0] } →
      (s.cp.restarting = false → exec .programVerify s = .next { s with
        jc := { s.jc with next := none }, sp := { s.sp with cmd := .program mark .busy, poll := some 0 } })
      ∧ (s.cp.restarting = true → exec .programVerify s = .next { s with
        jc := { s.jc with next := some mark }, sp := { s.sp with cmd := .none, poll := none } }))
    ∧ (p.purpose = .replayMark → ∃ t, exec .programVerify s = .next t
      ∧ ReplayCloses { s with
          jc := { s.jc with
            bands := s.jc.bands.modify band fun r => { r with state := .full }
            stranded := min 0xFFFFFFFF (s.jc.stranded + (4080 - (off - 16)))
            replay := some { r with phase := .closing todo } }
          sp := { s.sp with cmd := .none, poll := none } } t todo)

/-- A program fails when its read-back differs (PROGRAM_VERIFY) or its busy period outlasts 5 ms (PROGRAM_TIMEOUT): it is counted
(R153, R154, R173, R174). The first failure in a row voids a record; leaves a band whose close failed FULL and opens another, the
stranded count as it was (the model's choice, notes/assumptions/11.md); makes a band whose header failed BAD and opens another, or
faults with fewer than 8 usable bands. The second in a row, and a failure of a void or of the close it forces, put the journal in
FAULT (R156). A close of replay that fails leaves its band FULL, and the next follows; the second in a row ends replay with a
FAULT (R170). Where a lend (R141, R175) or a RESTART (R161) comes first, the program that follows waits as the job's next. That
PROGRAM_TIMEOUT brings time forward to the limit, or acts late past it, is the model's (notes/assumptions/3.md), and so are that a
FAULT leaves a RETIRING row without a sequence RETIRING, the FULL state of a walked OPEN row that is no head after a FAULT in
replay, the line level at its end (notes/assumptions/31.md, 12.md, 35.md), and that an append held by the reserve after a failed
header keeps its changed-during-write flag (notes/assumptions/41.md). -/
def Obligations.ProgramFailureVoidsOrFaults : Prop :=
  ∀ (p : Prog) (c : Instr) (s v x : State), s.power = .running →
    (c = .programVerify ∧ s.sp.cmd = .program p .verify
        ∧ Flash.read s.flash (p.band * 4096 + p.offset) p.data.length ≠ p.data ∧ v = s)
      ∨ (∃ left t, c = .programTimeout left ∧ s.sp.cmd = .program p .busy ∧ s.sp.poll = some t
        ∧ v = { s.passUntil t 5 with flash := Flash.and s.flash (p.band * 4096 + p.offset) (landed p.data left) }) →
    x = { v with
      cp := { v.cp with counters := { v.cp.counters with
        programFailures := min 0xFFFFFFFF (s.cp.counters.programFailures + 1) } }
      jc := { v.jc with failCount := s.jc.failCount + 1 }
      sp := { v.sp with cmd := .none, poll := none } } →
    ∃ t, exec c s = .next t
      ∧ t.cp.counters = { s.cp.counters with programFailures := min 0xFFFFFFFF (s.cp.counters.programFailures + 1) }
      ∧ t.flash = v.flash ∧ t.pt.h = s.pt.h
      ∧ (∀ w, s.jc.replay = none → s.jc.job = some (.write w) →
        (s.jc.failCount = 0 → p.purpose = .recordFirst ∨ p.purpose = .recordSecond → ∀ h, s.jc.head = some h →
          Issued x t { purpose := .voidKind, band := h.band, offset := h.pos, data := [0] })
        ∧ (s.jc.failCount = 0 → p.purpose = .closeLength ∨ p.purpose = .closeMark →
          BandOpening { x with jc := { x.jc with
            bands := x.jc.bands.modify p.band fun r => { r with state := .full }, head := none } } t w)
        ∧ (s.jc.failCount = 0 → p.purpose = .header → s.jc.fault = false → ∃ y,
          y = { x with jc := { x.jc with
            bands := x.jc.bands.modify p.band fun _ => { state := .bad, seq := none, live := 0 } } }
          ∧ ((y.jc.bands.countP fun r => r.state ≠ .bad) < 8 → FaultEntered y t)
          ∧ (8 ≤ (y.jc.bands.countP fun r => r.state ≠ .bad) → ∃ u, TriggerJudged y u ∧ BandOpening u t w))
        ∧ (1 ≤ s.jc.failCount ∨ p.purpose = .voidKind ∨ p.purpose = .forcedLength ∨ p.purpose = .forcedMark →
          FaultEntered x t))
      ∧ ∀ r band off todo, s.jc.replay = some r → r.phase = .closing ((band, off) :: todo) →
        p.purpose = .replayLength ∨ p.purpose = .replayMark →
        (s.jc.failCount = 0 → ReplayCloses { x with jc := { x.jc with
            bands := x.jc.bands.modify band fun r => { r with state := .full }
            replay := some { r with phase := .closing todo } } } t todo)
        ∧ (1 ≤ s.jc.failCount → ReplayFaulted x t r)

/-- ERASE_CHECK and ERASE_TIMEOUT (R152, R155, R173, R174): a band whose header area reads FFH is ERASED and counted; another, or
one whose busy period outlasts 500 ms, is BAD. An erase of replay's list leaves the list; a compaction erase, good or failed, ends
the compaction, whose state is IDLE. With fewer than 8 usable bands after a failure the journal is in FAULT (R156); otherwise the
trigger is judged afresh (R149). What the device made of an erase that timed out is notes/assumptions/7.md. That ERASE_TIMEOUT
brings time forward to the limit, or acts late past it, and that a FAULT leaves a RETIRING row without a sequence RETIRING, are
the model's (notes/assumptions/3.md, 31.md). -/
def Obligations.EraseEndsItsJob : Prop :=
  ∀ (band : Nat) (c : Instr) (good : Bool) (s v : State), s.power = .running → s.jc.replay = none → s.jc.fault = false →
    s.jc.job = some (.erase band) → band < s.jc.bands.length →
    (c = .eraseCheck ∧ s.sp.cmd = .erase band .verify ∧ v = s
        ∧ (good = true ↔ Flash.read s.flash (band * 4096) 16 = List.replicate 16 0xFF))
      ∨ (∃ left t f, c = .eraseTimeout left ∧ s.sp.cmd = .erase band .busy ∧ s.sp.poll = some t ∧ good = false
        ∧ v = { s.passUntil t 500 with flash := f } ∧ f = Flash.erase s.flash (band * 4096) left) →
    ∃ t x, exec c s = .next t
      ∧ x = { v with
          cp := { v.cp with counters := { v.cp.counters with
            bandsErased := if good = true then min 0xFFFFFFFF (s.cp.counters.bandsErased + 1) else s.cp.counters.bandsErased } }
          jc := { s.jc with
            bands := s.jc.bands.modify band fun _ => { state := if good = true then .erased else .bad, seq := none, live := 0 }
            job := none, next := none, lastSide := some .compaction
            toErase := if s.jc.toErase.head? = some band then s.jc.toErase.tail else s.jc.toErase
            compaction := if s.jc.toErase.head? = some band then s.jc.compaction else .idle }
          sp := { v.sp with cmd := .none, poll := none } }
      ∧ (good = true → TriggerJudged x t)
      ∧ (good = false → 8 ≤ (x.jc.bands.countP fun r => r.state ≠ .bad) → TriggerJudged x t)
      ∧ (good = false → (x.jc.bands.countP fun r => r.state ≠ .bad) < 8 → FaultEntered x t)
      ∧ (good = true → t.jc.bands[band]? = some { state := .erased, seq := none, live := 0 }
          ∧ t.cp = { s.cp with counters := { s.cp.counters with
              bandsErased := min 0xFFFFFFFF (s.cp.counters.bandsErased + 1) } }
          ∧ t.pt = s.pt ∧ t.jc.fault = false ∧ t.jc.lastSide = some .compaction
          ∧ t.jc.toErase = (if s.jc.toErase.head? = some band then s.jc.toErase.tail else s.jc.toErase))
      ∧ (good = false → t.jc.bands[band]? = some { state := .bad, seq := none, live := 0 }
          ∧ t.cp.counters = s.cp.counters
          ∧ (t.jc.fault = true ↔ (s.jc.bands.countP fun r => r.state ≠ .bad)
              < 8 + (if (s.jc.bands[band]?).map BandRow.state = some .bad then 0 else 1)))
      ∧ t.jc.job = none ∧ t.sp.cmd = .none ∧ t.flash = v.flash
      ∧ t = { v with pt := t.pt, jc := t.jc, sp := t.sp, cp := t.cp }

/-! ### The storage port and lending (chapter 10) -/

/-- LREQ_ASSERTED, LEND_GRANT and LREQ_DEASSERTED (R175 to R179): a request in IDLE is granted at a lend point and counted, and
is WAITING otherwise (Table 10.4.1), through the start-up busy check too; in reset it is not acted on, and in RETURNING it is
held until the check ends; a request withdrawn while it waits, or within a check, leaves no trace, and what waited for it goes
on, in replay and in a job (R170); a lend point of replay lies between two readings and between two closes (R170); the end of a
lend takes what the host wrote, at any address, and begins a busy check. While the bus is lent, FCS and FSCK float; otherwise
FSCK rests low, and FCS is low through each transfer of Table 10.1.1 and high before and after it (R171, R177, R178): the status
reads of a polling or a check, of which the model shows one, are each such a transfer (notes/assumptions/20.md, 28.md). Lend
points between two steps, and a held request granted in the step that ends its check, are the model's (notes/assumptions/15.md),
and so are that what the host wrote is an operand (notes/assumptions/8.md) and that the walk of a band is one read, with one low
level of FCS, where R175 leaves open of which commands it is made (notes/assumptions/37.md). -/
def Obligations.LendHandshake : Prop :=
  ∀ s : State,
    (s.sp.lreq = false →
      (s.power = .running → s.sp.lend = .idle → s.lendPoint = true →
        exec .lreqAsserted s = .next { s with sp := { s.sp with
          lreq := true, lend := .granted, lendCount := min 0xFFFFFFFF (s.sp.lendCount + 1) } })
      ∧ (s.power = .running → s.sp.lend = .idle → s.lendPoint = false ∨ s.sp.check ≠ .none →
        exec .lreqAsserted s = .next { s with sp := { s.sp with lreq := true, lend := .waiting } })
      ∧ (s.power ≠ .running ∨ s.sp.lend ≠ .idle →
        exec .lreqAsserted s = .next { s with sp := { s.sp with lreq := true } })
      ∧ ∀ host, exec (.lreqDeasserted host) s = .next s)
    ∧ (s.power = .running → s.sp.lend = .waiting →
      (s.lendPoint = true → exec .lendGrant s = .next { s with sp := { s.sp with
        lend := .granted, lendCount := min 0xFFFFFFFF (s.sp.lendCount + 1) } })
      ∧ (s.lendPoint = false → exec .lendGrant s = .next s))
    ∧ (s.jc.replay = none → (s.lendPoint = true ↔ s.sp.check = .none
        ∧ (s.sp.cmd = .none ∨ (∃ p, s.sp.cmd = .program p .ready) ∨ ∃ b, s.sp.cmd = .erase b .ready)))
    ∧ (s.jc.replay ≠ none → (s.lendPoint = true ↔ s.sp.check = .none ∧ s.sp.cmd = .none
        ∧ ∀ p, s.jc.next = some p → p.purpose ≠ .replayMark))
    ∧ (∀ host, s.sp.lreq = true →
      (s.sp.lend = .granted → ∃ t, exec (.lreqDeasserted host) s = .next t
        ∧ t = { s with
            flash := Flash.hostWrite s.flash host
            sp := { s.sp with lreq := false, lend := .returning, check := .returning, poll := some 0 } }
        ∧ (s.power ≠ .off → t.fsck = .low ∧ (s.sp.cmd.pauses = true → t.fcs = [.high, .low, .high])))
      ∧ (s.sp.lend = .waiting → s.sp.check = .none → ∃ t, exec (.lreqDeasserted host) s = .next t
          ∧ Resumed { s with sp := { s.sp with lreq := false, lend := .idle } } t)
      ∧ (s.sp.lend = .waiting ∧ s.sp.check ≠ .none ∨ s.sp.lend = .idle ∨ s.sp.lend = .returning →
          exec (.lreqDeasserted host) s = .next { s with sp := { s.sp with
            lreq := false, lend := if s.sp.lend = .returning then .returning else .idle } }))
    ∧ (s.power = .off ∨ s.sp.lend = .granted → s.fcs = [.floating] ∧ s.fsck = .floating)
    ∧ (s.power ≠ .off → s.sp.lend ≠ .granted →
        s.fsck = .low
        ∧ (s.sp.cmd.pauses = true → s.sp.check = .none → s.fcs = [.high])
        ∧ (s.sp.cmd.pauses = true → s.sp.check ≠ .none → s.fcs = [.high, .low, .high])
        ∧ ((∃ p, s.sp.cmd = .program p .busy) ∨ (∃ b, s.sp.cmd = .erase b .busy) →
            s.fcs = [.high, .low, .high, .low, .high, .low, .high])
        ∧ ((∃ p, s.sp.cmd = .program p .verify) ∨ (∃ b, s.sp.cmd = .erase b .verify) → s.fcs = [.high, .low, .high])
        ∧ (∀ r, s.sp.cmd = .read → s.jc.replay = some r → (∃ i, r.phase = .survey i) ∨ (∃ b todo, r.phase = .walk (b :: todo)) →
            s.fcs = [.high, .low, .high]))

/-- BUSY_CHECK_END and BUSY_CHECK_TIMEOUT (R163, R170, R177): the check over in time, a held request is granted, or the journal
goes on where it paused: replay begins its header survey, reads its next band or goes on with its closes, a verification or
check read begins, the job's next program begins, unless a RESTART waits (R161); not over within 500 ms, the journal is in FAULT
as R156 gives, and in replay as R170 gives, with a row for each of the N bands (R134), BAD where its records were not walked.
That a walked OPEN row that is no head is FULL there is the model's choice (notes/assumptions/12.md).
That a FAULT leaves a RETIRING row without a sequence RETIRING, and that the Line Interface is turned on at the line level last
told, are the model's (notes/assumptions/31.md, 35.md). That BUSY_CHECK_TIMEOUT brings time forward to the limit, or acts late
past it, is the model's (notes/assumptions/3.md). -/
def Obligations.BusyChecksEnd : Prop :=
  ∀ (t : Nat) (s : State), s.power = .running → s.sp.check ≠ .none → s.sp.poll = some t →
    (t ≤ 500 → s.sp.lreq = true → exec .busyCheckEnd s = .next { s with sp := { s.sp with
      check := .none, poll := none, lend := .granted, lendCount := min 0xFFFFFFFF (s.sp.lendCount + 1) } })
    ∧ (t ≤ 500 → s.sp.lreq = false → ∃ v, exec .busyCheckEnd s = .next v
      ∧ Resumed { s with sp := { s.sp with check := .none, poll := none, lend := .idle } } v)
    ∧ (500 < t → exec .busyCheckEnd s = .next s)
    ∧ ∃ u x y v, timerReaches s u (fun x => x.sp.poll) 500 ∧ exec .busyCheckTimeout s = .next v
      ∧ x = { u with sp := { u.sp with check := .none, poll := none, lend := .idle } }
      ∧ (s.jc.fault = true → y = x)
      ∧ (s.jc.fault = false → s.jc.replay = none → FaultEntered x y)
      ∧ (∀ r, s.jc.fault = false → s.jc.replay = some r → ReplayFaulted x y r)
      ∧ (s.sp.lreq = true → v = { y with sp := { y.sp with
          lend := .granted, lendCount := min 0xFFFFFFFF (s.sp.lendCount + 1) } })
      ∧ (s.sp.lreq = false → v = y)
      ∧ v.jc.fault = true ∧ v.sp.check = .none ∧ v.flash = s.flash
      ∧ (s.jc.fault = false → s.jc.replay ≠ none → v.jc.replay = none ∧ v.sc.station = .held ∧ v.li.receiver = .seeking
          ∧ v.jc.bands.length = 16 * 2 ^ s.straps.bc.toNat)
      ∧ v.re = u.re ∧ v.ac = u.ac ∧ v.pt.h = s.pt.h

/-! ### Start-up and replay (chapter 9) -/

/-- HEADER_SURVEY and BAND_WALK (R87, R133, R140, R164 to R169, Table 9.4.1). A surveyed header gives its band a row by Table
7.2.2, with a garbled one to be erased; after the last, the last sequence is the highest, a sequence held twice is an anomaly,
and the valid bands are walked in ascending sequence and then index. The walk of a band takes its readable records one after
another, and its end is counted as Table 9.4.1 gives; after the last band, or where no band is valid, the table and the head are
settled and the closes begin, or the station enters HELD. A record with an invalid field is skipped and counted; every other
raises H, and a FULL, a SHARED TOMB, a LOCAL TOMB or a TAIL is applied, skipped, or skipped and counted as R166 and R167 give.
That replay without a valid band ends at its last header, and that a FULL band's walk goes by the close length its header gave,
are the model's reading (notes/assumptions/13.md), and so is the line level at HELD, the one last told
(notes/assumptions/35.md). -/
def Obligations.SurveyAndWalkReadBands : Prop :=
  (∀ (i : Nat) (r r' : Replay) (s : State), s.power = .running → s.jc.replay = some r → r.phase = .survey i → s.sp.cmd = .read →
    ∃ (row : BandRow) (more : List Nat) (lens : List (Nat × Nat)) (k : Nat) (x t : State),
      exec .headerSurvey s = .next t
      ∧ x = { s with jc := { s.jc with
        bands := s.jc.bands ++ [row], toErase := s.jc.toErase ++ more
        anomalies := min 0xFFFFFFFF (s.jc.anomalies + k)
        replay := some { r with lens := r.lens ++ lens } } }
      ∧ (readHeader (Flash.read s.flash (i * 4096) 16) = .erased →
          row = { state := .erased, seq := none, live := 0 } ∧ more = [] ∧ lens = [] ∧ k = 0)
      ∧ (readHeader (Flash.read s.flash (i * 4096) 16) = .garbled →
          row = { state := .retiring, seq := none, live := 0 } ∧ more = [i] ∧ lens = [] ∧ k = 0)
      ∧ (∀ q, readHeader (Flash.read s.flash (i * 4096) 16) = .opened q →
          row = { state := .open_, seq := some q, live := 0 } ∧ more = [] ∧ lens = []
          ∧ k = if (Flash.byte s.flash (i * 4096 + 3)).toNat = s.straps.bc.toNat then 0 else 1)
      ∧ (∀ q n, readHeader (Flash.read s.flash (i * 4096) 16) = .full q n →
          row = { state := .full, seq := some q, live := 0 } ∧ more = [] ∧ lens = [(i, n)]
          ∧ k = if (Flash.byte s.flash (i * 4096 + 3)).toNat = s.straps.bc.toNat then 0 else 1)
      ∧ (i + 1 < 16 * 2 ^ s.straps.bc.toNat → t = { x with
          jc := { x.jc with replay := some { r with phase := .survey (i + 1), lens := r.lens ++ lens } }
          sp := { x.sp with cmd := if s.sp.lend = .idle ∧ s.cp.restarting = false then .read else .none } })
      ∧ (16 * 2 ^ s.straps.bc.toNat ≤ i + 1 → r' = { r with lens := r.lens ++ lens } →
          ∃ (order : List Nat) (y : State),
            order.Pairwise (fun a b => ∃ p q, x.jc.seqOf a = some p ∧ x.jc.seqOf b = some q ∧ (p < q ∨ (p = q ∧ a < b)))
            ∧ (∀ b, b ∈ order ↔ x.jc.seqOf b ≠ none)
            ∧ y = { x with jc := { x.jc with
                lastSeq := order.foldl (fun m b => max m ((x.jc.seqOf b).getD 0)) 0
                anomalies := min 0xFFFFFFFF (x.jc.anomalies
                  + order.countP fun b => order.any fun a => a < b && x.jc.seqOf a = x.jc.seqOf b) } }
            ∧ (order ≠ [] → t = { y with
                jc := { y.jc with replay := some { r' with phase := .walk order } }
                sp := { y.sp with cmd := if s.sp.lend = .idle ∧ s.cp.restarting = false then .read else .none } })
            ∧ (order = [] → ReplaySettled y t r')))
  ∧ (∀ (band : Nat) (todo : List Nat) (r : Replay) (s : State), s.power = .running → s.jc.replay = some r →
    r.phase = .walk (band :: todo) → s.sp.cmd = .read →
    ∃ (w x t : State) (off : Nat) (how : WalkEnd) (k : Nat) (r' : Replay),
      exec .bandWalk s = .next t
      ∧ Walked band ((s.jc.seqOf band).getD 0) ((r.lens.find? fun l => l.1 = band).map fun l => 16 + l.2) s 16 w off how
      ∧ w = { s with pt := w.pt, jc := { s.jc with anomalies := w.jc.anomalies } }
      ∧ (how = .noRecord → ((s.jc.bands[band]?).map BandRow.state = some .full → k = 1)
          ∧ ((s.jc.bands[band]?).map BandRow.state ≠ some .full → k = 0))
      ∧ (how = .unreadable → (NewestOpen s.jc.bands band → k = 0) ∧ (¬ NewestOpen s.jc.bands band → k = 1))
      ∧ (how = .consumed ∨ how = .bandEnd ∨ how = .voided → k = 0)
      ∧ r' = { r with phase := .walk todo, ends := r.ends ++ [{ band := band, offset := off, end_ := how }] }
      ∧ x = { w with jc := { w.jc with anomalies := min 0xFFFFFFFF (w.jc.anomalies + k), replay := some r' } }
      ∧ (todo ≠ [] → t = { x with
          sp := { x.sp with cmd := if s.sp.lend = .idle ∧ s.cp.restarting = false then .read else .none } })
      ∧ (todo = [] → ReplaySettled x t r'))
  ∧ ∀ (seq : Nat) (r : JRecord) (s : State), RecordReplayed s (s.replayRecord seq r) seq r

/-! ### Versions and frames (R12, R50 to R57, R61) -/

/-- Precedence is a strict total order on versions (R12): of two different versions exactly one supersedes the other. -/
def Obligations.PrecedenceIsATotalOrder : Prop :=
  (∀ a : Version, a.supersedes a = false)
  ∧ (∀ a b c : Version, a.supersedes b = true → b.supersedes c = true → a.supersedes c = true)
  ∧ (∀ a b : Version, a ≠ b → (a.supersedes b = true ↔ b.supersedes a = false))
  ∧ (∀ a b : Version, a.supersedes b = true ↔ b.gen < a.gen ∨ (a.gen = b.gen ∧ (a.origin < b.origin
      ∨ (a.origin = b.origin ∧ b.check.toNat < a.check.toNat))))

/-- Every frame that keeps to Tables 3.2.2 and 3.4.2 is a whole frame as sent, passes the check, and is read back as it was built.
-/
def Obligations.FramesReadBackAsBuilt : Prop :=
  ∀ f : Frame, FrameLaw f →
    wholeFrame f.chars = true ∧ frameCheckGood f.chars = true ∧ parseFrame f.chars = some f
end

