-- ==== Sys2Proof/Laws/State.lean ====
section
/-! SUPPORT. What each named update of State does to each field, true by rfl, so that no proof unfolds a record update. Each
lemma is one conjunction, which simp splits into one rewrite rule for each field. -/

namespace Sys2Proof.Machine

/-- Each field after `State.mapJournal`. -/
@[simp] theorem State.mapJournal_fields (s : State) (f : Journal → Journal) :
    (s.mapJournal f).power = s.power ∧ (s.mapJournal f).straps = s.straps ∧ (s.mapJournal f).clk = s.clk ∧
    (s.mapJournal f).pt = s.pt ∧ (s.mapJournal f).re = s.re ∧ (s.mapJournal f).sc = s.sc ∧
    (s.mapJournal f).li = s.li ∧ (s.mapJournal f).ac = s.ac ∧ (s.mapJournal f).jc = f s.jc ∧
    (s.mapJournal f).sp = s.sp ∧ (s.mapJournal f).cp = s.cp ∧ (s.mapJournal f).flash = s.flash ∧
    (s.mapJournal f).pending = s.pending :=
  ⟨rfl, rfl, rfl, rfl, rfl, rfl, rfl, rfl, rfl, rfl, rfl, rfl, rfl⟩

/-- Each field after `State.mapPort`. -/
@[simp] theorem State.mapPort_fields (s : State) (f : StoragePort → StoragePort) :
    (s.mapPort f).power = s.power ∧ (s.mapPort f).straps = s.straps ∧ (s.mapPort f).clk = s.clk ∧
    (s.mapPort f).pt = s.pt ∧ (s.mapPort f).re = s.re ∧ (s.mapPort f).sc = s.sc ∧ (s.mapPort f).li = s.li ∧
    (s.mapPort f).ac = s.ac ∧ (s.mapPort f).jc = s.jc ∧ (s.mapPort f).sp = f s.sp ∧ (s.mapPort f).cp = s.cp ∧
    (s.mapPort f).flash = s.flash ∧ (s.mapPort f).pending = s.pending :=
  ⟨rfl, rfl, rfl, rfl, rfl, rfl, rfl, rfl, rfl, rfl, rfl, rfl, rfl⟩

/-- Each field after `State.mapEntry`. -/
@[simp] theorem State.mapEntry_fields (s : State) (id : Nat) (f : Entry → Entry) :
    (s.mapEntry id f).power = s.power ∧ (s.mapEntry id f).straps = s.straps ∧ (s.mapEntry id f).clk = s.clk ∧
    (s.mapEntry id f).pt = s.pt.mapEntries (fun e => if e.id = id then f e else e) ∧ (s.mapEntry id f).re = s.re ∧
    (s.mapEntry id f).sc = s.sc ∧ (s.mapEntry id f).li = s.li ∧ (s.mapEntry id f).ac = s.ac ∧
    (s.mapEntry id f).jc = s.jc ∧ (s.mapEntry id f).sp = s.sp ∧ (s.mapEntry id f).cp = s.cp ∧
    (s.mapEntry id f).flash = s.flash ∧ (s.mapEntry id f).pending = s.pending :=
  ⟨rfl, rfl, rfl, rfl, rfl, rfl, rfl, rfl, rfl, rfl, rfl, rfl, rfl⟩

/-- Each field after `State.notify`. -/
@[simp] theorem State.notify_fields (s : State) (k : EventKind) (p : Nat) :
    (s.notify k p).power = s.power ∧ (s.notify k p).straps = s.straps ∧ (s.notify k p).clk = s.clk ∧
    (s.notify k p).pt = s.pt ∧ (s.notify k p).re = s.re ∧ (s.notify k p).sc = s.sc ∧ (s.notify k p).li = s.li ∧
    (s.notify k p).ac = s.ac ∧ (s.notify k p).jc = s.jc ∧ (s.notify k p).sp = s.sp ∧
    (s.notify k p).cp = { s.cp with notify := placeEvent s.cp.notify { kind := k, param := p } } ∧
    (s.notify k p).flash = s.flash ∧ (s.notify k p).pending = s.pending :=
  ⟨rfl, rfl, rfl, rfl, rfl, rfl, rfl, rfl, rfl, rfl, rfl, rfl, rfl⟩

/-- Each field after `State.count`. -/
@[simp] theorem State.count_fields (s : State) (f : Counters → Counters) :
    (s.count f).power = s.power ∧ (s.count f).straps = s.straps ∧ (s.count f).clk = s.clk ∧ (s.count f).pt = s.pt ∧
    (s.count f).re = s.re ∧ (s.count f).sc = s.sc ∧ (s.count f).li = s.li ∧ (s.count f).ac = s.ac ∧
    (s.count f).jc = s.jc ∧ (s.count f).sp = s.sp ∧ (s.count f).cp = { s.cp with counters := f s.cp.counters } ∧
    (s.count f).flash = s.flash ∧ (s.count f).pending = s.pending :=
  ⟨rfl, rfl, rfl, rfl, rfl, rfl, rfl, rfl, rfl, rfl, rfl, rfl, rfl⟩

/-- Each field after `State.setSlot`. -/
@[simp] theorem State.setSlot_fields (s : State) (sl : Slot) :
    (s.setSlot sl).power = s.power ∧ (s.setSlot sl).straps = s.straps ∧ (s.setSlot sl).clk = s.clk ∧
    (s.setSlot sl).pt = s.pt ∧ (s.setSlot sl).re = s.re ∧ (s.setSlot sl).sc = s.sc ∧ (s.setSlot sl).li = s.li ∧
    (s.setSlot sl).ac = s.ac ∧ (s.setSlot sl).jc = s.jc ∧ (s.setSlot sl).sp = s.sp ∧
    (s.setSlot sl).cp = { s.cp with slot := sl } ∧ (s.setSlot sl).flash = s.flash ∧
    (s.setSlot sl).pending = s.pending :=
  ⟨rfl, rfl, rfl, rfl, rfl, rfl, rfl, rfl, rfl, rfl, rfl, rfl, rfl⟩

/-- Each field after `State.returns`. -/
@[simp] theorem State.returns_fields (s : State) (bs : List Byte) :
    (s.returns bs).power = s.power ∧ (s.returns bs).straps = s.straps ∧ (s.returns bs).clk = s.clk ∧
    (s.returns bs).pt = s.pt ∧ (s.returns bs).re = s.re ∧ (s.returns bs).sc = s.sc ∧ (s.returns bs).li = s.li ∧
    (s.returns bs).ac = s.ac ∧ (s.returns bs).jc = s.jc ∧ (s.returns bs).sp = s.sp ∧
    (s.returns bs).cp = { s.cp with smiso := bs } ∧ (s.returns bs).flash = s.flash ∧
    (s.returns bs).pending = s.pending :=
  ⟨rfl, rfl, rfl, rfl, rfl, rfl, rfl, rfl, rfl, rfl, rfl, rfl, rfl⟩

/-- Each field after `State.beginTransaction`. -/
@[simp] theorem State.beginTransaction_fields (s : State) :
    s.beginTransaction.power = s.power ∧ s.beginTransaction.straps = s.straps ∧ s.beginTransaction.clk = s.clk ∧
    s.beginTransaction.pt = s.pt ∧ s.beginTransaction.re = s.re ∧ s.beginTransaction.sc = s.sc ∧
    s.beginTransaction.li = s.li ∧ s.beginTransaction.ac = s.ac ∧ s.beginTransaction.jc = s.jc ∧
    s.beginTransaction.sp = s.sp ∧ s.beginTransaction.cp = { s.cp with transaction := none, rejected := false } ∧
    s.beginTransaction.flash = s.flash ∧ s.beginTransaction.pending = s.pending :=
  ⟨rfl, rfl, rfl, rfl, rfl, rfl, rfl, rfl, rfl, rfl, rfl, rfl, rfl⟩

/-- Each field after `State.statusOnly`. -/
@[simp] theorem State.statusOnly_fields (s : State) (n : Nat) :
    (s.statusOnly n).power = s.power ∧ (s.statusOnly n).straps = s.straps ∧ (s.statusOnly n).clk = s.clk ∧
    (s.statusOnly n).pt = s.pt ∧ (s.statusOnly n).re = s.re ∧ (s.statusOnly n).sc = s.sc ∧
    (s.statusOnly n).li = s.li ∧ (s.statusOnly n).ac = s.ac ∧ (s.statusOnly n).jc = s.jc ∧
    (s.statusOnly n).sp = s.sp ∧
    (s.statusOnly n).cp = { s.cp with transaction := none, rejected := false, smiso := s.latched :: List.replicate n 0 } ∧
    (s.statusOnly n).flash = s.flash ∧ (s.statusOnly n).pending = s.pending :=
  ⟨rfl, rfl, rfl, rfl, rfl, rfl, rfl, rfl, rfl, rfl, rfl, rfl, rfl⟩

/-- Each field after `State.select`. -/
@[simp] theorem State.select_fields (s : State) :
    s.select.power = s.power ∧ s.select.straps = s.straps ∧ s.select.clk = s.clk ∧ s.select.pt = s.pt ∧
    s.select.re = s.re ∧ s.select.sc = s.sc ∧ s.select.li = s.li ∧ s.select.ac = s.ac ∧ s.select.jc = s.jc ∧
    s.select.sp = s.sp ∧ s.select.cp = { s.cp with transaction := some (.selected s.statusByte), smiso := [] } ∧
    s.select.flash = s.flash ∧ s.select.pending = s.pending :=
  ⟨rfl, rfl, rfl, rfl, rfl, rfl, rfl, rfl, rfl, rfl, rfl, rfl, rfl⟩

/-- Each field after `State.clockIn`. -/
@[simp] theorem State.clockIn_fields (s : State) (bits : List Bool) :
    (s.clockIn bits).power = s.power ∧ (s.clockIn bits).straps = s.straps ∧ (s.clockIn bits).clk = s.clk ∧
    (s.clockIn bits).pt = s.pt ∧ (s.clockIn bits).re = s.re ∧ (s.clockIn bits).sc = s.sc ∧
    (s.clockIn bits).li = s.li ∧ (s.clockIn bits).ac = s.ac ∧ (s.clockIn bits).jc = s.jc ∧
    (s.clockIn bits).sp = s.sp ∧ (s.clockIn bits).cp = s.cp ∧ (s.clockIn bits).flash = s.flash ∧
    (s.clockIn bits).pending = s.pending ++ [decodeTransaction bits] :=
  ⟨rfl, rfl, rfl, rfl, rfl, rfl, rfl, rfl, rfl, rfl, rfl, rfl, rfl⟩

/-- Each field after `State.setSession`. -/
@[simp] theorem State.setSession_fields (s : State) (se : Session) :
    (s.setSession se).power = s.power ∧ (s.setSession se).straps = s.straps ∧ (s.setSession se).clk = s.clk ∧
    (s.setSession se).pt = s.pt ∧ (s.setSession se).re = { s.re with session := se } ∧ (s.setSession se).sc = s.sc ∧
    (s.setSession se).li = s.li ∧ (s.setSession se).ac = s.ac ∧ (s.setSession se).jc = s.jc ∧
    (s.setSession se).sp = s.sp ∧ (s.setSession se).cp = s.cp ∧ (s.setSession se).flash = s.flash ∧
    (s.setSession se).pending = s.pending :=
  ⟨rfl, rfl, rfl, rfl, rfl, rfl, rfl, rfl, rfl, rfl, rfl, rfl, rfl⟩

/-- Each field after `State.setReplies`. -/
@[simp] theorem State.setReplies_fields (s : State) (q : List Request) :
    (s.setReplies q).power = s.power ∧ (s.setReplies q).straps = s.straps ∧ (s.setReplies q).clk = s.clk ∧
    (s.setReplies q).pt = s.pt ∧ (s.setReplies q).re = { s.re with replyQueue := q } ∧ (s.setReplies q).sc = s.sc ∧
    (s.setReplies q).li = s.li ∧ (s.setReplies q).ac = s.ac ∧ (s.setReplies q).jc = s.jc ∧
    (s.setReplies q).sp = s.sp ∧ (s.setReplies q).cp = s.cp ∧ (s.setReplies q).flash = s.flash ∧
    (s.setReplies q).pending = s.pending :=
  ⟨rfl, rfl, rfl, rfl, rfl, rfl, rfl, rfl, rfl, rfl, rfl, rfl, rfl⟩

/-- Each field after `State.useSequence`. -/
@[simp] theorem State.useSequence_fields (s : State) :
    s.useSequence.power = s.power ∧ s.useSequence.straps = s.straps ∧ s.useSequence.clk = s.clk ∧
    s.useSequence.pt = s.pt ∧ s.useSequence.re = { s.re with seq := s.re.seq + 1 } ∧ s.useSequence.sc = s.sc ∧
    s.useSequence.li = s.li ∧ s.useSequence.ac = s.ac ∧ s.useSequence.jc = s.jc ∧ s.useSequence.sp = s.sp ∧
    s.useSequence.cp = s.cp ∧ s.useSequence.flash = s.flash ∧ s.useSequence.pending = s.pending :=
  ⟨rfl, rfl, rfl, rfl, rfl, rfl, rfl, rfl, rfl, rfl, rfl, rfl, rfl⟩

/-- Each field after `State.forgetAgreements`. -/
@[simp] theorem State.forgetAgreements_fields (s : State) :
    s.forgetAgreements.power = s.power ∧ s.forgetAgreements.straps = s.straps ∧ s.forgetAgreements.clk = s.clk ∧
    s.forgetAgreements.pt = s.pt ∧
    s.forgetAgreements.re = { s.re with roster := s.re.roster.map fun p => { p with agreement := .unknown } } ∧
    s.forgetAgreements.sc = s.sc ∧ s.forgetAgreements.li = s.li ∧ s.forgetAgreements.ac = s.ac ∧
    s.forgetAgreements.jc = s.jc ∧ s.forgetAgreements.sp = s.sp ∧ s.forgetAgreements.cp = s.cp ∧
    s.forgetAgreements.flash = s.flash ∧ s.forgetAgreements.pending = s.pending :=
  ⟨rfl, rfl, rfl, rfl, rfl, rfl, rfl, rfl, rfl, rfl, rfl, rfl, rfl⟩

/-- Each field after `State.seekQuiet`. -/
@[simp] theorem State.seekQuiet_fields (s : State) (q : Nat) :
    (s.seekQuiet q).power = s.power ∧ (s.seekQuiet q).straps = s.straps ∧ (s.seekQuiet q).clk = s.clk ∧
    (s.seekQuiet q).pt = s.pt ∧ (s.seekQuiet q).re = s.re ∧ (s.seekQuiet q).sc = s.sc ∧
    (s.seekQuiet q).li = { s.li with receiver := .seeking, quiet := q, stuck := 0, stuckDeclared := false, line := .recessive } ∧
    (s.seekQuiet q).ac = s.ac ∧ (s.seekQuiet q).jc = s.jc ∧ (s.seekQuiet q).sp = s.sp ∧ (s.seekQuiet q).cp = s.cp ∧
    (s.seekQuiet q).flash = s.flash ∧ (s.seekQuiet q).pending = s.pending :=
  ⟨rfl, rfl, rfl, rfl, rfl, rfl, rfl, rfl, rfl, rfl, rfl, rfl, rfl⟩

/-- Each field after `State.unawait`. -/
@[simp] theorem State.unawait_fields (s : State) :
    s.unawait.power = s.power ∧ s.unawait.straps = s.straps ∧ s.unawait.clk = s.clk ∧ s.unawait.pt = s.pt ∧
    s.unawait.re = s.re ∧ s.unawait.sc = s.sc ∧
    s.unawait.li = { s.li with flight := s.li.flight.map Flight.unawait } ∧ s.unawait.ac = s.ac ∧
    s.unawait.jc = s.jc ∧ s.unawait.sp = s.sp ∧ s.unawait.cp = s.cp ∧ s.unawait.flash = s.flash ∧
    s.unawait.pending = s.pending :=
  ⟨rfl, rfl, rfl, rfl, rfl, rfl, rfl, rfl, rfl, rfl, rfl, rfl, rfl⟩

/-- Each field after `State.orphanReply`. -/
@[simp] theorem State.orphanReply_fields (s : State) :
    s.orphanReply.power = s.power ∧ s.orphanReply.straps = s.straps ∧ s.orphanReply.clk = s.clk ∧
    s.orphanReply.pt = s.pt ∧ s.orphanReply.re = s.re ∧ s.orphanReply.sc = s.sc ∧
    s.orphanReply.li = { s.li with flight := s.li.flight.map Flight.orphan } ∧ s.orphanReply.ac = s.ac ∧
    s.orphanReply.jc = s.jc ∧ s.orphanReply.sp = s.sp ∧ s.orphanReply.cp = s.cp ∧ s.orphanReply.flash = s.flash ∧
    s.orphanReply.pending = s.pending :=
  ⟨rfl, rfl, rfl, rfl, rfl, rfl, rfl, rfl, rfl, rfl, rfl, rfl, rfl⟩

/-- Each field after `State.endCommand`. -/
@[simp] theorem State.endCommand_fields (s : State) :
    s.endCommand.power = s.power ∧ s.endCommand.straps = s.straps ∧ s.endCommand.clk = s.clk ∧
    s.endCommand.pt = s.pt ∧ s.endCommand.re = s.re ∧ s.endCommand.sc = s.sc ∧ s.endCommand.li = s.li ∧
    s.endCommand.ac = s.ac ∧ s.endCommand.jc = s.jc ∧ s.endCommand.sp = { s.sp with cmd := .none, poll := none } ∧
    s.endCommand.cp = s.cp ∧ s.endCommand.flash = s.flash ∧ s.endCommand.pending = s.pending :=
  ⟨rfl, rfl, rfl, rfl, rfl, rfl, rfl, rfl, rfl, rfl, rfl, rfl, rfl⟩

/-- Each field after `State.checkOver`. -/
@[simp] theorem State.checkOver_fields (s : State) :
    s.checkOver.power = s.power ∧ s.checkOver.straps = s.straps ∧ s.checkOver.clk = s.clk ∧ s.checkOver.pt = s.pt ∧
    s.checkOver.re = s.re ∧ s.checkOver.sc = s.sc ∧ s.checkOver.li = s.li ∧ s.checkOver.ac = s.ac ∧
    s.checkOver.jc = s.jc ∧ s.checkOver.sp = { s.sp with check := .none, poll := none, lend := .idle } ∧
    s.checkOver.cp = s.cp ∧ s.checkOver.flash = s.flash ∧ s.checkOver.pending = s.pending :=
  ⟨rfl, rfl, rfl, rfl, rfl, rfl, rfl, rfl, rfl, rfl, rfl, rfl, rfl⟩

/-- When no flash command is in progress (R161, R175). -/
theorem SpCmd.over_iff (c : SpCmd) : c.over = true ↔ c = .none ∨ (∃ p, c = .program p .ready) ∨ ∃ b, c = .erase b .ready := by
  cases c with
  | none => simp [SpCmd.over, SpCmd.pauses]
  | read => simp [SpCmd.over, SpCmd.pauses]
  | program p st => cases st <;> simp [SpCmd.over, SpCmd.pauses]
  | erase b st => cases st <;> simp [SpCmd.over, SpCmd.pauses]

/-- What the counts of a level keep. -/
@[simp] theorem LineIf.counts_fields (li : LineIf) (n : Nat) :
    (li.counts n).receiver = li.receiver ∧ (li.counts n).stuckDeclared = li.stuckDeclared ∧ (li.counts n).line = li.line ∧
    (li.counts n).flight = li.flight := by
  unfold LineIf.counts
  cases li.line <;> exact ⟨rfl, rfl, rfl, rfl⟩

/-- The stuck count of a known dominant run, by the level last told (R67). -/
theorem LineIf.dominantRun_eq (li : LineIf) (run : Nat) :
    (li.line = .dominant → li.dominantRun run = min run li.stuck)
      ∧ (li.line = .recessive → li.dominantRun run = min run li.quiet) := by
  unfold LineIf.dominantRun
  cases li.line <;> simp

/-- What a change of the level keeps, and the run that it ends. -/
@[simp] theorem LineIf.change_fields (li : LineIf) (c : LineChange) :
    (li.change c).receiver = li.receiver ∧ (li.change c).flight = li.flight ∧ (li.change c).stuck = 0 ∧
    (li.change c).stuckDeclared = false ∧ (li.change c).line = (if c = .start then .dominant else .recessive) := by
  cases c <;> exact ⟨rfl, rfl, rfl, rfl, rfl⟩

end Sys2Proof.Machine
end

