-- ==== Sys2Proof/Laws/Ops.lean ====
section
/-! SUPPORT. What the shared operations can do, once each: the passing of time, the guards of a step, changes of a roster entry,
the grant of a lend. -/

namespace Sys2Proof.Machine

/-! ### Guards -/

theorem whenRunning_running {s : State} (h : s.power = .running) (k : State → State) : whenRunning s k = .next (k s) := by
  simp [whenRunning, h]

theorem whenRunning_stopped {s : State} (h : s.power ≠ .running) (k : State → State) : whenRunning s k = .next s := by
  simp [whenRunning, h, noEvent]

/-- A step of the running part goes on, to the state it gives or to the state it began with. -/
theorem whenRunning_cases (s : State) (k : State → State) : whenRunning s k = .next (k s) ∨ whenRunning s k = .next s := by
  unfold whenRunning noEvent
  split <;> simp

/-! ### Time -/

/-- The passing of line time leaves everything but the clock, the timers, the line's counts and the frame times. -/
theorem State.passLine_frame (s : State) (n : Nat) :
    (s.passLine n).power = s.power ∧ (s.passLine n).straps = s.straps ∧ (s.passLine n).pt = s.pt
      ∧ (s.passLine n).jc = s.jc ∧ (s.passLine n).cp = s.cp ∧ (s.passLine n).flash = s.flash
      ∧ (s.passLine n).pending = s.pending := by
  unfold State.passLine
  split <;> simp

/-- The passing of line time leaves the Replication Engine but its two timers. -/
theorem State.passLine_re (s : State) (n : Nat) :
    (s.passLine n).re = { s.re with
      session := { s.re.session with timer := (s.passLine n).re.session.timer }
      summaryTimer := (s.passLine n).re.summaryTimer } := by
  unfold State.passLine Session.pass
  split
  · dsimp only
    split <;> rfl
  · rfl

/-- The passing of line time leaves the Station Controller but its two timers. -/
theorem State.passLine_sc (s : State) (n : Nat) :
    (s.passLine n).sc = { s.sc with
      joinWindow := (s.passLine n).sc.joinWindow, closeLimit := (s.passLine n).sc.closeLimit } := by
  unfold State.passLine
  split <;> rfl

/-- The passing of line time leaves Access Control but the recovery wait timer. -/
theorem State.passLine_ac (s : State) (n : Nat) :
    (s.passLine n).ac = { s.ac with recovery := (s.passLine n).ac.recovery } := by
  unfold State.passLine
  split <;> rfl

/-- The passing of line time leaves the Storage Port but the time of its polling. -/
theorem State.passLine_sp (s : State) (n : Nat) :
    (s.passLine n).sp = { s.sp with poll := (s.passLine n).sp.poll } := by
  unfold State.passLine
  split <;> rfl

theorem State.passLine_stopped {s : State} (h : s.power ≠ .running) (n : Nat) : s.passLine n = s := by
  simp [State.passLine, h]

/-- Milliseconds pass as line time. -/
theorem State.passMs_eq (s : State) (ms : Nat) : s.passMs ms = s ∨ ∃ n, s.passMs ms = s.passLine n := by
  unfold State.passMs
  split
  · exact .inl rfl
  · exact .inr ⟨_, rfl⟩

theorem State.passUntil_eq (s : State) (t l : Nat) : s.passUntil t l = s ∨ ∃ n, s.passUntil t l = s.passLine n :=
  State.passMs_eq s (l - t)

/-- A timer that has reached its limit needs no time. -/
theorem State.passUntil_reached (s : State) {t l : Nat} (h : l ≤ t) : s.passUntil t l = s := by
  simp [State.passUntil, State.passMs, Nat.sub_eq_zero_of_le h]

/-- The milliseconds that end while `n` tB pass. -/
def msIn (s : State) (n : Nat) : Nat := (s.clk.us + n * bitTime s.straps) / 1000

theorem bitTime_bounds (st : Straps) : 2 ≤ bitTime st ∧ bitTime st ≤ 16 := by
  have := st.lr.isLt
  unfold bitTime
  generalize st.lr.toNat = k at *
  interval_cases k <;> simp

/-- The line time of a number of milliseconds: they end in it, and no more on a clock within its present millisecond. -/
theorem lineTimeOf_reaches (s : State) {ms : Nat} (h : 0 < ms) :
    ms ≤ msIn s (s.lineTimeOf ms) ∧ (s.clk.us < 1000 → msIn s (s.lineTimeOf ms) = ms) := by
  obtain ⟨h1, h2⟩ := bitTime_bounds s.straps
  unfold msIn State.lineTimeOf
  generalize bitTime s.straps = b at *
  have e1 := Nat.div_add_mod (ms * 1000 - s.clk.us + (b - 1)) b
  have e2 := Nat.mod_lt (ms * 1000 - s.clk.us + (b - 1)) (by omega : b > 0)
  generalize (ms * 1000 - s.clk.us + (b - 1)) / b = n at *
  generalize (ms * 1000 - s.clk.us + (b - 1)) % b = r at *
  rw [Nat.mul_comm] at e1
  constructor
  · rw [Nat.le_div_iff_mul_le (by omega)]
    omega
  · intro hu
    have : s.clk.us + n * b < (ms + 1) * 1000 := by omega
    have : ms * 1000 ≤ s.clk.us + n * b := by omega
    omega

/-- Time passes until a timer of the running part reaches its limit. -/
theorem timerReaches_passUntil {s : State} {timer : State → Option Nat} {t : Nat} (limit : Nat) (ht : timer s = some t)
    (hl : ∀ n, timer (s.passLine n) = (timer s).map (· + msIn s n)) : timerReaches s (s.passUntil t limit) timer limit := by
  refine ⟨State.passUntil_eq s t limit, ?_⟩
  intro t' ht'
  rw [ht] at ht'
  cases ht'
  by_cases h : limit ≤ t
  · rw [State.passUntil_reached s h]
    exact ⟨fun _ => rfl, ⟨t, ht, h⟩, fun _ => by rw [ht, Nat.max_eq_left h]⟩
  · obtain ⟨h1, h2⟩ := lineTimeOf_reaches s (by omega : 0 < limit - t)
    have : s.passUntil t limit = s.passLine (s.lineTimeOf (limit - t)) := by
      unfold State.passUntil State.passMs
      rw [if_neg (by omega)]
    rw [this, hl, ht]
    refine ⟨fun hh => absurd hh h, ⟨t + msIn s (s.lineTimeOf (limit - t)), rfl, by omega⟩, fun hu => ?_⟩
    have := h2 hu
    show some (t + msIn s (s.lineTimeOf (limit - t))) = some (max t limit)
    congr 1
    omega

/-! ### The judgement of convergence (R106, R107) -/

theorem State.endJoinWindow_frame (s : State) :
    s.endJoinWindow = { s with
      sc := { s.sc with station := s.endJoinWindow.sc.station, joinWindow := s.endJoinWindow.sc.joinWindow }
      ac := { s.ac with prior := s.endJoinWindow.ac.prior } } := by
  unfold State.endJoinWindow
  split
  · rfl
  · split <;> rfl

/-- A judgement touches the converged flag, the notify queue and, where a join window ends by it, the station and the prior
state. -/
theorem State.judge_frame (s : State) :
    s.judge = { s with
      sc := { s.sc with
        station := s.judge.sc.station, joinWindow := s.judge.sc.joinWindow, converged := s.judge.sc.converged }
      ac := { s.ac with prior := s.judge.ac.prior }
      cp := { s.cp with notify := s.judge.cp.notify } } := by
  unfold State.judge State.joinByConvergence
  have hf : ∀ u : State, u.judgeFlag = { u with
      sc := { u.sc with converged := u.judgeFlag.sc.converged }
      cp := { u.cp with notify := u.judgeFlag.cp.notify } } := by
    intro u
    unfold State.judgeFlag
    split <;> rfl
  split
  · rw [State.endJoinWindow_frame s.judgeFlag, hf s]
  · rw [hf s]

/-- The convergence condition is R106's. -/
theorem State.convergence_iff (s : State) : s.convergence = true ↔
    (s.sc.station = .joining ∨ s.sc.station = .active ∨ s.sc.station = .muted) ∧ s.re.outbound = []
      ∧ ∀ p ∈ s.re.roster, p.presence = .present → p.agreement = .agree := by
  simp only [State.convergence, Bool.and_eq_true, Bool.or_eq_true, decide_eq_true_eq, List.isEmpty_iff, List.all_eq_true,
    or_assoc, and_assoc, ne_eq]
  refine and_congr_right fun _ => and_congr_right fun _ => forall₂_congr fun p _ => ?_
  by_cases h : p.presence = .present <;> simp [h]

/-- The judgement that ends an event is R106's and R107's. -/
theorem State.judge_judged (s : State) : Judged s s.judge := by
  refine ⟨s.convergence, s.convergence && s.anyPresent
    && (s.sc.station = .joining || (s.sc.station = .muted && s.ac.prior = .joining)), s.convergence_iff, ?_, ?_⟩
  · simp [State.anyPresent, and_assoc]
  · have hf : s.judgeFlag = { s with
        sc := { s.sc with converged := s.convergence }
        cp := { s.cp with notify := judgedNotify s.sc.converged s.convergence s.cp.notify } } := by
      unfold State.judgeFlag judgedNotify State.notify
      by_cases h : s.convergence = s.sc.converged
      · simp [h]
      · simp [h]
    have hc : s.judgeFlag.convergence = s.convergence := by rw [hf]; rfl
    have hp : s.judgeFlag.anyPresent = s.anyPresent := by rw [hf]; rfl
    unfold State.judge State.joinByConvergence
    rw [hc, hp, hf]
    unfold State.endJoinWindow
    cases s.convergence && s.anyPresent
    · simp
    · cases hst : s.sc.station <;> cases hpr : s.ac.prior <;> simp [hst] <;> rw [← hpr]

/-- Where the condition stands as the flag says, a judgement can only end a join window, and raises no event. -/
theorem State.judge_same {s : State} (h : s.convergence = s.sc.converged) : s.judge = s.joinByConvergence := by
  unfold State.judge State.judgeFlag
  rw [if_pos h]

/-- Where the condition does not hold, a judgement ends with the flag clear, and DIVERGED is raised if it was set. -/
theorem State.judge_diverged {s : State} (h : s.convergence = false) :
    s.judge = if s.sc.converged then { s with sc := { s.sc with converged := false } }.notify .diverged 0 else s := by
  have hj : ∀ u : State, u.convergence = false → u.joinByConvergence = u := by
    intro u hu
    unfold State.joinByConvergence
    simp [hu]
  unfold State.judge State.judgeFlag
  by_cases hc : s.sc.converged = true
  · rw [if_neg (by simp [h, hc]), if_pos hc, h]
    exact hj _ h
  · rw [if_pos (by simp [h, hc]), if_neg hc]
    exact hj _ h

/-! ### Command blocks (R183, R186) -/

/-- A good block on an EMPTY slot is carried out, and its reply settles the slot. -/
theorem sendCommand_taken {code : Byte} {b : Block} {p : List Byte} {s : State} (h : blockTaken s code b p)
    (body : List Byte → State → Reply) :
    sendCommand code b body s
      = .next ((body p { s with cp := { portAfter s (4 + b.len.toNat + b.extra) with slot := .executing code b.tag } }).settle code
          b.tag) := by
  obtain ⟨hp, hs, hb, rfl⟩ := h
  have hl : b.len.toNat ≤ 40 := by
    simp only [blockGood, Bool.and_eq_true, decide_eq_true_eq] at hb
    exact hb.1
  simp [sendCommand, whenRunning, hp, State.judgeBlock, State.statusOnly, State.beginTransaction, State.returns, hs, hb,
    Slot.isEmpty, portAfter, State.setSlot, blockCount, hl]

/-! ### The roster -/

theorem State.updatePeer_frame (s : State) (n : Nat) (f : Peer → Peer) :
    (s.updatePeer n f).power = s.power ∧ (s.updatePeer n f).straps = s.straps ∧ (s.updatePeer n f).clk = s.clk
      ∧ (s.updatePeer n f).pt = s.pt ∧ (s.updatePeer n f).sc = s.sc ∧ (s.updatePeer n f).li = s.li
      ∧ (s.updatePeer n f).ac = s.ac ∧ (s.updatePeer n f).jc = s.jc ∧ (s.updatePeer n f).sp = s.sp
      ∧ (s.updatePeer n f).cp = s.cp ∧ (s.updatePeer n f).flash = s.flash ∧ (s.updatePeer n f).pending = s.pending := by
  unfold State.updatePeer
  split <;> simp

/-- The change of a roster entry changes that entry alone. -/
theorem State.updatePeer_other (s : State) {n m : Nat} (f : Peer → Peer) (h : m ≠ n) :
    (s.updatePeer n f).peer m = s.peer m := by
  unfold State.updatePeer State.peer
  split
  · rfl
  · rename_i hn
    dsimp only
    split
    · rfl
    · rename_i hm
      have hne : n - 1 ≠ m - 1 := by omega
      simp [List.getD, hne]

/-! ### The lend -/

theorem State.grantWaiting_frame (s : State) :
    (s.grantWaiting).power = s.power ∧ (s.grantWaiting).straps = s.straps ∧ (s.grantWaiting).clk = s.clk
      ∧ (s.grantWaiting).pt = s.pt ∧ (s.grantWaiting).re = s.re ∧ (s.grantWaiting).sc = s.sc
      ∧ (s.grantWaiting).li = s.li ∧ (s.grantWaiting).ac = s.ac ∧ (s.grantWaiting).jc = s.jc
      ∧ (s.grantWaiting).cp = s.cp ∧ (s.grantWaiting).flash = s.flash ∧ (s.grantWaiting).pending = s.pending := by
  unfold State.grantWaiting
  split <;> simp

end Sys2Proof.Machine
end

