-- ==== Sys2Proof/Laws/Table.lean ====
section
/-! SUPPORT. What the operations of the Parameter Table do: lookups after an insertion, a removal and a change of fields, the
order of the entries, and the digests and counts. -/

namespace Sys2Proof.Machine

/-! ### Lookups -/

theorem findEntry_id {es : List Entry} {id : Nat} {e : Entry} (h : findEntry es id = some e) : e.id = id := by
  have := List.find?_some h
  simpa using this

theorem findEntry_mem {es : List Entry} {id : Nat} {e : Entry} (h : findEntry es id = some e) : e ∈ es :=
  List.mem_of_find?_eq_some h

theorem findEntry_none {es : List Entry} {id : Nat} : findEntry es id = none ↔ ∀ e ∈ es, e.id ≠ id := by
  unfold findEntry
  rw [List.find?_eq_none]
  simp

theorem findEntry_cons (x : Entry) (es : List Entry) (id : Nat) :
    findEntry (x :: es) id = if x.id = id then some x else findEntry es id := by
  unfold findEntry
  by_cases h : x.id = id <;> simp [h]

/-- In entries of strictly ascending ids a member is found by its id. -/
theorem findEntry_of_mem {es : List Entry} {e : Entry} (h : es.Pairwise fun a b => a.id < b.id) (he : e ∈ es) :
    findEntry es e.id = some e := by
  induction es with
  | nil => cases he
  | cons x es ih =>
    rw [findEntry_cons]
    rw [List.pairwise_cons] at h
    rcases List.mem_cons.mp he with rfl | hm
    · rw [if_pos rfl]
    · have := h.1 e hm
      rw [if_neg (by omega)]
      exact ih h.2 hm

/-- The entry put in is found by its id. -/
theorem findEntry_insert_self (es : List Entry) (e : Entry) : findEntry (insertEntry es e) e.id = some e := by
  induction es with
  | nil => simp [insertEntry, findEntry]
  | cons x es ih =>
    unfold insertEntry
    split
    · rw [findEntry_cons, if_pos rfl]
    · split
      · rw [findEntry_cons, if_pos rfl]
      · rename_i hne
        rw [findEntry_cons, if_neg (fun h => hne h.symm)]
        exact ih

/-- Other entries are found as before. -/
theorem findEntry_insert_other (es : List Entry) (e : Entry) {id : Nat} (h : id ≠ e.id) :
    findEntry (insertEntry es e) id = findEntry es id := by
  induction es with
  | nil => simp [insertEntry, findEntry, h.symm]
  | cons x es ih =>
    unfold insertEntry
    split
    · rw [findEntry_cons, if_neg h.symm]
    · split
      · rename_i heq
        rw [findEntry_cons, findEntry_cons, if_neg h.symm, if_neg (heq ▸ h.symm)]
      · rw [findEntry_cons, findEntry_cons, ih]

theorem findEntry_remove_self (es : List Entry) (id : Nat) : findEntry (removeEntry es id) id = none := by
  rw [findEntry_none]
  intro e he
  simpa using (List.mem_filter.mp he).2

theorem findEntry_remove_other (es : List Entry) {id j : Nat} (h : j ≠ id) :
    findEntry (removeEntry es id) j = findEntry es j := by
  induction es with
  | nil => rfl
  | cons x es ih =>
    unfold removeEntry at ih ⊢
    by_cases hx : x.id = id
    · rw [List.filter_cons_of_neg (by simp [hx]), findEntry_cons, if_neg (by omega), ih]
    · rw [List.filter_cons_of_pos (by simp [hx]), findEntry_cons, findEntry_cons, ih]

/-- A change of fields that keeps ids. -/
theorem findEntry_map {f : Entry → Entry} (h : ∀ e, (f e).id = e.id) (es : List Entry) (id : Nat) :
    findEntry (es.map f) id = (findEntry es id).map f := by
  induction es with
  | nil => rfl
  | cons x es ih =>
    rw [List.map_cons, findEntry_cons, findEntry_cons, h, ih]
    split <;> rfl

/-! ### Members, order and length -/

theorem mem_insertEntry {es : List Entry} {e x : Entry} (h : x ∈ insertEntry es e) : x = e ∨ x ∈ es := by
  induction es with
  | nil => simpa [insertEntry] using h
  | cons y es ih =>
    unfold insertEntry at h
    split at h
    · exact List.mem_cons.mp h
    · split at h
      · rcases List.mem_cons.mp h with h | h
        · exact .inl h
        · exact .inr (List.mem_cons_of_mem _ h)
      · rcases List.mem_cons.mp h with h | h
        · exact .inr (h ▸ List.mem_cons_self)
        · rcases ih h with h | h
          · exact .inl h
          · exact .inr (List.mem_cons_of_mem _ h)

/-- An insertion keeps strictly ascending ids. -/
theorem insertEntry_sorted {es : List Entry} (h : es.Pairwise fun a b => a.id < b.id) (e : Entry) :
    (insertEntry es e).Pairwise fun a b => a.id < b.id := by
  induction es with
  | nil => exact List.pairwise_singleton _ _
  | cons x es ih =>
    rw [List.pairwise_cons] at h
    unfold insertEntry
    split
    · rename_i hlt
      rw [List.pairwise_cons]
      refine ⟨?_, List.pairwise_cons.mpr h⟩
      intro y hy
      rcases List.mem_cons.mp hy with rfl | hy
      · exact hlt
      · exact hlt.trans (h.1 y hy)
    · split
      · rename_i heq
        rw [List.pairwise_cons]
        exact ⟨fun y hy => heq ▸ h.1 y hy, h.2⟩
      · rw [List.pairwise_cons]
        refine ⟨?_, ih h.2⟩
        intro y hy
        rcases mem_insertEntry hy with rfl | hy
        · omega
        · exact h.1 y hy

theorem removeEntry_sorted {es : List Entry} (h : es.Pairwise fun a b => a.id < b.id) (id : Nat) :
    (removeEntry es id).Pairwise fun a b => a.id < b.id := h.sublist List.filter_sublist

/-- A change of fields that keeps ids keeps their order. -/
theorem mapEntries_sorted {es : List Entry} (h : es.Pairwise fun a b => a.id < b.id) {f : Entry → Entry}
    (hf : ∀ e, (f e).id = e.id) : (es.map f).Pairwise fun a b => a.id < b.id := by
  rw [List.pairwise_map]
  simpa [hf] using h

/-- The length grows by one where the id is new, and stays where it is not. -/
theorem insertEntry_length {es : List Entry} (h : es.Pairwise fun a b => a.id < b.id) (e : Entry) :
    (insertEntry es e).length = if findEntry es e.id = none then es.length + 1 else es.length := by
  induction es with
  | nil => simp [insertEntry, findEntry]
  | cons x es ih =>
    rw [List.pairwise_cons] at h
    have step : insertEntry (x :: es) e
        = if e.id < x.id then e :: x :: es else if e.id = x.id then e :: es else x :: insertEntry es e := rfl
    rw [step, findEntry_cons]
    by_cases hlt : e.id < x.id
    · have : findEntry es e.id = none := by
        rw [findEntry_none]
        intro y hy
        have := h.1 y hy
        omega
      have hne : ¬ x.id = e.id := by omega
      simp [hlt, hne, this]
    · by_cases heq : e.id = x.id
      · simp [heq]
      · have hne : ¬ x.id = e.id := fun h => heq h.symm
        simp only [hlt, heq, hne, if_false, List.length_cons, ih h.2]
        split <;> rfl

/-! ### Slots (R9) -/

theorem freeSlot_spec {es : List Entry} {k : Nat} (h : freeSlot es = some k) : k < Config.maxSlots ∧ k ∉ usedSlots es := by
  unfold freeSlot at h
  have h1 := List.mem_of_find?_eq_some h
  have h2 := List.find?_some h
  exact ⟨List.mem_range.mp h1, by simpa using h2⟩

/-! ### Digests and counts (R18, R19) -/

/-- The digest of a bucket depends on its SHARED entries alone. -/
theorem digestOf_congr {es es' : List Entry} {b : Nat} (h : sharedIn es' b = sharedIn es b) : digestOf es' b = digestOf es b := by
  unfold digestOf
  rw [h]

/-- New entries that differ in one bucket alone keep the law of digests and counts. -/
theorem DigestLaw.withEntries {t : ParamTable} (h : DigestLaw t) {b : Nat} (hb : b < Config.buckets) {es : List Entry}
    (hs : ∀ c, c ≠ b → sharedIn es c = sharedIn t.entries c) : DigestLaw (t.withEntries b es) := by
  obtain ⟨hd, -, -, -⟩ := h
  refine ⟨?_, rfl, rfl, rfl⟩
  apply List.ext_getElem?
  intro i
  show (t.digests.set b (digestOf es b))[i]? = ((List.range Config.buckets).map (digestOf es))[i]?
  rw [hd, List.getElem?_set, List.getElem?_map, List.getElem?_map, List.length_map, List.length_range]
  by_cases hi : i < Config.buckets
  · by_cases hbi : b = i
    · subst hbi
      simp [hb]
    · simp [hbi, hi, digestOf_congr (hs i (fun h => hbi h.symm))]
  · have hbi : b ≠ i := by omega
    simp [hbi, hi]

theorem bucketOf_lt (id : Nat) : bucketOf id < Config.buckets := Nat.mod_lt _ (by decide)

theorem sharedIn_insert (es : List Entry) (e : Entry) {c : Nat} (h : c ≠ bucketOf e.id) :
    sharedIn (insertEntry es e) c = sharedIn es c := by
  have hb : ¬ bucketOf e.id = c := fun x => h x.symm
  have out : (decide (e.scope = .shared) && decide (bucketOf e.id = c)) = false := by simp [hb]
  induction es with
  | nil => simp only [insertEntry, sharedIn, List.filter_cons, out, List.filter_nil]; rfl
  | cons x es ih =>
    have step : insertEntry (x :: es) e
        = if e.id < x.id then e :: x :: es else if e.id = x.id then e :: es else x :: insertEntry es e := rfl
    rw [step]
    unfold sharedIn at ih ⊢
    split
    · rw [List.filter_cons, out]; rfl
    · split
      · rename_i heq
        have outx : (decide (x.scope = .shared) && decide (bucketOf x.id = c)) = false := by
          rw [← heq]; simp [hb]
        rw [List.filter_cons, out, List.filter_cons, outx]
        rfl
      · rw [List.filter_cons, List.filter_cons, ih]

theorem sharedIn_remove (es : List Entry) (id : Nat) {c : Nat} (h : c ≠ bucketOf id) :
    sharedIn (removeEntry es id) c = sharedIn es c := by
  unfold sharedIn removeEntry
  rw [List.filter_filter]
  apply List.filter_congr
  intro x _
  by_cases hx : x.id = id
  · have : ¬ bucketOf x.id = c := by rw [hx]; exact fun y => h y.symm
    simp [this]
  · simp [hx]

/-- An entry put in keeps the law (R19, R22). -/
theorem DigestLaw.put {t : ParamTable} (h : DigestLaw t) (e : Entry) : DigestLaw (t.put e) :=
  h.withEntries (bucketOf_lt _) fun _ hc => sharedIn_insert _ _ hc

/-- An entry taken out keeps the law (R19). -/
theorem DigestLaw.delete {t : ParamTable} (h : DigestLaw t) (id : Nat) : DigestLaw (t.delete id) :=
  h.withEntries (bucketOf_lt _) fun _ hc => sharedIn_remove _ _ hc

/-- A change of fields outside id, scope, version and slot keeps the law (R14). -/
theorem DigestLaw.mapEntries {t : ParamTable} (h : DigestLaw t) {f : Entry → Entry}
    (hf : ∀ e, (f e).id = e.id ∧ (f e).scope = e.scope ∧ (f e).ver = e.ver ∧ (f e).slot = e.slot) :
    DigestLaw (t.mapEntries f) := by
  obtain ⟨hd, hn, hc, hu⟩ := h
  have shared : ∀ b, sharedIn (t.entries.map f) b = (sharedIn t.entries b).map f := by
    intro b
    unfold sharedIn
    rw [List.filter_map]
    congr 1
    apply List.filter_congr
    intro x _
    simp [(hf x).1, (hf x).2.1]
  have digest : ∀ b, digestOf (t.entries.map f) b = digestOf t.entries b := by
    intro b
    unfold digestOf
    rw [shared, List.isEmpty_map, List.flatMap_map]
    have : (fun e => (f e).digestBytes) = Entry.digestBytes := by
      funext e
      simp [Entry.digestBytes, (hf e).1, (hf e).2.2.1]
    rw [this]
  refine ⟨?_, ?_, ?_, ?_⟩
  · show t.digests = _
    rw [hd]
    exact List.map_congr_left fun b _ => (digest b).symm
  · show t.entryCount = (t.entries.map f).length
    rw [List.length_map, hn]
  · show t.sharedCount = (t.entries.map f).countP _
    rw [hc, List.countP_map]
    congr 1
    funext x
    simp [(hf x).2.1]
  · show t.slotsUsed = (usedSlots (t.entries.map f)).length
    rw [hu]
    unfold usedSlots
    rw [List.filterMap_map]
    have : ((fun x : Entry => x.slot) ∘ f) = fun x => x.slot := by
      funext x
      exact (hf x).2.2.2
    rw [this]

end Sys2Proof.Machine
end

