-- ==== Sys2Proof/Laws/Changing.lean ====
section
/-! SUPPORT. What a change of an entry does, once each: the dirty-from it leaves, what it tells the journal, the deletion of a LOCAL
entry, and a received record. -/

namespace Sys2Proof.Machine

/-! ### Dirty-from (R25) -/

/-- The lowest byte at which two values of one length differ. -/
theorem firstDiff_eq {a b : List Byte} {i : Nat} (hl : a.length = b.length) (hi : a[i]? ≠ b[i]?)
    (hj : ∀ j : Nat, j < i → a[j]? = b[j]?) : firstDiff a b = i := by
  induction a generalizing b i with
  | nil =>
    cases b with
    | nil => exact absurd rfl hi
    | cons _ _ => simp at hl
  | cons x xs ih =>
    cases b with
    | nil => simp at hl
    | cons y ys =>
      cases i with
      | zero =>
        have : x ≠ y := by simpa using hi
        simp [firstDiff, this]
      | succ i =>
        have hxy : x = y := by simpa using hj 0 (by omega)
        have := ih (by simpa using hl) (by simpa using hi) fun j hji => by simpa using hj (j + 1) (by omega)
        simp [firstDiff, hxy, this]

/-- Dirty-from after a change is Table 2.1.1's. -/
theorem dirtyAfter_law (old : Option Entry) (value : List Byte) : DirtyLaw old value (dirtyAfter old value) := by
  refine ⟨fun h => by rw [h]; rfl, ?_⟩
  rintro e rfl
  refine ⟨?_, ?_, ?_⟩
  · intro h
    have : e.value.isEmpty = true ∨ value.isEmpty = true ∨ e.value.length ≠ value.length := by
      simpa [List.isEmpty_iff] using h
    simp only [dirtyAfter, this, if_true]
  · intro hne heq
    have : ¬ (e.value.isEmpty = true ∨ value.isEmpty = true ∨ e.value.length ≠ value.length) := by
      rw [← heq]
      simp [hne]
    have hv : value ≠ [] := heq ▸ hne
    unfold dirtyAfter
    simp only
    rw [if_neg this, if_pos heq]
    cases e.dirty <;> rfl
  · intro hl i hi hj
    have hd := firstDiff_eq hl hi hj
    have hne : e.value ≠ value := by
      rintro h
      exact hi (by rw [h])
    have : ¬ (e.value.isEmpty = true ∨ value.isEmpty = true ∨ e.value.length ≠ value.length) := by
      rintro (h | h | h)
      · rw [List.isEmpty_iff] at h
        have : value = [] := by simpa [h] using hl.symm
        exact hne (by rw [h, this])
      · rw [List.isEmpty_iff] at h
        have : e.value = [] := by simpa [h] using hl
        exact hne (by rw [h, this])
      · exact h hl
    unfold dirtyAfter
    simp only
    rw [if_neg this, if_neg hne, hd]
    exact ⟨fun h => by rw [h], fun k h => by rw [h], fun h => by rw [h]⟩

/-! ### What a change tells the journal (R26, R30, R143) -/

theorem Journal.queued_iff (jc : Journal) (id : Nat) : jc.queued id = true ↔ id ∈ jc.queueIds := by
  simp [Journal.queued, Journal.queueIds]

/-- What a change tells the write in hand and a write that waits (R143, R151). -/
theorem Journal.touch_eq (jc : Journal) (id : Nat) (deleted : Bool) : jc.touch id deleted = { jc with
    job := jc.job.map fun j => match j with
      | .write w => .write (if w.id = id then { w with changed := true, gone := w.gone || deleted } else w)
      | .erase b => .erase b
    held := jc.held.map fun w => if w.id = id then { w with changed := true, gone := w.gone || deleted } else w } := by
  have : (fun j : Job => j.touch id deleted) = fun j => match j with
      | .write w => .write (if w.id = id then { w with changed := true, gone := w.gone || deleted } else w)
      | .erase b => .erase b := by
    funext j
    cases j <;> rfl
  unfold Journal.touch
  rw [this]
  rfl

/-- The queue after the marking of R26, and nothing but the queue. -/
theorem Journal.enqueue_eq (jc : Journal) (id : Nat) : jc.enqueue id = { jc with
    queue :=
      if jc.fault = true then jc.queue
      else if id ∈ jc.queueIds then jc.queue.map fun q => if q.id = id then { q with del := false } else q
      else if jc.queue.length < 64 then jc.queue ++ [{ id := id, del := false }]
      else jc.queue } := by
  have hq := jc.queued_iff id
  unfold Journal.enqueue
  simp only [← hq, show (64 : Nat) = Config.maxQueue from rfl]
  split
  · rfl
  · split
    · rfl
    · split <;> rfl

/-- The queue after the delete demand of R30, and nothing but the queue. -/
theorem Journal.enqueueDelete_eq (jc : Journal) (id : Nat) : jc.enqueueDelete id = { jc with
    queue :=
      if id ∈ jc.queueIds then jc.queue.map fun q => if q.id = id then { q with del := true } else q
      else if jc.fault = true then jc.queue
      else if jc.queue.length < 64 then jc.queue ++ [{ id := id, del := true }]
      else jc.queue } := by
  have hq := jc.queued_iff id
  unfold Journal.enqueueDelete
  simp only [← hq, show (64 : Nat) = Config.maxQueue from rfl]
  split
  · rfl
  · split
    · rfl
    · split <;> rfl

/-- The marking of R26 and what it tells the job. -/
theorem Journal.enqueue_marked (jc : Journal) (id : Nat) : JournalMarked jc ((jc.enqueue id).touch id false) id := by
  rw [Journal.touch_eq, Journal.enqueue_eq]
  simp only [Bool.or_false]
  rfl

/-- The journal state that the marking gives. -/
theorem Journal.markState_eq (jc : Journal) (id : Nat) : jc.markState id
    = if jc.fault = false ∧ (id ∈ jc.queueIds ∨ jc.queue.length < 64) then .queued else .unsaved := by
  have hq := jc.queued_iff id
  have hl : jc.queue.length < 64 ↔ jc.queue.length < Config.maxQueue := Iff.rfl
  unfold Journal.markState
  cases jc.fault <;> simp [hq, hl]

/-- The live-base count of a base band falls by one (R145). -/
theorem dropLive_get (rows : List BandRow) (base : Option Nat) (i : Nat) : (dropLive rows base)[i]?
    = (rows[i]?).map fun r : BandRow =>
        { r with live := r.live - (if (base.bind fun b => rows.findIdx? fun r => r.seq = some b && r.live ≠ 0) = some i
          then 1 else 0) } := by
  unfold dropLive
  change (match (base.bind fun b => rows.findIdx? fun r => r.seq = some b && r.live ≠ 0) with
      | some band => rows.modify band fun r => { r with live := r.live - 1 }
      | none => rows)[i]? = _
  cases (base.bind fun b => rows.findIdx? fun r => r.seq = some b && r.live ≠ 0) with
  | none => cases rows[i]? <;> simp
  | some band =>
    simp only
    rw [List.getElem?_modify]
    by_cases h : band = i
    · simp [h]
    · cases rows[i]? <;> simp [h]

/-- The deletion of a LOCAL entry, at the journal. -/
theorem State.deleteLocal_deleted (s : State) (e : Entry) : JournalDeleted s.jc (s.deleteLocal e).jc e := by
  have hjc : (s.deleteLocal e).jc = { (s.jc.enqueueDelete e.id).touch e.id true with
      bands := dropLive s.jc.bands e.base, unbased := s.jc.unbased.filter fun i => i ≠ e.id } := by
    unfold State.deleteLocal
    rw [Journal.touch_eq, Journal.enqueueDelete_eq]
  refine ⟨_, rfl, fun i => ?_, ?_⟩
  · rw [hjc]
    exact dropLive_get s.jc.bands e.base i
  · rw [hjc, Journal.touch_eq, Journal.enqueueDelete_eq]
    simp only [Bool.or_true] <;> rfl

/-! ### Received records (R32 to R38) -/

/-- The slot that a value will hold, or the lack of one (R8, R9). -/
theorem slotFor_eq (es : List Entry) (old : Option Nat) (n : Nat) : slotFor es old n
    = if n ≤ 8 ∨ old ≠ none ∨ freeSlot es ≠ none then some (if n ≤ 8 then none else old <|> freeSlot es) else none := by
  unfold slotFor
  rw [show Config.inlineLength = 8 from rfl]
  by_cases h : n ≤ 8
  · simp [h]
  · cases old with
    | some k => simp [h]
    | none => cases freeSlot es <;> simp [h]

/-- The table takes an entry with a new version, and the journal is told. -/
theorem State.commitEntry_eq (s : State) (old : Option Entry) (e : Entry) : s.commitEntry old e = { s with
    pt := s.pt.put { e with jstate := s.jc.markState e.id }
    jc := (s.jc.enqueue e.id).touch e.id false
    cp := { s.cp with
      notify := if s.jc.markState e.id = .unsaved ∧ old.map Entry.jstate ≠ some .unsaved
        then placeEvent s.cp.notify { kind := .unsaved, param := 0 } else s.cp.notify } } := by
  unfold State.commitEntry State.noteUnsaved State.notify
  simp only
  split <;> rfl

/-- A record whose version would be taken is taken where PT has room, and dropped where it has none (R21). -/
theorem State.takeIfRoom_cases (s : State) (old : Option Entry) (r : LineRecord) :
    (((old ≠ none ∨ s.pt.entries.length < 512)
        ∧ (r.value.length ≤ 8 ∨ old.bind Entry.slot ≠ none ∨ freeSlot s.pt.entries ≠ none)) →
      s.takeIfRoom old r
        = s.takeRecord old r (if r.value.length ≤ 8 then none else old.bind Entry.slot <|> freeSlot s.pt.entries))
    ∧ (¬ ((old ≠ none ∨ s.pt.entries.length < 512)
        ∧ (r.value.length ≤ 8 ∨ old.bind Entry.slot ≠ none ∨ freeSlot s.pt.entries ≠ none)) →
      s.takeIfRoom old r = s.capacityDrop) := by
  have hfull : (old.isNone && decide (Config.maxEntries ≤ s.pt.entries.length)) = true
      ↔ ¬ (old ≠ none ∨ s.pt.entries.length < 512) := by
    rw [show Config.maxEntries = 512 from rfl]
    simp
  unfold State.takeIfRoom
  rw [slotFor_eq]
  constructor
  · rintro ⟨h1, h2⟩
    rw [if_neg (fun h => hfull.mp h h1), if_pos h2]
  · intro h
    by_cases h1 : old ≠ none ∨ s.pt.entries.length < 512
    · rw [if_neg (fun hf => hfull.mp hf h1), if_neg (fun h2 => h ⟨h1, h2⟩)]
    · rw [if_pos (hfull.mpr h1)]

/-- A record taken, from an entry of its id that is SHARED or from none. -/
theorem State.takeRecord_taken {s : State} {r : LineRecord} {old : Option Entry} (hold : s.entry r.id = old)
    (hsh : ∀ e, old = some e → e.scope = .shared) (slot : Option Nat) :
    ∃ (e' : Entry) (q : List Event), (s.takeRecord old r slot).entry r.id = some e'
      ∧ e' = {
        id := r.id, scope := .shared, ver := { gen := r.gen, origin := r.origin, check := valueCheck r.value }
        value := r.value, slot := slot
        jstate := if s.jc.fault = false ∧ (r.id ∈ s.jc.queueIds ∨ s.jc.queue.length < 64) then .queued else .unsaved
        base := old.elim none Entry.base, dirty := e'.dirty, mark := .none, watch := old.elim false Entry.watch }
      ∧ DirtyLaw old r.value e'.dirty
      ∧ (∀ j, j ≠ r.id → (s.takeRecord old r slot).entry j = s.entry j)
      ∧ JournalMarked s.jc (s.takeRecord old r slot).jc r.id
      ∧ q = (if e'.jstate = .unsaved ∧ old.map Entry.jstate ≠ some .unsaved
          then placeEvent s.cp.notify { kind := .unsaved, param := 0 } else s.cp.notify)
      ∧ s.takeRecord old r slot = { s with
          pt := { (s.takeRecord old r slot).pt with h := s.pt.h }
          re := { s.re with
            outbound := s.re.outbound.filter fun i => i ≠ r.id
            roster := s.re.roster.map fun p => { p with agreement := .unknown } }
          jc := (s.takeRecord old r slot).jc
          cp := { s.cp with
            notify := if old.elim s.cp.setup.watchNew Entry.watch
              then placeEvent q { kind := .remoteChange, param := r.id } else q
            counters := { s.cp.counters with
              updatesApplied := min 0xFFFFFFFF (s.cp.counters.updatesApplied + 1)
              versionConflicts := if old.any fun e => r.gen = e.ver.gen && r.origin = e.ver.origin
                then min 0xFFFFFFFF (s.cp.counters.versionConflicts + 1) else s.cp.counters.versionConflicts } } } := by
  have hid : (old.getD (Entry.fresh r.id .shared)).id = r.id := by
    cases old with
    | none => rfl
    | some e => exact findEntry_id hold
  have hissue : sameIssue old r = old.any fun e => r.gen = e.ver.gen && r.origin = e.ver.origin := by
    cases old with
    | none => rfl
    | some e =>
      rw [Bool.eq_iff_iff]
      simp only [sameIssue, Option.any_some, Bool.and_eq_true, beq_iff_eq, decide_eq_true_eq]
      exact and_congr eq_comm eq_comm
  have key : s.takeRecord old r slot = { s with
      pt := s.pt.put { old.getD (Entry.fresh r.id .shared) with
        ver := r.ver, value := r.value, slot := slot, dirty := dirtyAfter old r.value, mark := .none
        jstate := s.jc.markState r.id }
      jc := (s.jc.enqueue r.id).touch r.id false
      re := { s.re with
        outbound := s.re.outbound.filter fun i => i ≠ r.id
        roster := s.re.roster.map fun p => { p with agreement := .unknown } }
      cp := { s.cp with
        notify := if old.elim s.cp.setup.watchNew Entry.watch then
            placeEvent (if s.jc.markState r.id = .unsaved ∧ old.map Entry.jstate ≠ some .unsaved
              then placeEvent s.cp.notify { kind := .unsaved, param := 0 } else s.cp.notify)
              { kind := .remoteChange, param := r.id }
          else (if s.jc.markState r.id = .unsaved ∧ old.map Entry.jstate ≠ some .unsaved
            then placeEvent s.cp.notify { kind := .unsaved, param := 0 } else s.cp.notify)
        counters := { s.cp.counters with
          updatesApplied := min 0xFFFFFFFF (s.cp.counters.updatesApplied + 1)
          versionConflicts := if old.any fun e => r.gen = e.ver.gen && r.origin = e.ver.origin
            then min 0xFFFFFFFF (s.cp.counters.versionConflicts + 1) else s.cp.counters.versionConflicts } } } := by
    unfold State.takeRecord State.remoteChange
    dsimp only
    rw [State.commitEntry_eq, hissue]
    dsimp only
    rw [hid]
    by_cases hw : old.elim s.cp.setup.watchNew Entry.watch = true
    · rw [if_pos hw]
      simp only [State.forgetAgreements, hw, if_true]
      rfl
    · rw [if_neg hw]
      rw [Bool.not_eq_true] at hw
      simp only [State.forgetAgreements, hw, Bool.false_eq_true, if_false]
      rfl
  obtain ⟨e', he', hd, hj, hall⟩ : ∃ e' : Entry, { old.getD (Entry.fresh r.id .shared) with
        ver := r.ver, value := r.value, slot := slot, dirty := dirtyAfter old r.value, mark := .none
        jstate := s.jc.markState r.id } = e' ∧ e'.dirty = dirtyAfter old r.value ∧ e'.jstate = s.jc.markState r.id
      ∧ e' = {
        id := r.id, scope := .shared, ver := { gen := r.gen, origin := r.origin, check := valueCheck r.value }
        value := r.value, slot := slot
        jstate := if s.jc.fault = false ∧ (r.id ∈ s.jc.queueIds ∨ s.jc.queue.length < 64) then .queued else .unsaved
        base := old.elim none Entry.base, dirty := e'.dirty, mark := .none, watch := old.elim false Entry.watch } := by
    refine ⟨_, rfl, rfl, rfl, ?_⟩
    rw [← Journal.markState_eq]
    cases old with
    | none => rfl
    | some e =>
      have h1 := hsh e rfl
      have h2 : e.id = r.id := hid
      simp [← h1, ← h2, LineRecord.ver]
  rw [key, he']
  refine ⟨e', _, ?_, hall, hd ▸ dirtyAfter_law old r.value, ?_, s.jc.enqueue_marked r.id, rfl, ?_⟩
  · have : e'.id = r.id := by rw [hall]
    exact this ▸ findEntry_insert_self _ _
  · intro j hj
    have : e'.id = r.id := by rw [hall]
    exact findEntry_insert_other _ _ (this ▸ hj)
  · rw [hj]
    rfl

/-- A received record is Table 2.3.1's. -/
theorem State.applyRecord_outcome (s : State) (r : LineRecord) : RecordOutcome s (s.applyRecord r) r := by
  have hasym : ∀ a b : Version, a.supersedes b = true → b.supersedes a = false ∧ a ≠ b := by
    intro a b h
    refine ⟨?_, ?_⟩
    · rw [Bool.eq_false_iff]
      intro h'
      simp only [Version.supersedes, Bool.or_eq_true, Bool.and_eq_true, decide_eq_true_eq, beq_iff_eq] at h h'
      omega
    · rintro rfl
      simp only [Version.supersedes, Bool.or_eq_true, Bool.and_eq_true, decide_eq_true_eq, beq_iff_eq] at h
      omega
  have hroom := fun old => s.takeIfRoom_cases old r
  unfold State.applyRecord
  cases he : s.entry r.id with
  | none =>
    refine ⟨_, _, Iff.rfl, Iff.rfl, ?_, ?_, ?_, ?_, ?_⟩
    all_goals simp only [he, reduceCtorEq, false_implies, implies_true]
    · intro _ hr
      exact (hroom none).2 hr
    · intro _ hr
      rw [(hroom none).1 hr]
      exact State.takeRecord_taken he (by simp) _
  | some e =>
    refine ⟨_, _, Iff.rfl, Iff.rfl, ?_, ?_, ?_, ?_, ?_⟩
    all_goals simp only [he, Option.some.injEq, forall_eq']
    · intro hl
      rw [if_pos hl]
      rfl
    · intro hs hv
      rw [if_neg (by simp [hs]), if_neg fun h => (hasym _ _ h).2 hv, if_pos hv]
    · intro hs hv
      have h := hasym _ _ hv
      rw [if_neg (by simp [hs]), if_neg (by simp [h.1]), if_neg (Ne.symm h.2)]
      unfold State.count sameIssue
      simp only [Bool.and_eq_true, beq_iff_eq, eq_comm (a := e.ver.gen), eq_comm (a := e.ver.origin)]
      rfl
    · rintro (h | ⟨x, hx, hs, hv⟩) hr
      · cases h
      · cases hx
        rw [if_neg (by simp [hs]), if_pos hv]
        exact (hroom (some e)).2 hr
    · rintro (h | ⟨x, hx, hs, hv⟩) hr
      · cases h
      · cases hx
        rw [if_neg (by simp [hs]), if_pos hv, (hroom (some e)).1 hr]
        exact State.takeRecord_taken he (by rintro x hx; cases hx; exact hs) _

/-- The records of an UPDATE, one after another. -/
theorem State.foldl_applyRecord (recs : List LineRecord) (s : State) :
    RecordsTaken s recs (recs.foldl State.applyRecord s) := by
  induction recs generalizing s with
  | nil => rfl
  | cons r rs ih => exact ⟨_, s.applyRecord_outcome r, ih _⟩

/-! ### A record of replay (R165 to R167) -/

/-- An entry that takes a whole record, where the table has room for it (R166). -/
theorem State.replayEntry_cases (s : State) (seq : Nat) (r : JRecord) (old : Option Entry) :
    (((old ≠ none ∨ s.pt.entries.length < 512)
        ∧ (r.data.length ≤ 8 ∨ old.bind Entry.slot ≠ none ∨ freeSlot s.pt.entries ≠ none)) →
      s.replayEntry seq r old = { s with pt := s.pt.put { old.getD (Entry.fresh r.id .shared) with
        ver := r.ver r.data, value := r.data, scope := if r.loc then .loc else .shared
        slot := if r.data.length ≤ 8 then none else old.bind Entry.slot <|> freeSlot s.pt.entries, base := some seq } })
      ∧ (¬ ((old ≠ none ∨ s.pt.entries.length < 512)
        ∧ (r.data.length ≤ 8 ∨ old.bind Entry.slot ≠ none ∨ freeSlot s.pt.entries ≠ none)) →
      s.replayEntry seq r old = s.addAnomalies 1) := by
  have hfull : (old.isNone && decide (Config.maxEntries ≤ s.pt.entries.length)) = true
      ↔ ¬ (old ≠ none ∨ s.pt.entries.length < 512) := by
    cases old <;> simp only [Option.isNone_none, Option.isNone_some, Bool.true_and, Bool.false_and, decide_eq_true_eq,
      Bool.false_eq_true, ne_eq, not_true_eq_false, reduceCtorEq, not_false_eq_true, true_or, false_or, not_lt] <;> rfl
  unfold State.replayEntry
  rw [slotFor_eq]
  refine ⟨fun h => ?_, fun h => ?_⟩
  · rw [if_neg (fun hf => hfull.mp hf h.1), if_pos h.2]
  · by_cases hf : (old ≠ none ∨ s.pt.entries.length < 512)
    · rw [if_neg (fun hf' => hfull.mp hf' hf), if_neg (fun h' => h ⟨hf, h'⟩)]
    · rw [if_pos (hfull.mpr hf)]

/-- A record that replay takes is R165's to R167's. -/
theorem State.replayRecord_replayed (s : State) (seq : Nat) (r : JRecord) : RecordReplayed s (s.replayRecord seq r) seq r := by
  have hput : ∀ (u : State) (e : Entry), e.id = r.id →
      ({ u with pt := u.pt.put e } : State).entry r.id = some e
      ∧ (∀ j, j ≠ r.id → ({ u with pt := u.pt.put e } : State).entry j = u.entry j) := fun u e he =>
    ⟨he ▸ findEntry_insert_self u.pt.entries e, fun j hj => findEntry_insert_other u.pt.entries e (he ▸ hj)⟩
  refine ⟨_, _, (validId r.id = true ∧ validGen r.gen = true ∧ r.origin ≤ 31), rfl, rfl, Iff.rfl, ?_, ?_, ?_, ?_⟩
  · intro hv
    have : (!validId r.id || !validGen r.gen || decide (31 < r.origin)) = true := by
      by_contra hn
      simp only [Bool.or_eq_true, Bool.not_eq_true', decide_eq_true_eq, not_or, Bool.not_eq_false, not_lt] at hn
      exact hv ⟨hn.1.1, hn.1.2, hn.2⟩
    simp only [State.replayRecord, this, if_true]
    rfl
  all_goals
    intro hv
    have hdef : s.replayRecord seq r = if r.kind = 2 then ({ s with pt := s.pt.raiseH r.gen } : State).replayTail r
        else if r.kind = 3 ∧ r.loc = true then ({ s with pt := s.pt.raiseH r.gen } : State).replayDelete r
        else ({ s with pt := s.pt.raiseH r.gen } : State).replayWhole seq r := by
      obtain ⟨h1, h2, h3⟩ := hv
      simp [State.replayRecord, h1, h2, h3]
    have hent : ({ s with pt := s.pt.raiseH r.gen } : State).entry r.id = s.entry r.id := rfl
    rw [hdef]
  · rintro hk v applies room rfl happ hroom
    rw [if_neg (by omega), if_neg (by rintro ⟨h3, hl⟩; rcases hk with h | ⟨_, h⟩ <;> simp_all)]
    have hcase := ({ s with pt := s.pt.raiseH r.gen } : State).replayEntry_cases seq r (s.entry r.id)
    have hw : applies → ({ s with pt := s.pt.raiseH r.gen } : State).replayWhole seq r
        = ({ s with pt := s.pt.raiseH r.gen } : State).replayEntry seq r (s.entry r.id) := by
      intro ha
      unfold State.replayWhole
      rw [hent]
      cases he : s.entry r.id with
      | none => rfl
      | some e =>
        rcases happ.mp ha with h | ⟨e', h, h'⟩
        · rw [h] at he; cases he
        · rw [h] at he
          cases he
          simp only [JRecord.ver]
          exact if_pos (by simpa using h')
    refine ⟨fun ha => ?_, fun ha hr => ?_, fun ha hr => ?_⟩
    · unfold State.replayWhole
      rw [hent]
      cases he : s.entry r.id with
      | none => exact absurd (happ.mpr (.inl he)) ha
      | some e =>
        simp only [JRecord.ver]
        exact if_neg fun h => ha (happ.mpr (.inr ⟨e, he, by simpa using h⟩))
    · rw [hw ha, hcase.2 (fun h => hr (hroom.mpr h))]
      rfl
    · rw [hw ha, hcase.1 (hroom.mp hr)]
      have hid : ((s.entry r.id).getD (Entry.fresh r.id .shared)).id = r.id := by
        cases he : s.entry r.id with
        | none => rfl
        | some e => exact findEntry_id he
      refine ⟨?_, fun j hj => findEntry_insert_other _ _ (by rw [hid]; exact hj), rfl⟩
      refine Eq.trans (b := some _) ((congrArg _ hid.symm).trans (findEntry_insert_self _ _)) ?_
      cases he : s.entry r.id with
      | none => rfl
      | some e =>
        have := findEntry_id he
        simp only [Option.getD_some, this, Option.elim_some]
        rfl
  · intro hk hl deletes hdel
    rw [if_neg (by omega), if_pos ⟨hk, hl⟩]
    unfold State.replayDelete
    rw [hent]
    refine ⟨fun hd => ?_, fun hd => ?_⟩
    · cases he : s.entry r.id with
      | none => rfl
      | some e =>
        simp only
        exact if_neg fun h => hd (hdel.mpr ⟨e, he, h⟩)
    · obtain ⟨e, he, h⟩ := hdel.mp hd
      simp only [he, h, and_self, if_true]
      exact ⟨findEntry_remove_self _ _, fun j hj => findEntry_remove_other _ hj, rfl⟩
  · intro hk
    rw [if_pos hk]
    unfold State.replayTail
    rw [hent]
    refine ⟨fun he => by simp only [he]; rfl, ?_⟩
    rintro e value v fits he rfl rfl hfit
    have hf : (!e.isTombstone && e.scope == (if r.loc then Scope.loc else Scope.shared) && e.value.length == r.length
        && (r.ver (tailValue e r)).supersedes e.ver) = true ↔ fits := by
      rw [hfit]
      have ht : (!e.isTombstone) = true ↔ e.scope = .loc ∨ e.value ≠ [] := by
        unfold Entry.isTombstone
        cases e.scope <;> simp
      simp only [Bool.and_eq_true, ht, beq_iff_eq, and_assoc]
      rfl
    simp only [he]
    refine ⟨fun h => ?_, fun h => ?_⟩
    · rw [if_neg (fun h' => h (hf.mp h'))]
      rfl
    · rw [if_pos (hf.mpr h)]
      obtain ⟨h1, h2⟩ := hput ({ s with pt := s.pt.raiseH r.gen } : State)
        { e with ver := r.ver (tailValue e r), value := tailValue e r } (show e.id = r.id from findEntry_id he)
      exact ⟨h1, h2, rfl⟩

end Sys2Proof.Machine
end

