-- ==== Sys2Proof/Laws/Decode.lean ====
section
/-! SUPPORT. What the reading of a transaction's bits does, once each: bits and bytes on the command port, and the bytes of a
command block. -/

namespace Sys2Proof

/-- A byte is read back from its bits. -/
@[simp] theorem byteOfBits_byteBits (b : Byte) : byteOfBits (byteBits b) = b := by
  revert b
  decide +kernel

/-- A byte in front of the bits is the first byte sampled. -/
@[simp] theorem sampledBytes_byteBits (b : Byte) (bits : List Bool) :
    sampledBytes (byteBits b ++ bits) = (b :: (sampledBytes bits).1, (sampledBytes bits).2) := by
  show (byteOfBits (byteBits b) :: (sampledBytes bits).1, (sampledBytes bits).2) = _
  rw [byteOfBits_byteBits]

/-- Fewer than 8 bits make no byte. -/
theorem sampledBytes_part {part : List Bool} (h : part.length < 8) : sampledBytes part = ([], part.length) := by
  unfold sampledBytes
  split
  · simp only [List.length_cons] at h
    omega
  · rfl

/-- Whole bytes and a part of one are sampled as they were clocked. -/
theorem sampledBytes_bytes (bytes : List Byte) {part : List Bool} (h : part.length < 8) :
    sampledBytes (bytes.flatMap byteBits ++ part) = (bytes, part.length) := by
  induction bytes with
  | nil => exact sampledBytes_part h
  | cons b bs ih => rw [List.flatMap_cons, List.append_assoc, sampledBytes_byteBits, ih]

/-- The bits sampled are those of the whole bytes and of the part. -/
theorem sampledBytes_length (bits : List Bool) :
    bits.length = 8 * (sampledBytes bits).1.length + (sampledBytes bits).2 := by
  fun_induction sampledBytes bits with
  | case1 a b c d e f g h rest ih => simp only [List.length_cons] at *; omega
  | case2 part _ => simp

/-- A code without a row of Table 11.3.1 makes UNKNOWN_COMMAND; any other makes the command of its row. -/
theorem commandOf_cases (code : Byte) (b : Block) :
    (∃ f, (code, f) ∈ commandTable ∧ commandOf code b = f b)
      ∨ (knownCommands.contains code = false ∧ commandOf code b = .unknownCommand code b) := by
  unfold commandOf
  cases h : commandTable.lookup code with
  | some f =>
    obtain ⟨l₁, l₂, hl, -⟩ := List.lookup_eq_some_iff.mp h
    exact .inl ⟨f, by rw [hl]; simp, rfl⟩
  | none =>
    refine .inr ⟨?_, rfl⟩
    rw [List.lookup_eq_none_iff] at h
    refine Bool.eq_false_iff.mpr fun hk => ?_
    obtain ⟨p, hp, rfl⟩ := List.mem_map.mp (List.contains_iff_mem.mp hk)
    simpa using h p hp

/-- Each row of the command codes makes a command with its code and the block, well-formed when the block is. -/
theorem commandTable_rows (b : Block) :
    ∀ p ∈ commandTable, Machine.commandBlock (p.2 b) = some (p.1, b) ∧ (p.2 b).wf = b.wf := by
  simp [commandTable, Machine.commandBlock, Instr.wf]

/-- A complete block's command carries its code and the block. -/
theorem commandBlock_commandOf (code : Byte) (b : Block) : Machine.commandBlock (commandOf code b) = some (code, b) := by
  obtain ⟨f, hf, h⟩ | ⟨-, h⟩ := commandOf_cases code b
  · rw [h]
    exact (commandTable_rows b _ hf).1
  · rw [h, Machine.commandBlock]

/-- A complete block's command is well-formed when the block is. -/
theorem commandOf_wf (code : Byte) {b : Block} (hb : b.wf = true) : (commandOf code b).wf = true := by
  obtain ⟨f, hf, h⟩ | ⟨hk, h⟩ := commandOf_cases code b
  · rw [h]
    exact (commandTable_rows b _ hf).2.trans hb
  · rw [h, Instr.wf, hk, hb]
    rfl

/-- Bytes that end before the block is complete are an aborted block, and no other bytes are (R183). -/
theorem decodeBlock_incomplete {bytes : List Byte} (h : incompleteBlock bytes = true) :
    decodeBlock bytes = .commandBlockAborted bytes := by
  unfold decodeBlock
  split
  · simp only [incompleteBlock, List.getElem?_cons_succ, List.getElem?_cons_zero, List.length_cons, Bool.and_eq_true,
      decide_eq_true_eq] at h
    rw [if_neg (by omega), if_pos (by omega)]
  · rfl

/-- A length byte above 40 ends the block (R183). -/
theorem decodeBlock_long (code tag len : Byte) (rest : List Byte) (h : 40 < len.toNat) :
    decodeBlock (code :: tag :: len :: rest)
      = commandOf code { tag := tag, len := len, params := [], check := 0, extra := rest.length } := by
  rw [decodeBlock, if_pos h]

/-- A block is complete at its check, and what follows is counted (R183). -/
theorem decodeBlock_whole (code tag len check : Byte) {params : List Byte} (after : List Byte) (hn : len.toNat ≤ 40)
    (hp : params.length = len.toNat) :
    decodeBlock (code :: tag :: len :: (params ++ check :: after))
      = commandOf code { tag := tag, len := len, params := params, check := check, extra := after.length } := by
  have hl : (params ++ check :: after).length = len.toNat + (after.length + 1) := by simp [hp]
  have he : (params ++ check :: after).length - (params.length + 1) = after.length := by omega
  rw [decodeBlock, if_neg (by omega), if_neg (by omega), ← hp, he]
  simp

end Sys2Proof
end

