-- ==== Sys2Proof/Laws/Journal.lean ====
section
/-! SUPPORT. What the journal's shared steps can do, once each: the judgement of the compaction trigger, the live-base counts, the
walk of a band, and the end of replay. -/

namespace Sys2Proof.Machine

/-! ### Rows of one sequence -/

/-- A place of a list whose element has a property is the only such place, or the property is counted more than once. -/
theorem one_lt_countP {α : Type} (p : α → Bool) {l : List α} {b : Nat} {r : α} (h : l[b]? = some r) (hr : p r = true) :
    1 < l.countP p ↔ ∃ i x, i ≠ b ∧ l[i]? = some x ∧ p x = true := by
  induction l generalizing b with
  | nil => simp at h
  | cons a l ih =>
    have hpos : 0 < l.countP p ↔ ∃ (i : Nat) (x : α), l[i]? = some x ∧ p x = true := by
      rw [List.countP_pos_iff]
      constructor
      · rintro ⟨x, hx, hpx⟩
        obtain ⟨i, hi⟩ := List.mem_iff_getElem?.mp hx
        exact ⟨i, x, hi, hpx⟩
      · rintro ⟨i, x, hi, hpx⟩
        exact ⟨x, List.mem_of_getElem? hi, hpx⟩
    cases b with
    | zero =>
      simp only [List.getElem?_cons_zero, Option.some.injEq] at h
      subst h
      rw [List.countP_cons_of_pos hr]
      have : (1 < l.countP p + 1) ↔ 0 < l.countP p := by omega
      rw [this, hpos]
      constructor
      · rintro ⟨i, x, hi, hx⟩
        exact ⟨i + 1, x, by omega, by simpa using hi, hx⟩
      · rintro ⟨i, x, hne, hi, hx⟩
        cases i with
        | zero => exact absurd rfl hne
        | succ i => exact ⟨i, x, by simpa using hi, hx⟩
    | succ b =>
      simp only [List.getElem?_cons_succ] at h
      by_cases ha : p a = true
      · rw [List.countP_cons_of_pos ha]
        have h0 : 0 < l.countP p := hpos.mpr ⟨b, r, h, hr⟩
        refine ⟨fun _ => ⟨0, a, by omega, by simp, ha⟩, fun _ => by omega⟩
      · rw [List.countP_cons_of_neg ha, ih h]
        constructor
        · rintro ⟨i, x, hne, hi, hx⟩
          exact ⟨i + 1, x, by omega, by simpa using hi, hx⟩
        · rintro ⟨i, x, hne, hi, hx⟩
          cases i with
          | zero =>
            simp only [List.getElem?_cons_zero, Option.some.injEq] at hi
            exact absurd (hi ▸ hx) ha
          | succ i => exact ⟨i, x, by omega, by simpa using hi, hx⟩

/-! ### The compaction trigger (R149) -/

/-- The choice among places in index order: the lowest sequence, the lower index of two. -/
theorem foldl_lowerSeq {l : List (Nat × Nat)} {b : Nat × Nat} (h : (b :: l).Pairwise fun x y => x.2 < y.2) :
    ∃ m, l.foldl lowerSeq (some b) = some m ∧ m ∈ b :: l
      ∧ ∀ x ∈ b :: l, m.1 < x.1 ∨ (m.1 = x.1 ∧ m.2 ≤ x.2) := by
  induction l generalizing b with
  | nil => exact ⟨b, rfl, by simp, by simp⟩
  | cons a l ih =>
    rw [List.pairwise_cons, List.pairwise_cons] at h
    simp only [List.foldl_cons, lowerSeq]
    by_cases hab : a.1 < b.1
    · rw [if_pos hab]
      obtain ⟨m, h1, h2, h3⟩ := ih (List.pairwise_cons.mpr h.2)
      refine ⟨m, h1, List.mem_cons_of_mem _ h2, ?_⟩
      intro x hx
      rcases List.mem_cons.mp hx with rfl | hx
      · have := h3 a (by simp)
        omega
      · exact h3 x hx
    · rw [if_neg hab]
      obtain ⟨m, h1, h2, h3⟩ := ih
        (List.pairwise_cons.mpr ⟨fun y hy => h.1 y (by simp [hy]), h.2.2⟩)
      refine ⟨m, h1, ?_, ?_⟩
      · rcases List.mem_cons.mp h2 with rfl | h2
        · simp
        · simp [h2]
      · intro x hx
        rcases List.mem_cons.mp hx with rfl | hx
        · exact h3 x (by simp)
        · rcases List.mem_cons.mp hx with rfl | hx
          · have h4 := h3 b (by simp)
            have h5 := h.1 x (by simp)
            rcases h4 with h4 | h4 <;> omega
          · exact h3 x (by simp [hx])

/-- What `unbasedLeft` computes. -/
theorem State.unbasedLeft_iff (s : State) : s.unbasedLeft = true ↔ unbasedHeld s := by
  simp [State.unbasedLeft, unbasedHeld]

/-- The rows that `choosable` admits, with their sequences, are those of R149. -/
theorem choosable_iff (s : State) (band seq : Nat) :
    MayRetire s band seq ↔ ∃ r, s.jc.bands[band]? = some r ∧ s.jc.choosable s.unbasedLeft r = true ∧ r.seq = some seq := by
  unfold MayRetire Journal.choosable
  constructor
  · rintro ⟨r, hr, hs, hq, hu⟩
    refine ⟨r, hr, ?_, hq⟩
    by_cases h : s.unbasedLeft = true
    · have hone : ¬ 1 < s.jc.bands.countP fun x => x.seq = r.seq := by
        rw [one_lt_countP _ hr (by simp)]
        rintro ⟨i, x, hne, hi, hx⟩
        exact hu (s.unbasedLeft_iff.mp h) i x hne hi (by simpa [hq] using hx)
      simp [hs, h, hone]
    · simp [hs, Bool.not_eq_true _ ▸ h]
  · rintro ⟨r, hr, hc, hq⟩
    simp only [Bool.and_eq_true, decide_eq_true_eq, Bool.not_eq_true'] at hc
    refine ⟨r, hr, hc.1, hq, ?_⟩
    intro hu i x hne hi hx
    have h1 : 1 < s.jc.bands.countP fun x => x.seq = r.seq := by
      rw [one_lt_countP _ hr (by simp)]
      exact ⟨i, x, hne, hi, by simp [hx, hq]⟩
    rw [s.unbasedLeft_iff.mpr hu] at hc
    simp [h1] at hc

/-- A candidate row carries its own place and sequence. -/
theorem candidate_iff (s : State) (i : Nat) (z : Nat × Nat) :
    s.jc.candidate s.unbasedLeft i = some z ↔ z.2 = i ∧ MayRetire s i z.1 := by
  rw [choosable_iff]
  unfold Journal.candidate
  constructor
  · intro hz
    split at hz
    · rename_i r hr
      split at hz
      · rename_i hc
        obtain ⟨q, hq, rfl⟩ := Option.map_eq_some_iff.mp hz
        exact ⟨rfl, r, hr, hc, hq⟩
      · cases hz
    · cases hz
  · rintro ⟨rfl, r, hr, hc, hq⟩
    simp [hr, hc, hq]

/-- What the choice of compaction answers. -/
theorem Journal.choose_spec (s : State) :
    (∀ b, s.jc.choose s.unbasedLeft = some b → ∃ q, MayRetire s b q ∧ ∀ i p, MayRetire s i p → q < p ∨ (q = p ∧ b ≤ i))
      ∧ (s.jc.choose s.unbasedLeft = none → ∀ b q, ¬ MayRetire s b q) := by
  have hmem : ∀ q i, (q, i) ∈ (List.range s.jc.bands.length).filterMap (s.jc.candidate s.unbasedLeft)
      ↔ MayRetire s i q := by
    intro q i
    rw [List.mem_filterMap]
    constructor
    · rintro ⟨j, _, hj⟩
      obtain ⟨rfl, hm⟩ := (candidate_iff s j _).mp hj
      exact hm
    · intro hm
      refine ⟨i, ?_, (candidate_iff s i _).mpr ⟨rfl, hm⟩⟩
      obtain ⟨r, hr, _⟩ := hm
      exact List.mem_range.mpr (List.getElem?_eq_some_iff.mp hr).1
  have hsort : ((List.range s.jc.bands.length).filterMap (s.jc.candidate s.unbasedLeft)).Pairwise
      fun x y => x.2 < y.2 := by
    rw [List.pairwise_filterMap]
    refine List.pairwise_lt_range.imp ?_
    intro a b hab x hx y hy
    rw [((candidate_iff s a x).mp hx).1, ((candidate_iff s b y).mp hy).1]
    exact hab
  unfold Journal.choose
  cases hl : (List.range s.jc.bands.length).filterMap (s.jc.candidate s.unbasedLeft) with
  | nil =>
    rw [hl] at hmem
    exact ⟨fun b hb => by simp at hb, fun _ b q hm => by simpa using (hmem q b).mpr hm⟩
  | cons x l =>
    rw [hl] at hsort hmem
    obtain ⟨m, h1, h2, h3⟩ := foldl_lowerSeq hsort
    have hf : List.foldl lowerSeq none (x :: l) = some m := h1
    rw [hf]
    refine ⟨?_, fun hh => by simp at hh⟩
    intro b hb
    cases hb
    exact ⟨m.1, (hmem m.1 m.2).mp h2, fun i p hm => h3 (p, i) ((hmem p i).mpr hm)⟩

/-- The judgement of the trigger is R149's. -/
theorem State.judgeTrigger_judged (s : State) : TriggerJudged s s.judgeTrigger := by
  have hspec := Journal.choose_spec s
  unfold TriggerJudged State.judgeTrigger
  refine ⟨?_, ?_⟩
  · intro h
    have h' : s.jc.compaction = .idle ∧ s.jc.fault = false ∧ s.jc.toErase = [] ∧ s.jc.rows .erased ≤ Config.compactAt := h
    simp only
    rw [if_pos h']
    refine ⟨?_, ?_⟩
    · intro band seq hm hmin
      cases hc : s.jc.choose s.unbasedLeft with
      | none => exact absurd hm (hspec.2 hc band seq)
      | some b =>
        obtain ⟨q, hq, hq'⟩ := hspec.1 b hc
        have e1 := hmin b q hq
        have e2 := hq' band seq hm
        have : b = band := by omega
        subst this
        rfl
    · intro hno
      cases hc : s.jc.choose s.unbasedLeft with
      | none => rfl
      | some b =>
        obtain ⟨q, hq, _⟩ := hspec.1 b hc
        exact absurd hq (hno b q)
  · intro h
    have h' : ¬ (s.jc.compaction = .idle ∧ s.jc.fault = false ∧ s.jc.toErase = [] ∧ s.jc.rows .erased ≤ Config.compactAt) := h
    simp only
    rw [if_neg h']
    rfl

/-! ### The walk of a band (R140, R165) -/

/-- A record that is read takes at least 13 bytes and ends within the band. -/
theorem readRecord_size {f : List Host.Cell} {base off size : Nat} {r : JRecord} (h : readRecord f base off = .record r size) :
    13 ≤ size ∧ off + size ≤ 4096 := by
  unfold readRecord at h
  simp only at h
  split at h
  · cases h
  · split at h
    · cases h
    · split at h
      · cases h
      · split at h
        · cases h
        · rename_i hc
          simp only [RecordRead.record.injEq] at h
          have : Config.bandBytes = 4096 := rfl
          omega

/-- The walk of a band takes its readable records in order, and ends as R140 gives. -/
theorem walkBand_walked (fuel : Nat) (s : State) (band seq : Nat) (closeEnd : Option Nat) (off : Nat)
    (hoff : off ≤ 4096) (h : 4096 < off + 13 * fuel) :
    Walked band seq closeEnd s off (walkBand fuel s band seq closeEnd off).1 (walkBand fuel s band seq closeEnd off).2.1
      (walkBand fuel s band seq closeEnd off).2.2 := by
  induction fuel generalizing s off with
  | zero => omega
  | succ fuel ih =>
    rw [walkBand]
    by_cases hc : (closeEnd.any fun c => decide (c ≤ off)) = true
    · rw [if_pos hc]
      cases hce : closeEnd with
      | none => simp [hce] at hc
      | some c => exact .consumed rfl (by simpa [hce] using hc)
    · rw [if_neg hc]
      have hlt : ∀ c, closeEnd = some c → off < c := by
        intro c hce
        simp only [hce, Option.any_some, decide_eq_true_eq] at hc
        omega
      by_cases ho : Config.bandBytes ≤ off
      · rw [if_pos ho]
        exact .bandEnd hlt ho
      · rw [if_neg ho]
        have ho' : off < 4096 := Nat.lt_of_not_le ho
        have hb : bandAddress band 0 = band * 4096 := by simp [bandAddress, Config.bandBytes]
        rw [hb]
        cases hr : readRecord s.flash (band * 4096) off with
        | noRecord => exact .noRecord hlt ho' hr
        | voided => exact .voided hlt ho' hr
        | unreadable => exact .unreadable hlt ho' hr
        | record r size =>
          have := readRecord_size hr
          have hw := ih (s.replayRecord seq r) (off + size) this.2 (by omega)
          exact .record hlt ho' hr hw

/-- A record read by replay changes the table and the anomaly count alone. -/
theorem State.replayRecord_frame (s : State) (q : Nat) (r : JRecord) :
    s.replayRecord q r = { s with
      pt := (s.replayRecord q r).pt, jc := { s.jc with anomalies := (s.replayRecord q r).jc.anomalies } } := by
  have hentry : ∀ (u : State) (old : Option Entry), u.replayEntry q r old = { u with
      pt := (u.replayEntry q r old).pt, jc := { u.jc with anomalies := (u.replayEntry q r old).jc.anomalies } } := by
    intro u old
    unfold State.replayEntry
    split
    · rfl
    · split <;> rfl
  have hwhole : ∀ u : State, u.replayWhole q r = { u with
      pt := (u.replayWhole q r).pt, jc := { u.jc with anomalies := (u.replayWhole q r).jc.anomalies } } := by
    intro u
    unfold State.replayWhole
    split
    · exact hentry u none
    · split
      · exact hentry u _
      · rfl
  have htail : ∀ u : State, u.replayTail r = { u with
      pt := (u.replayTail r).pt, jc := { u.jc with anomalies := (u.replayTail r).jc.anomalies } } := by
    intro u
    unfold State.replayTail
    split
    · rfl
    · dsimp only
      generalize hc : (!Entry.isTombstone _ && _ && _ && Version.supersedes _ _) = c
      cases c <;> rfl
  have hdel : ∀ u : State, u.replayDelete r = { u with
      pt := (u.replayDelete r).pt, jc := { u.jc with anomalies := (u.replayDelete r).jc.anomalies } } := by
    intro u
    unfold State.replayDelete
    split
    · split <;> rfl
    · rfl
  unfold State.replayRecord
  split
  · rfl
  · dsimp only
    split
    · rw [htail]
    · split
      · rw [hdel]
      · rw [hwhole]

/-- The walk of a band changes the table and the anomaly count alone. -/
theorem Walked.frame {band seq : Nat} {closeEnd : Option Nat} {s t : State} {off off' : Nat} {how : WalkEnd}
    (h : Walked band seq closeEnd s off t off' how) :
    t = { s with pt := t.pt, jc := { s.jc with anomalies := t.jc.anomalies } } := by
  induction h with
  | record _ _ _ _ ih => rw [ih, State.replayRecord_frame]
  | _ => rfl

/-! ### The order of the walk and the newest OPEN band (R164) -/

/-- One band comes before another in the order of the walk. -/
def walksBefore (a b : Nat × Nat) : Prop := a.1 < b.1 ∨ (a.1 = b.1 ∧ a.2 < b.2)

theorem mem_insertBand (b x : Nat × Nat) (l : List (Nat × Nat)) : x ∈ insertBand b l ↔ x = b ∨ x ∈ l := by
  induction l with
  | nil => simp [insertBand]
  | cons a l ih =>
    simp only [insertBand]
    split
    · simp
    · simp [ih]
      tauto

theorem insertBand_sorted {b : Nat × Nat} {l : List (Nat × Nat)} (h : l.Pairwise walksBefore) (hb : ∀ a ∈ l, a.2 < b.2) :
    (insertBand b l).Pairwise walksBefore := by
  induction l with
  | nil => simp [insertBand]
  | cons a l ih =>
    rw [List.pairwise_cons] at h
    simp only [insertBand]
    split
    · rename_i hlt
      refine List.pairwise_cons.mpr ⟨?_, List.pairwise_cons.mpr h⟩
      intro x hx
      rcases List.mem_cons.mp hx with rfl | hx
      · exact .inl hlt
      · have := h.1 x hx
        unfold walksBefore at *
        omega
    · rename_i hge
      refine List.pairwise_cons.mpr ⟨?_, ih h.2 fun y hy => hb y (by simp [hy])⟩
      intro x hx
      rcases (mem_insertBand b x l).mp hx with rfl | hx
      · have := hb a (by simp)
        unfold walksBefore
        omega
      · exact h.1 x hx

theorem foldl_insertBand {l acc : List (Nat × Nat)} (hacc : acc.Pairwise walksBefore)
    (hl : l.Pairwise fun x y => x.2 < y.2) (hal : ∀ a ∈ acc, ∀ b ∈ l, a.2 < b.2) :
    (l.foldl (fun l b => insertBand b l) acc).Pairwise walksBefore
      ∧ ∀ x, x ∈ l.foldl (fun l b => insertBand b l) acc ↔ x ∈ acc ∨ x ∈ l := by
  induction l generalizing acc with
  | nil => simpa using hacc
  | cons b l ih =>
    rw [List.pairwise_cons] at hl
    have := ih (acc := insertBand b acc) (insertBand_sorted hacc fun a ha => hal a ha b (by simp)) hl.2 (by
      intro a ha c hc
      rcases (mem_insertBand b a acc).mp ha with rfl | ha
      · exact hl.1 c hc
      · exact hal a ha c (by simp [hc]))
    refine ⟨this.1, fun x => ?_⟩
    rw [List.foldl_cons, this.2 x, mem_insertBand]
    simp
    tauto

/-- The order of the walk holds the rows with a sequence, each with it, in ascending sequence and then index. -/
theorem Journal.walkOrder_spec (jc : Journal) :
    jc.walkOrder.Pairwise walksBefore ∧ ∀ q i, (q, i) ∈ jc.walkOrder ↔ jc.seqOf i = some q := by
  have hmem : ∀ q i, (q, i) ∈ (List.range jc.bands.length).filterMap (fun i => (jc.seqOf i).map fun q => (q, i))
      ↔ jc.seqOf i = some q := by
    intro q i
    rw [List.mem_filterMap]
    constructor
    · rintro ⟨j, _, hj⟩
      obtain ⟨p, hp, he⟩ := Option.map_eq_some_iff.mp hj
      cases he
      exact hp
    · intro h
      refine ⟨i, ?_, by simp [h]⟩
      unfold Journal.seqOf at h
      obtain ⟨r, hr, _⟩ := Option.bind_eq_some_iff.mp h
      exact List.mem_range.mpr (List.getElem?_eq_some_iff.mp hr).1
  have hsort : ((List.range jc.bands.length).filterMap fun i => (jc.seqOf i).map fun q => (q, i)).Pairwise
      fun x y => x.2 < y.2 := by
    rw [List.pairwise_filterMap]
    refine List.pairwise_lt_range.imp ?_
    intro a b hab x hx y hy
    obtain ⟨_, _, rfl⟩ := Option.map_eq_some_iff.mp hx
    obtain ⟨_, _, rfl⟩ := Option.map_eq_some_iff.mp hy
    exact hab
  have := foldl_insertBand (acc := []) List.Pairwise.nil hsort (by simp)
  unfold Journal.walkOrder
  exact ⟨this.1, fun q i => by rw [this.2]; simp [hmem q i]⟩

theorem Journal.seqOf_iff (jc : Journal) (i q : Nat) :
    jc.seqOf i = some q ↔ ∃ r, jc.bands[i]? = some r ∧ r.seq = some q := Option.bind_eq_some_iff

/-- In the order of the walk, a band after another of its sequence follows one at once. -/
theorem duplicates_eq {l : List (Nat × Nat)} (h : l.Pairwise walksBefore) :
    duplicates l = l.countP fun x => l.any fun y => decide (y.2 < x.2) && decide (y.1 = x.1) := by
  induction l with
  | nil => rfl
  | cons a l ih =>
    rw [List.pairwise_cons] at h
    cases l with
    | nil => simp [duplicates]
    | cons b l =>
      have ih := ih h.2
      have h2 := List.pairwise_cons.mp h.2
      have hab := h.1 b (by simp)
      unfold walksBefore at h h2 hab
      have ha : ((a :: b :: l).any fun y => decide (y.2 < a.2) && decide (y.1 = a.1)) = false := by
        rw [List.any_eq_false]
        intro y hy
        simp only [Bool.and_eq_true, decide_eq_true_eq]
        rcases List.mem_cons.mp hy with rfl | hy
        · omega
        · have := h.1 y hy
          omega
      have hb0 : ((b :: l).any fun y => decide (y.2 < b.2) && decide (y.1 = b.1)) = false := by
        rw [List.any_eq_false]
        intro y hy
        simp only [Bool.and_eq_true, decide_eq_true_eq]
        rcases List.mem_cons.mp hy with rfl | hy
        · omega
        · have := h2.1 y hy
          omega
      have hb1 : ((a :: b :: l).any fun y => decide (y.2 < b.2) && decide (y.1 = b.1)) = decide (a.1 = b.1) := by
        rw [List.any_cons, hb0, Bool.or_false, Bool.eq_iff_iff]
        simp only [Bool.and_eq_true, decide_eq_true_eq]
        omega
      have hl : l.countP (fun x => (a :: b :: l).any fun y => decide (y.2 < x.2) && decide (y.1 = x.1))
          = l.countP fun x => (b :: l).any fun y => decide (y.2 < x.2) && decide (y.1 = x.1) := by
        refine List.countP_congr fun x hx => ?_
        rw [List.any_cons (a := a), Bool.or_eq_true]
        constructor
        · rintro (hax | hx')
          · simp only [Bool.and_eq_true, decide_eq_true_eq] at hax
            have h3 := h2.1 x hx
            rw [List.any_cons, Bool.or_eq_true]
            left
            simp only [Bool.and_eq_true, decide_eq_true_eq]
            omega
          · exact hx'
        · exact .inr
      rw [List.countP_cons, ha, List.countP_cons, hb1, hl, duplicates, ih, List.countP_cons, hb0]
      by_cases hq : a.1 = b.1
      · simp [hq]
        omega
      · simp [hq]

/-- The newest OPEN band is R164's. -/
theorem Journal.newestOpen_iff (jc : Journal) (b : Nat) :
    (∃ q, jc.newestOpen = some (q, b)) ↔ NewestOpen jc.bands b := by
  obtain ⟨hsort, hmem⟩ := jc.walkOrder_spec
  have hm : ∀ q i, (q, i) ∈ (jc.walkOrder.filter fun b => (jc.bands[b.2]?).any fun r => r.state = .open_)
      ↔ ∃ r, jc.bands[i]? = some r ∧ r.state = .open_ ∧ r.seq = some q := by
    intro q i
    rw [List.mem_filter, hmem, jc.seqOf_iff]
    constructor
    · rintro ⟨⟨r, hr, hq⟩, ho⟩
      simp only [hr, Option.any_some, decide_eq_true_eq] at ho
      exact ⟨r, hr, ho, hq⟩
    · rintro ⟨r, hr, ho, hq⟩
      exact ⟨⟨r, hr, hq⟩, by simp [hr, ho]⟩
  have hs := hsort.sublist (List.filter_sublist (p := fun b => (jc.bands[b.2]?).any fun r => r.state = .open_))
  unfold Journal.newestOpen NewestOpen
  generalize (jc.walkOrder.filter fun b => (jc.bands[b.2]?).any fun r => r.state = .open_) = l at hm hs
  constructor
  · rintro ⟨q, hq⟩
    obtain ⟨r, hr, ho, hrq⟩ := (hm q b).mp (List.mem_of_getLast? hq)
    refine ⟨r, q, hr, ho, hrq, ?_⟩
    intro i x p hx hxo hxp
    have hin := (hm p i).mpr ⟨x, hx, hxo, hxp⟩
    obtain ⟨l', rfl⟩ := List.getLast?_eq_some_iff.mp hq
    rcases List.mem_append.mp hin with h | h
    · have := (List.pairwise_append.mp hs).2.2 _ h (q, b) (by simp)
      unfold walksBefore at this
      dsimp only at this
      omega
    · simp only [List.mem_singleton, Prod.mk.injEq] at h
      omega
  · rintro ⟨r, q, hr, ho, hrq, hmax⟩
    have hin := (hm q b).mpr ⟨r, hr, ho, hrq⟩
    cases hl : l.getLast? with
    | none =>
      rw [List.getLast?_eq_none_iff] at hl
      simp [hl] at hin
    | some z =>
      obtain ⟨l', rfl⟩ := List.getLast?_eq_some_iff.mp hl
      obtain ⟨x, hx, hxo, hxp⟩ := (hm z.1 z.2).mp (by simp)
      have hz := hmax z.2 x z.1 hx hxo hxp
      rcases List.mem_append.mp hin with h | h
      · have := (List.pairwise_append.mp hs).2.2 _ h z (by simp)
        unfold walksBefore at this
        dsimp only at this
        omega
      · simp only [List.mem_singleton] at h
        exact ⟨q, by rw [h]⟩

/-! ### The end of replay (R168, R169) -/

/-- The settling of the table is R168's. -/
theorem State.settleTable_settled (s : State) : TableSettled s s.settleTable := by
  have hb : ∀ e, baseTwice s.jc.bands e = s.jc.lostBase e := fun e => rfl
  refine ⟨(s.pt.entries.filter (baseTwice s.jc.bands)).map Entry.id, rfl, ?_⟩
  have hlive : ∀ r : BandRow, r ∈ s.jc.bands → s.jc.recount s.pt.entries r
      = { r with live := s.pt.entries.countP fun e => r.seq ≠ none ∧ e.base = r.seq ∧ baseTwice s.jc.bands e = false } := by
    intro r _
    unfold Journal.recount
    congr 1
    cases hq : r.seq with
    | none => simp
    | some q =>
      by_cases h2 : s.jc.seqTwice q = true
      · simp only [Option.any_some, h2, if_true]
        symm
        rw [List.countP_eq_zero]
        intro e _
        simp only [decide_eq_true_eq, not_and]
        intro _ he
        simp [hb, Journal.lostBase, he, h2]
      · simp only [Option.any_some, h2, Option.isSome_some, Bool.true_and]
        apply List.countP_congr
        intro e _
        simp only [beq_iff_eq, decide_eq_true_eq, ne_eq, reduceCtorEq, not_false_eq_true, true_and]
        constructor
        · intro he
          exact ⟨he, by simp [hb, Journal.lostBase, he, h2]⟩
        · exact fun h => h.1
  have hm : s.jc.bands.map (s.jc.recount s.pt.entries) = s.jc.bands.map fun r => { r with
      live := s.pt.entries.countP fun e => r.seq ≠ none ∧ e.base = r.seq ∧ baseTwice s.jc.bands e = false } :=
    List.map_congr_left hlive
  have he : ∀ ids : List Nat, s.pt.entries.map (s.jc.settled ids) = s.pt.entries.map fun e => { e with
      jstate := if baseTwice s.jc.bands e = true then (if e.id ∈ ids then .queued else .unsaved) else .clean
      base := if baseTwice s.jc.bands e = true then none else e.base
      dirty := .none, mark := .none, watch := false } := by
    intro ids
    apply List.map_congr_left
    intro e _
    simp [Journal.settled, hb]
  unfold State.settleTable ParamTable.mapEntries
  simp only [hm, he]
  by_cases hn : Config.maxQueue < ((s.pt.entries.filter s.jc.lostBase).map Entry.id).length
  · rw [if_pos hn]
    have hn' : 64 < ((s.pt.entries.filter (baseTwice s.jc.bands)).map Entry.id).length := hn
    rw [if_pos hn']
    rfl
  · rw [if_neg hn]
    have hn' : ¬ 64 < ((s.pt.entries.filter (baseTwice s.jc.bands)).map Entry.id).length := hn
    rw [if_neg hn']
    rfl

/-- A program begins, or waits for a lend or a RESTART. -/
theorem State.issue_issued (s : State) (p : Prog) : Issued s (s.issue p) p := by
  unfold Issued State.issue State.canBegin
  by_cases h1 : s.sp.lend = .idle <;> by_cases h2 : s.cp.restarting = true <;> simp [h1, h2]

/-- Replay going on to its closes is R169's. -/
theorem State.nextClose_closes (s : State) (todo : List (Nat × Nat)) : ReplayCloses s (s.nextClose todo) todo := by
  refine ⟨?_, ?_⟩
  · rintro rfl
    exact State.judgeTrigger_judged _
  · rintro band off rest rfl
    exact State.issue_issued _ _

/-- The settling of the table keeps every row's state and sequence, and replay itself. -/
theorem State.settleTable_rows (s : State) :
    ∃ f : BandRow → BandRow, s.settleTable.jc.bands = s.jc.bands.map f ∧ (∀ r, (f r).state = r.state ∧ (f r).seq = r.seq)
      ∧ s.settleTable.jc.replay = s.jc.replay := by
  refine ⟨s.jc.recount s.pt.entries, ?_, fun r => ⟨rfl, rfl⟩, ?_⟩ <;>
    (unfold State.settleTable; simp only; split <;> rfl)

/-- The head that replay keeps is a matter of the rows' states and sequences alone. -/
theorem keptHead_congr {jc jc0 : Journal} {r : Replay} {f : BandRow → BandRow} (hb : jc.bands = jc0.bands.map f)
    (hf : ∀ r, (f r).state = r.state ∧ (f r).seq = r.seq) (h : Head) : KeptHead jc r h ↔ KeptHead jc0 r h := by
  have hrow : ∀ (i : Nat) (P : BandState → Option Nat → Prop),
      (∃ x, jc.bands[i]? = some x ∧ P x.state x.seq) ↔ ∃ x, jc0.bands[i]? = some x ∧ P x.state x.seq := by
    intro i P
    simp only [hb, List.getElem?_map, Option.map_eq_some_iff]
    constructor
    · rintro ⟨_, ⟨x, hx, rfl⟩, hP⟩
      exact ⟨x, hx, by rwa [(hf x).1, (hf x).2] at hP⟩
    · rintro ⟨x, hx, hP⟩
      exact ⟨f x, ⟨x, hx, rfl⟩, by rwa [(hf x).1, (hf x).2]⟩
  have hall : ∀ (i : Nat) (P : BandState → Option Nat → Prop),
      (∀ x, jc.bands[i]? = some x → P x.state x.seq) ↔ ∀ x, jc0.bands[i]? = some x → P x.state x.seq := by
    intro i P
    have := hrow i fun a b => ¬ P a b
    constructor
    · intro h1 x hx
      by_contra hP
      obtain ⟨y, hy, hPy⟩ := this.mpr ⟨x, hx, hP⟩
      exact hPy (h1 y hy)
    · intro h1 x hx
      by_contra hP
      obtain ⟨y, hy, hPy⟩ := this.mp ⟨x, hx, hP⟩
      exact hPy (h1 y hy)
  unfold KeptHead NewestOpen
  have e1 := hrow h.band fun st sq => ∃ seq, st = .open_ ∧ sq = some seq
    ∧ ∀ i x q, jc.bands[i]? = some x → x.state = .open_ → x.seq = some q → q < seq ∨ (q = seq ∧ i ≤ h.band)
  have e2 : ∀ seq, (∀ i x q, jc.bands[i]? = some x → x.state = .open_ → x.seq = some q → q < seq ∨ (q = seq ∧ i ≤ h.band))
      ↔ ∀ i x q, jc0.bands[i]? = some x → x.state = .open_ → x.seq = some q → q < seq ∨ (q = seq ∧ i ≤ h.band) := by
    intro seq
    have := fun i => hall i fun st sq => ∀ q, st = .open_ → sq = some q → q < seq ∨ (q = seq ∧ i ≤ h.band)
    exact ⟨fun h1 i x q hx => (this i).mp (fun x hx q => h1 i x q hx) x hx q,
      fun h1 i x q hx => (this i).mpr (fun x hx q => h1 i x q hx) x hx q⟩
  have e3 : ∀ q, (∃ (y : BandRow) (p : Nat), jc.bands[h.band]? = some y ∧ y.seq = some p ∧ q ≤ p)
      ↔ ∃ (y : BandRow) (p : Nat), jc0.bands[h.band]? = some y ∧ y.seq = some p ∧ q ≤ p := by
    intro q
    have := hrow h.band fun _ sq => ∃ p, sq = some p ∧ q ≤ p
    simpa only [exists_and_left] using this
  have e4 : (∀ (i : Nat) (x : BandRow) (q : Nat), jc.bands[i]? = some x → x.seq = some q →
        ∃ (y : BandRow) (p : Nat), jc.bands[h.band]? = some y ∧ y.seq = some p ∧ q ≤ p)
      ↔ ∀ (i : Nat) (x : BandRow) (q : Nat), jc0.bands[i]? = some x → x.seq = some q →
        ∃ (y : BandRow) (p : Nat), jc0.bands[h.band]? = some y ∧ y.seq = some p ∧ q ≤ p := by
    simp only [e3]
    have := fun i => hall i fun _ sq => ∀ q, sq = some q →
      ∃ (y : BandRow) (p : Nat), jc0.bands[h.band]? = some y ∧ y.seq = some p ∧ q ≤ p
    exact ⟨fun h1 i x q hx => (this i).mp (fun x hx q => h1 i x q hx) x hx q,
      fun h1 i x q hx => (this i).mpr (fun x hx q => h1 i x q hx) x hx q⟩
  rw [e4]
  refine and_congr ?_ Iff.rfl
  simp only [e2] at e1
  simp only [e2, exists_and_left] at e1 ⊢
  exact e1

/-- The head that replay keeps, as it is computed, is R169's. -/
theorem keptHead_iff (jc : Journal) (r : Replay) (h : Head) :
    ((jc.keptBand r).map fun b => ({ band := b, pos := (r.noteOf b).elim Config.headerBytes WalkNote.offset } : Head)) = some h
      ↔ KeptHead jc r h := by
  have hn := jc.newestOpen_iff
  obtain ⟨_, hmem⟩ := jc.walkOrder_spec
  have hseq : ∀ n, jc.newestOpen = some n → jc.seqOf n.2 = some n.1 := by
    intro n hn
    have := List.mem_of_getLast? hn
    exact (hmem n.1 n.2).mp (List.mem_filter.mp this).1
  have hkept : ∀ n, jc.newestOpen = some n → (jc.headKept r n = true ↔
      (∃ w, r.noteOf n.2 = some w ∧ (w.end_ = .noRecord ∨ w.end_ = .bandEnd))
        ∧ ∀ (i : Nat) (x : BandRow) (q : Nat), jc.bands[i]? = some x → x.seq = some q →
          ∃ (y : BandRow) (p : Nat), jc.bands[n.2]? = some y ∧ y.seq = some p ∧ q ≤ p) := by
    intro n hnn
    obtain ⟨y, hy, hyq⟩ := (jc.seqOf_iff n.2 n.1).mp (hseq n hnn)
    unfold Journal.headKept
    rw [Bool.and_eq_true, List.all_eq_true]
    refine and_congr ?_ ?_
    · cases r.noteOf n.2 <;> simp
    · constructor
      · intro h1 i x q hx hq
        have := h1 (q, i) ((hmem q i).mpr ((jc.seqOf_iff i q).mpr ⟨x, hx, hq⟩))
        exact ⟨y, n.1, hy, hyq, by simpa using this⟩
      · rintro h1 ⟨q, i⟩ hb
        obtain ⟨x, hx, hq⟩ := (jc.seqOf_iff i q).mp ((hmem q i).mp hb)
        obtain ⟨y', p, hy', hp, hle⟩ := h1 i x q hx hq
        rw [hy] at hy'
        cases hy'
        rw [hyq] at hp
        cases hp
        simpa using hle
  unfold KeptHead Journal.keptBand
  cases hno : jc.newestOpen with
  | none =>
    simp only [Option.map_none, reduceCtorEq, false_iff]
    rintro ⟨h1, _⟩
    obtain ⟨q, hq⟩ := (hn h.band).mpr h1
    rw [hno] at hq
    cases hq
  | some n =>
    have hk := hkept n hno
    have hb : NewestOpen jc.bands h.band ↔ n.2 = h.band := by
      rw [← hn, hno]
      constructor
      · rintro ⟨q, hq⟩
        cases hq
        rfl
      · rintro hb
        exact ⟨n.1, by rw [← hb]⟩
    rw [hb]
    simp only
    by_cases hd : jc.headKept r n = true
    · rw [if_pos hd]
      obtain ⟨⟨w, hw, hwe⟩, hmax⟩ := hk.mp hd
      simp only [Option.map_some, Option.some.injEq, hw, Option.elim]
      constructor
      · rintro rfl
        exact ⟨rfl, ⟨w, hw, rfl, hwe⟩, hmax⟩
      · rintro ⟨h1, ⟨w', hw', hpos, _⟩, _⟩
        have : w' = w := by
          rw [h1] at hw
          exact Option.some.inj (hw'.symm.trans hw)
        subst this
        rw [h1, hpos]
    · rw [if_neg hd]
      simp only [Option.map_none, reduceCtorEq, false_iff]
      rintro ⟨h1, ⟨w', hw', _, hwe⟩, hmax⟩
      apply hd
      rw [hk, h1]
      exact ⟨⟨w', hw', hwe⟩, hmax⟩

/-- The end of replay's walks is R168's and R169's. -/
theorem State.finishWalk_settled (s : State) {r : Replay} (hr : s.jc.replay = some r) : ReplaySettled s s.finishWalk r := by
  obtain ⟨f, hb, hf, _⟩ := s.settleTable_rows
  unfold State.finishWalk
  rw [hr]
  refine ⟨s.settleTable, _, _, s.settleTable_settled, fun h => ?_, ?_, State.nextClose_closes _ _⟩
  · rw [← keptHead_congr hb hf]
    exact keptHead_iff s.settleTable.jc r h
  · have hany : ∀ i : Nat, ((s.settleTable.jc.bands[i]?).any fun x : BandRow => x.state = .open_)
        = (s.jc.bands[i]?).any fun x : BandRow => x.state = .open_ := by
      intro i
      rw [hb, List.getElem?_map]
      cases s.jc.bands[i]? with
      | none => rfl
      | some x => simp [(hf x).1]
    simp only [hb, List.length_map]
    refine congrArg (List.map _) (List.filter_congr fun i _ => ?_)
    rw [← hany i, hb]
    refine congrArg (_ && ·) ?_
    cases s.settleTable.jc.keptBand r <;> simp

end Sys2Proof.Machine
end

