-- ==== Sys2Proof/Laws/Failure.lean ====
section
/-! SUPPORT. What the journal does at a FAULT, at the opening of a band and at the rewrite of a failed record, once each. -/

namespace Sys2Proof.Machine

/-- What the entry into FAULT makes of the slot. -/
theorem State.completeLong_slot (s : State) (code : Byte) (r : Result) :
    (∀ tag, s.cp.slot = .executing code tag → (s.completeLong code r).cp.slot
        = .done { code := code, tag := tag, result := r, data := [] })
      ∧ ((∀ tag, s.cp.slot ≠ .executing code tag) → (s.completeLong code r).cp.slot = s.cp.slot)
      ∧ s.completeLong code r = { s with cp := { s.cp with slot := (s.completeLong code r).cp.slot } } := by
  refine ⟨?_, ?_, ?_⟩
  · intro tag hs
    simp [State.completeLong, hs]
  · intro hs
    unfold State.completeLong
    split
    · rename_i c tag hc
      by_cases h : c = code
      · exact absurd (h ▸ hc) (hs tag)
      · simp [h]
    · rfl
  · unfold State.completeLong
    split
    · split <;> rfl
    · rfl

/-- The entry into FAULT is R156's. -/
theorem State.enterFault_entered (s : State) : FaultEntered s s.enterFault := by
  have hslot := State.completeLong_slot { s with
    pt := s.pt.mapEntries Entry.unqueue
    jc := s.jc.toFault
    sp := { s.sp with cmd := .none, poll := none } } flushCode .failedStorage
  refine ⟨_, _, hslot.1, hslot.2.1, rfl, ?_⟩
  unfold State.enterFault
  simp only
  rw [hslot.2.2]
  simp only [State.grantWaiting, State.notify, State.mapPort, StoragePort.grant]
  by_cases hq : (s.pt.entries.any fun e => e.jstate = .queued) = true <;> by_cases hw : s.sp.lend = .waiting <;>
    simp [hq, hw, Journal.toFault, ParamTable.mapEntries, Entry.unqueue, BandRow.to, satInc, satAdd, Config.countLimit]

/-- The row of a walked band after a FAULT in replay: FULL where it is OPEN and no head. -/
theorem Journal.walkedRow_open (jc : Journal) (i : Nat) (row : BandRow) : jc.walkedRow i row
    = if row.state = .open_ ∧ (∀ h, jc.head = some h → h.band ≠ i) then { row with state := .full } else row := by
  unfold Journal.walkedRow BandRow.to
  cases jc.head <;> simp

/-- A FAULT in replay is R170's. -/
theorem State.replayFault_faulted (s : State) {r : Replay} (hr : s.jc.replay = some r) : ReplayFaulted s s.replayFault r := by
  have hrows : s.jc.badRows (bandCount s.straps) = (List.range (16 * 2 ^ s.straps.bc.toNat)).map fun i =>
        match s.jc.bands[i]? with
        | some row =>
          if (r.ends.any fun n => n.band = i) = true then
            (if row.state = .open_ ∧ (∀ h, s.jc.head = some h → h.band ≠ i) then { row with state := .full } else row)
          else { state := .bad, seq := none, live := 0 }
        | none => { state := .bad, seq := none, live := 0 } := by
    unfold Journal.badRows bandCount
    refine List.map_congr_left fun i _ => ?_
    rw [hr]
    cases s.jc.bands[i]? with
    | none => rfl
    | some row =>
      simp only [Option.elim, BandRow.bare, List.contains_eq_any_beq, List.any_map]
      have : (r.ends.any ((fun x => i == x) ∘ WalkNote.band)) = r.ends.any fun n => n.band = i := by
        congr 1
        funext n
        rw [Bool.eq_iff_iff]
        simp only [Function.comp_apply, beq_iff_eq, decide_eq_true_eq]
        exact eq_comm
      rw [this, s.jc.walkedRow_open i row]
  have hx : s.replayFault = (if r.settledTable = true then
      s.mapJournal fun jc => { jc with bands := jc.badRows (bandCount s.straps), toErase := [] }
      else (s.mapJournal fun jc => { jc with bands := jc.badRows (bandCount s.straps), toErase := [] }).settleTable
        ).leaveReplay.enterFault := by
    unfold State.replayFault
    rw [hr]
    rfl
  rw [hx]
  refine ⟨s.mapJournal fun jc => { jc with bands := jc.badRows (bandCount s.straps), toErase := [] }, _, ?_, ?_, ?_,
    State.enterFault_entered _⟩
  · exact congrArg (fun rows => ({ s with jc := { s.jc with bands := rows, toErase := [] } } : State)) hrows
  · intro todo hp
    have : r.settledTable = true := by simp [Replay.settledTable, hp]
    rw [if_pos this]
  · intro hp
    have : r.settledTable = false := by
      unfold Replay.settledTable
      split
      · rename_i todo h
        exact absurd h (hp todo)
      · rfl
    rw [this]
    exact State.settleTable_settled _

/-- The ERASED band of lowest index. -/
theorem Journal.lowestErased_of {jc : Journal} {b : Nat} {row : BandRow} (hb : jc.bands[b]? = some row)
    (he : row.state = .erased) (hlow : ∀ i x, i < b → jc.bands[i]? = some x → x.state ≠ .erased) :
    jc.lowestErased = some b := by
  unfold Journal.lowestErased
  obtain ⟨hlt, hget⟩ := List.getElem?_eq_some_iff.mp hb
  rw [List.findIdx?_eq_some_iff_getElem]
  refine ⟨hlt, by simp [hget, he], fun j hj => ?_⟩
  have := hlow j _ hj (List.getElem?_eq_getElem (by omega))
  simpa using this

/-- The opening of a band is R146's and R147's. -/
theorem State.openBand_opening (s : State) (w : WriteJob) : BandOpening s (s.openBand w) w := by
  have hres : s.jc.reserved w.side = true ↔ w.side = .append ∧ (s.jc.bands.countP fun r => r.state = .erased) < 2 := by
    cases w.side <;> simp [Journal.reserved, Journal.rows]
  have hopen : ∀ P : Prop, (w.side ≠ .append ∨ 2 ≤ s.jc.bands.countP fun r => r.state = .erased) →
      (s.jc.reserved w.side = false → P) → P := by
    intro P h k
    apply k
    rw [Bool.eq_false_iff]
    intro hr
    have := hres.mp hr
    rcases h with h | h
    · exact h this.1
    · omega
  refine ⟨_, rfl, ?_, ?_, ?_⟩
  · intro h1 h2
    simp [State.openBand, hres.mpr ⟨h1, h2⟩]
  · intro h hx
    refine hopen _ h fun hr => ?_
    rcases hx with hx | hx
    · simp only [State.openBand, hr, hx, Config.maxGeneration, Bool.false_eq_true, if_false, if_true]
      exact State.enterFault_entered s
    · have hn : s.jc.lowestErased = none := by
        unfold Journal.lowestErased
        rw [List.findIdx?_eq_none_iff]
        intro r hr
        have := List.countP_eq_zero.mp hx r hr
        simpa using this
      simp only [State.openBand, hr, Bool.false_eq_true, if_false, hn]
      split <;> exact State.enterFault_entered s
  · intro b row h hq hb he hlow
    refine hopen _ h fun hr => ?_
    have hq' : ¬ s.jc.lastSeq = Config.maxGeneration := hq
    simp only [State.openBand, hr, Bool.false_eq_true, if_false, hq', Journal.lowestErased_of hb he hlow]
    exact State.issue_issued _ _

/-- The write of an append is built as R143 gives. -/
theorem State.appendJob_built (s : State) (q : QItem) (changed : Bool) : BuiltFor s q changed (s.appendJob q changed) := by
  cases he : s.entry q.id with
  | none =>
    refine ⟨s.localTomb q.id, ?_, fun _ => rfl, fun e _ h => by rw [he] at h; cases h⟩
    simp [State.appendJob, he, recordKind]
  | some e =>
    cases hd : q.del with
    | true =>
      refine ⟨s.localTomb q.id, ?_, fun _ => rfl, fun e h => by rw [hd] at h; cases h⟩
      simp [State.appendJob, he, recordKind, hd]
    | false =>
      refine ⟨e.journalRecord (recordKind false (some e)), ?_, by rw [he]; simp [hd], ?_⟩
      · have : recordKind false (some e) ≠ .tombLocal := by
          simp only [recordKind, Bool.false_eq_true, if_false]
          split
          · simp
          · split
            · simp
            · simp
            · simp
            · by_cases hb : e.base.isNone = true <;> simp [hb]
        simp only [State.appendJob, he, hd]
      · rintro e' _ h
        rw [he] at h
        cases h
        refine ⟨rfl, by simp [Entry.journalRecord], rfl, rfl, rfl, rfl, ?_, ?_, ?_⟩
        · intro ht
          simp [Entry.journalRecord, recordKind, ht]
        · intro ht d hdd hpos hb
          obtain ⟨n, rfl⟩ : ∃ n, d = n + 1 := ⟨d - 1, by omega⟩
          have : e.base.isNone = false := by
            cases hbase : e.base with
            | none => exact absurd hbase hb
            | some _ => rfl
          simp [Entry.journalRecord, recordKind, ht, hdd, this]
        · intro ht h
          rcases h with h | h | h | h
          · simp [Entry.journalRecord, recordKind, ht, h]
          · simp [Entry.journalRecord, recordKind, ht, h]
          · simp [Entry.journalRecord, recordKind, ht, h]
          · cases hd : e.dirty with
            | from_ d => cases d <;> simp [Entry.journalRecord, recordKind, ht, h, hd]
            | _ => simp [Entry.journalRecord, recordKind, ht, hd]

/-- The write of a copy is built as R150 gives. -/
theorem Entry.copyJob_of (e : Entry) (changed : Bool) : CopyOf e changed (e.copyJob changed) := by
  unfold CopyOf Entry.copyJob copyKind Entry.journalRecord
  by_cases h : e.isTombstone = true <;> simp [h]

/-- The entry a copy turn comes to is R150's. -/
theorem State.copyEntry_iff {s : State} (hs : s.pt.entries.Pairwise fun x y => x.id < y.id) (band : Nat) (cursor : Option Nat)
    (e : Entry) : s.copyEntry band cursor = some e ↔ CopyNext s band cursor e := by
  have hp : ∀ x : Entry, (above cursor x.id && x.base.isSome && x.base == s.jc.seqOf band) = true
      ↔ x.base ≠ none ∧ x.base = s.jc.seqOf band ∧ above cursor x.id = true := by
    intro x
    cases x.base <;> simp [and_comm]
  unfold State.copyEntry CopyNext
  generalize s.pt.entries = es at hs
  induction es with
  | nil => simp
  | cons a es ih =>
    rw [List.pairwise_cons] at hs
    rw [List.find?_cons]
    by_cases ha : (above cursor a.id && a.base.isSome && a.base == s.jc.seqOf band) = true
    · simp only [ha, Option.some.injEq]
      have ha' := (hp a).mp ha
      constructor
      · rintro rfl
        refine ⟨by simp, ha'.1, ha'.2.1, ha'.2.2, ?_⟩
        intro x hx _ _ _
        rcases List.mem_cons.mp hx with rfl | hx
        · exact Nat.le_refl _
        · exact Nat.le_of_lt (hs.1 x hx)
      · rintro ⟨hm, h1, h2, h3, h4⟩
        rcases List.mem_cons.mp hm with rfl | hm
        · rfl
        · have := hs.1 e hm
          have := h4 a (by simp) ha'.1 ha'.2.1 ha'.2.2
          omega
    · rw [Bool.not_eq_true] at ha
      simp only [ha]
      refine (ih hs.2).trans ?_
      rw [← Bool.not_eq_true] at ha
      have ha' : ¬ (a.base ≠ none ∧ a.base = s.jc.seqOf band ∧ above cursor a.id = true) := fun h => ha ((hp a).mpr h)
      constructor
      · rintro ⟨hm, h1, h2, h3, h4⟩
        refine ⟨by simp [hm], h1, h2, h3, ?_⟩
        intro x hx x1 x2 x3
        rcases List.mem_cons.mp hx with rfl | hx
        · exact absurd ⟨x1, x2, x3⟩ ha'
        · exact h4 x hx x1 x2 x3
      · rintro ⟨hm, h1, h2, h3, h4⟩
        rcases List.mem_cons.mp hm with rfl | hm
        · exact absurd ⟨h1, h2, h3⟩ ha'
        · exact ⟨hm, h1, h2, h3, fun x hx => h4 x (by simp [hx])⟩

/-- The rewrite of a failed record is R153's. -/
theorem State.rewrite_rewritten {s : State} (hs : s.pt.entries.Pairwise fun x y => x.id < y.id) (w : WriteJob) :
    Rewritten s (s.rewrite w) w := by
  unfold State.rewrite State.rebuild
  refine ⟨?_, ?_, ?_⟩
  · intro hw q hq
    simp only [hw, hq, Option.map_some]
    exact ⟨_, s.appendJob_built q w.changed, State.openBand_opening _ _⟩
  · intro band cursor e hw hc he
    have hb : (w.changed && e.id == w.id) = (w.changed && decide (e.id = w.id)) := rfl
    rw [hw, hc]
    simp only [(State.copyEntry_iff hs band cursor e).mpr he, Option.map_some, hb]
    exact ⟨_, Entry.copyJob_of e _, State.openBand_opening _ _⟩
  · intro band cursor hw hc he
    have hn : s.copyEntry band cursor = none := by
      cases h : s.copyEntry band cursor with
      | none => rfl
      | some e => exact absurd ((State.copyEntry_iff hs band cursor e).mp h) (he e)
    rw [hw, hc]
    simp only [hn, Option.map_none]
    rfl

/-! ### Going on after a lend or a busy check (R163, R170, R175, R177) -/

/-- The going on after a lend point is R163's, R170's and R177's. -/
theorem State.resume_resumed {s : State} (h : s.sp.lend = .idle) : Resumed s s.resume := by
  refine ⟨fun hr => by simp [State.resume, State.canBegin, hr], fun hr => ?_⟩
  have hc : s.canBegin = true := by simp [State.canBegin, h, hr]
  unfold State.resume
  rw [if_pos hc]
  refine ⟨fun r hrep => ?_, fun hrep => ?_⟩
  · simp only [hrep, State.resumeReplay]
    refine ⟨fun hp => ?_, ?_, ?_⟩
    · have hc' : (s.setPhase (.survey 0)).canBegin = true := hc
      simp only [hp, State.readOn, hc', if_true]
      simp [State.setPhase, State.mapJournal, State.mapPort, hrep]
    · rintro (⟨i, hp⟩ | ⟨todo, hp⟩) <;> simp only [hp, State.readOn, hc, if_true] <;> rfl
    · rintro ⟨todo, hp⟩
      refine ⟨fun hn => by simp only [hp, hn], fun p hn => ?_⟩
      simp only [hp, hn]
      exact s.issue_issued p
  · simp only [hrep]
    refine ⟨fun p hp => by simp only [hp]; rfl, fun b hb => by simp only [hb]; rfl, fun h1 h2 => ?_⟩
    cases hcmd : s.sp.cmd with
    | program p st =>
      cases st with
      | ready => exact absurd hcmd (h1 p)
      | busy => exact ⟨fun hn => by simp only [hn], fun p hn => by simp only [hn]; exact s.issue_issued p⟩
      | verify => exact ⟨fun hn => by simp only [hn], fun p hn => by simp only [hn]; exact s.issue_issued p⟩
    | erase b st =>
      cases st with
      | ready => exact absurd hcmd (h2 b)
      | busy => exact ⟨fun hn => by simp only [hn], fun p hn => by simp only [hn]; exact s.issue_issued p⟩
      | verify => exact ⟨fun hn => by simp only [hn], fun p hn => by simp only [hn]; exact s.issue_issued p⟩
    | none => exact ⟨fun hn => by simp only [hn], fun p hn => by simp only [hn]; exact s.issue_issued p⟩
    | read => exact ⟨fun hn => by simp only [hn], fun p hn => by simp only [hn]; exact s.issue_issued p⟩

end Sys2Proof.Machine
end

