-- ==== Sys2Proof/Laws/Flash.lean ====
section
/-! SUPPORT. The content of the flash device: every operation keeps the canonical form, and what each byte reads after it. -/

namespace Sys2Proof.Machine

theorem Flash.wf_nil : Flash.wf [] := ⟨List.Pairwise.nil, by simp⟩

theorem Flash.wf_tail {c : Host.Cell} {f : List Host.Cell} (h : Flash.wf (c :: f)) : Flash.wf f :=
  ⟨(List.pairwise_cons.mp h.1).2, fun d hd => h.2 d (List.mem_cons_of_mem _ hd)⟩

/-- The addresses after a write are those before it and the one written. -/
theorem Flash.mem_set {f : List Host.Cell} {a : Nat} {v : Byte} {d : Host.Cell} (h : d ∈ Flash.set f a v) :
    d ∈ f ∨ (d = (a, v) ∧ v ≠ erasedByte) := by
  induction f with
  | nil =>
    simp only [Flash.set] at h
    split at h
    · simp at h
    · rename_i hv
      simp only [List.mem_singleton] at h
      exact .inr ⟨h, hv⟩
  | cons c f ih =>
    simp only [Flash.set] at h
    split at h
    · split at h
      · exact .inl h
      · rename_i hv
        rcases List.mem_cons.mp h with h | h
        · exact .inr ⟨h, hv⟩
        · exact .inl h
    · split at h
      · split at h
        · exact .inl (List.mem_cons_of_mem _ h)
        · rename_i hv
          rcases List.mem_cons.mp h with h | h
          · exact .inr ⟨h, hv⟩
          · exact .inl (List.mem_cons_of_mem _ h)
      · rcases List.mem_cons.mp h with h | h
        · exact .inl (h ▸ List.mem_cons_self)
        · rcases ih h with h | h
          · exact .inl (List.mem_cons_of_mem _ h)
          · exact .inr h

/-- Setting a byte keeps the canonical form. -/
theorem Flash.wf_set {f : List Host.Cell} (h : Flash.wf f) (a : Nat) (v : Byte) : Flash.wf (Flash.set f a v) := by
  refine ⟨?_, fun d hd => ?_⟩
  · induction f with
    | nil => simp only [Flash.set]; split <;> simp
    | cons c f ih =>
      have hc := List.pairwise_cons.mp h.1
      simp only [Flash.set]
      split
      · rename_i hac
        split
        · exact h.1
        · refine List.pairwise_cons.mpr ⟨fun d hd => ?_, h.1⟩
          rcases List.mem_cons.mp hd with rfl | hd
          · exact hac
          · exact Nat.lt_trans hac (hc.1 d hd)
      · split
        · rename_i hac
          split
          · exact hc.2
          · exact List.pairwise_cons.mpr ⟨fun d hd => hac ▸ hc.1 d hd, hc.2⟩
        · rename_i h1 h2
          refine List.pairwise_cons.mpr ⟨fun d hd => ?_, ih (Flash.wf_tail h)⟩
          rcases Flash.mem_set hd with hd | ⟨rfl, _⟩
          · exact hc.1 d hd
          · exact Nat.lt_of_le_of_ne (Nat.le_of_not_lt h1) (Ne.symm h2)
  · rcases Flash.mem_set hd with hd | ⟨rfl, hv⟩
    · exact h.2 d hd
    · exact hv

/-- An address below every listed one reads erased. -/
theorem Flash.byte_below {f : List Host.Cell} {a : Nat} (h : ∀ d ∈ f, a < d.1) : Flash.byte f a = erasedByte := by
  induction f with
  | nil => rfl
  | cons c f ih =>
    have hc : a < c.1 := h c List.mem_cons_self
    have hne : ¬ c.1 = a := by omega
    simp only [Flash.byte, if_neg hne]
    exact ih fun d hd => h d (List.mem_cons_of_mem _ hd)

/-- What a byte reads after a write. -/
theorem Flash.byte_set {f : List Host.Cell} (h : Flash.wf f) (a : Nat) (v : Byte) (b : Nat) :
    Flash.byte (Flash.set f a v) b = if b = a then v else Flash.byte f b := by
  induction f with
  | nil =>
    simp only [Flash.set]
    split
    · rename_i hv
      simp [Flash.byte, hv]
    · by_cases hb : b = a
      · simp [Flash.byte, hb]
      · have hab : ¬ a = b := fun e => hb e.symm
        simp [Flash.byte, hb, hab]
  | cons c f ih =>
    have hc := List.pairwise_cons.mp h.1
    have hbelow : ∀ a, a < c.1 → Flash.byte (c :: f) a = erasedByte := fun a ha =>
      Flash.byte_below fun d hd => by
        rcases List.mem_cons.mp hd with rfl | hd
        · exact ha
        · exact Nat.lt_trans ha (hc.1 d hd)
    simp only [Flash.set]
    split
    · rename_i hac
      split
      · rename_i hv
        split
        · rename_i hb
          rw [hb, hbelow a hac, hv]
        · rfl
      · by_cases hb : b = a
        · simp [Flash.byte, hb]
        · have hab : ¬ a = b := fun e => hb e.symm
          simp [Flash.byte, hb, hab]
    · split
      · rename_i hac
        split
        · rename_i hv
          by_cases hb : b = a
          · rw [if_pos hb, hb, hv]
            exact Flash.byte_below fun d hd => hac ▸ hc.1 d hd
          · have hcb : ¬ c.1 = b := fun e => hb (by omega)
            simp [Flash.byte, hb, hcb]
        · by_cases hb : b = a
          · simp [Flash.byte, hb]
          · have hab : ¬ a = b := fun e => hb e.symm
            have hcb : ¬ c.1 = b := fun e => hb (by omega)
            simp [Flash.byte, hb, hab, hcb]
      · rename_i h1 h2
        by_cases hcb : c.1 = b
        · have hb : ¬ b = a := by omega
          simp [Flash.byte, hcb, hb]
        · simp only [Flash.byte, if_neg hcb]
          exact ih (Flash.wf_tail h)

/-- Programming keeps the canonical form. -/
theorem Flash.wf_and (bs : List Byte) {f : List Host.Cell} (h : Flash.wf f) (a : Nat) : Flash.wf (Flash.and f a bs) := by
  induction bs generalizing f a with
  | nil => exact h
  | cons b bs ih => exact ih (Flash.wf_set h _ _) _

/-- What a byte reads after a program: the AND inside the range, unchanged outside it. -/
theorem Flash.byte_and (bs : List Byte) {f : List Host.Cell} (h : Flash.wf f) (a b : Nat) :
    Flash.byte (Flash.and f a bs) b
      = if a ≤ b ∧ b < a + bs.length then Flash.byte f b &&& bs.getD (b - a) 0xFF else Flash.byte f b := by
  induction bs generalizing f a with
  | nil =>
    have : ¬ (a ≤ b ∧ b < a + ([] : List Byte).length) := by simp
    rw [if_neg this]
    rfl
  | cons x bs ih =>
    simp only [Flash.and]
    rw [ih (Flash.wf_set h _ _), Flash.byte_set h]
    by_cases hb : b = a
    · subst hb
      simp
    · by_cases hr : a ≤ b ∧ b < a + (x :: bs).length
      · have h1 : a + 1 ≤ b ∧ b < a + 1 + bs.length := by
          simp only [List.length_cons] at hr
          omega
        obtain ⟨k, hk⟩ : ∃ k, b - a = k + 1 := ⟨b - a - 1, by omega⟩
        have h2 : b - (a + 1) = k := by omega
        rw [if_pos h1, if_neg hb, if_pos hr, hk, h2]
        rfl
      · have h1 : ¬ (a + 1 ≤ b ∧ b < a + 1 + bs.length) := by
          simp only [List.length_cons] at hr
          omega
        rw [if_neg h1, if_neg hb, if_neg hr]

/-- A program keeps the canonical form. -/
theorem Flash.wf_program {f : List Host.Cell} (h : Flash.wf f) (a : Nat) (data : List Byte) (left : DeviceLeft) :
    Flash.wf (Flash.program f a data left) := Flash.wf_and _ h a

/-- An erased cell keeps its address, and is not listed erased. -/
theorem erasedCell_some {base : Nat} {left : DeviceLeft} {c d : Host.Cell} (hc : c.2 ≠ erasedByte)
    (h : erasedCell base left c = some d) : d.1 = c.1 ∧ d.2 ≠ erasedByte := by
  unfold erasedCell at h
  split at h
  · split at h
    · cases h
    · dsimp only at h
      split at h
      · cases h
      · rename_i hv
        injection h with h
        subst h
        exact ⟨rfl, hv⟩
  · injection h with h
    subst h
    exact ⟨rfl, hc⟩

/-- An erase keeps the canonical form. -/
theorem Flash.wf_erase {f : List Host.Cell} (h : Flash.wf f) (base : Nat) (left : DeviceLeft) :
    Flash.wf (Flash.erase f base left) := by
  unfold Flash.erase
  refine ⟨?_, fun d hd => ?_⟩
  · induction f with
    | nil => simp
    | cons c f ih =>
      have hc := List.pairwise_cons.mp h.1
      rw [List.filterMap_cons]
      split
      · exact ih (Flash.wf_tail h)
      · rename_i d hd
        have hd' := erasedCell_some (h.2 c List.mem_cons_self) hd
        refine List.pairwise_cons.mpr ⟨fun e he => ?_, ih (Flash.wf_tail h)⟩
        obtain ⟨c', hc', he'⟩ := List.mem_filterMap.mp he
        have := erasedCell_some (h.2 c' (List.mem_cons_of_mem _ hc')) he'
        rw [hd'.1, this.1]
        exact hc.1 c' hc'
  · obtain ⟨c, hc, he⟩ := List.mem_filterMap.mp hd
    exact (erasedCell_some (h.2 c hc) he).2

/-- Outside the band an erase leaves every byte. -/
theorem Flash.byte_erase_outside (f : List Host.Cell) {base a : Nat} (left : DeviceLeft)
    (h : ¬ (base ≤ a ∧ a < base + Config.bandBytes)) : Flash.byte (Flash.erase f base left) a = Flash.byte f a := by
  induction f with
  | nil => rfl
  | cons c f ih =>
    unfold Flash.erase at ih ⊢
    rw [List.filterMap_cons]
    by_cases hc : base ≤ c.1 ∧ c.1 < base + Config.bandBytes
    · have hne : ¬ c.1 = a := by rintro rfl; exact h hc
      have hr : Flash.byte (c :: f) a = Flash.byte f a := by simp [Flash.byte, hne]
      rw [hr, ← ih]
      have hx : ∀ x, erasedCell base left c = some x → x.1 = c.1 := by
        intro x hx
        unfold erasedCell at hx
        rw [if_pos hc] at hx
        cases left with
        | whole => cases hx
        | part l =>
          dsimp only at hx
          split at hx
          · cases hx
          · cases hx; rfl
      cases he : erasedCell base left c with
      | none => rfl
      | some x =>
        have := hx x he
        simp [Flash.byte, this, hne]
    · have he : erasedCell base left c = some c := by unfold erasedCell; rw [if_neg hc]
      rw [he]
      show Flash.byte (c :: _) a = Flash.byte (c :: f) a
      simp only [Flash.byte, ih]

/-- A band erased whole reads FFH. -/
theorem Flash.byte_erase_whole (f : List Host.Cell) {base a : Nat} (h1 : base ≤ a) (h2 : a < base + Config.bandBytes) :
    Flash.byte (Flash.erase f base .whole) a = erasedByte := by
  induction f with
  | nil => rfl
  | cons c f ih =>
    unfold Flash.erase at ih ⊢
    rw [List.filterMap_cons]
    by_cases hc : base ≤ c.1 ∧ c.1 < base + Config.bandBytes
    · have he : erasedCell base .whole c = none := by unfold erasedCell; rw [if_pos hc]
      rw [he]
      exact ih
    · have he : erasedCell base .whole c = some c := by unfold erasedCell; rw [if_neg hc]
      have hne : ¬ c.1 = a := by rintro rfl; exact hc ⟨h1, h2⟩
      rw [he]
      show Flash.byte (c :: _) a = _
      simp only [Flash.byte, if_neg hne, ih]

/-- What the host writes keeps the canonical form. -/
theorem Flash.wf_hostWrite (host : List Host.Cell) {f : List Host.Cell} (h : Flash.wf f) :
    Flash.wf (Flash.hostWrite f host) := by
  unfold Flash.hostWrite
  induction host generalizing f with
  | nil => exact h
  | cons c host ih => exact ih (Flash.wf_set h _ _)

end Sys2Proof.Machine
end

