-- ==== Sys2Proof/Laws/Queues.lean ====
section
/-! SUPPORT. What the notify queue and the counts keep: the placing and the popping of events keep `NotifyLaw`, and no count
passes its limit. -/

namespace Sys2Proof.Machine

/-! ### Counts -/

theorem satAdd_le (limit n k : Nat) : satAdd limit n k ≤ limit := Nat.min_le_left _ _

theorem satInc_le (n : Nat) : satInc n ≤ Config.countLimit := satAdd_le _ _ _

theorem satInc_eq (n : Nat) : satInc n = min 0xFFFFFFFF (n + 1) := rfl

/-- The quiet count stays at or below the value it stops at. -/
theorem quietAfter_le (bits : List Bool) {q : Nat} (h : q ≤ Config.quietLimit) : quietAfter q bits ≤ Config.quietLimit := by
  induction bits generalizing q with
  | nil => exact h
  | cons b bs ih =>
    apply ih
    dsimp only
    split
    · exact satAdd_le _ _ _
    · exact Nat.zero_le _

/-! ### The notify queue (R191, R192) -/

theorem bumpLost_kind (e : Event) : (bumpLost e).kind = e.kind := by
  unfold bumpLost
  split <;> rfl

theorem bumpLost_other {e : Event} (h : e.kind ≠ .lost) : bumpLost e = e := by
  simp [bumpLost, h]

/-- Events of another kind than LOST are the same after a marker's count has risen. -/
theorem eventsOf_bump (q : List Event) {k : EventKind} (h : k ≠ .lost) : eventsOf (q.map bumpLost) k = eventsOf q k := by
  induction q with
  | nil => rfl
  | cons e q ih =>
    unfold eventsOf at ih ⊢
    by_cases he : e.kind = k
    · have : e.kind ≠ .lost := he ▸ h
      simp [bumpLost_other this, he, ih]
    · simp [bumpLost_kind, he, ih]

theorem eventsOf_append (q : List Event) (e : Event) (k : EventKind) :
    eventsOf (q ++ [e]) k = eventsOf q k ++ (if e.kind = k then [e] else []) := by
  unfold eventsOf
  by_cases h : e.kind = k <;> simp [h]

/-- An event joins the tail of a queue that holds no LOST marker and has room for it, and that it does not coalesce with. -/
theorem NotifyLaw.append {q : List Event} {e : Event} (h : NotifyLaw q) (hc : coalesces q e = false)
    (hlost : ∀ x ∈ q, x.kind ≠ .lost) (hlen : q.length < Config.maxEvents ∨ (q.length = Config.maxEvents ∧ e.kind = .lost)) :
    NotifyLaw (q ++ [e]) := by
  obtain ⟨_, _, _, hr, hu, ht⟩ := h
  refine ⟨?_, ?_, ?_, ?_, ?_, ?_⟩
  · rw [List.length_append, List.length_singleton]; omega
  · intro i x hx hk
    rw [List.getElem?_append] at hx
    split at hx
    · exact absurd hk (hlost x (List.mem_of_getElem? hx))
    · rw [List.getElem?_singleton] at hx
      split at hx
      · rw [List.length_append, List.length_singleton]; omega
      · cases hx
  · intro hlt
    rw [List.length_append, List.length_singleton] at hlt
    refine ⟨e, by simp, ?_⟩
    rcases hlen with h | ⟨_, h⟩
    · omega
    · exact h
  · rw [eventsOf_append]
    split
    · rename_i hk
      rw [List.nodup_append]
      refine ⟨hr, by simp, ?_⟩
      intro a ha b hb
      rw [List.mem_singleton] at hb
      subst hb
      rintro rfl
      unfold coalesces at hc
      rw [hk] at hc
      have : a ∈ q := List.mem_of_mem_filter ha
      simp [this] at hc
    · simpa using hr
  · rw [eventsOf_append]
    split
    · rename_i hk
      unfold coalesces at hc
      rw [hk] at hc
      have : eventsOf q .unsaved = [] := by
        unfold eventsOf
        rw [List.filter_eq_nil_iff]
        intro x hx
        simpa using (List.any_eq_false.mp hc) x hx
      simp [this]
    · simpa using hu
  · rw [eventsOf_append]
    split
    · rename_i hk
      unfold coalesces at hc
      rw [hk] at hc
      have : eventsOf q .tableFull = [] := by
        unfold eventsOf
        rw [List.filter_eq_nil_iff]
        intro x hx
        simpa using (List.any_eq_false.mp hc) x hx
      simp [this]
    · simpa using ht

/-- A marker's count rises. -/
theorem NotifyLaw.bump {q : List Event} (h : NotifyLaw q) : NotifyLaw (q.map bumpLost) := by
  obtain ⟨h1, h2, h3, hr, hu, ht⟩ := h
  refine ⟨by simpa using h1, ?_, ?_, ?_, ?_, ?_⟩
  · intro i e he hk
    rw [List.getElem?_map] at he
    obtain ⟨x, hx, rfl⟩ := Option.map_eq_some_iff.mp he
    rw [bumpLost_kind] at hk
    simpa using h2 i x hx hk
  · intro hlt
    obtain ⟨e, he, hk⟩ := h3 (by simpa using hlt)
    exact ⟨bumpLost e, by simp [List.getLast?_map, he], by rw [bumpLost_kind, hk]⟩
  · rw [eventsOf_bump q (by decide)]; exact hr
  · rw [eventsOf_bump q (by decide)]; exact hu
  · rw [eventsOf_bump q (by decide)]; exact ht

/-- An event is placed (R191). -/
theorem NotifyLaw.place {q : List Event} (h : NotifyLaw q) (e : Event) : NotifyLaw (placeEvent q e) := by
  unfold placeEvent
  split
  · exact h
  · rename_i hc
    have hc' : coalesces q e = false := by simpa using hc
    split
    · exact h.bump
    · rename_i ha
      have hlost : ∀ x ∈ q, x.kind ≠ .lost := by
        intro x hx hk
        exact ha (List.any_eq_true.mpr ⟨x, hx, by simp [hk]⟩)
      have hle : q.length ≤ Config.maxEvents := by
        by_contra hgt
        obtain ⟨x, hx, hk⟩ := h.2.2.1 (by omega)
        exact hlost x (List.mem_of_getLast? hx) hk
      split
      · rename_i hl
        exact h.append (by simp [coalesces]) hlost (.inr ⟨hl, rfl⟩)
      · rename_i hl
        exact h.append hc' hlost (.inl (by omega))

/-- An event raised keeps the law. -/
theorem State.notify_law {s : State} (h : NotifyLaw s.cp.notify) (k : EventKind) (p : Nat) :
    NotifyLaw (s.notify k p).cp.notify := h.place _

/-- The tail of a queue. -/
theorem NotifyLaw.tail {e : Event} {q : List Event} (h : NotifyLaw (e :: q)) : NotifyLaw q := by
  obtain ⟨h1, h2, h3, hr, hu, ht⟩ := h
  have sub : ∀ k, (eventsOf q k).Sublist (eventsOf (e :: q) k) := by
    intro k
    exact List.Sublist.filter _ (List.sublist_cons_self e q)
  refine ⟨?_, ?_, ?_, hr.sublist (sub _), (sub _).length_le.trans hu, (sub _).length_le.trans ht⟩
  · rw [List.length_cons] at h1; omega
  · intro i x hx hk
    have := h2 (i + 1) x (by simpa using hx) hk
    rw [List.length_cons] at this
    omega
  · intro hlt
    rw [List.length_cons] at h1
    omega

/-- An event taken up leaves (R192). -/
theorem NotifyLaw.pop {q : List Event} (h : NotifyLaw q) (taken : Event) : NotifyLaw (popQueue q taken) := by
  cases q with
  | nil => exact h
  | cons e rest =>
    simp only [popQueue]
    by_cases hc : e.kind = .lost ∧ taken.kind = .lost ∧ taken.param < e.param
    · rw [if_pos hc]
      obtain ⟨h1, h2, h3, hr, hu, ht⟩ := h
      have same : ∀ k, k ≠ .lost → ∀ p, eventsOf ({ e with param := p } :: rest) k = eventsOf (e :: rest) k := by
        intro k hk p
        have : e.kind ≠ k := by rw [hc.1]; exact fun x => hk x.symm
        simp [eventsOf, this]
      refine ⟨by simpa using h1, ?_, ?_, ?_, ?_, ?_⟩
      · intro i x hx hk
        cases i with
        | zero => exact h2 0 e rfl hc.1
        | succ i => exact h2 (i + 1) x (by simpa using hx) hk
      · intro hlt
        obtain ⟨x, hx, hk⟩ := h3 (by simpa using hlt)
        cases rest with
        | nil => exact ⟨_, rfl, hc.1⟩
        | cons y r => exact ⟨x, by simpa using hx, hk⟩
      · rw [same _ (by decide)]; exact hr
      · rw [same _ (by decide)]; exact hu
      · rw [same _ (by decide)]; exact ht
    · rw [if_neg hc]
      exact h.tail

end Sys2Proof.Machine
end

