-- ==== Sys2Proof/Laws/Repair.lean ====
section
/-! SUPPORT. What the shared steps of repair and of packing do, once each: the search for a session, its ends, the merge of a listing
with the table, and the packing of the outbound list. -/

namespace Sys2Proof.Machine

/-! ### Sessions (R109, R110, R119 to R121) -/

theorem State.mayRepair_iff (s : State) (n : Nat) : MayRepair s n ↔ n < 32 ∧ (s.peer n).candidate = true := by
  have hc : (s.peer n).candidate = true ↔ (s.peer n).presence = .present ∧ (s.peer n).agreement = .disagree
      ∧ (s.peer n).wanted = true ∧ (s.peer n).failures < 3 := by
    unfold Peer.candidate
    simp only [Bool.and_eq_true, decide_eq_true_eq, and_assoc]
    rfl
  rw [hc]
  unfold MayRepair
  constructor
  · rintro ⟨h1, h2, h⟩
    exact ⟨by omega, h⟩
  · rintro ⟨h1, h3, h4, h5, h6⟩
    refine ⟨?_, by omega, h3, h4, h5, h6⟩
    rcases Nat.eq_zero_or_pos n with rfl | h
    · simp [State.peer, Peer.cleared] at h3
    · exact h

/-- The search for a session is R109's, and an opening R110's. -/
theorem State.searchSession_searched (s : State) : SessionSearched s s.searchSession := by
  have hmay : s.mayOpenSession = true ↔
      (s.sc.station = .joining ∨ s.sc.station = .active) ∧ s.re.session.state = .idle := by
    unfold State.mayOpenSession Station.onLine
    cases s.sc.station <;> simp
  constructor
  · intro n hst hidle hn hmin
    obtain ⟨hlt, hc⟩ := (s.mayRepair_iff n).mp hn
    have hf : (List.range 32).find? (fun n => (s.peer n).candidate) = some n := by
      rw [List.find?_range_eq_some]
      refine ⟨hc, by simpa using hlt, ?_⟩
      intro j hj
      by_contra hcj
      have := hmin j ((s.mayRepair_iff j).mpr ⟨by omega, by simpa using hcj⟩)
      omega
    unfold State.searchSession
    rw [if_pos (hmay.mpr ⟨hst, hidle⟩), hf]
    refine ⟨_, rfl, ?_⟩
    have hn0 : n ≠ 0 := by
      have := hn.1
      omega
    simp only [State.openSession, State.updatePeer, hn0, if_false, State.setSession]
    rfl
  · intro h
    unfold State.searchSession
    by_cases hm : s.mayOpenSession = true
    · rw [if_pos hm]
      have hf : (List.range 32).find? (fun n => (s.peer n).candidate) = none := by
        rw [List.find?_eq_none]
        intro n hn hc
        exact h ⟨(hmay.mp hm).1, (hmay.mp hm).2, n, (s.mayRepair_iff n).mpr ⟨by simpa using hn, hc⟩⟩
      rw [hf]
    · rw [if_neg hm]

/-- The search looks at the station state, the station number, the session and the roster alone. -/
theorem SessionSearched.congr {s t s' : State} (h : SessionSearched s t) (h1 : s'.sc.station = s.sc.station)
    (h2 : s'.straps = s.straps) (h3 : s'.re = { s.re with outbound := s'.re.outbound, rxBuffer := s'.re.rxBuffer
                                                          replyQueue := s'.re.replyQueue, seq := s'.re.seq
                                                          summaryTimer := s'.re.summaryTimer }) :
    ∃ t', SessionSearched s' t' ∧ t'.re.session = t.re.session ∧ t'.re.roster = t.re.roster := by
  have hse : s'.re.session = s.re.session := by rw [h3]
  have hro : s'.re.roster = s.re.roster := by rw [h3]
  have hp : ∀ n, s'.peer n = s.peer n := by
    intro n
    simp [State.peer, h2, hro]
  have hmay : s'.mayOpenSession = s.mayOpenSession := by simp [State.mayOpenSession, h1, hse]
  have key : s'.searchSession.re.session = s.searchSession.re.session
      ∧ s'.searchSession.re.roster = s.searchSession.re.roster := by
    unfold State.searchSession
    rw [hmay]
    have : (fun n => (s'.peer n).candidate) = fun n => (s.peer n).candidate := by
      funext n
      rw [hp]
    rw [this]
    split
    · split
      · simp [State.openSession, State.updatePeer, State.setSession, hp, hro]
        split <;> simp [hro]
      · exact ⟨hse, hro⟩
    · exact ⟨hse, hro⟩
  have huniq : s.searchSession = t := by
    have h' := s.searchSession_searched
    by_cases hc : (s.sc.station = .joining ∨ s.sc.station = .active) ∧ s.re.session.state = .idle ∧ ∃ n, MayRepair s n
    · obtain ⟨hst, hid, hex⟩ := hc
      classical
      let n := Nat.find hex
      have hn := Nat.find_spec hex
      have hmin : ∀ m, MayRepair s m → n ≤ m := fun m hm => Nat.find_min' hex hm
      obtain ⟨b1, rfl, e1⟩ := h.1 n hst hid hn hmin
      obtain ⟨b2, rfl, e2⟩ := h'.1 n hst hid hn hmin
      rw [e1, e2]
    · rw [h.2 hc, h'.2 hc]
  exact ⟨_, s'.searchSession_searched, by rw [← huniq]; exact key.1, by rw [← huniq]; exact key.2⟩

/-- A session over, and the search after it. -/
theorem State.closeSession_search (s : State) : SessionEnded s s.re.roster s.closeSession.searchSession := by
  obtain ⟨w, hw, h1, h2⟩ := SessionSearched.congr (s' := { s with re := { s.re with session := .cleared } })
    s.closeSession.searchSession_searched rfl rfl rfl
  exact ⟨w, hw, h1.symm, h2.symm⟩

/-- The end of a session in success is R120's. -/
theorem State.sessionSuccess_ended (s : State) (h : 1 ≤ s.re.session.peer) :
    SessionEnded s (s.re.roster.modify (s.re.session.peer - 1) (Peer.repaired s.re.session s.re.session.more))
      s.sessionSuccess := by
  have hn0 : s.re.session.peer ≠ 0 := by omega
  have := State.closeSession_search
    { s with re := { s.re with
      roster := s.re.roster.modify (s.re.session.peer - 1) (Peer.repaired s.re.session s.re.session.more) } }
  unfold State.sessionSuccess State.updatePeer
  simp only [hn0, if_false]
  have hf : (Peer.repaired s.re.session s.re.session.more) = fun p : Peer =>
      { p with
        failures := 0
        mask := if s.re.session.more = true then p.mask ||| bucketSet s.re.session.buckets else p.mask
        wanted := p.wanted || decide ((if s.re.session.more = true then p.mask ||| bucketSet s.re.session.buckets
          else p.mask) ≠ 0) } := by
    have hne : ∀ m : BucketSet, (m != 0) = decide (m ≠ 0) := by
      intro m
      rw [bne, decide_not]
      rfl
    funext p
    rw [Peer.repaired, hne]
  rw [hf] at this ⊢
  exact this

/-- A second timeout is R119's. -/
theorem State.sessionTimeout_ended (s : State) (h : 1 ≤ s.re.session.peer) (ha : s.re.session.attempt ≠ 1) :
    SessionEnded s (s.re.roster.modify (s.re.session.peer - 1) (Peer.failed s.re.session)) s.sessionTimeout := by
  have hn0 : s.re.session.peer ≠ 0 := by omega
  have := State.closeSession_search
    { s with re := { s.re with roster := s.re.roster.modify (s.re.session.peer - 1) (Peer.failed s.re.session) } }
  unfold State.sessionTimeout State.giveBack State.updatePeer
  simp only [ha, hn0, if_false, List.modify_modify_eq]
  exact this

/-! ### Push requests and the merge of a listing (R40, R115, R116) -/

/-- The table and the outbound list with some entries pushed. -/
def State.withPushed (s : State) (p : Entry → Bool) : State :=
  { s with
    pt := { s.pt with entries := s.pt.entries.map fun e => if p e then { e with mark := .push } else e }
    re := { s.re with outbound := s.re.outbound ++ ((s.pt.entries.filter fun e => p e && e.mark = .none).map Entry.id) } }

/-- A test that does not look at the send mark. -/
def MarkFree (p : Entry → Bool) : Prop := ∀ e m, p { e with mark := m } = p e

theorem State.withPushed_none (s : State) (p : Entry → Bool) (h : ∀ e ∈ s.pt.entries, p e = false) : s.withPushed p = s := by
  have h1 : (s.pt.entries.map fun e => if p e then { e with mark := .push } else e) = s.pt.entries := by
    conv_rhs => rw [← List.map_id s.pt.entries]
    exact List.map_congr_left fun e he => by simp [h e he]
  have h2 : (s.pt.entries.filter fun e => p e && e.mark = .none) = [] := by
    rw [List.filter_eq_nil_iff]
    intro e he
    simp [h e he]
  unfold State.withPushed
  rw [h1, h2]
  simp

theorem State.withPushed_congr {s : State} {p q : Entry → Bool} (h : ∀ e ∈ s.pt.entries, p e = q e) :
    s.withPushed p = s.withPushed q := by
  have h1 : (s.pt.entries.map fun e => if p e then { e with mark := .push } else e)
      = s.pt.entries.map fun e => if q e then { e with mark := .push } else e :=
    List.map_congr_left fun e he => by rw [h e he]
  have h2 : (s.pt.entries.filter fun e => p e && e.mark = .none) = s.pt.entries.filter fun e => q e && e.mark = .none :=
    List.filter_congr fun e he => by rw [h e he]
  unfold State.withPushed
  rw [h1, h2]

/-- Entries pushed, and then some more that all lie above them. -/
theorem State.withPushed_withPushed {s : State} (hs : s.pt.entries.Pairwise fun x y => x.id < y.id) {p q : Entry → Bool}
    (hq : MarkFree q) (hlt : ∀ e ∈ s.pt.entries, ∀ x ∈ s.pt.entries, p e = true → q x = true → e.id < x.id) :
    (s.withPushed p).withPushed q = s.withPushed fun e => p e || q e := by
  have h1 : ((s.pt.entries.map fun e => if p e then { e with mark := .push } else e).map
      fun e => if q e then { e with mark := Mark.push } else e)
      = s.pt.entries.map fun e => if (p e || q e) = true then { e with mark := .push } else e := by
    rw [List.map_map]
    refine List.map_congr_left fun e _ => ?_
    by_cases hp : p e = true <;> by_cases hqe : q e = true <;> simp [hp, hqe, hq e .push]
  have h2 : ((s.pt.entries.filter fun e => p e && e.mark = .none).map Entry.id)
      ++ (((s.pt.entries.map fun e => if p e then { e with mark := .push } else e).filter
        fun e => q e && e.mark = .none).map Entry.id)
      = (s.pt.entries.filter fun e => (p e || q e) && e.mark = .none).map Entry.id := by
    generalize s.pt.entries = es at hs hlt
    induction es with
    | nil => rfl
    | cons a es ih =>
      rw [List.pairwise_cons] at hs
      have ih := ih hs.2 fun e he x hx => hlt e (by simp [he]) x (by simp [hx])
      by_cases hqa : q a = true
      · have hpa : p a = false := by
          by_contra hpa
          have := hlt a (by simp) a (by simp) (by simpa using hpa) hqa
          omega
        have hnil : es.filter (fun e => p e && e.mark = .none) = [] := by
          rw [List.filter_eq_nil_iff]
          intro e he hpe
          simp only [Bool.and_eq_true] at hpe
          have := hlt e (by simp [he]) a (by simp) hpe.1 hqa
          have := hs.1 e he
          omega
        rw [hnil] at ih
        by_cases hm : a.mark = .none <;> simp [hpa, hqa, hm, hnil] at ih ⊢ <;> exact ih
      · by_cases hpa : p a = true
        · by_cases hm : a.mark = .none <;> simp [hpa, hqa, hm, hq a .push] at ih ⊢ <;> exact ih
        · by_cases hm : a.mark = .none <;> simp [hpa, hqa, hm] at ih ⊢ <;> exact ih
  unfold State.withPushed
  simp only [h1, List.append_assoc, h2]

/-- One push request (R40). -/
theorem State.pushRequest_eq {s : State} (hs : s.pt.entries.Pairwise fun x y => x.id < y.id) (id : Nat) :
    s.pushRequest id = s.withPushed fun e => e.id = id := by
  unfold State.pushRequest
  cases h : s.entry id with
  | none =>
    have := findEntry_none.mp h
    rw [State.withPushed_none]
    intro e he
    simpa using this e he
  | some e =>
    have hid := findEntry_id h
    have hmem := findEntry_mem h
    have hf : (s.pt.entries.filter fun x => x.id = id && x.mark = .none)
        = if e.mark = .none then [e] else [] := by
      generalize s.pt.entries = es at hs hmem
      induction es with
      | nil => simp at hmem
      | cons a es ih =>
        rw [List.pairwise_cons] at hs
        by_cases ha : a.id = id
        · have : e = a := by
            rcases List.mem_cons.mp hmem with rfl | hm
            · rfl
            · have := hs.1 e hm
              omega
          subst this
          have hnil : es.filter (fun x => x.id = id && x.mark = .none) = [] := by
            rw [List.filter_eq_nil_iff]
            intro x hx hp
            have := hs.1 x hx
            simp only [Bool.and_eq_true, decide_eq_true_eq] at hp
            omega
          by_cases hm : e.mark = .none <;> simp [ha, hm, hnil]
        · have : e ∈ es := by
            rcases List.mem_cons.mp hmem with rfl | hm
            · exact absurd hid ha
            · exact hm
          simp [ha, ih hs.2 this]
    unfold State.withPushed
    simp only [State.mapEntry, ParamTable.mapEntries, joinOutbound, hf, decide_eq_true_eq]
    by_cases hm : e.mark = .none <;> simp [hm, hid]

/-- Push requests for the entries of a test, in ascending order of ids (R115). -/
theorem State.pushAll_eq {s : State} (hs : s.pt.entries.Pairwise fun x y => x.id < y.id) {p : Entry → Bool} :
    ((s.pt.entries.filter p).foldl (fun s e => s.pushRequest e.id) s) = s.withPushed p := by
  have key : ∀ (l : List Entry) (u : State), u.pt.entries.Pairwise (fun x y => x.id < y.id) →
      l.Pairwise (fun x y => x.id < y.id) →
      l.foldl (fun s e => s.pushRequest e.id) u = u.withPushed fun e => l.any fun x => x.id = e.id := by
    intro l
    induction l with
    | nil =>
      intro u hu _
      rw [State.withPushed_none _ _ (by simp)]
      rfl
    | cons a l ih =>
      intro u hu hl
      rw [List.pairwise_cons] at hl
      rw [List.foldl_cons, State.pushRequest_eq hu, ih]
      · rw [State.withPushed_withPushed hu]
        · congr 1
          funext e
          simp only [List.any_cons]
          congr 1
          simp [eq_comm]
        · intro e m
          rfl
        · intro e _ z _ he hz
          simp only [List.any_eq_true, decide_eq_true_eq] at he hz
          obtain ⟨x, hx, hxe⟩ := hz
          have := hl.1 x hx
          omega
      · exact mapEntries_sorted hu fun e => by split <;> rfl
      · exact hl.2
  rw [key _ s hs (hs.sublist List.filter_sublist)]
  refine State.withPushed_congr fun e he => ?_
  rw [Bool.eq_iff_iff]
  simp only [List.any_eq_true, List.mem_filter, decide_eq_true_eq]
  constructor
  · rintro ⟨x, ⟨hx, hpx⟩, hid⟩
    have h1 := findEntry_of_mem hs hx
    have h2 := findEntry_of_mem hs he
    rw [hid, h2] at h1
    cases h1
    exact hpx
  · exact fun hpe => ⟨e, ⟨he, hpe⟩, rfl⟩

/-- Of two versions at most one supersedes the other. -/
theorem Version.supersedes_asymm {a b : Version} (h : a.supersedes b = true) : b.supersedes a = false := by
  rw [Bool.eq_false_iff]
  intro h'
  simp only [Version.supersedes, Bool.or_eq_true, Bool.and_eq_true, decide_eq_true_eq, beq_iff_eq] at h h'
  omega

/-- The ids that a listing wants join the want list in order, as far as there is room (R116). -/
theorem Session.addWants (ids : List Nat) (se : Session) (hn : ids.Nodup) :
    ids.foldl Session.addWant se = { se with
      want := se.want ++ (ids.filter fun i => i ∉ se.want).take (32 - se.want.length)
      more := se.more || decide (32 - se.want.length < (ids.filter fun i => i ∉ se.want).length) } := by
  induction ids generalizing se with
  | nil => simp
  | cons i ids ih =>
    rw [List.nodup_cons] at hn
    rw [List.foldl_cons, ih _ hn.2]
    unfold Session.addWant
    by_cases hi : i ∈ se.want
    · simp [hi]
    · by_cases hl : se.want.length < 32
      · have hf : (ids.filter fun j => j ∉ se.want ++ [i]) = ids.filter fun j => j ∉ se.want := by
          refine List.filter_congr fun j hj => ?_
          have : j ≠ i := fun h => hn.1 (h ▸ hj)
          simp [this]
        have ht : 32 - se.want.length = (32 - (se.want.length + 1)) + 1 := by omega
        have hc : (se.want.contains i) = false := by simpa using hi
        have hl' : se.want.length < Config.maxWant := hl
        simp only [hc, Bool.false_eq_true, if_false, hl', if_true, hf, List.length_append,
          List.filter_cons, hi, not_false_eq_true, decide_true, if_true, List.length_cons,
          List.length_nil, Nat.zero_add]
        rw [ht, List.take_succ_cons, List.append_assoc]
        simp only [List.singleton_append, Nat.add_lt_add_iff_right]
      · have hc : (se.want.contains i) = false := by simpa using hi
        have hl' : ¬ se.want.length < Config.maxWant := hl
        have h0 : 32 - se.want.length = 0 := by omega
        simp only [hc, Bool.false_eq_true, if_false, hl', List.filter_cons, hi, not_false_eq_true, decide_true,
          if_true, h0, List.take_zero]
        simp

/-- Own entries of a bucket between two bounds are pushed (R115). -/
theorem State.pushBetween_eq {s : State} (hs : s.pt.entries.Pairwise fun x y => x.id < y.id) (b : Nat) (lo hi : Option Nat) :
    s.pushBetween b lo hi = s.withPushed fun e =>
      (e.scope = .shared && e.id % 64 = b) && (above lo e.id && hi.all fun h => e.id < h) := by
  unfold State.pushBetween sharedIn
  rw [List.filter_filter, State.pushAll_eq hs]
  refine State.withPushed_congr fun e _ => ?_
  rw [Bool.and_comm]
  rfl

/-- The want list after the quads of a listing. -/
def Session.takeQuads (se : Session) (s : State) (quads : List Quad) : Session :=
  ((quads.filter (wantsQuad s)).map Quad.id).foldl Session.addWant se

/-- What a quad pushes itself, in the bucket or not (R115). -/
def ownOlder (q : Quad) (e : Entry) : Bool := e.scope = .shared && (e.id = q.id && e.ver.supersedes q.ver)

theorem mem_lastQuad {quads : List Quad} (h : quads.Pairwise fun x y => x.id < y.id) (cursor : Option Nat) (id : Nat) :
    above (lastQuad quads cursor) id = true ↔ (quads = [] ∧ above cursor id = true) ∨ (quads ≠ [] ∧ ∀ x ∈ quads, x.id < id) := by
  unfold lastQuad
  cases hl : quads.getLast? with
  | none =>
    rw [List.getLast?_eq_none_iff] at hl
    simp [hl]
  | some z =>
    obtain ⟨l, rfl⟩ := List.getLast?_eq_some_iff.mp hl
    rw [List.pairwise_append] at h
    simp only [above, Option.all_some, decide_eq_true_eq, List.append_eq_nil_iff, List.cons_ne_nil, and_false, false_and,
      ne_eq, not_false_eq_true, true_and, false_or, List.mem_append, List.mem_singleton]
    constructor
    · rintro hz x (hx | rfl)
      · have := h.2.2 x hx z (by simp)
        omega
      · exact hz
    · exact fun hz => hz z (.inr rfl)

/-- The pushes of a listing grow by those of one more quad (R115). -/
theorem pushesEntry_append {quads : List Quad} {q : Quad} (h : quads.Pairwise fun x y => x.id < y.id)
    (hlt : ∀ x ∈ quads, x.id < q.id) (b : Nat) (cursor : Option Nat) (hb : q.id % 64 = b) (e : Entry) :
    pushesEntry b (quads ++ [q]) cursor false e
      = ((pushesEntry b quads cursor false e
          || ((e.scope = .shared && e.id % 64 = b) && (above (lastQuad quads cursor) e.id && decide (e.id < q.id))))
        || ownOlder q e) := by
  have hm := mem_lastQuad h cursor e.id
  rw [Bool.eq_iff_iff]
  unfold pushesEntry ownOlder
  simp only [List.any_append, List.any_cons, List.any_nil, Bool.or_false, Bool.false_or, Bool.and_eq_true, Bool.or_eq_true,
    decide_eq_true_eq, hm]
  by_cases hs : e.scope = .shared
  · by_cases hlt' : e.id < q.id
    · have h1 : ¬ q.id = e.id := by omega
      have h2 : ¬ q.id < e.id := by omega
      have h3 : ¬ e.id = q.id := by omega
      simp only [hs, h1, h2, h3, hlt', decide_false, Bool.or_false, and_true, true_and, false_and, or_false]
      by_cases hid : e.id % 64 = b
      · by_cases hA : (quads.any fun x => decide (x.id = e.id)) = true
        · have hne : ¬ (quads = [] ∧ above cursor e.id = true) := by
            rintro ⟨rfl, _⟩
            simp at hA
          have hnl : ¬ (quads ≠ [] ∧ ∀ x ∈ quads, x.id < e.id) := by
            rintro ⟨_, hl⟩
            obtain ⟨x, hx, hxe⟩ := List.any_eq_true.mp hA
            have := hl x hx
            simp only [decide_eq_true_eq] at hxe
            omega
          simp [hid, hA, hne, hnl]
        · by_cases hU : (quads.any fun x => decide (e.id < x.id)) = true
          · have hne : ¬ (quads = [] ∧ above cursor e.id = true) := by
              rintro ⟨rfl, _⟩
              simp at hU
            have hnl : ¬ (quads ≠ [] ∧ ∀ x ∈ quads, x.id < e.id) := by
              rintro ⟨_, hl⟩
              obtain ⟨x, hx, hxe⟩ := List.any_eq_true.mp hU
              have := hl x hx
              simp only [decide_eq_true_eq] at hxe
              omega
            simp [hid, hA, hU, hne, hnl]
          · have hall : ∀ x ∈ quads, x.id < e.id := by
              intro x hx
              have h4 : ¬ x.id = e.id := fun hh => hA (List.any_eq_true.mpr ⟨x, hx, by simpa using hh⟩)
              have h5 : ¬ e.id < x.id := fun hh => hU (List.any_eq_true.mpr ⟨x, hx, by simpa using hh⟩)
              omega
            cases quads with
            | nil => simp [hid, above]
            | cons x l =>
              have hG : ((x :: l).any fun y => decide (y.id < e.id)) = true :=
                List.any_eq_true.mpr ⟨x, by simp, by simpa using hall x (by simp)⟩
              simp only [hid, hA, hU, hG, true_and, if_false, Bool.false_eq_true]
              simp only [reduceCtorEq, false_and, ne_eq, not_false_eq_true, true_and, false_or]
              exact ⟨fun _ => .inr hall, fun _ => by simp⟩
      · simp [hid]
    · have hA : (quads.any fun x => decide (x.id = e.id)) = false := by
        rw [List.any_eq_false]
        intro x hx
        have := hlt x hx
        simp only [decide_eq_true_eq]
        omega
      have hU : (quads.any fun x => decide (e.id < x.id)) = false := by
        rw [List.any_eq_false]
        intro x hx
        have := hlt x hx
        simp only [decide_eq_true_eq]
        omega
      have hS : (quads.any fun x => decide (x.id = e.id) && e.ver.supersedes x.ver) = false := by
        rw [List.any_eq_false]
        intro x hx
        have := hlt x hx
        simp only [Bool.and_eq_true, decide_eq_true_eq]
        omega
      by_cases he : e.id = q.id
      · have hid : e.id % 64 = b := by omega
        rw [he] at hA hU hS
        simp only [hs, hA, hU, hS, he, hb, decide_true, true_and, or_true, if_true, Bool.false_eq_true, if_false, and_false,
          Nat.lt_irrefl, Bool.and_false, Bool.false_or, Bool.true_and, false_or]
      · have h1 : ¬ q.id = e.id := fun h => he h.symm
        simp [hs, hA, hU, hlt', he, h1]
  · simp [hs]

/-- The merge of a listing's quads with the table, the end of the bucket apart (R115). -/
theorem State.foldl_compareQuad {s : State} (hs : s.pt.entries.Pairwise fun x y => x.id < y.id) (b : Nat) (cursor : Option Nat)
    (quads : List Quad) (hq : quads.Pairwise fun x y => x.id < y.id) (hb : ∀ q ∈ quads, q.id % 64 = b) :
    quads.foldl (State.compareQuad b) (s, cursor)
      = ((s.withPushed (pushesEntry b quads cursor false)).setSession (s.re.session.takeQuads s quads),
          lastQuad quads cursor) := by
  induction quads using List.reverseRecOn with
  | nil =>
    have : s.withPushed (pushesEntry b [] cursor false) = s := State.withPushed_none _ _ (by simp [pushesEntry])
    simp [this, Session.takeQuads, lastQuad, State.setSession]
  | append_singleton quads q ih =>
    rw [List.pairwise_append] at hq
    have hlt : ∀ x ∈ quads, x.id < q.id := fun x hx => hq.2.2 x hx q (by simp)
    rw [List.foldl_append, ih hq.1 fun x hx => hb x (by simp [hx])]
    generalize hse : s.re.session.takeQuads s quads = se
    have hbelow : ∀ e, pushesEntry b quads cursor false e = true → ∃ x ∈ quads, e.id ≤ x.id := by
      intro e he
      unfold pushesEntry at he
      simp only [Bool.and_eq_true, Bool.false_or] at he
      by_cases hA : (quads.any fun x => decide (x.id = e.id)) = true
      · obtain ⟨x, hx, hxe⟩ := List.any_eq_true.mp hA
        simp only [decide_eq_true_eq] at hxe
        exact ⟨x, hx, by omega⟩
      · rw [if_neg hA, Bool.and_eq_true] at he
        obtain ⟨x, hx, hxe⟩ := List.any_eq_true.mp he.2.2
        simp only [decide_eq_true_eq] at hxe
        exact ⟨x, hx, by omega⟩
    let B : Entry → Bool := fun e =>
      (e.scope = .shared && e.id % 64 = b) && (above (lastQuad quads cursor) e.id && decide (e.id < q.id))
    have hB : ∀ e, B e = true → (∀ x ∈ quads, x.id < e.id) ∧ e.id < q.id := by
      intro e he
      simp only [B, Bool.and_eq_true, decide_eq_true_eq] at he
      refine ⟨?_, he.2.2⟩
      rcases (mem_lastQuad hq.1 cursor e.id).mp he.2.1 with ⟨rfl, _⟩ | h
      · simp
      · exact h.2
    have hu : ((s.withPushed (pushesEntry b quads cursor false)).setSession se).pt.entries.Pairwise fun x y => x.id < y.id :=
      mapEntries_sorted hs fun e => by split <;> rfl
    have h1 : ((s.withPushed (pushesEntry b quads cursor false)).setSession se).pushBetween b (lastQuad quads cursor) (some q.id)
        = (s.withPushed fun e => pushesEntry b quads cursor false e || B e).setSession se := by
      rw [State.pushBetween_eq hu, ← State.withPushed_withPushed hs (p := pushesEntry b quads cursor false) (q := B)]
      · rfl
      · exact fun e m => rfl
      · intro e _ x _ he hx
        obtain ⟨y, hy, hle⟩ := hbelow e he
        have := (hB x hx).1 y hy
        omega
    have hent : ((s.withPushed fun e => pushesEntry b quads cursor false e || B e).setSession se).entry q.id
        = (s.entry q.id).map fun e =>
            if (pushesEntry b quads cursor false e || B e) = true then { e with mark := .push } else e :=
      findEntry_map (fun e => by split <;> rfl) _ _
    have hown : (s.withPushed fun e => pushesEntry b quads cursor false e || B e).withPushed (ownOlder q)
        = s.withPushed (pushesEntry b (quads ++ [q]) cursor false) := by
      rw [State.withPushed_withPushed hs]
      · exact State.withPushed_congr fun e _ =>
          (pushesEntry_append hq.1 hlt b cursor (hb q (by simp)) e).symm
      · exact fun e m => rfl
      · intro e _ x _ he hx
        simp only [ownOlder, Bool.and_eq_true, decide_eq_true_eq] at hx
        rcases Bool.or_eq_true_iff.mp he with he | he
        · obtain ⟨y, hy, hle⟩ := hbelow e he
          have := hlt y hy
          omega
        · have := (hB e he).2
          omega
    have htake : s.re.session.takeQuads s (quads ++ [q]) = if wantsQuad s q then se.addWant q.id else se := by
      rw [← hse]
      unfold Session.takeQuads
      by_cases hw : wantsQuad s q = true <;> simp [hw]
    have hlast : lastQuad (quads ++ [q]) cursor = some q.id := by simp [lastQuad]
    simp only [List.foldl_cons, List.foldl_nil, State.compareQuad, h1, hent, hlast, htake, ← hown]
    congr 1
    have hsorted2 : ((s.withPushed fun e => pushesEntry b quads cursor false e || B e).setSession se).pt.entries.Pairwise
        fun x y => x.id < y.id := mapEntries_sorted hs fun e => by split <;> rfl
    cases he : s.entry q.id with
    | none =>
      have hw : wantsQuad s q = true := by simp [wantsQuad, he]
      have hn : (s.withPushed fun e => pushesEntry b quads cursor false e || B e).withPushed (ownOlder q)
          = s.withPushed fun e => pushesEntry b quads cursor false e || B e := by
        refine State.withPushed_none _ _ fun e hm => ?_
        obtain ⟨x, hx, rfl⟩ := List.mem_map.mp hm
        have := findEntry_none.mp he x hx
        unfold ownOlder
        split <;> simp [this]
      simp only [Option.map_none, hw, if_true, hn]
      rfl
    | some e =>
      have hid := findEntry_id he
      have hmem := findEntry_mem he
      have hown2 : ∀ c : Bool, (e.scope = .shared && e.ver.supersedes q.ver) = c →
          (s.withPushed fun e => pushesEntry b quads cursor false e || B e).withPushed (ownOlder q)
            = (s.withPushed fun e => pushesEntry b quads cursor false e || B e).withPushed fun x => x.id = q.id && c := by
        intro c hc
        refine State.withPushed_congr fun x hx => ?_
        obtain ⟨y, hy, rfl⟩ := List.mem_map.mp hx
        by_cases hyi : y.id = q.id
        · have : y = e := by
            have h5 := findEntry_of_mem hs hy
            rw [hyi] at h5
            exact Option.some.inj (h5.symm.trans he)
          subst this
          rw [← hc]
          unfold ownOlder
          split <;> simp [hyi]
        · unfold ownOlder
          split <;> simp [hyi]
      have hent2 : ∀ m : Bool, (if m = true then { e with mark := Mark.push } else e).scope = e.scope
          ∧ (if m = true then { e with mark := Mark.push } else e).ver = e.ver := by
        intro m
        cases m <;> exact ⟨rfl, rfl⟩
      simp only [Option.map_some, (hent2 _).1, (hent2 _).2]
      have hnone : ∀ u : State, (u.withPushed fun x => x.id = q.id && false) = u :=
        fun u => State.withPushed_none _ _ (by simp)
      by_cases hloc : e.scope = .loc
      · have hw : wantsQuad s q = false := by simp [wantsQuad, he, hloc]
        rw [if_pos hloc, hw, hown2 false (by simp [hloc]), hnone]
        rfl
      · have hsh : e.scope = .shared := by
          cases hsc : e.scope with
          | shared => rfl
          | loc => exact absurd hsc hloc
        rw [if_neg hloc]
        by_cases h2 : q.ver.supersedes e.ver = true
        · have hw : wantsQuad s q = true := by simp [wantsQuad, he, hsh, h2]
          rw [if_pos h2, hw, hown2 false (by simp [Version.supersedes_asymm h2]), hnone]
          rfl
        · have hw : wantsQuad s q = false := by simp [wantsQuad, he, h2]
          rw [if_neg h2, hw]
          by_cases h3 : e.ver.supersedes q.ver = true
          · rw [if_pos h3, hown2 true (by simp [hsh, h3]), State.pushRequest_eq hsorted2]
            simp only [Bool.and_true]
            rfl
          · rw [if_neg h3, hown2 false (by simp [h3]), hnone]
            rfl

/-- The merge of a listing with the table is R115's. -/
theorem State.compareListing_eq {s : State} (hs : s.pt.entries.Pairwise fun x y => x.id < y.id) (b : Nat) (quads : List Quad)
    (bucketLast : Bool) (hq : quads.Pairwise fun x y => x.id < y.id) (hb : ∀ q ∈ quads, q.id % 64 = b) :
    s.compareListing b quads bucketLast
      = (s.withPushed (pushesEntry b quads s.re.session.cursor bucketLast)).setSession
          (s.re.session.takeQuads s quads) := by
  unfold State.compareListing
  rw [State.foldl_compareQuad hs b _ quads hq hb]
  cases bucketLast with
  | false => rfl
  | true =>
    have hu : ((s.withPushed (pushesEntry b quads s.re.session.cursor false)).setSession
        (s.re.session.takeQuads s quads)).pt.entries.Pairwise fun x y => x.id < y.id :=
      mapEntries_sorted hs fun e => by split <;> rfl
    simp only [if_true]
    rw [State.pushBetween_eq hu]
    have := State.withPushed_withPushed hs (p := pushesEntry b quads s.re.session.cursor false)
      (q := fun e => (e.scope = .shared && e.id % 64 = b)
        && (above (lastQuad quads s.re.session.cursor) e.id && (none : Option Nat).all fun h => decide (e.id < h)))
      (fun e m => rfl) (by
        intro e _ x _ he hx
        simp only [Bool.and_eq_true] at hx
        have hx := (mem_lastQuad hq s.re.session.cursor x.id).mp hx.2.1
        unfold pushesEntry at he
        simp only [Bool.and_eq_true, Bool.false_or] at he
        by_cases hA : (quads.any fun y => decide (y.id = e.id)) = true
        · obtain ⟨y, hy, hye⟩ := List.any_eq_true.mp hA
          simp only [decide_eq_true_eq] at hye
          rcases hx with ⟨rfl, _⟩ | hx
          · simp at hy
          · have := hx.2 y hy
            omega
        · rw [if_neg hA, Bool.and_eq_true] at he
          obtain ⟨y, hy, hye⟩ := List.any_eq_true.mp he.2.2
          simp only [decide_eq_true_eq] at hye
          rcases hx with ⟨rfl, _⟩ | hx
          · simp at hy
          · have := hx.2 y hy
            omega)
    have hfin : (fun e => pushesEntry b quads s.re.session.cursor false e
        || ((e.scope = .shared && e.id % 64 = b)
          && (above (lastQuad quads s.re.session.cursor) e.id && (none : Option Nat).all fun h => decide (e.id < h))))
        = pushesEntry b quads s.re.session.cursor true := by
      funext e
      have hm := mem_lastQuad hq s.re.session.cursor e.id
      rw [Bool.eq_iff_iff]
      unfold pushesEntry
      simp only [Bool.and_eq_true, Bool.or_eq_true, decide_eq_true_eq, hm, Option.all_none, and_true]
      by_cases hA : (quads.any fun x => decide (x.id = e.id)) = true
      · have hnl : ¬ ((quads = [] ∧ above s.re.session.cursor e.id = true) ∨ (quads ≠ [] ∧ ∀ x ∈ quads, x.id < e.id)) := by
          obtain ⟨x, hx, hxe⟩ := List.any_eq_true.mp hA
          simp only [decide_eq_true_eq] at hxe
          rintro (⟨rfl, _⟩ | ⟨_, hl⟩)
          · simp at hx
          · have := hl x hx
            omega
        simp only [hA, if_true, hnl, and_false, or_false]
      · simp only [hA, if_false, Bool.false_eq_true, Bool.or_eq_true, Bool.and_eq_true, false_or, true_or, and_true]
        by_cases hU : (quads.any fun x => decide (e.id < x.id)) = true
        · have hnl : ¬ ((quads = [] ∧ above s.re.session.cursor e.id = true) ∨ (quads ≠ [] ∧ ∀ x ∈ quads, x.id < e.id)) := by
            obtain ⟨x, hx, hxe⟩ := List.any_eq_true.mp hU
            simp only [decide_eq_true_eq] at hxe
            rintro (⟨rfl, _⟩ | ⟨_, hl⟩)
            · simp at hx
            · have := hl x hx
              omega
          simp only [hU, and_true, hnl, and_false, or_false]
        · have hall : ∀ x ∈ quads, x.id < e.id := by
            intro x hx
            have h4 : ¬ x.id = e.id := fun hh => hA (List.any_eq_true.mpr ⟨x, hx, by simpa using hh⟩)
            have h5 : ¬ e.id < x.id := fun hh => hU (List.any_eq_true.mpr ⟨x, hx, by simpa using hh⟩)
            omega
          cases quads with
          | nil => simp [above]
          | cons x l =>
            have hG : ((x :: l).any fun y => decide (y.id < e.id)) = true :=
              List.any_eq_true.mpr ⟨x, by simp, by simpa using hall x (by simp)⟩
            simp only [hU, hG, and_false, false_or, or_true, and_true, reduceCtorEq, false_and, ne_eq, not_false_eq_true,
              true_and, Bool.false_eq_true]
            exact ⟨fun h => h.1, fun h => ⟨h, hall⟩⟩
    rw [← hfin, ← this]
    rfl

/-! ### Packing an UPDATE (R42) -/

/-- The entries packed for a mark are the first of those of the list that bear it, up to the first that would be a fifth record or
pass 159 bytes (R42). -/
theorem packOutbound_spec (es : List Entry) (m : Mark) (ids : List Nat) (packed bytes : Nat) (hp : packed ≤ 4) (hb : bytes ≤ 159) :
    ∃ left, packOutbound es m ids packed bytes ++ left = ids.filterMap (fun i => (findEntry es i).filter fun e => e.mark = m)
      ∧ packed + (packOutbound es m ids packed bytes).length ≤ 4
      ∧ bytes + ((packOutbound es m ids packed bytes).map fun e => 8 + e.value.length).sum ≤ 159
      ∧ (left = [] ∨ packed + (packOutbound es m ids packed bytes).length = 4 ∨ ∃ e tail, left = e :: tail
          ∧ 159 < bytes + ((packOutbound es m ids packed bytes).map fun e => 8 + e.value.length).sum + (8 + e.value.length)) := by
  induction ids generalizing packed bytes with
  | nil => exact ⟨[], by simp [packOutbound], by simpa [packOutbound] using hp, by simpa [packOutbound] using hb, .inl rfl⟩
  | cons i ids ih =>
    cases hf : findEntry es i with
    | none => simpa [packOutbound, hf] using ih packed bytes hp hb
    | some e =>
      by_cases hm : e.mark = m
      · have hcons : (i :: ids).filterMap (fun i => (findEntry es i).filter fun e => e.mark = m)
            = e :: ids.filterMap fun i => (findEntry es i).filter fun e => e.mark = m := by
          rw [List.filterMap_cons_some]
          simp [hf, hm]
        rw [hcons]
        by_cases hc : packed = Config.maxRecords ∨ Config.maxRecordBytes < bytes + 8 + e.value.length
        · refine ⟨_, by simp only [packOutbound, hf, hm, hc, ne_eq, not_true_eq_false, if_false, if_true]; rfl, ?_, ?_, ?_⟩
          all_goals simp only [packOutbound, hf, hm, hc, ne_eq, not_true_eq_false, if_false, if_true, List.length_nil,
            List.map_nil, List.sum_nil, Nat.add_zero]
          · exact hp
          · exact hb
          · rcases hc with hc | hc
            · exact .inr (.inl hc)
            · refine .inr (.inr ⟨e, _, rfl, ?_⟩)
              have : Config.maxRecordBytes = 159 := rfl
              omega
        · have h4 : Config.maxRecords = 4 := rfl
          have h159 : Config.maxRecordBytes = 159 := rfl
          obtain ⟨left, h1, h2, h3, h5⟩ := ih (packed + 1) (bytes + 8 + e.value.length) (by omega) (by omega)
          refine ⟨left, ?_, ?_, ?_, ?_⟩
          all_goals simp only [packOutbound, hf, hm, hc, ne_eq, not_true_eq_false, if_false, List.length_cons, List.map_cons,
            List.sum_cons, List.cons_append]
          · rw [h1]
          · omega
          · omega
          · rcases h5 with h5 | h5 | ⟨x, tail, h5, h6⟩
            · exact .inl h5
            · exact .inr (.inl (by omega))
            · exact .inr (.inr ⟨x, tail, h5, by omega⟩)
      · simpa [packOutbound, hf, hm] using ih packed bytes hp hb

/-! ### The responder (R124, R126, R127) -/

/-- A frame of the request at the head is in flight. -/
theorem State.headInFlight_iff (s : State) :
    s.headInFlight = true ↔ ∃ f ends moved, s.li.flight = some f ∧ f.cargo = .reply true ends moved := by
  unfold State.headInFlight
  cases hf : s.li.flight with
  | none => simp
  | some f =>
    cases hc : f.cargo with
    | reply h e m => cases h <;> simp [hc]
    | _ => simp [hc]

/-- A reply frame in flight no longer serves the head of the queue. -/
theorem Flight.orphan_eq (f : Flight) : f.orphan = { f with cargo := match f.cargo with
    | .reply _ ends moved => .reply false ends moved
    | cargo => cargo } := by
  unfold Flight.orphan
  cases f with
  | mk chars elapsed cls probe cargo => cases cargo <;> rfl

/-- The placing of a request is Table 6.5.2's. -/
theorem State.placeRequest_placed (s : State) (r : Request) : RequestPlaced s (s.placeRequest r) r := by
  constructor
  · intro old served hf hserved
    have hs : s.served old = true ↔ served := by
      rw [hserved, ← s.headInFlight_iff]
      simp only [State.served, Bool.or_eq_true, Bool.and_eq_true, beq_iff_eq]
      exact or_congr_right and_comm
    have hreq : old.requester = r.requester := by simpa using List.find?_some hf
    unfold State.placeRequest
    rw [hf]
    constructor
    · intro h
      simp only [show s.served old = false by rw [Bool.eq_false_iff]; exact fun h' => h (hs.mp h'), Bool.false_eq_true,
        if_false]
      rfl
    · intro h
      simp only [hs.mpr h, if_true]
      have hhead : (s.re.replyQueue.head?.map Request.requester) = some r.requester ↔ s.re.replyQueue.head? = some old := by
        cases hq : s.re.replyQueue with
        | nil => simp
        | cons x q =>
          rw [hq, List.find?_cons] at hf
          simp only [List.head?_cons, Option.map_some, Option.some.injEq]
          constructor
          · intro hx
            simpa [hx] using hf
          · rintro rfl
            exact hreq
      unfold State.dropRequest
      have ho : (fun f : Flight => f.orphan) = fun f => { f with cargo := match f.cargo with
          | .reply _ ends moved => .reply false ends moved
          | cargo => cargo } := funext Flight.orphan_eq
      by_cases hh : s.re.replyQueue.head? = some old
      · rw [if_pos (hhead.mpr hh), if_pos hh]
        unfold State.orphanReply
        rw [show Flight.orphan = fun f : Flight => f.orphan from rfl, ho]
        rfl
      · rw [if_neg (fun h => hh (hhead.mp h)), if_neg hh]
        rfl
  · intro hnone
    have hf : (s.re.replyQueue.find? fun x => x.requester = r.requester) = none := by
      rw [List.find?_eq_none]
      intro x hx
      simpa using hnone x hx
    unfold State.placeRequest
    rw [hf]
    constructor
    · intro h
      have : Config.maxRequests ≤ s.re.replyQueue.length := h
      simp only [this, if_true]
      rfl
    · intro h
      have : ¬ Config.maxRequests ≤ s.re.replyQueue.length := Nat.not_le.mpr h
      simp only [this, if_false]
      rfl

/-- The packing of a fetch frame: the ids consumed are the first ones of the list, each SHARED one with its record, up to 4 records
and 159 bytes; what is left begins with a record that would pass 159 bytes, and nothing more is consumed once 4 are packed (R127). -/
theorem packFetch_spec (es : List Entry) (ids : List Nat) (packed bytes : Nat) (hp : packed ≤ 4) (hb : bytes ≤ 159) :
    ∃ (taken left : List Nat) (found : List Entry), taken ++ left = ids
      ∧ found = taken.filterMap (fun i => (findEntry es i).filter fun e => e.scope = .shared)
      ∧ packFetch es ids packed bytes = (found.map Entry.record, taken.length)
      ∧ packed + found.length ≤ 4 ∧ bytes + (found.map fun e => 8 + e.value.length).sum ≤ 159
      ∧ (packed + found.length = 4 → (packed = 4 ∧ taken = [])
          ∨ ∃ i, taken.getLast? = some i ∧ ((findEntry es i).filter fun e => e.scope = .shared) ≠ none)
      ∧ (packed + found.length < 4 → left = []
          ∨ ∃ i tail e, left = i :: tail ∧ ((findEntry es i).filter fun e => e.scope = .shared) = some e
            ∧ 159 < bytes + (found.map fun e => 8 + e.value.length).sum + (8 + e.value.length)) := by
  induction ids generalizing packed bytes with
  | nil =>
    refine ⟨[], [], [], rfl, rfl, rfl, by simpa using hp, by simpa using hb, ?_, fun _ => .inl rfl⟩
    intro h
    exact .inl ⟨by simpa using h, rfl⟩
  | cons id ids ih =>
    unfold packFetch
    by_cases h4 : packed = Config.maxRecords
    · have h4' : packed = 4 := h4
      refine ⟨[], id :: ids, [], rfl, rfl, by simp [h4], by simpa using hp, by simpa using hb, ?_, ?_⟩
      · intro _
        exact .inl ⟨h4', rfl⟩
      · intro h
        simp only [List.length_nil] at h
        omega
    · have h4' : packed < 4 := by
        have : packed ≠ 4 := h4
        omega
      rw [if_neg h4]
      have hskip : ((findEntry es id).filter fun e => e.scope = .shared) = none →
          ∃ (taken left : List Nat) (found : List Entry), taken ++ left = id :: ids
            ∧ found = taken.filterMap (fun i => (findEntry es i).filter fun e => e.scope = .shared)
            ∧ ((packFetch es ids packed bytes).1, (packFetch es ids packed bytes).2 + 1)
                = (found.map Entry.record, taken.length)
            ∧ packed + found.length ≤ 4 ∧ bytes + (found.map fun e => 8 + e.value.length).sum ≤ 159
            ∧ (packed + found.length = 4 → (packed = 4 ∧ taken = [])
                ∨ ∃ i, taken.getLast? = some i ∧ ((findEntry es i).filter fun e => e.scope = .shared) ≠ none)
            ∧ (packed + found.length < 4 → left = []
                ∨ ∃ i tail e, left = i :: tail ∧ ((findEntry es i).filter fun e => e.scope = .shared) = some e
                  ∧ 159 < bytes + (found.map fun e => 8 + e.value.length).sum + (8 + e.value.length)) := by
        intro hn
        obtain ⟨taken, left, found, h1, h2, h3, h5, h6, h7, h8⟩ := ih packed bytes hp hb
        refine ⟨id :: taken, left, found, by simp [h1], by simp [hn, h2], by simp [h3], h5, h6, ?_, h8⟩
        intro h
        rcases h7 h with ⟨hpk, _⟩ | ⟨i, hi, hne⟩
        · omega
        · refine .inr ⟨i, ?_, hne⟩
          cases taken with
          | nil => simp at hi
          | cons a l => simpa [List.getLast?_cons_cons] using hi
      cases he : findEntry es id with
      | none => exact hskip (by simp [he])
      | some e =>
        simp only
        by_cases hl : e.scope = .loc
        · rw [if_pos hl]
          exact hskip (by simp [he, hl])
        · have hs : ((findEntry es id).filter fun e => e.scope = .shared) = some e := by
            have : e.scope = .shared := by
              cases h : e.scope
              · rfl
              · exact absurd h hl
            simp [he, this]
          rw [if_neg hl]
          by_cases hov : Config.maxRecordBytes < bytes + 8 + e.value.length
          · have hov' : 159 < bytes + 8 + e.value.length := hov
            rw [if_pos hov]
            refine ⟨[], id :: ids, [], rfl, rfl, rfl, by simpa using hp, by simpa using hb, ?_, ?_⟩
            · intro h
              simp only [List.length_nil] at h
              omega
            · intro _
              refine .inr ⟨id, ids, e, rfl, hs, ?_⟩
              simp only [List.map_nil, List.sum_nil]
              omega
          · have hov' : bytes + 8 + e.value.length ≤ 159 := Nat.not_lt.mp hov
            rw [if_neg hov]
            obtain ⟨taken, left, found, h1, h2, h3, h5, h6, h7, h8⟩ :=
              ih (packed + 1) (bytes + 8 + e.value.length) (by omega) hov'
            refine ⟨id :: taken, left, e :: found, by simp [h1], by simp [hs, h2], by simp [h3], ?_, ?_, ?_, ?_⟩
            · simp only [List.length_cons]
              omega
            · simp only [List.map_cons, List.sum_cons]
              omega
            · intro h
              right
              simp only [List.length_cons] at h
              rcases h7 (by omega) with ⟨_, rfl⟩ | ⟨i, hi, hne⟩
              · exact ⟨id, rfl, by rw [hs]; simp⟩
              · refine ⟨i, ?_, hne⟩
                cases taken with
                | nil => simp at hi
                | cons a l => simpa [List.getLast?_cons_cons] using hi
            · intro h
              simp only [List.length_cons] at h
              rcases h8 (by omega) with hn | ⟨i, tail, x, hi, hx, hsum⟩
              · exact .inl hn
              · refine .inr ⟨i, tail, x, hi, hx, ?_⟩
                simp only [List.map_cons, List.sum_cons]
                omega

/-- The next frame of a request is R126's or R127's. -/
theorem State.replyFrame_built (s : State) (w : Work) : ReplyBuilt s w (replyFrame s.pt.entries w).1
    (replyFrame s.pt.entries w).2.1 (replyFrame s.pt.entries w).2.2 := by
  refine ⟨by cases w <;> rfl, by cases w <;> rfl, ?_, ?_⟩
  · rintro buckets pos part last b rfl rfl
    have hrest : ((sharedIn s.pt.entries (buckets.getD pos 0)).filter fun e => above last e.id)
        = s.pt.entries.filter fun e =>
          e.scope = .shared && e.id % 64 = buckets.getD pos 0 && last.all fun i => i < e.id := by
      unfold sharedIn
      rw [List.filter_filter]
      refine List.filter_congr fun e _ => ?_
      rw [Bool.and_comm]
      rfl
    refine ⟨_, rfl, ?_⟩
    rw [← hrest]
    unfold replyFrame
    refine ⟨rfl, by simp [Config.maxQuads], by simp [Config.maxQuads], ?_, ?_⟩
    · intro h
      simp only [Config.maxQuads, h, decide_true, if_true]
    · intro e h he
      have hlast : lastQuad ((((sharedIn s.pt.entries (buckets.getD pos 0)).filter fun e => above last e.id).take 16).map
          fun e => ({ id := e.id, ver := e.ver } : Quad)) last = some e.id := by
        have hlen : (((sharedIn s.pt.entries (buckets.getD pos 0)).filter fun e => above last e.id).take 16).length = 16 := by
          rw [List.length_take]
          omega
        unfold lastQuad
        rw [List.getLast?_map, List.getLast?_eq_getElem?, hlen, List.getElem?_take_of_lt (by omega), he]
        rfl
      simp only [Config.maxQuads, Nat.not_le.mpr h, decide_false, Bool.false_eq_true, if_false]
      rw [hlast]
  · rintro ids consumed rfl
    obtain ⟨taken, left, found, h1, h2, h3, h4, h5, h6, h7⟩ :=
      packFetch_spec s.pt.entries (ids.drop consumed) 0 0 (by omega) (by omega)
    refine ⟨_, taken, left, found, fun _ => rfl, h1, h2, ?_, by simpa using h4, by simpa using h5, ?_, ?_, rfl, ?_, ?_⟩
    · simp only [replyFrame, h3]
      rfl
    · intro h
      rcases h6 (by omega) with ⟨hz, _⟩ | hx
      · omega
      · exact hx
    · intro h
      rw [← Nat.zero_add (found.map fun e => 8 + e.value.length).sum]
      exact h7 (by omega)
    · simp [replyFrame, h3]
    · simp [replyFrame, h3]

/-! ### Frames in flight of what is over (R122, R124, R128) -/

theorem Flight.left_none (f : Flight) : f.left false false = f := by
  obtain ⟨chars, elapsed, cls, probe, cargo⟩ := f
  cases cargo <;> simp [Flight.left]

theorem Flight.left_left (f : Flight) (a b c d : Bool) : (f.left a b).left c d = f.left (a || c) (b || d) := by
  obtain ⟨chars, elapsed, cls, probe, cargo⟩ := f
  cases cargo <;> simp [Flight.left, Bool.and_assoc]

theorem Flight.orphan_left (f : Flight) : f.orphan = f.left false true := by
  obtain ⟨chars, elapsed, cls, probe, cargo⟩ := f
  cases cargo <;> simp [Flight.left, Flight.orphan]

theorem Flight.unawait_left (f : Flight) : f.unawait = f.left true false := by
  obtain ⟨chars, elapsed, cls, probe, cargo⟩ := f
  cases cargo <;> simp [Flight.left, Flight.unawait]

/-- All that the end of a session does (R119 to R122). -/
theorem State.closeSession_eq (s : State) : s.closeSession = { s with
    re := { s.re with session := .cleared }, li := { s.li with flight := s.li.flight.map (Flight.left true false) } } := by
  unfold State.closeSession State.unawait State.setSession
  rw [funext Flight.unawait_left]

/-- All that the departure of a requester does (R128). -/
theorem State.dropRequest_eq (s : State) (n : Nat) : s.dropRequest n = { s with
    re := { s.re with replyQueue := s.re.replyQueue.filter fun r => r.requester ≠ n }
    li := { s.li with
      flight := s.li.flight.map (Flight.left false (s.re.replyQueue.head?.any fun r => r.requester = n)) } } := by
  have hh : (s.re.replyQueue.head?.map Request.requester) = some n
      ↔ (s.re.replyQueue.head?.any fun r => r.requester = n) = true := by
    cases s.re.replyQueue.head? <;> simp
  unfold State.dropRequest State.setReplies
  by_cases h : (s.re.replyQueue.head?.map Request.requester) = some n
  · rw [if_pos h, hh.mp h]
    unfold State.orphanReply
    rw [funext Flight.orphan_left]
  · rw [if_neg h, Bool.eq_false_iff.mpr (fun h' => h (hh.mpr h')), funext Flight.left_none]
    simp

/-- The search of R109 changes the session and the roster alone. -/
theorem State.searchSession_frame (s : State) : s.searchSession = { s with
    re := { s.re with session := s.searchSession.re.session, roster := s.searchSession.re.roster } } := by
  have ho : ∀ n, s.openSession n = { s with
      re := { s.re with session := (s.openSession n).re.session, roster := (s.openSession n).re.roster } } := by
    intro n
    unfold State.openSession State.updatePeer State.setSession
    split <;> rfl
  unfold State.searchSession
  split
  · split
    · exact ho _
    · rfl
  · rfl

end Sys2Proof.Machine
end

