-- ==== Sys2Proof/Tests/Slice0.lean ====
section
/-! SUPPORT. Tests: ill-formed commands refused, the manual's small worked examples, and, for every statement of
Certificates/Slice0/Obligations.lean that has hypotheses, a concrete state and operands that meet them, clause by clause. -/

/- One test after another: an evaluation by the kernel waits for the checking of all before it, and each that waits holds a thread. -/
set_option Elab.async false

namespace Sys2Proof.Machine.Tests

/-! ### Ill-formed commands (WellFormed.lean) -/

/-- A transaction code that the part knows, a command code that it knows. -/
theorem test_ill_codes :
    (Instr.otherTransactionCode ⟨0x04, 0⟩).wf = false ∧ (Instr.otherTransactionCode ⟨0x05, 9⟩).wf = true
      ∧ (Instr.unknownCommand 0x20 ⟨0, 0, [], 0, 0⟩).wf = false ∧ (Instr.unknownCommand 0x21 ⟨0, 0, [], 0, 0⟩).wf = false
      ∧ (Instr.unknownCommand 0x14 ⟨0, 0, [], 0, 0⟩).wf = true := by decide

/-- A complete block is not an aborted one. -/
theorem test_ill_aborted_block :
    (Instr.commandBlockAborted [0x10, 1, 0, 0xEF]).wf = false ∧ (Instr.commandBlockAborted [0x10, 1, 41]).wf = false
      ∧ (Instr.commandBlockAborted [0x10, 1, 0]).wf = true ∧ (Instr.commandBlockAborted []).wf = true := by decide

/-- Parameters other in number than the length byte says, in each command that carries a block. -/
theorem test_ill_blocks :
    (([⟨1, 2, [0], 0, 0⟩, ⟨1, 41, [0], 0, 0⟩] : List Block).flatMap fun b =>
      [Instr.cmdStatus b, .cmdSetup b, .cmdOpen b, .cmdClose b, .cmdPut b, .cmdRemove b, .cmdGet b, .cmdList b,
        .cmdWatch b, .cmdFlush b, .cmdJournalInfo b, .cmdRoster b, .cmdCounters b, .unknownCommand 0x77 b]).all
      (fun c => c.wf = false) = true := by decide

/-- Bits beyond the longest frame; a frame of another length than its char 4 says; a char 4 that is no FORMAT error. -/
theorem test_ill_frames :
    (Instr.withdrawal 1670).wf = false ∧ (Instr.driveFault 1670).wf = false ∧ (Instr.driveFault 1669).wf = true
      ∧ (Instr.frameReceived [6, 1, 0, 0, 0, 0]).wf = false ∧ (Instr.frameReceived [6, 1, 0, 0]).wf = false
      ∧ (Instr.frameReceived (List.replicate 168 161)).wf = false
      ∧ (Instr.formatError 160).wf = false ∧ (Instr.formatError 161).wf = true := by decide

/-- Quiet counts and dominant runs that the errors cannot have; station numbers without a roster entry. -/
theorem test_ill_counts :
    (Instr.framingError ⟨9, 10⟩).wf = false ∧ (Instr.framingError ⟨8, 0⟩).wf = false
      ∧ (Instr.gapError 3).wf = false ∧ (Instr.gapError 13).wf = false
      ∧ (Instr.peerLost 0).wf = false ∧ (Instr.peerLost 32).wf = false ∧ (Instr.peerAbsent 0).wf = false
      ∧ (Instr.peerAbsent 32).wf = false := by decide

/-- No word spells a command: the table gives no bits. -/
theorem test_no_word_decodes : decodeTableWord 8 0x20 = none ∧ decodeTableWord 0 0 = none := by decide

/-! ### The bits of a transaction (R180, R183, Tables 11.2.1 and 11.3.1) -/

/-- Transactions 1 to 4 of chapter 11's example, a block cut short, and a length byte above 40. -/
theorem test_transactions_of_the_example :
    decodeTransaction ([0x01, 0x20, 0x5A, 0x05, 0x2C, 0x01, 0x00, 0x0A, 0x14, 0x36].flatMap byteBits)
        = .cmdPut ⟨0x5A, 5, [0x2C, 0x01, 0x00, 0x0A, 0x14], 0x36, 0⟩
      ∧ decodeTransaction ([0x01, 0x22, 0x5B, 0x02, 0x29, 0x00, 0x58, 0x77].flatMap byteBits)
        = .cmdGet ⟨0x5B, 2, [0x29, 0x00], 0x58, 1⟩
      ∧ decodeTransaction ([0x02, 0, 0, 0, 0, 0].flatMap byteBits) = .readResponse (.whole 5)
      ∧ decodeTransaction ([0x03, 0, 0, 0].flatMap byteBits) = .popEvent (.whole 3)
      ∧ decodeTransaction ([0x01, 0x20, 0x5A, 0x05].flatMap byteBits) = .commandBlockAborted [0x20, 0x5A, 0x05]
      ∧ decodeTransaction ([0x01, 0x20, 0x5A, 0x29, 0x77].flatMap byteBits) = .cmdPut ⟨0x5A, 0x29, [], 0, 1⟩ := by decide

/-- The code byte is complete at its eighth bit, most significant bit first; RESTART is told the bits after its code. -/
theorem test_transaction_codes :
    decodeTransaction [false, false, false, false, false, true, false, false] = .readStatus (.clocked 8)
      ∧ decodeTransaction [false, false, false, false, false, true, false] = .readStatus (.clocked 7)
      ∧ decodeTransaction [false, false, false, false, true, true, true, false] = .restart 0
      ∧ decodeTransaction [false, false, false, false, true, true, true, false, true] = .restart 1
      ∧ decodeTransaction [false, false, true, false, false, false, false, false] = .otherTransactionCode ⟨0x20, 0⟩ := by decide

/-! ### The manual's worked examples -/

/-- The CRC-16 of R2: its check value. -/
theorem test_crc : crc16 [0x31, 0x32, 0x33, 0x34, 0x35, 0x36, 0x37, 0x38, 0x39] = 0x29B1 ∧ crc16 [] = 0xFFFF := by decide +kernel

/-- Table 1.4.1. -/
theorem test_precedence :
    (Version.mk 120 4 0x1A2B).supersedes ⟨119, 2, 0xFFFF⟩ = true ∧ (Version.mk 120 4 0x1A2B).supersedes ⟨120, 7, 0x9000⟩ = true
      ∧ (Version.mk 120 4 0x1A2B).supersedes ⟨120, 4, 0x0C00⟩ = true ∧ (Version.mk 120 4 0).supersedes ⟨120, 4, 0⟩ = false
      ∧ (Version.mk 6 1 0xFFFF).supersedes ⟨5, 31, 1⟩ = true := by decide

/-- The block check of chapter 11's example, and the check of the response. -/
theorem test_block_checks :
    blockGood 0x20 ⟨0x5A, 5, [0x2C, 0x01, 0, 0x0A, 0x14], 0x36, 0⟩ = true
      ∧ Response.block ⟨0x20, 0x5A, .done, []⟩ = [0x20, 0x5A, 0, 0, 0x86] := by decide

/-- An entry of a length, for packing. -/
def ofLength (m : Mark) (p : Nat × Nat) : Entry :=
  { Entry.fresh p.1 .shared with value := List.replicate p.2 0, mark := m }

/-- What is packed of NEW ids with value lengths, and the bytes of the records. -/
def packed (l : List (Nat × Nat)) : List Nat × Nat :=
  let es := packOutbound (l.map (ofLength .new)) .new (l.map Prod.fst) 0 0
  (es.map Entry.id, (es.flatMap fun e => e.record.bytes).length)

/-- Table 2.5.1. -/
theorem test_packing :
    packed [(12, 4), (80, 2), (95, 0)] = ([12, 80, 95], 30)
      ∧ packed [(7, 32), (8, 32), (9, 32), (10, 32), (11, 1)] = ([7, 8, 9], 120)
      ∧ packed [(20, 30), (21, 32), (22, 32), (23, 30), (24, 2)] = ([20, 21, 22, 23], 156)
      ∧ packed [(3, 2), (4, 2), (5, 2), (6, 2), (7, 2)] = ([3, 4, 5, 6], 40) := by decide +kernel

/-! ### States -/

/-- A running station 4 with replay over and 16 ERASED bands. -/
def live (st : Station) : State :=
  { State.reset with
    power := .running, straps := { sn := 4, lr := 0, bc := 0 }
    jc := { Journal.reset with replay := none, bands := List.replicate 16 { state := .erased, seq := none, live := 0 } }
    sc := { StationCtl.reset with station := st }
    li := { LineIf.reset with receiver := .idle } }

/-- A good block of a code. -/
def block (code : Byte) (p : List Byte) : Block :=
  { tag := 7, len := byte1 p.length, params := p, check := -(byteSum ([code, 7, byte1 p.length] ++ p)), extra := 0 }

/-- An entry with a value, generation 1 and origin 4. -/
def entryOf (id : Nat) (scope : Scope) (value : List Byte) (slot : Option Nat) : Entry :=
  { Entry.fresh id scope with ver := { gen := 1, origin := 4, check := valueCheck value }, value := value, slot := slot }

/-- A state that holds entries, H being 1. -/
def holding (st : Station) (es : List Entry) : State :=
  { live st with pt := { (live st).pt with h := 1, entries := es } }

/-- Entry 44, SHARED, value 0A 14. -/
def e44 : Entry := entryOf 44 .shared [0x0A, 0x14] none

/-- Entry 300, LOCAL, nine bytes in slot 0. -/
def e300 : Entry := entryOf 300 .loc [1, 2, 3, 4, 5, 6, 7, 8, 9] (some 0)

/-- A tombstone. -/
def e45 : Entry := entryOf 45 .shared [] none

/-- The station with the three entries. -/
def table (st : Station) : State := holding st [e44, e45, e300]

/-- The entries 44 and 45 marked for the line, and a list of ids. -/
def listed (ids : List Nat) : State :=
  let s := holding .active [{ e44 with mark := .push }, { e45 with mark := .new }]
  { s with re := { s.re with outbound := ids } }

/-- An UPDATE in flight, its ids off the list. -/
def flying (packed : List Packed) : State :=
  let s := holding .active [e44]
  { s with li := { s.li with
      receiver := .receiving true 2, line := .dominant
      flight := some { chars := [1, 4, 0, 1, 0, 0xFF, 0xFF], elapsed := 2, cls := .b, probe := false, cargo := .update packed } } }

/-- A receiver in a state. -/
def hearing (st : Station) (r : Receiver) (line : Level) : State :=
  { live st with li := { LineIf.reset with receiver := r, line := line } }

/-- A state whose roster entry of a station is given. -/
def knowing (st : Station) (n : Nat) (p : Peer) : State :=
  { live st with re := { (live st).re with roster := (List.replicate 31 Peer.cleared).set (n - 1) p } }

/-! ### The machine and its laws -/

/-- Hypotheses of IdleStepPassesOneBitTime, with each state of the receiver. -/
theorem test_idle_step_hypotheses :
    State.reset.pending = [] ∧ State.reset.power ≠ .running ∧ (live .active).pending = [] ∧ (live .active).power = .running
      ∧ (hearing .replay .off .recessive).li.receiver = .off
      ∧ (∀ l : Level, (hearing .active .seeking l).li.receiver = .seeking ∧ (hearing .active .idle l).li.receiver = .idle
        ∧ (hearing .active .idle l).li.line = l)
      ∧ (∀ l : Level, (hearing .active (.receiving false 3) l).li.receiver = .receiving false 3
        ∧ (hearing .active (.receiving false 3) l).li.line = l)
      ∧ (hearing .active (.receiving true 3) .dominant).li.flight = none
      ∧ (∃ f, (flying []).li.flight = some f ∧ (frameBits f.chars)[f.elapsed]? = some false)
      ∧ (frameBits [1])[1]? = some true ∧ (frameBits [1])[10]? = none :=
  ⟨by decide, by decide, by decide, by decide, by decide, fun _ => ⟨rfl, rfl, rfl⟩, fun _ => ⟨rfl, rfl⟩, by decide,
    ⟨_, rfl, by decide⟩, by decide, by decide⟩

/-- An idle step of a part that sends: the level of its own bit, the frame one bit further. -/
theorem test_idle_step_sends :
    ∃ t, step (flying []) = .next t ∧ t.li.receiver = .receiving true 3 ∧ t.li.quiet = 0 ∧ t.clk = { now := 0, us := 16 } :=
  ⟨_, rfl, by decide, by decide, by decide⟩

/-- WellFormedCommandsGoOn has no hypotheses: a part in reset, a block whose length byte does not fit. -/
theorem test_commands_go_on_hypotheses :
    (∃ t, exec .frameComplete State.reset = .next t) ∧ (Instr.cmdStatus ⟨1, 2, [0], 0, 0⟩).wf = false
      ∧ (∃ t, exec (.cmdStatus ⟨1, 2, [0], 0, 0⟩) (live .active) = .next t) :=
  ⟨⟨_, rfl⟩, by decide, ⟨_, rfl⟩⟩

/-- Hypotheses of StoppedPartIgnoresCommands. -/
theorem test_stopped_part_hypotheses :
    Instr.append.wf = true ∧ actsStopped .append = false ∧ State.reset.power ≠ .running := by decide

/-- An event after which the table holds an entry of nine bytes: a LOCAL PUT. -/
def putting : State :=
  { live .active with pending := [.cmdPut (block 0x20 ([0x2C, 0x01, 0x01] ++ [1, 2, 3, 4, 5, 6, 7, 8, 9]))] }

/-- Hypotheses of FlashStaysCanonical, TableLawKept, DigestsAndCountsKept, HighMarkLawKept, NotifyLawKept, BoundLawKept and
LendLawKept, at a state that puts an entry: a step goes on from it, and its table, digests, H, counts, lend, flash and
notify queue keep the laws. -/
theorem test_laws_hypotheses :
    (∃ t, step putting = .next t ∧ t.pt.entries.length = 1) ∧ Flash.wf putting.flash
      ∧ TableLaw putting.pt ∧ DigestLaw putting.pt ∧ HighMarkLaw putting.pt ∧ BoundLaw putting ∧ LendLaw putting.sp
      ∧ NotifyLaw putting.cp.notify := by
  refine ⟨⟨_, rfl, by decide +kernel⟩, by decide, ?_, ?_, by unfold HighMarkLaw; decide, by unfold BoundLaw; decide, ?_, ?_⟩
  · unfold TableLaw EntryLaw; decide +kernel
  · unfold DigestLaw; decide +kernel
  · unfold LendLaw; decide
  · unfold NotifyLaw
    refine ⟨by decide, ?_, by decide, by decide, by decide, by decide⟩
    intro i e h
    rw [show putting.cp.notify = [] from rfl] at h
    simp at h

/-- The table's law at a state with entries: SHARED, a tombstone, LOCAL with a slot. -/
theorem test_table_law_with_entries : TableLaw (table .active).pt ∧ HighMarkLaw (table .active).pt := by
  constructor
  · unfold TableLaw EntryLaw; decide +kernel
  · unfold HighMarkLaw; decide +kernel

/-- The notify queue's law at a full queue with its LOST marker. -/
theorem test_notify_law_full :
    NotifyLaw ((List.range 33).foldl (fun q i => placeEvent q { kind := .peerJoined, param := i }) []) := by
  have h0 : NotifyLaw [] := by
    unfold NotifyLaw
    refine ⟨by decide, by simp, by decide, by decide, by decide, by decide⟩
  have : ∀ (l : List Nat) q, NotifyLaw q → NotifyLaw (l.foldl (fun q i => placeEvent q { kind := .peerJoined, param := i }) q) := by
    intro l
    induction l with
    | nil => exact fun _ h => h
    | cons i l ih => exact fun q h => ih _ (h.place _)
  exact this _ _ h0

/-- NotifyLawKept, the placing of an event: coalesced (with a marker in the queue too), counted in the marker up to FFFFH, the marker as
the 32nd, the tail; the hypotheses of each clause at queues of 30, 31 and 32 events. -/
theorem test_event_placing :
    let q := fun n => (List.range n).map fun i => ({ kind := .remoteChange, param := i } : Event)
    let lost := fun n => ({ kind := .lost, param := n } : Event)
    placeEvent (q 31 ++ [lost 1]) { kind := .remoteChange, param := 30 } = q 31 ++ [lost 1]
      ∧ placeEvent [{ kind := .unsaved, param := 0 }] { kind := .unsaved, param := 0 } = [{ kind := .unsaved, param := 0 }]
      ∧ placeEvent (q 31 ++ [lost 1]) { kind := .remoteChange, param := 31 } = q 31 ++ [lost 2]
      ∧ placeEvent (q 31 ++ [lost 0xFFFF]) { kind := .unsaved, param := 0 } = q 31 ++ [lost 0xFFFF]
      ∧ placeEvent [lost 1] { kind := .peerJoined, param := 6 } = [lost 2]
      ∧ placeEvent (q 31) { kind := .unsaved, param := 0 } = q 31 ++ [lost 1]
      ∧ placeEvent (q 30) { kind := .remoteChange, param := 30 } = q 31
      ∧ placeEvent [{ kind := .peerLost, param := 6 }] { kind := .peerLost, param := 6 }
          = [{ kind := .peerLost, param := 6 }, { kind := .peerLost, param := 6 }] := by decide +kernel

/-- Hypotheses of QueueLawKept. -/
theorem test_queue_law_hypotheses : putting.pt.entries.Pairwise (fun a b => a.id < b.id) ∧ QueueLaw putting
    ∧ QueueLaw State.reset := by
  refine ⟨by decide, ?_, ?_⟩
  · unfold QueueLaw
    refine ⟨by decide, by decide, by decide, by decide, by decide, ?_⟩
    intro r h
    cases h
  · unfold QueueLaw
    refine ⟨by decide, by decide, by decide, by decide, by decide, ?_⟩
    intro r h
    refine ⟨rfl, rfl, rfl, rfl, ?_, .inr rfl⟩
    intro p hp
    cases hp

/-- OutboundLaw, the second hypothesis of TableLawKept: nothing on the list, two ids on it, an UPDATE in flight. -/
theorem test_outbound_law_hypotheses :
    OutboundLaw State.reset ∧ OutboundLaw (listed [44, 45]) ∧ OutboundLaw (flying [{ id := 44, mark := .push, ver := e44.ver }]) := by
  refine ⟨⟨by decide, by decide, by decide, ?_, ?_⟩, ⟨by decide, by decide, by decide, ?_, ?_⟩,
    ⟨by decide, by decide, by decide, ?_, ?_⟩⟩
  · intro f packed h; cases h
  · intro r _; exact ⟨rfl, rfl, rfl⟩
  · intro f packed h; cases h
  · intro r h; cases h
  · intro f packed h hc; cases h; cases hc; decide
  · intro r h; cases h

/-! ### Resets -/

/-- A program and an erase in hand, and a lend. -/
def writing : State :=
  { live .active with
    sp := { StoragePort.reset with
      cmd := .program { purpose := .recordFirst, band := 1, offset := 16, data := [0x0F] } .busy, poll := some 5 } }

def erasing : State := { live .active with sp := { StoragePort.reset with cmd := .erase 1 .busy, poll := some 500 } }

def lent : State := { live .active with sp := { StoragePort.reset with lend := .granted, lreq := true } }

/-- Hypotheses of ResetsClearAllState. -/
theorem test_reset_hypotheses :
    (live .active).power ≠ .inReset ∧ State.reset.power = .inReset
      ∧ (live .active).power ≠ .off ∧ ({ live .active with power := .off } : State).power = .off := by decide

/-- Hypotheses of ResetsTearOnlyTheWriteInHand. -/
theorem test_reset_tears_hypotheses :
    Flash.wf writing.flash ∧ writing.power ≠ .inReset ∧ writing.power ≠ .off ∧ writing.sp.lend ≠ .granted
      ∧ writing.sp.cmd = .program { purpose := .recordFirst, band := 1, offset := 16, data := [0x0F] } .busy
      ∧ erasing.sp.cmd = .erase 1 .busy ∧ lent.sp.lend = .granted ∧ (live .active).sp.cmd.windowOpen = false
      ∧ (∃ t, exec (.pinReset .whole []) writing = .next t ∧ t.flash = [(4112, 0x0F)])
      ∧ (∃ t, exec (.lossOfSupply (.part [0xF0]) []) writing = .next t ∧ t.flash = [(4112, 0xF0)]) :=
  ⟨by decide, by decide, by decide, by decide, by decide, by decide, by decide, by decide, ⟨_, rfl, by decide⟩,
    ⟨_, rfl, by decide⟩⟩

/-- A running station with a RESTART that waits. -/
def restarting : State := { live .active with cp := { CommandPort.reset with restarting := true } }

/-- Hypotheses of StartUpSamplesStrapsAndLreq, RestartTakesOnlyItsCode. -/
theorem test_start_up_hypotheses :
    State.reset.power ≠ .running ∧ restarting.power = .running ∧ restarting.cp.restarting = true
      ∧ restarting.sp.cmd.over = true ∧ restarting.sp.lend ≠ .granted ∧ lent.sp.lend = .granted ∧ lent.sp.lreq = true
      ∧ (live .active).sp.cmd = .none ∧ writing.sp.cmd.over = false ∧ (live .active).cp.restarting = false := by decide

/-! ### Transactions and the slot -/

/-- A DONE slot, two events in the queue. -/
def answered : State :=
  { live .active with cp := { CommandPort.reset with
      slot := .done { code := 0x20, tag := 0x5A, result := .done, data := [] }
      notify := [{ kind := .remoteChange, param := 41 }, { kind := .lost, param := 3 }], rejected := true } }

/-- A LOST marker alone in the queue. -/
def overflowed : State :=
  { live .active with cp := { CommandPort.reset with notify := [{ kind := .lost, param := 3 }] } }

/-- SSEL asserted, the status byte taken, nothing clocked yet. -/
def selecting (status : Byte) : State := { answered with cp := { answered.cp with transaction := some (.selected status) } }

/-- Hypotheses of StatusByteReports, AttentionFollowsSlotAndQueue: with and without a transaction begun, 7 bits clocked and 8. -/
theorem test_status_hypotheses :
    answered.power = .running ∧ answered.power ≠ .inReset ∧ (∃ t, exec (.pinReset .whole []) answered = .next t)
      ∧ (∃ t, exec (.restartTakesEffect ⟨4, 0, 0⟩ []) restarting = .next t) ∧ answered.statusByte = 0x7B
      ∧ (∀ b, answered.cp.transaction ≠ some (.selected b)) ∧ (selecting 0x03).latched = 0x03
      ∧ (∃ t, exec (.readStatus (.clocked 8)) (selecting 0x43) = .next t ∧ t.cp.smiso = [0x43] ∧ t.cp.rejected = false)
      ∧ (∃ t, exec (.readStatus (.clocked 7)) (selecting 0x43) = .next t ∧ t.cp.smiso = [] ∧ t.cp.rejected = true) :=
  ⟨by decide, by decide, ⟨_, rfl⟩, ⟨_, rfl⟩, by decide, nofun, by decide, ⟨_, rfl, by decide, by decide⟩,
    ⟨_, rfl, by decide, by decide⟩⟩

/-- Hypotheses of CodeByteSelectsTheTransaction, ReadResponseEmptiesADoneSlot, PopEventTakesTheHead. -/
theorem test_transaction_hypotheses :
    (0x05 : Byte) ∉ [0x01, 0x02, 0x03, 0x04, 0x0E] ∧ ([true] : List Bool).length < 8 ∧ incompleteBlock [0x10, 1] = true
      ∧ answered.cp.slot = .done { code := 0x20, tag := 0x5A, result := .done, data := [] }
      ∧ (∀ r, (live .active).cp.slot ≠ .done r)
      ∧ answered.cp.notify = { kind := .remoteChange, param := 41 } :: [{ kind := .lost, param := 3 }]
      ∧ (live .active).cp.notify = [] ∧ overflowed.cp.notify = [{ kind := .lost, param := 3 }] := by
  refine ⟨by decide, by decide, by decide, by decide, ?_, by decide, by decide, by decide⟩
  intro r h
  cases h

/-- The response of `answered`. -/
def answer : Response := { code := 0x20, tag := 0x5A, result := .done, data := [] }

/-- READ_RESPONSE at the length of the block and one byte less; its rest without a beginning; in two parts. -/
theorem test_read_response_bounds :
    answer.block.length = 5 ∧ (∃ t, exec (.readResponse (.whole 5)) answered = .next t ∧ t.cp.slot = .empty)
      ∧ (∃ t, exec (.readResponse (.whole 4)) answered = .next t ∧ t.cp.slot = .done answer)
      ∧ (∀ b r, answered.cp.transaction ≠ some (.read b r))
      ∧ (∃ t u, exec (.readResponse .start) answered = .next t ∧ exec (.readResponse (.rest 6)) t = .next u
          ∧ u.cp.smiso = 0x7B :: (answer.block ++ [0]) ∧ u.cp.slot = .empty) :=
  ⟨by decide, ⟨_, rfl, by decide⟩, ⟨_, rfl, by decide⟩, nofun, ⟨_, _, rfl, rfl, by decide, by decide⟩⟩

/-- POP_EVENT with two and three bytes clocked, and a LOST marker whose count has risen since the code byte. -/
theorem test_pop_event_bounds :
    (∃ t, exec (.popEvent (.whole 3)) answered = .next t ∧ t.cp.notify = [{ kind := .lost, param := 3 }])
      ∧ (∃ t, exec (.popEvent (.whole 2)) answered = .next t ∧ t.cp.notify = answered.cp.notify)
      ∧ (∀ b e, answered.cp.transaction ≠ some (.pop b e))
      ∧ (∃ t u, exec (.popEvent .start) overflowed = .next t
          ∧ exec (.popEvent (.rest 3)) { t with cp := { t.cp with notify := [{ kind := .lost, param := 5 }] } } = .next u
          ∧ u.cp.notify = [{ kind := .lost, param := 2 }]) :=
  ⟨⟨_, rfl, by decide⟩, ⟨_, rfl, by decide⟩, nofun, ⟨_, _, rfl, rfl, by decide⟩⟩

/-- Hypotheses of SlotJudgesBlocks. -/
theorem test_slot_hypotheses :
    answered.cp.slot ≠ .empty ∧ (live .active).cp.slot = .empty
      ∧ commandBlock (.cmdPut ⟨0x5A, 5, [0x2C, 0x01, 0, 0x0A, 0x14], 0x37, 0⟩)
          = some (0x20, ⟨0x5A, 5, [0x2C, 0x01, 0, 0x0A, 0x14], 0x37, 0⟩)
      ∧ blockGood 0x20 ⟨0x5A, 5, [0x2C, 0x01, 0, 0x0A, 0x14], 0x37, 0⟩ = false ∧ blockGood 0x77 ⟨0, 41, [], 0, 0⟩ = false
      ∧ blockGood 0x77 (block 0x77 []) = true := by decide

/-- Hypotheses of SlotJudgesBlocks, the tests of R186: REPLAY with a code it takes and one it does not, parameters that do not
fit, ids 0 and 4095, LIST from 0 and from 4095, a SHARED PUT and a REMOVE of a SHARED entry in HELD and CLOSING. -/
theorem test_refusal_hypotheses :
    commandBlock (.cmdOpen (block 0x12 [])) = some (0x12, block 0x12 []) ∧ blockTaken (live .replay) 0x12 (block 0x12 []) []
      ∧ (0x12 : Byte) ∉ [(0x10 : Byte), 0x31, 0x41] ∧ (0x41 : Byte) ∈ [(0x10 : Byte), 0x31, 0x41]
      ∧ parametersFit 0x41 [2] = false ∧ parametersFit 0x20 (List.replicate 36 0) = false
      ∧ parametersFit 0x20 ([1, 0, 1] ++ List.replicate 32 0) = true ∧ parametersFit 0x11 [1, 15, 0] = false
      ∧ parametersFit 0x11 [1, 16, 0] = true ∧ parametersFit 0x23 [0, 0, 20, 3] = true ∧ parametersFit 0x23 [0, 0, 21, 3] = false
      ∧ blockTaken (live .held) 0x22 (block 0x22 [0, 0]) [0, 0]
      ∧ blockTaken (live .held) 0x24 (block 0x24 [0xFF, 0x0F, 1]) [0xFF, 0x0F, 1]
      ∧ ¬ (1 ≤ (0xFF : Byte).toNat + 256 * (0x0F : Byte).toNat ∧ (0xFF : Byte).toNat + 256 * (0x0F : Byte).toNat ≤ 4094)
      ∧ blockTaken (live .held) 0x23 (block 0x23 [0xFF, 0x0F, 1, 0]) [0xFF, 0x0F, 1, 0]
      ∧ blockTaken (table .held) 0x20 (block 0x20 [44, 0, 0, 1]) [44, 0, 0, 1]
      ∧ blockTaken (table .closing) 0x21 (block 0x21 [44, 0]) [44, 0] ∧ (table .closing).entry 44 = some e44
      ∧ e44.scope = .shared := by
  unfold blockTaken
  decide +kernel

/-! ### Commands -/

/-- Hypotheses of ReportsOfTheState. -/
theorem test_report_hypotheses :
    blockTaken (live .replay) 0x10 (block 0x10 []) [] ∧ blockTaken (live .replay) 0x31 (block 0x31 []) []
      ∧ blockTaken (live .held) 0x40 (block 0x40 [1]) [1] ∧ blockTaken (live .held) 0x40 (block 0x40 [31]) [31] := by
  unfold blockTaken
  decide +kernel

/-- Hypotheses of GetAndListReport. -/
theorem test_get_list_hypotheses :
    blockTaken (table .held) 0x22 (block 0x22 [44, 0]) [44, 0] ∧ validId 44 = true
      ∧ (table .held).entry 44 = some e44 ∧ blockTaken (table .held) 0x22 (block 0x22 [46, 0]) [46, 0]
      ∧ (table .held).entry 46 = none
      ∧ blockTaken (table .held) 0x23 (block 0x23 [0, 0, 1, 3]) [0, 0, 1, 3]
      ∧ blockTaken (table .held) 0x23 (block 0x23 [0xFE, 0x0F, 20, 0]) [0xFE, 0x0F, 20, 0] := by
  unfold blockTaken
  decide +kernel

/-- Hypotheses of CountersReadAndClear, SetupOnce. -/
theorem test_counters_setup_hypotheses :
    blockTaken (live .replay) 0x41 (block 0x41 [0]) [0] ∧ blockTaken (live .replay) 0x41 (block 0x41 [1]) [1]
      ∧ blockTaken (live .replay) 0x41 (block 0x41 [2]) [2]
      ∧ blockTaken (live .held) 0x11 (block 0x11 [1, 16, 0]) [1, 16, 0]
      ∧ blockTaken (live .active) 0x11 (block 0x11 [255, 255, 1]) [255, 255, 1]
      ∧ (live .held).cp.setupAllowed = true := by
  unfold blockTaken
  decide +kernel

/-- Hypotheses of OpenJoins, CloseLeaves. -/
theorem test_open_close_hypotheses :
    blockTaken (live .held) 0x12 (block 0x12 []) [] ∧ stationNumber (live .held).straps ≠ 0
      ∧ blockTaken { live .held with straps := ⟨0, 0, 0⟩ } 0x12 (block 0x12 []) []
      ∧ stationNumber ⟨0, 0, 0⟩ = 0 ∧ blockTaken (live .active) 0x12 (block 0x12 []) []
      ∧ blockTaken (live .joining) 0x13 (block 0x13 []) [] ∧ blockTaken (live .active) 0x13 (block 0x13 []) []
      ∧ blockTaken (live .muted) 0x13 (block 0x13 []) [] ∧ blockTaken (live .closing) 0x13 (block 0x13 []) []
      ∧ blockTaken (live .held) 0x13 (block 0x13 []) [] ∧ blockTaken (live .replay) 0x13 (block 0x13 []) [] := by
  unfold blockTaken
  decide +kernel

/-- CloseLeaves with a session open, a request of it or a reply in flight; without one. -/
theorem test_close_session_hypotheses :
    let s : State := { live .active with re := { (live .active).re with
      session := { Session.cleared with state := .awaitListing, peer := 6, buckets := [1, 63] } } }
    blockTaken s 0x13 (block 0x13 []) [] ∧ s.re.session.state ≠ .idle ∧ 1 ≤ s.re.session.peer
      ∧ (live .active).re.session.state = .idle
      ∧ ∃ t, exec (.cmdClose (block 0x13 [])) s = .next t ∧ t.re.session = .cleared
        ∧ (t.peer 6).mask = 0x8000000000000002 ∧ (t.peer 6).wanted = true := by
  unfold blockTaken
  exact ⟨by decide +kernel, by decide, by decide, by decide, ⟨_, rfl, by decide +kernel, by decide +kernel, by decide +kernel⟩⟩

/-- DirtyLaw, each row of Table 2.1.1: created; revived, made and renewed as a tombstone; another length; the first and the last byte of
two changed, with nothing, a lower and a higher index and WHOLE standing; the same bytes with nothing and something standing. -/
theorem test_dirty_rows :
    let e := fun d => ({ e44 with dirty := d } : Entry)
    dirtyAfter none [1] = .whole ∧ dirtyAfter (some e45) [1] = .whole ∧ dirtyAfter (some (e (.from_ 1))) [] = .whole
      ∧ dirtyAfter (some e45) [] = .whole ∧ dirtyAfter (some (e .none)) [0x0A] = .whole
      ∧ dirtyAfter (some (e .none)) [0x0B, 0x14] = .from_ 0 ∧ dirtyAfter (some (e .none)) [0x0A, 0x15] = .from_ 1
      ∧ dirtyAfter (some (e (.from_ 0))) [0x0A, 0x15] = .from_ 0 ∧ dirtyAfter (some (e (.from_ 1))) [0x0B, 0x15] = .from_ 0
      ∧ dirtyAfter (some (e .whole)) [0x0A, 0x15] = .whole ∧ dirtyAfter (some (e .none)) e44.value = .from_ 1
      ∧ dirtyAfter (some (e (.from_ 0))) e44.value = .from_ 0 ∧ dirtyAfter (some (e .whole)) e44.value = .whole := by decide

/-- Hypotheses of PutGivesANewVersion: a SHARED entry changed, a new SHARED one of 32 bytes that takes a slot, a LOCAL one created in HELD. -/
theorem test_put_hypotheses :
    blockTaken (table .active) 0x20 (block 0x20 [44, 0, 0, 0x0A, 0x15]) [44, 0, 0, 0x0A, 0x15]
      ∧ (∃ e, (table .active).entry 44 = some e ∧ e.scope = .shared ∧ e.value ≠ [0x0A, 0x15])
      ∧ blockTaken (table .muted) 0x20 (block 0x20 ([46, 0, 0] ++ List.replicate 32 9)) ([46, 0, 0] ++ List.replicate 32 9)
      ∧ (table .muted).entry 46 = none ∧ freeSlot (table .muted).pt.entries ≠ none ∧ (table .muted).pt.entries.length < 512
      ∧ blockTaken (table .held) 0x20 (block 0x20 [46, 0, 1, 9]) [46, 0, 1, 9] ∧ (table .held).pt.h ≠ 0xFFFFFFFE := by
  refine ⟨by unfold blockTaken; decide +kernel, ⟨e44, by decide +kernel, by decide, by decide⟩,
    by unfold blockTaken; decide +kernel, by decide +kernel, by decide +kernel, by decide, by unfold blockTaken; decide +kernel,
    by decide⟩

/-- A journal queue of given length, the journal in FAULT or not. -/
def crowded (n : Nat) (fault : Bool) : State :=
  let s := listed [44]
  { s with jc := { s.jc with queue := (List.range n).map fun i => { id := 100 + i, del := false }, fault := fault } }

/-- PutGivesANewVersion where the entry becomes UNSAVED (64 ids queued, or FAULT) and where it does not (63); marked before, or not. -/
theorem test_put_unsaved_hypotheses :
    blockTaken (crowded 64 false) 0x20 (block 0x20 [46, 0, 0, 9]) [46, 0, 0, 9] ∧ (crowded 64 false).jc.queue.length = 64
      ∧ (crowded 63 false).jc.queue.length < 64 ∧ (crowded 0 true).jc.fault = true ∧ 46 ∉ (crowded 64 false).jc.queueIds
      ∧ (((crowded 64 false).entry 44).map Entry.mark) = some .push ∧ (table .active).jc.fault = false
      ∧ (((table .active).entry 44).map Entry.mark) = some .none ∧ (crowded 64 false).sc.station = .active := by
  unfold blockTaken
  decide +kernel

/-- Hypotheses of PutTestsInOrder, one witness for each result: another scope, the same value, H at its limit, a full table, no slot. -/
theorem test_put_refusal_hypotheses :
    blockTaken (table .active) 0x20 (block 0x20 [44, 0, 1, 1]) [44, 0, 1, 1]
      ∧ ((table .active).entry 44).any (fun e => e.scope ≠ .loc) = true
      ∧ blockTaken (table .active) 0x20 (block 0x20 [44, 0, 0, 0x0A, 0x14]) [44, 0, 0, 0x0A, 0x14]
      ∧ ((table .active).entry 44).any (fun e => e.isTombstone = false ∧ e.value = [0x0A, 0x14]) = true
      ∧ ({ table .active with pt := { (table .active).pt with h := 0xFFFFFFFE } } : State).pt.h = 0xFFFFFFFE
      ∧ 512 ≤ (holding .active ((List.range 512).map fun i => entryOf (i + 1) .shared [1] none)).pt.entries.length
      ∧ freeSlot ((List.range 256).map fun i => entryOf (i + 1) .shared [1, 2, 3, 4, 5, 6, 7, 8, 9] (some i)) = none := by
  refine ⟨by unfold blockTaken; decide +kernel, by decide, by unfold blockTaken; decide +kernel, by decide, by decide, by simp [holding], ?_⟩
  decide +kernel

/-- Hypotheses of RemoveEndsAnEntry, WatchSets. -/
theorem test_remove_watch_hypotheses :
    (table .active).pt.entries.Pairwise (fun x y => x.id < y.id)
      ∧ blockTaken (table .active) 0x21 (block 0x21 [46, 0]) [46, 0] ∧ (table .active).entry 46 = none
      ∧ blockTaken (table .active) 0x21 (block 0x21 [45, 0]) [45, 0] ∧ (table .active).entry 45 = some e45
      ∧ e45.isTombstone = true ∧ blockTaken (table .active) 0x21 (block 0x21 [44, 0]) [44, 0]
      ∧ (table .active).entry 44 = some e44 ∧ e44.isTombstone = false
      ∧ blockTaken (table .held) 0x21 (block 0x21 [0x2C, 1]) [0x2C, 1] ∧ (table .held).entry 300 = some e300
      ∧ e300.isTombstone = false ∧ e300.scope = .loc
      ∧ blockTaken (table .held) 0x24 (block 0x24 [44, 0, 1]) [44, 0, 1]
      ∧ blockTaken (table .held) 0x24 (block 0x24 [0x2C, 1, 0]) [0x2C, 1, 0]
      ∧ blockTaken (table .held) 0x24 (block 0x24 [46, 0, 0]) [46, 0, 0] := by
  unfold blockTaken
  decide +kernel

/-- RemoveEndsAnEntry where the tombstone becomes UNSAVED, with and without the event; and a LOCAL entry deleted whose base band counts
it, its write in hand and one that waits. -/
theorem test_remove_journal_hypotheses :
    let w : WriteJob := { side := .append, id := 300, kind := .full, bytes := [1], changed := false, gone := false }
    let s : State := { holding .held [{ e300 with base := some 1 }] with jc := { (live .held).jc with
      bands := [{ state := .open_, seq := some 1, live := 1 }, { state := .full, seq := some 2, live := 0 }]
      head := some ⟨0, 31⟩, job := some (.write w), held := some w } }
    blockTaken (crowded 64 false) 0x21 (block 0x21 [44, 0]) [44, 0] ∧ ((crowded 64 false).entry 44).map Entry.jstate = some .clean
      ∧ (crowded 0 true).jc.fault = true ∧ blockTaken s 0x21 (block 0x21 [0x2C, 1]) [0x2C, 1]
      ∧ s.entry 300 = some { e300 with base := some 1 }
      ∧ ∃ t, exec (.cmdRemove (block 0x21 [0x2C, 1])) s = .next t
        ∧ t.jc = { s.jc with
          queue := [{ id := 300, del := true }]
          bands := [{ state := .open_, seq := some 1, live := 0 }, { state := .full, seq := some 2, live := 0 }]
          job := some (.write { w with changed := true, gone := true }), held := some { w with changed := true, gone := true } } := by
  unfold blockTaken
  exact ⟨by decide +kernel, by decide +kernel, by decide +kernel, by decide +kernel, by decide +kernel, ⟨_, rfl, by decide +kernel⟩⟩

/-- Three conditions of the journal for FLUSH: FAULT, all in flash, an entry UNSAVED; a FLUSH that waits in each. -/
def flushing (fault : Bool) (es : List Entry) (sl : Slot) : State :=
  { holding .active es with jc := { (live .active).jc with fault := fault }, cp := { CommandPort.reset with slot := sl } }

/-- Hypotheses of FlushWaitsForFlash. -/
theorem test_flush_hypotheses :
    blockTaken (flushing true [] .empty) 0x30 (block 0x30 []) [] ∧ (flushing true [] .empty).jc.fault = true
      ∧ blockTaken (flushing false [e44] .empty) 0x30 (block 0x30 []) []
      ∧ (∀ e ∈ (flushing false [e44] .empty).pt.entries, e.jstate ≠ .unsaved)
      ∧ (∃ e ∈ (flushing false [{ e44 with jstate := .unsaved }] .empty).pt.entries, e.jstate = .unsaved)
      ∧ (flushing true [] (.executing 0x30 7)).cp.slot = .executing 0x30 7
      ∧ (flushing false [] (.executing 0x30 7)).jc.queue = [] := by
  unfold blockTaken
  decide +kernel

/-- A session whose request is SENT. -/
def asking (st : SessionState) (attempt : Nat) : State :=
  { live .active with re := { (live .active).re with
      session := { Session.cleared with state := st, peer := 6, buckets := [1], attempt := attempt, timer := 640 } } }

/-! ### Line access -/

/-- Table 4.1.2. -/
theorem test_gap_table :
    ([1, 4, 16, 31].map fun n =>
      [false, true].map fun r =>
        State.gap { live .active with straps := ⟨BitVec.ofNat 5 n, 0, 0⟩, ac := { AccessCtl.reset with rest := r } } .c)
      = [[38, 102], [44, 108], [68, 132], [98, 162]] := by decide

/-- A station with a demand of each kind: a request to serve, a request to send, an UPDATE, a SUMMARY, a LEAVE. -/
def wanting (st : Station) (d : Demand) : State :=
  let s := holding st [{ e44 with mark := .push }, { e45 with mark := .new }]
  match d with
  | .reply => { s with re := { s.re with
      replyQueue := [{ requester := 6, seq := 9, work := .fetch [44] 0, completed := false }] } }
  | .repair => { s with re := { s.re with
      session := { Session.cleared with state := .awaitListing, peer := 6, buckets := [1], raised := true } } }
  | .push => { s with re := { s.re with outbound := [44, 45] } }
  | .summary => { s with ac := { s.ac with summaryDue := true } }
  | .newUpdate => { s with re := { s.re with outbound := [45] } }
  | .leave => { s with ac := { s.ac with leaveDue := true } }

/-- Hypotheses of GapsOfTheClasses, FrameStartServesADemand. -/
theorem test_frame_start_hypotheses :
    ([Demand.reply, .repair, .push, .summary, .newUpdate].map fun d => (wanting .active d).nextDemand)
      = [some (.a, .reply), some (.b, .repair), some (.b, .push), some (.c, .summary), some (.c, .newUpdate)]
      ∧ (wanting .closing .leave).nextDemand = some (.c, .leave) ∧ (wanting .active .push).lineFree = true
      ∧ (wanting .active .push).power = .running ∧ (wanting .active .push).li.line = .recessive
      ∧ ({ wanting .active .push with li := { (live .active).li with quiet := 255 } } : State).li.quiet ≤ 255
      ∧ (live .active).li.flight = none
      ∧ ∃ t f, exec (.frameStart .recessive) (wanting .active .push) = .next t ∧ t.li.flight = some f := by
  refine ⟨by decide +kernel, by decide +kernel, by decide, by decide, by decide, by decide, by decide, ?_⟩
  exact ⟨_, _, rfl, rfl⟩

/-- Hypotheses of FrameStartServesADemand: no demand, a line not free, a session and a list of the two marks; and packing that stops
at four records, at the bytes of a frame, and with nothing left. -/
theorem test_demand_hypotheses :
    (live .active).nextDemand = none ∧ (wanting .held .summary).nextDemand = none ∧ (flying []).lineFree = false
      ∧ ((wanting .active .repair).re.session.state = .awaitListing ∧ (wanting .active .repair).re.session.raised = true)
      ∧ (wanting .active .reply).re.replyQueue ≠ []
      ∧ ((wanting .active .push).re.outbound.any fun i => ((wanting .active .push).entry i).any fun e => e.mark = .push) = true
      ∧ (packed [(1, 1), (2, 1), (3, 1), (4, 1), (5, 1)]).1.length = 4
      ∧ 159 < ((packed [(1, 32), (2, 32), (3, 32), (4, 32)]).1.length + 1) * 40
      ∧ (packed [(1, 1)]).1 = [1] := by decide +kernel

/-- FrameStartServesADemand, replies: a bucket of 17 entries listed in two parts, an empty one at the end, the last bucket; a fetch that
skips an absent and a LOCAL id, one that stops at the fourth record with an absent id left, at exactly 159 bytes and at one more, and one
of absent ids alone. -/
theorem test_reply_frames :
    let es := (List.range 17).map fun i => ofLength .none (64 * i + 1, 1)
    let quads := fun l : List Nat => l.map fun i => ({ id := i, ver := ⟨0, 0, 0⟩ } : Quad)
    let fl := fun e b => ({ FrameFlags.zero with reply := true, end_ := e, bucketLast := b } : FrameFlags)
    let fetch := fun es ids c => ((replyFrame es (.fetch ids c)).2.1.end_, (replyFrame es (.fetch ids c)).2.2)
    let four := fun n => ([(1, n), (2, 32), (3, 32), (4, 32)] : List (Nat × Nat)).map (ofLength .none)
    replyFrame es (.listing [1, 2] 0 0 none)
        = (.listing 1 0 (quads ((List.range 16).map fun i => 64 * i + 1)), fl false false, .listing [1, 2] 0 1 (some 961))
      ∧ replyFrame es (.listing [1, 2] 0 1 (some 961)) = (.listing 1 1 (quads [1025]), fl false true, .listing [1, 2] 1 0 none)
      ∧ replyFrame es (.listing [1, 2] 1 0 none) = (.listing 2 0 [], fl true true, .listing [1, 2] 2 0 none)
      ∧ replyFrame [e44, e300] (.fetch [9, 300, 44, 44] 0)
          = (.update [e44.record, e44.record], fl true false, .fetch [9, 300, 44, 44] 4)
      ∧ fetch [e44] [44, 44, 44, 44, 9] 0 = (false, .fetch [44, 44, 44, 44, 9] 4)
      ∧ fetch [e44] [9, 9] 0 = (true, .fetch [9, 9] 2)
      ∧ fetch (four 31) [1, 2, 3, 4] 0 = (true, .fetch [1, 2, 3, 4] 4)
      ∧ fetch (four 32) [1, 2, 3, 4] 0 = (false, .fetch [1, 2, 3, 4] 3) := by decide +kernel

/-- A frame in flight that carries a cargo: a LEAVE's characters, for its bits. -/
def sending (st : Station) (probe : Bool) (cargo : Cargo) : State :=
  { holding st [e44] with
    li := { LineIf.reset with
      receiver := .receiving true 0, line := .dominant
      flight := some { chars := [6, 4, 0, 0, 0, 0xFF, 0xFF], elapsed := 0, cls := .c, probe := probe, cargo := cargo } }
    re := { Replication.reset with
      replyQueue := [{ requester := 6, seq := 9, work := .fetch [44] 0, completed := false }] }
    cp := { CommandPort.reset with slot := .executing 0x13 7 } }

/-- Hypotheses of FrameCompletionClearsItsDemand, OwnFramesEndEarly. -/
theorem test_frame_end_hypotheses :
    (sending .closing false .leave).power = .running ∧ (sending .closing false .leave).sc.station = .closing
      ∧ (sending .held false .leave).sc.station ≠ .closing ∧ (sending .closing false .leave).cp.slot = .executing 0x13 7
      ∧ (sending .active false (.reply true true (.fetch [44] 1))).re.replyQueue
          = { requester := 6, seq := 9, work := .fetch [44] 0, completed := false } :: []
      ∧ (∃ f, (sending .muted false .summary).li.flight = some f ∧ ¬ (f.probe = true ∧ Station.muted = .muted))
      ∧ (frameBits [6, 4, 0, 0, 0, 0xFF, 0xFF])[2]? = some true ∧ (frameBits [6, 4, 0, 0, 0, 0xFF, 0xFF])[0]? = some false
      ∧ (frameBits [6, 4, 0, 0, 0, 0xFF, 0xFF])[69]? = some true
      ∧ (∃ f, (sending .muted true .summary).li.flight = some f ∧ f.probe = true ∧ f.elapsed ≤ 0) :=
  ⟨by decide, by decide, by decide, by decide, by decide, ⟨_, rfl, by decide⟩, by decide, by decide, by decide,
    ⟨_, rfl, by decide, by decide⟩⟩

/-- A withdrawn UPDATE whose id goes back to the list, and whose back list is not empty. -/
theorem test_withdrawal_restores :
    (∃ t, exec (.withdrawal 2) (sending .active false (.update [{ id := 44, mark := .push, ver := e44.ver }])) = .next t
      ∧ t.re.outbound = [44]) := ⟨_, rfl, by decide +kernel⟩

/-- OwnFramesEndEarly, LTXD: a start bit, a recessive bit, past the last bit, no frame in flight; after a withdrawal. -/
theorem test_ltxd :
    let at_ := fun e => ({ sending .active false .summary with li := { (sending .active false .summary).li with
      flight := (sending .active false .summary).li.flight.map fun f => { f with elapsed := e } } } : State)
    (at_ 0).ltxd = .dominant ∧ (at_ 2).ltxd = .recessive ∧ (at_ 69).ltxd = .recessive ∧ (at_ 70).ltxd = .recessive
      ∧ (frameBits [6, 4, 0, 0, 0, 0xFF, 0xFF])[70]? = none ∧ (live .active).ltxd = .recessive
      ∧ ∃ t, exec (.withdrawal 2) (at_ 0) = .next t ∧ t.ltxd = .recessive :=
  ⟨by decide, by decide, by decide, by decide, by decide, by decide, ⟨_, rfl, by decide +kernel⟩⟩

/-- A muted station with a cause. -/
def muted (c : Cause) : State :=
  { live .muted with ac := { AccessCtl.reset with mutedCause := c, recovery := some 0, prior := .active } }

/-- Hypotheses of CausesMuteTheStation. -/
theorem test_cause_hypotheses :
    Cause.stuck ≠ .none ∧ (live .replay).sc.station = .replay ∧ (live .joining).sc.station = .joining
      ∧ (muted .drive).ac.mutedCause = .drive ∧ (muted .stuck).ac.mutedCause = .stuck
      ∧ (muted .duplicate).ac.mutedCause = .duplicate ∧ (sending .closing false .leave).cp.slot = .executing 0x13 7 := by
  decide

/-- CausesMuteTheStation in ACTIVE and JOINING with a session, a request and a reply in flight, and a peer that agrees. -/
theorem test_mute_hypotheses :
    (asking .awaitListing 1).sc.station = .active ∧ 1 ≤ (asking .awaitListing 1).re.session.peer
      ∧ (asking .awaitListing 1).re.session.state ≠ .idle ∧ (live .joining).re.session.state = .idle
      ∧ ((knowing .joining 6 { Peer.cleared with presence := .present, agreement := .agree }).re.roster.any fun p =>
          p.presence = .present) = true
      ∧ ((knowing .joining 6 { Peer.cleared with presence := .present, agreement := .agree }).re.roster.all fun p =>
          p.presence ≠ .present || p.agreement = .agree) = true
      ∧ (∃ f, (sending .active false (.request true)).li.flight = some f ∧ f.cargo = .request true)
      ∧ (∃ f, (sending .active false (.reply true true (.fetch [44] 1))).li.flight = some f
          ∧ f.cargo = .reply true true (.fetch [44] 1)) :=
  ⟨by decide, by decide, by decide, by decide, by decide, by decide, ⟨_, rfl, rfl⟩, ⟨_, rfl, rfl⟩⟩

/-- Hypotheses of ProbesRecoverTheLine. -/
theorem test_probe_hypotheses :
    (muted .drive).ac.recovery ≠ none ∧ (muted .drive).ac.probeDue = false
      ∧ ({ muted .drive with ac := { (muted .drive).ac with probeDue := true } } : State).lineFree = true
      ∧ (muted .drive).li.line = .recessive ∧ (muted .drive).li.quiet ≤ 255
      ∧ (∃ f, (sending .muted true .summary).li.flight = some f ∧ f.probe = true ∧ f.cargo = .summary ∧ f.cls = .c) :=
  ⟨by decide, by decide, by decide, by decide, by decide, ⟨_, rfl, by decide, by decide, by decide⟩⟩

/-- ProbesRecoverTheLine, a completed probe: with a peer to repair from a session opens; in prior state JOINING with a peer that agrees
the station goes to ACTIVE. -/
theorem test_probe_complete_hypotheses :
    let peered := fun (prior : Prior) (p : Peer) =>
      ({ sending .muted true .summary with
        ac := { AccessCtl.reset with mutedCause := .drive, recovery := some 0, prior := prior }
        re := (knowing .muted 6 { p with presence := .present }).re } : State)
    (∃ t, exec .probeComplete (peered .active { Peer.cleared with agreement := .disagree, mask := 1, wanted := true }) = .next t
        ∧ t.sc.station = .active ∧ t.re.session.peer = 6 ∧ t.re.session.raised = true)
      ∧ (∃ t, exec .probeComplete (peered .joining { Peer.cleared with agreement := .agree }) = .next t
        ∧ t.sc.station = .active ∧ t.cp.notify.map Event.kind = [.lineRestored, .converged])
      ∧ (∃ t, exec .probeComplete (peered .joining Peer.cleared) = .next t ∧ t.sc.station = .joining) :=
  ⟨⟨_, rfl, by decide +kernel, by decide +kernel, by decide +kernel⟩, ⟨_, rfl, by decide +kernel, by decide +kernel⟩,
    ⟨_, rfl, by decide +kernel⟩⟩

/-! ### The receive path -/

/-- Hypotheses of LineLevelsMoveTheReceiver. -/
theorem test_line_level_hypotheses :
    (hearing .active .idle .recessive).li.receiver = .idle ∧ (hearing .active .seeking .dominant).li.receiver = .seeking
      ∧ (hearing .active .seeking .dominant).li.line = .dominant
      ∧ (hearing .active .seeking .dominant).li.stuckDeclared = false
      ∧ (hearing .replay .off .recessive).li.receiver = .off ∧ (hearing .active .seeking .recessive).li.quiet ≤ 255
      ∧ (hearing .active (.receiving false 0) .dominant).li.receiver = .receiving false 0
      ∧ (flying []).li.receiver = .receiving true 2 ∧ (hearing .active .seeking .recessive).li.line = .recessive := by decide

/-- The counts follow the level: a line released in SEEKING counts quiet from 0 and stuck no more, and RECEIVER_IDLE then adds only the
bit times that are missing; a level within another station's frame counts there. -/
theorem test_release_counts :
    let s := { hearing .active .seeking .dominant with li := { (hearing .active .seeking .dominant).li with stuck := 150 } }
    (∃ t u v, exec (.startBit .release) s = .next t ∧ t.li.quiet = 0 ∧ t.li.stuck = 0 ∧ step t = .next u ∧ u.li.quiet = 1
        ∧ u.li.stuck = 0 ∧ exec .receiverIdle u = .next v ∧ v.li.quiet = 10 ∧ v.clk.us = 160)
      ∧ (∃ t u, exec (.startBit .release) (hearing .active (.receiving false 4) .dominant) = .next t ∧ step t = .next u
        ∧ u.li.quiet = 1 ∧ u.li.receiver = .receiving false 5)
      ∧ (∃ t, exec (.startBit .start) (hearing .replay .off .recessive) = .next t ∧ t.li.line = .dominant
        ∧ t.leaveReplay.li.line = .dominant) :=
  ⟨⟨_, _, _, rfl, by decide, by decide, rfl, by decide, by decide, rfl, by decide, by decide⟩,
    ⟨_, _, rfl, rfl, by decide, by decide⟩, ⟨_, rfl, by decide, by decide⟩⟩

/-- A frame's characters. -/
def leaveFrom (n : Nat) : List Byte := Frame.chars { flags := .zero, src := n, dst := 0, seq := 3, payload := .leave }

/-- A LEAVE of kind 7. -/
def oddFrame : List Byte := [7, 6, 0, 3, 0] ++ le16 (crc16 [7, 6, 0, 3, 0]).toNat

/-- Hypotheses of FrameReceivedIsJudged, ReceiverErrorsAreCounted. -/
theorem test_frame_received_hypotheses :
    (hearing .active (.receiving false 0) .dominant).li.receiver = .receiving false 0
      ∧ wholeFrame (leaveFrom 6) = true ∧ frameCheckGood (leaveFrom 6) = true
      ∧ parseFrame (leaveFrom 6) = some { flags := .zero, src := 6, dst := 0, seq := 3, payload := .leave }
      ∧ parseFrame (leaveFrom 4) = some { flags := .zero, src := 4, dst := 0, seq := 3, payload := .leave }
      ∧ wholeFrame [6, 6, 0, 3, 0, 0, 0] = true ∧ frameCheckGood [6, 6, 0, 3, 0, 0, 0] = false
      ∧ frameCheckGood oddFrame = true ∧ parseFrame oddFrame = none
      ∧ 4 ≤ (List.replicate 4 (leaveFrom 6)).length ∧ (muted .duplicate).sc.station = .muted := by decide +kernel

/-- Hypotheses of ReceiverErrorsAreCounted for a station that withdrew, and R67's count from the release of LTXD: a withdrawal at bit
13 and a stop bit 19 leave 6 of 8 dominant bit times, one at the stop bit itself none; without a withdrawal all are counted. -/
theorem test_stuck_from_the_release :
    (flying []).li.receiver = .receiving true 2
      ∧ (∃ f, (flying []).li.flight = some f ∧ f.elapsed = 2 ∧ (frameBits f.chars)[13]? = some true
        ∧ (frameBits f.chars)[9]? = some true)
      ∧ (∃ t u, exec (.withdrawal 13) (flying []) = .next t ∧ exec (.framingError ⟨19, 8⟩) t = .next u ∧ u.li.stuck = 6)
      ∧ (∃ t u, exec (.withdrawal 9) (flying []) = .next t ∧ exec (.framingError ⟨9, 8⟩) t = .next u ∧ u.li.stuck = 0)
      ∧ (∃ u, exec (.framingError ⟨9, 9⟩) (hearing .active (.receiving false 0) .dominant) = .next u ∧ u.li.stuck = 9) :=
  ⟨by decide, ⟨_, rfl, by decide, by decide, by decide⟩, ⟨_, _, rfl, rfl, by decide⟩, ⟨_, _, rfl, rfl, by decide⟩,
    ⟨_, rfl, by decide⟩⟩

/-! ### Taking frames, the roster and repair -/

/-- A state with a received frame. -/
def received (s : State) (f : Frame) : State := { s with re := { s.re with rxBuffer := [f.chars] } }

/-- One frame of each kind from station 6. -/
def update6 (r : LineRecord) : Frame := { flags := .zero, src := 6, dst := 0, seq := 1, payload := .update [r] }
def summary6 : Frame :=
  { flags := { FrameFlags.zero with joining := true }, src := 6, dst := 0, seq := 1
    payload := .summary 5 0 20 (List.replicate 64 0) }
def request6 : Frame := { flags := .zero, src := 6, dst := 4, seq := 1, payload := .listingRequest 3 }
def fetch6 : Frame := { flags := .zero, src := 6, dst := 4, seq := 1, payload := .fetch [44] }
def leave6 : Frame := { flags := .zero, src := 6, dst := 0, seq := 1, payload := .leave }

/-- Hypotheses of TakeFrameActsByState. -/
theorem test_take_frame_hypotheses :
    [update6 { id := 44, gen := 2, origin := 6, value := [1] }, request6, fetch6, leave6].all
      (fun f => parseFrame f.chars = some f ∧ f.src ≠ (live .active).straps.sn.toNat ∧ wholeFrame f.chars = true
        ∧ frameCheckGood f.chars = true) = true
      ∧ parseFrame summary6.chars = some summary6 ∧ summary6.flags.joining = true
      ∧ (received (live .active) leave6).re.roster.length = 31
      ∧ (received (knowing .active 6 { Peer.cleared with presence := .present }) leave6).peer 6 ≠ Peer.cleared := by
  decide +kernel

/-- A SUMMARY whose digest of one bucket is given, and a listing frame for this station. -/
def summaryWith (d : Half) : Frame :=
  { summary6 with payload := .summary 5 0 20 ((List.replicate 64 0).set 3 d) }

def listing6 (bucket part : Nat) (last end_ : Bool) (quads : List Quad) : Frame :=
  { flags := { FrameFlags.zero with reply := true, end_ := end_, bucketLast := last }, src := 6, dst := 4, seq := 9
    payload := .listing bucket part quads }

/-- A reply UPDATE for this station. -/
def reply6 (end_ : Bool) : Frame :=
  { flags := { FrameFlags.zero with reply := true, end_ := end_ }, src := 6, dst := 4, seq := 9
    payload := .update [{ id := 65, gen := 2, origin := 6, value := [1] }] }

/-- A session with station 6 whose request has sequence 9. -/
def answering (st : SessionState) (buckets : List Nat) (attempt : Nat) : State :=
  { live .active with re := { (live .active).re with session := { Session.cleared with
      state := st, peer := 6, buckets := buckets, reqSeq := 9, attempt := attempt } } }

/-- TakeFrameActsByState, a SUMMARY: digests equal and different, each of what opens a session missing once. -/
theorem test_take_summary_hypotheses :
    parseFrame (summaryWith 7).chars = some (summaryWith 7) ∧ (live .active).pt.digests[3]? = some 0
      ∧ (live .active).re.session.state = .idle ∧ ((live .active).peer 6).failures < 3
      ∧ (asking .awaitListing 1).re.session.state ≠ .idle ∧ (live .muted).sc.station ≠ .held
      ∧ ¬ ((knowing .active 6 { Peer.cleared with presence := .present, failures := 3 }).peer 6).failures < 3
      ∧ (live .held).sc.station = .held := by decide +kernel

/-- TakeFrameActsByState, a LISTING: frames of the session in order (the first of two buckets, a part of one, the last with
something wanted and with nothing), one out of order on each attempt, and one of no session. -/
theorem test_take_listing_hypotheses :
    [listing6 1 0 true false [], listing6 1 0 false false [{ id := 65, ver := e44.ver }], listing6 2 0 true true [],
        listing6 1 0 true true [{ id := 65, ver := e44.ver }]].all (fun f => parseFrame f.chars = some f) = true
      ∧ (answering .awaitListing [1, 2] 1).re.session.buckets[0]? = some 1
      ∧ (answering .awaitListing [1, 2] 1).re.session.pos + 1 ≠ [1, 2].length
      ∧ (answering .awaitListing [1] 1).re.session.pos + 1 = [1].length
      ∧ (answering .awaitListing [1] 2).re.session.buckets[0]? ≠ some 2 ∧ (answering .awaitListing [1] 2).re.session.attempt ≠ 1
      ∧ (answering .awaitListing [1] 1).re.session.raised = false ∧ (live .active).re.session.state ≠ .awaitListing
      ∧ wantsQuad (live .active) { id := 65, ver := e44.ver } = true
      ∧ (∃ t, exec .takeFrame (received (answering .awaitListing [1] 1) (listing6 1 0 true true [{ id := 65, ver := e44.ver }]))
          = .next t ∧ t.re.session.state = .awaitUpdates ∧ t.re.session.want = [65] ∧ t.re.session.raised = true) :=
  ⟨by decide +kernel, by decide, by decide, by decide, by decide, by decide, by decide, by decide, by decide,
    ⟨_, rfl, by decide +kernel, by decide +kernel, by decide +kernel⟩⟩

/-- TakeFrameActsByState, a reply UPDATE with and without END, of the session and of none; a LEAVE of the session's peer. -/
theorem test_take_reply_hypotheses :
    parseFrame (reply6 true).chars = some (reply6 true) ∧ parseFrame (reply6 false).chars = some (reply6 false)
      ∧ (answering .awaitUpdates [1] 1).re.session.state = .awaitUpdates ∧ (reply6 true).seq = 9
      ∧ (answering .awaitUpdates [1] 1).re.session.reqSeq = 9 ∧ (live .active).re.session.state = .idle
      ∧ (∃ t, exec .takeFrame (received (answering .awaitUpdates [1] 1) (reply6 true)) = .next t ∧ t.re.session = .cleared)
      ∧ (∃ t, exec .takeFrame (received
            { answering .awaitUpdates [1] 1 with re := { (answering .awaitUpdates [1] 1).re with
              roster := (knowing .active 6 { Peer.cleared with presence := .present }).re.roster } } leave6) = .next t
          ∧ t.re.session = .cleared) :=
  ⟨by decide +kernel, by decide +kernel, by decide, by decide, by decide, by decide, ⟨_, rfl, by decide +kernel⟩,
    ⟨_, rfl, by decide +kernel⟩⟩

/-- TakeFrameActsByState, an UPDATE of two records in HELD and in ACTIVE, from a peer unheard; a LEAVE of an unheard one. -/
theorem test_take_update_hypotheses :
    let r : LineRecord := { id := 44, gen := 2, origin := 6, value := [1] }
    let f : Frame := { update6 r with payload := .update [r, { r with gen := 3, value := [2] }] }
    parseFrame f.chars = some f ∧ ((live .active).peer 6).presence = .absent
      ∧ (∃ t, exec .takeFrame (received (table .active) f) = .next t ∧ t.cp.counters.updatesApplied = 2
        ∧ (t.entry 44).map Entry.value = some [2] ∧ t.cp.notify = [{ kind := .peerJoined, param := 6 }])
      ∧ (∃ t, exec .takeFrame (received (table .held) f) = .next t ∧ t.cp.counters.updatesApplied = 0 ∧ t.pt.h = 3)
      ∧ (∃ t, exec .takeFrame (received (knowing .active 6 { Peer.cleared with presence := .present }) leave6) = .next t
        ∧ t.cp.notify = [{ kind := .peerLeft, param := 6 }, { kind := .converged, param := 0 }])
      ∧ (∃ t, exec .takeFrame (received (live .held) leave6) = .next t ∧ t.cp.notify = []) :=
  ⟨by decide +kernel, by decide, ⟨_, rfl, by decide +kernel, by decide +kernel, by decide +kernel⟩,
    ⟨_, rfl, by decide +kernel, by decide +kernel⟩, ⟨_, rfl, by decide +kernel⟩, ⟨_, rfl, by decide +kernel⟩⟩

/-- TakeFrameActsByState, what a SUMMARY leaves: entries, journal queue and outbound list; a JOINING one makes a SUMMARY due in
ACTIVE, not in HELD, and one without the flag in neither. -/
theorem test_take_summary_leaves :
    let plain : Frame := { summary6 with flags := .zero }
    parseFrame plain.chars = some plain ∧ plain.flags.joining = false
      ∧ (∃ t, exec .takeFrame (received putting summary6) = .next t ∧ t.pt.entries = putting.pt.entries ∧ t.jc = putting.jc
        ∧ t.re.outbound = putting.re.outbound ∧ t.ac.summaryDue = true ∧ t.re.summaryTimer = some 0)
      ∧ (∃ t, exec .takeFrame (received (table .held) summary6) = .next t ∧ t.ac.summaryDue = false
        ∧ t.re.session = (table .held).re.session ∧ (t.peer 6).count = 0 ∧ (t.peer 6).joining = true
        ∧ (t.peer 6).agreement = .unknown)
      ∧ ∃ t, exec .takeFrame (received (table .active) plain) = .next t ∧ t.ac.summaryDue = false
        ∧ t.re.summaryTimer = (table .active).re.summaryTimer :=
  ⟨by decide +kernel, by decide, ⟨_, rfl, by decide +kernel, by decide +kernel, by decide +kernel, by decide +kernel, by decide +kernel⟩,
    ⟨_, rfl, by decide +kernel, by decide +kernel, by decide +kernel, by decide +kernel, by decide +kernel⟩,
    ⟨_, rfl, by decide +kernel, by decide +kernel⟩⟩

/-- RequestPlaced, each case of Table 6.5.2: in place of an unserved request, after a served one and one in flight, dropped at 4, the
tail at 3. -/
theorem test_request_placing :
    let rq := fun n b => ({ requester := n, seq := 1, work := .fetch [44] 0, completed := b } : Request)
    let s := fun q : List Request => ({ live .active with re := { (live .active).re with replyQueue := q } } : State)
    let new := { rq 6 false with seq := 2 }
    ((s [rq 5 false, rq 6 false, rq 7 false]).placeRequest new).re.replyQueue = [rq 5 false, new, rq 7 false]
      ∧ ((s [rq 6 true, rq 7 false]).placeRequest new).re.replyQueue = [rq 7 false, new]
      ∧ ((sending .active false (.reply true true (.fetch [44] 1))).placeRequest new).re.replyQueue = [new]
      ∧ ((sending .active false (.reply true true (.fetch [44] 1))).placeRequest new).headInFlight = false
      ∧ ((s [rq 1 true, rq 2 false, rq 3 false, rq 5 false]).placeRequest new).cp.counters.replyDrops = 1
      ∧ ((s [rq 1 true, rq 2 false, rq 3 false]).placeRequest new).re.replyQueue.length = 4 := by decide +kernel

/-- Hypotheses of ReceivedRecordOutcome. -/
theorem test_received_record_hypotheses :
    (table .active).pt.entries.length < 512 ∧ freeSlot (table .active).pt.entries ≠ none
      ∧ (table .active).entry 300 = some e300 ∧ e300.scope = .loc
      ∧ (table .active).entry 44 = some e44 ∧ e44.scope = .shared
      ∧ ({ id := 44, gen := 1, origin := 4, value := [0x0A, 0x14] } : LineRecord).ver = e44.ver
      ∧ (table .active).entry 46 = none ∧ e44.ver.gen < 2 ∧ ¬ 1 < e44.ver.gen
      ∧ e44.ver.origin < 5 ∧ 3 < e44.ver.origin := by decide +kernel

/-- ReceivedRecordOutcome where the table has no room (512 entries; no slot), where the entry is watched, where a new one would be,
and where generation and origin conflict. -/
theorem test_received_room_hypotheses :
    ¬ (holding .active ((List.range 512).map fun i => entryOf (i + 1) .shared [1] none)).pt.entries.length < 512
      ∧ ((holding .active ((List.range 512).map fun i => entryOf (i + 1) .shared [1] none)).entry 600) = none
      ∧ freeSlot ((List.range 256).map fun i => entryOf (i + 1) .shared [1, 2, 3, 4, 5, 6, 7, 8, 9] (some i)) = none
      ∧ ((holding .active [{ e44 with watch := true }]).entry 44).map Entry.watch = some true
      ∧ ({ live .active with cp := { CommandPort.reset with
            setup := { Setup.defaults with watchNew := true } } } : State).cp.setup.watchNew = true
      ∧ e44.ver.check.toNat < (valueCheck [0x10]).toNat ∧ e44.ver.gen = 1 ∧ e44.ver.origin = 4
      ∧ (∃ t, exec .takeFrame (received (holding .active [{ e44 with watch := true }])
            (update6 { id := 44, gen := 2, origin := 6, value := [1] })) = .next t
          ∧ (t.entry 44).map Entry.value = some [1] ∧ t.cp.counters.updatesApplied = 1
          ∧ { kind := .remoteChange, param := 44 } ∈ t.cp.notify) := by
  refine ⟨by decide +kernel, by decide +kernel, by decide +kernel, by decide, by decide, by decide +kernel, by decide, by decide,
    ⟨_, rfl, by decide +kernel, by decide +kernel, by decide +kernel⟩⟩

/-- Hypotheses of ReplyTimeoutResendsOrAbandons. -/
theorem test_reply_timeout_hypotheses :
    (asking .awaitListing 1).re.session.state ≠ .idle ∧ (asking .awaitListing 1).re.session.raised = false
      ∧ (asking .awaitListing 1).li.receiver.busy = false ∧ (asking .awaitListing 1).re.session.attempt = 1
      ∧ (asking .awaitUpdates 1).re.session.state = .awaitUpdates ∧ (asking .awaitUpdates 2).re.session.attempt ≠ 1
      ∧ 1 ≤ (asking .awaitUpdates 2).re.session.peer
      ∧ 10 * (asking .awaitListing 1).cp.setup.replyTimeout ≤ (asking .awaitListing 1).re.session.timer
      ∧ ({ asking .awaitListing 1 with li := (hearing .active (.receiving false 0) .dominant).li } : State).li.receiver.busy = true
      := by decide

/-- Timers that run. -/
def timing (st : Station) : State :=
  { live st with
    re := { (live st).re with summaryTimer := some 0 }
    sc := { (live st).sc with joinWindow := some 6000, closeLimit := some 0 }
    cp := { CommandPort.reset with slot := .executing 0x13 7 } }

/-- Hypotheses of LifeTimersExpire. -/
theorem test_timer_hypotheses :
    (timing .joining).re.summaryTimer ≠ none ∧ (timing .joining).sc.joinWindow ≠ none
      ∧ (timing .muted).sc.station = .muted ∧ (timing .muted).ac.prior = .joining
      ∧ (timing .closing).sc.closeLimit ≠ none ∧ (timing .closing).cp.slot = .executing 0x13 7 := by decide

/-- LifeTimersExpire: the join window in ACTIVE; CLOSING with the converged flag set, and with no CLOSE in the slot. -/
theorem test_timer_ends :
    (timing .active).sc.joinWindow ≠ none ∧ (timing .active).sc.station ≠ .joining
      ∧ (∃ t, exec .joinWindowExpiry (timing .joining) = .next t ∧ t.sc.station = .active ∧ t.sc.converged = true
        ∧ t.cp.notify = [{ kind := .converged, param := 0 }])
      ∧ ∃ t, exec .closeLimitExpiry { timing .closing with
            sc := { (timing .closing).sc with converged := true }, cp := CommandPort.reset } = .next t
        ∧ t.sc.station = .held ∧ t.cp.slot = .empty ∧ t.cp.notify = [{ kind := .diverged, param := 0 }] :=
  ⟨by decide, by decide, ⟨_, rfl, by decide +kernel, by decide +kernel, by decide +kernel⟩,
    ⟨_, rfl, by decide +kernel, by decide +kernel, by decide +kernel⟩⟩

/-- Hypotheses of SilentPeersAreLost. -/
theorem test_silence_hypotheses :
    (knowing .active 6 { Peer.cleared with presence := .present, lastHeard := some 0 }).re.roster.length = 31
      ∧ ((knowing .active 6 { Peer.cleared with presence := .present, lastHeard := some 0 }).peer 6).presence = .present
      ∧ ((knowing .active 31 { Peer.cleared with presence := .silent, lastHeard := some 0 }).peer 31).presence = .silent
      ∧ ((knowing .active 1 { Peer.cleared with presence := .present }).peer 1).presence = .present
      ∧ 6 ≠ (live .active).straps.sn.toNat ∧ (live .active).sc.station ≠ .replay := by decide

/-- SilentPeersAreLost, the instant: 8001 ms after the last frame, or the present one where that has passed. -/
theorem test_silence_instant :
    let s := knowing .active 6 { Peer.cleared with presence := .present, lastHeard := some 0 }
    (∃ t, exec (.peerLost 6) s = .next t ∧ t.clk.now = 8001 ∧ (t.peer 6).presence = .silent)
      ∧ ∃ t, exec (.peerLost 6) { s with clk := { now := 9000, us := 7 } } = .next t ∧ t.clk = { now := 9000, us := 7 } :=
  ⟨⟨_, rfl, by decide +kernel, by decide +kernel⟩, ⟨_, rfl, by decide +kernel⟩⟩

/-- SilentPeersAreLost with a session: the buckets go back to the lost peer, and the next session opens with another. -/
theorem test_lost_session_hypotheses :
    let s : State := { live .active with re := { (asking .awaitListing 1).re with
      roster := ((List.replicate 31 Peer.cleared).set 5 { Peer.cleared with presence := .present, lastHeard := some 0 }).set 8
        { Peer.cleared with presence := .present, agreement := .disagree, mask := 4, wanted := true } } }
    s.re.session.peer = 6 ∧ s.re.session.state ≠ .idle
      ∧ ∃ t, exec (.peerLost 6) s = .next t ∧ (t.peer 6).mask = 2 ∧ (t.peer 6).wanted = true ∧ t.re.session.peer = 9 :=
  ⟨by decide, by decide, ⟨_, rfl, by decide +kernel, by decide +kernel, by decide +kernel⟩⟩

/-! ### The journal -/

/-- A journal with an open head at a position, some bands ERASED, and a queue. -/
def journaling (erased : Nat) (head : Option Head) (q : List QItem) (es : List Entry) : State :=
  { holding .active es with
    jc := { Journal.reset with
      replay := none, queue := q, head := head, lastSeq := 1
      bands := { state := .open_, seq := some 1, live := 1 }
        :: (List.replicate erased { state := .erased, seq := none, live := 0 }
            ++ List.replicate (15 - erased) { state := .bad, seq := none, live := 0 }) } }

/-- Hypotheses of AppendBeginsItsProgram. -/
theorem test_append_hypotheses :
    journalFree (journaling 2 (some ⟨0, 16⟩) [⟨44, false⟩] [e44])
      ∧ (journaling 2 (some ⟨0, 16⟩) [⟨44, false⟩] [e44]).jc.compaction = .idle
      ∧ ((journaling 2 none [⟨44, false⟩] [e44]).jc.bands.countP fun x => x.state = .erased) = 2
      ∧ ((journaling 1 none [⟨44, false⟩] [e44]).jc.bands.countP fun x => x.state = .erased) < 2
      ∧ (journaling 2 none [⟨44, false⟩] [e44]).jc.lastSeq ≠ 0xFFFFFFFE
      ∧ 16 + ((journaling 2 none [⟨44, false⟩] [e44]).appendJob ⟨44, false⟩ false).bytes.length ≤ 4096
      ∧ 4096 < 4082 + ((journaling 2 none [⟨44, false⟩] [e44]).appendJob ⟨44, false⟩ false).bytes.length
      ∧ (journaling 2 none [⟨44, false⟩] [e44]).entry 44 = some e44
      ∧ recordKind true none = .tombLocal ∧ recordKind false (some e45) = .tombShared
      ∧ recordKind false (some { e44 with dirty := .from_ 1, base := some 1 }) = .tail 1
      ∧ recordKind false (some { e44 with dirty := .from_ 1 }) = .full := by
  unfold journalFree
  decide +kernel

/-- AppendBeginsItsProgram with no sequence left: FAULT, the queue emptied. -/
theorem test_append_fault :
    let s := journaling 2 none [⟨44, false⟩] [{ e44 with jstate := .queued }]
    ∃ t, exec .append { s with jc := { s.jc with lastSeq := 0xFFFFFFFE } } = .next t ∧ t.jc.fault = true ∧ t.jc.queue = []
      ∧ (t.entry 44).map Entry.jstate = some .unsaved :=
  ⟨_, rfl, by decide +kernel, by decide +kernel, by decide +kernel⟩

/-- A RETIRING band with an entry's base in it, or none. -/
def compacting (live_ : Nat) (toErase : List Nat) : State :=
  let s := journaling 2 (some ⟨1, 16⟩) [] [{ e44 with base := some 1 }]
  { s with jc := { s.jc with
      bands := { state := .retiring, seq := some 1, live := live_ } :: { state := .open_, seq := some 2, live := 0 }
        :: List.replicate 14 { state := .erased, seq := none, live := 0 }
      compaction := .retiring 0 none, toErase := toErase } }

/-- Hypotheses of CopyAndEraseBegin. -/
theorem test_copy_erase_hypotheses :
    journalFree (compacting 1 []) ∧ (compacting 1 []).jc.queue = [] ∧ (compacting 1 []).jc.compaction = .retiring 0 none
      ∧ (compacting 1 []).jc.bands[0]? = some { state := .retiring, seq := some 1, live := 1 }
      ∧ (compacting 1 []).pt.entries.Pairwise (fun x y => x.id < y.id)
      ∧ { e44 with base := some 1 } ∈ (compacting 1 []).pt.entries ∧ above none e44.id = true
      ∧ (∃ x ∈ (compacting 1 []).jc.bands, x.state = .erased)
      ∧ (compacting 1 [5]).jc.toErase = 5 :: []
      ∧ (compacting 0 []).jc.bands[0]? = some { state := .retiring, seq := some 1, live := 0 } := by
  unfold journalFree
  decide +kernel

/-- CopyAndEraseBegin after a compaction job, the queued append held by the reserve, as job 2 of 8.6: with one ERASED band and no head,
and with a head in which it does not fit. -/
theorem test_held_append_turn :
    let s := fun (head : Option Head) => ({ compacting 1 [] with jc := { (compacting 1 []).jc with
        head := head, queue := [⟨44, false⟩], lastSide := some .compaction
        bands := [{ state := .retiring, seq := some 1, live := 1 }, { state := .full, seq := some 2, live := 0 },
          { state := .erased, seq := none, live := 0 }] } } : State)
    (s none).jc.queue = ⟨44, false⟩ :: [] ∧ ((s none).jc.bands.countP fun x => x.state = .erased) < 2
      ∧ 4096 < 4090 + ((s (some ⟨1, 4090⟩)).appendJob ⟨44, false⟩ false).bytes.length
      ∧ exec .append (s none) = .next (s none)
      ∧ (∃ t, exec .copy (s none) = .next t ∧ t.sp.cmd = .program ⟨.header, 2, 0, headerBytes ⟨4, 0, 0⟩ 2⟩ .busy)
      ∧ ∃ t, exec .copy (s (some ⟨1, 4090⟩)) = .next t ∧ t.sp.cmd = .program ⟨.closeLength, 1, 11, closeBytes 4074⟩ .busy :=
  ⟨by decide, by decide, by decide +kernel, rfl, ⟨_, rfl, by decide +kernel⟩, ⟨_, rfl, by decide +kernel⟩⟩

/-- CopyAndEraseBegin where the copy needs a band: with no head, an ERASED band and a sequence; with no sequence; with none ERASED. -/
theorem test_copy_band_hypotheses :
    let s := fun (head : Option Head) (third : BandState) (seq : Nat) =>
      ({ compacting 1 [] with jc := { (compacting 1 []).jc with
        head := head, lastSeq := seq
        bands := [{ state := .retiring, seq := some 1, live := 1 }, { state := .full, seq := some 2, live := 0 },
          { state := third, seq := none, live := 0 }] } } : State)
    (∃ t, exec .copy (s none .erased 2) = .next t ∧ t.jc.lastSeq = 3
        ∧ t.sp.cmd = .program ⟨.header, 2, 0, headerBytes ⟨4, 0, 0⟩ 3⟩ .busy)
      ∧ (∃ t, exec .copy (s none .erased 0xFFFFFFFE) = .next t ∧ t.jc.fault = true)
      ∧ (∃ t, exec .copy (s none .bad 2) = .next t ∧ t.jc.fault = true)
      ∧ (∃ t, exec .copy (s (some ⟨1, 4082⟩) .bad 2) = .next t ∧ t.jc.fault = true)
      ∧ (∀ x ∈ (s none .bad 2).jc.bands, x.state ≠ .erased) ∧ journalFree (s none .bad 2) := by
  unfold journalFree
  exact ⟨⟨_, rfl, by decide +kernel, by decide +kernel⟩, ⟨_, rfl, by decide +kernel⟩, ⟨_, rfl, by decide +kernel⟩,
    ⟨_, rfl, by decide +kernel⟩, by decide, by decide⟩

/-- Hypotheses of PollingEndsTheWriteWindow. -/
theorem test_polling_hypotheses :
    writing.sp.poll = some 5
      ∧ writing.sp.cmd = .program { purpose := .recordFirst, band := 1, offset := 16, data := [0x0F] } .busy
      ∧ erasing.sp.poll = some 500 ∧ erasing.sp.cmd = .erase 1 .busy := by decide

/-- A write of entry 44 in the head band, its program read back: as sent when the device holds it. -/
def verifying (purpose : Purpose) (side : Side) (changed held : Bool) (fails : Nat) : State :=
  let s := journaling 2 (some ⟨0, 16⟩) [⟨44, false⟩] [{ e44 with jstate := .queued }]
  { s with
    jc := { s.jc with
      failCount := fails
      job := some (.write { side := side, id := 44, kind := .full, bytes := [1, 2, 3], changed := changed, gone := false }) }
    sp := { StoragePort.reset with cmd := .program { purpose := purpose, band := 0, offset := 16, data := [1, 2, 3] } .verify }
    flash := if held then [(16, 1), (17, 2), (18, 3)] else [(16, 1), (17, 2)] }

/-- Hypotheses of WrittenRecordsSaveTheirEntries. -/
theorem test_written_record_hypotheses :
    Flash.read (verifying .recordFirst .append false true 0).flash (0 * 4096 + 16) 3 = [1, 2, 3]
      ∧ (verifying .recordFirst .append false true 0).jc.job
          = some (.write { side := .append, id := 44, kind := .full, bytes := [1, 2, 3], changed := false, gone := false })
      ∧ (verifying .recordFirst .append false true 0).jc.head = some ⟨0, 16⟩
      ∧ (verifying .recordFirst .append false true 0).jc.fault = false ∧ [1, 2, 3].length ≤ 256 - 16 % 256
      ∧ (verifying .recordFirst .append false true 0).jc.seqOf 0 = some 1
      ∧ (verifying .recordFirst .append false true 0).jc.queueIds = [44]
      ∧ (verifying .recordSecond .compaction true true 0).jc.queue ≠ []
      ∧ (∃ t, exec .programVerify (verifying .recordFirst .append false true 0) = .next t ∧ t.jc.queue = []
          ∧ (t.entry 44).map Entry.jstate = some .clean) :=
  ⟨by decide, by decide, by decide, by decide, by decide, by decide, by decide, by decide,
    ⟨_, rfl, by decide +kernel, by decide +kernel⟩⟩

/-- WrittenRecordsSaveTheirEntries: the base stays or moves from another band, the job of a deleted entry, a TAIL, the trigger that
waits, a FLUSH that waits, the copy cursor. -/
theorem test_written_base_hypotheses :
    (verifying .recordFirst .append false true 0).jc.seqOf 0 = some 1 ∧ e44.base ≠ some 1
      ∧ (({ e44 with base := some 2 } : Entry).base.bind fun b =>
          (compacting 1 []).jc.bands.findIdx? fun r => r.seq = some b && r.live ≠ 0) = none
      ∧ (({ e44 with base := some 1 } : Entry).base.bind fun b =>
          (compacting 1 []).jc.bands.findIdx? fun r => r.seq = some b && r.live ≠ 0) = some 0
      ∧ (compacting 1 []).jc.compaction = .retiring 0 none
      ∧ (let s := verifying .recordFirst .append false true 0
         ∃ t, exec .programVerify { s with
              jc := { s.jc with chooseHeld := true }, cp := { s.cp with slot := .executing 0x30 7 } } = .next t
            ∧ t.cp.slot = .done { code := 0x30, tag := 7, result := .done, data := [] } ∧ t.jc.bands[0]?.map BandRow.live = some 2)
      ∧ ((verifying .recordFirst .append false true 0).jc.queue.filter fun x => x.id ≠ 44) = [] :=
  ⟨by decide, by decide, by decide, by decide, by decide, ⟨_, rfl, by decide +kernel, by decide +kernel⟩, by decide⟩

/-- A record that crosses a page. -/
def crossing : State :=
  let s := verifying .recordFirst .append false true 0
  { s with jc := { s.jc with head := some ⟨0, 254⟩ } }

/-- Hypotheses of BandsCloseAndOpen. -/
theorem test_bands_hypotheses :
    (verifying .header .append false true 0).sp.lend = .idle ∧ (verifying .header .append false true 0).cp.restarting = false
      ∧ crossing.jc.head = some ⟨0, 254⟩ ∧ 256 - 254 % 256 < [1, 2, 3].length
      ∧ ((verifying .closeMark .append false true 0).jc.bands[0]?).map BandRow.state ≠ some .erased
      ∧ 2 ≤ ((verifying .closeMark .append false true 0).jc.bands.countP fun x => x.state = .erased)
      ∧ (verifying .closeMark .append false true 0).jc.lowestErased = some 1
      ∧ (verifying .closeMark .append false true 0).jc.lastSeq ≠ 0xFFFFFFFE
      ∧ 0 < (verifying .header .append false true 0).jc.bands.length := by decide +kernel

/-- A replay that closes two OPEN bands, a program of the first close read back. -/
def closingReplay (purpose : Purpose) (offset : Nat) (data : List Byte) (todo : List (Nat × Nat)) (fails : Nat)
    (content : List Host.Cell) : State :=
  let s := live .replay
  { s with
    jc := { s.jc with
      failCount := fails
      bands := [{ state := .open_, seq := some 1, live := 0 }, { state := .open_, seq := some 1, live := 0 }]
        ++ List.replicate 14 { state := .erased, seq := none, live := 0 }
      replay := some { phase := .closing todo, lens := [], ends := [] } }
    sp := { StoragePort.reset with cmd := .program { purpose := purpose, band := 0, offset := offset, data := data } .verify }
    flash := content }

/-- BandsCloseAndOpen after a failure: each program of a void and its close, read back as sent; and the closes of replay. -/
theorem test_void_and_close_hypotheses :
    (∃ t, exec .programVerify (verifying .voidKind .append false true 1) = .next t
        ∧ t.sp.cmd = .program ⟨.forcedLength, 0, 11, closeBytes 3⟩ .busy)
      ∧ (∃ t, exec .programVerify (verifying .forcedLength .append false true 1) = .next t
        ∧ t.sp.cmd = .program ⟨.forcedMark, 0, 10, [0]⟩ .busy)
      ∧ (∃ t, exec .programVerify (verifying .forcedMark .append false true 1) = .next t
        ∧ t.sp.cmd = .program ⟨.header, 1, 0, headerBytes ⟨4, 0, 0⟩ 2⟩ .busy ∧ t.jc.stranded = 4077)
      ∧ (verifying .forcedMark .append false true 1).pt.entries.Pairwise (fun x y => x.id < y.id)
      ∧ (∃ t, exec .programVerify (closingReplay .replayLength 11 [5] [(0, 20), (1, 16)] 0 [(11, 5)]) = .next t
        ∧ t.sp.cmd = .program ⟨.replayMark, 0, 10, [0]⟩ .busy)
      ∧ (∃ t, exec .programVerify (closingReplay .replayMark 10 [0] [(0, 20), (1, 16)] 0 [(10, 0)]) = .next t
        ∧ t.sp.cmd = .program ⟨.replayLength, 1, 11, closeBytes 0⟩ .busy)
      ∧ (∃ t, exec .programVerify (closingReplay .replayMark 10 [0] [(0, 20)] 0 [(10, 0)]) = .next t
        ∧ t.sc.station = .held ∧ t.jc.replay = none) :=
  ⟨⟨_, rfl, by decide +kernel⟩, ⟨_, rfl, by decide +kernel⟩, ⟨_, rfl, by decide +kernel, by decide +kernel⟩, by decide,
    ⟨_, rfl, by decide +kernel⟩, ⟨_, rfl, by decide +kernel⟩, ⟨_, rfl, by decide +kernel, by decide +kernel⟩⟩

/-- The same write, its program still in its busy period. -/
def polling : State :=
  { verifying .recordFirst .append false false 0 with
    sp := { StoragePort.reset with
      cmd := .program { purpose := .recordFirst, band := 0, offset := 16, data := [1, 2, 3] } .busy, poll := some 5 } }

/-- Hypotheses of ProgramFailureVoidsOrFaults. -/
theorem test_program_failure_hypotheses :
    Flash.read (verifying .recordFirst .append false false 0).flash (0 * 4096 + 16) 3 ≠ [1, 2, 3]
      ∧ (verifying .recordFirst .append false false 0).jc.replay = none
      ∧ (verifying .recordFirst .append false false 0).jc.failCount = 0
      ∧ 1 ≤ (verifying .recordFirst .append false false 1).jc.failCount
      ∧ (verifying .voidKind .append false false 1).cp.notify.length < 30 ∧ polling.sp.poll = some 5
      ∧ polling.sp.cmd = .program { purpose := .recordFirst, band := 0, offset := 16, data := [1, 2, 3] } .busy
      ∧ (∃ w, polling.jc.job = some (.write w)) ∧ polling.jc.head = some ⟨0, 16⟩ :=
  ⟨by decide, by decide, by decide, by decide, by decide, by decide, by decide, ⟨_, rfl⟩, by decide⟩

/-- A header that fails with more than 8 usable bands, and with 8. -/
def failingHeader (erased : Nat) : State :=
  let s := journaling erased none [⟨44, false⟩] [{ e44 with jstate := .queued }]
  { s with
    jc := { s.jc with job := some (.write { side := .append, id := 44, kind := .full, bytes := [1], changed := false, gone := false }) }
    sp := { StoragePort.reset with cmd := .program { purpose := .header, band := 1, offset := 0, data := [1] } .verify } }

/-- ProgramFailureVoidsOrFaults, each purpose: a record, a close, a header with bands enough and not, a void, and the closes of replay. -/
theorem test_failure_purposes :
    (∃ t, exec .programVerify (verifying .recordSecond .append false false 0) = .next t
        ∧ t.sp.cmd = .program ⟨.voidKind, 0, 16, [0]⟩ .busy)
      ∧ (∃ t, exec .programVerify (verifying .closeMark .append false false 0) = .next t
        ∧ t.sp.cmd = .program ⟨.header, 1, 0, headerBytes ⟨4, 0, 0⟩ 2⟩ .busy)
      ∧ (∃ t, exec .programVerify (failingHeader 8) = .next t ∧ t.jc.fault = false
        ∧ t.sp.cmd = .program ⟨.header, 2, 0, headerBytes ⟨4, 0, 0⟩ 2⟩ .busy)
      ∧ (∃ t, exec .programVerify (failingHeader 7) = .next t ∧ t.jc.fault = true)
      ∧ (∃ t, exec .programVerify (verifying .voidKind .append false false 0) = .next t ∧ t.jc.fault = true
        ∧ (t.entry 44).map Entry.jstate = some .unsaved)
      ∧ (∃ t, exec .programVerify (closingReplay .replayLength 11 [5] [(0, 20), (1, 16)] 0 []) = .next t
        ∧ t.sp.cmd = .program ⟨.replayLength, 1, 11, closeBytes 0⟩ .busy)
      ∧ (∃ t, exec .programVerify (closingReplay .replayMark 10 [0] [(0, 20)] 1 []) = .next t
        ∧ t.sc.station = .held ∧ t.jc.fault = true) :=
  ⟨⟨_, rfl, by decide +kernel⟩, ⟨_, rfl, by decide +kernel⟩, ⟨_, rfl, by decide +kernel, by decide +kernel⟩,
    ⟨_, rfl, by decide +kernel⟩, ⟨_, rfl, by decide +kernel, by decide +kernel⟩, ⟨_, rfl, by decide +kernel⟩,
    ⟨_, rfl, by decide +kernel, by decide +kernel⟩⟩

/-- A program that a lend or a RESTART comes before waits as the job's next, in a running journal, after a failure and in replay. -/
theorem test_program_waits :
    let lending := fun s : State => { s with sp := { s.sp with lreq := true, lend := .waiting } }
    let restart := fun s : State => { s with cp := { s.cp with restarting := true } }
    (∃ t, exec .programVerify (lending (verifying .closeLength .append false true 0)) = .next t ∧ t.sp.cmd = .none
        ∧ t.jc.next = some ⟨.closeMark, 0, 10, [0]⟩)
      ∧ (∃ t, exec .programVerify (restart (verifying .recordFirst .append false false 0)) = .next t ∧ t.sp.cmd = .none
        ∧ t.jc.next = some ⟨.voidKind, 0, 16, [0]⟩)
      ∧ (∃ t, exec .programVerify (restart (closingReplay .replayLength 11 [5] [(0, 20)] 0 [(11, 5)])) = .next t
        ∧ t.sp.cmd = .none ∧ t.jc.next = some ⟨.replayMark, 0, 10, [0]⟩)
      ∧ (∃ t, exec .programVerify (lending (closingReplay .replayLength 11 [5] [(0, 20)] 0 [(11, 5)])) = .next t
        ∧ t.sp.cmd = .program ⟨.replayMark, 0, 10, [0]⟩ .busy) :=
  ⟨⟨_, rfl, by decide +kernel, by decide +kernel⟩, ⟨_, rfl, by decide +kernel, by decide +kernel⟩,
    ⟨_, rfl, by decide +kernel, by decide +kernel⟩, ⟨_, rfl, by decide +kernel⟩⟩

/-- An append whose header program fails with one ERASED band left waits with its flag, and a later turn takes the flag up
(notes/assumptions/41.md). -/
theorem test_header_held :
    let row := fun st => ({ state := st, seq := none, live := 0 } : BandRow)
    let bands := row .erased :: row .erased :: List.replicate 14 { state := .full, seq := some 1, live := 1 }
    let s := failingHeader 2
    let w : WriteJob := { side := .append, id := 44, kind := .full, bytes := [1], changed := true, gone := false }
    let s := { s with jc := { s.jc with bands := bands, job := some (.write w) } }
    ∃ t, exec .programVerify s = .next t ∧ t.jc.job = none ∧ t.jc.held = some w ∧ t.jc.fault = false
      ∧ t.nextAppend.map WriteJob.changed = some true :=
  ⟨_, rfl, by decide +kernel, by decide +kernel, by decide +kernel, by decide +kernel⟩

/-- An erase job, its check read. -/
def checking (content : List Host.Cell) : State :=
  let s := compacting 0 []
  { s with jc := { s.jc with job := some (.erase 0) }, sp := { StoragePort.reset with cmd := .erase 0 .verify }, flash := content }

/-- The same job, its erase still in its busy period. -/
def pollingErase : State :=
  { checking [] with sp := { StoragePort.reset with cmd := .erase 0 .busy, poll := some 500 } }

/-- Hypotheses of EraseEndsItsJob. -/
theorem test_erase_hypotheses :
    (checking []).jc.job = some (.erase 0) ∧ (checking []).jc.replay = none ∧ (checking []).jc.fault = false
      ∧ 0 < (checking []).jc.bands.length ∧ Flash.read (checking []).flash (0 * 4096) 16 = List.replicate 16 0xFF
      ∧ Flash.read (checking [(15, 0)]).flash (0 * 4096) 16 ≠ List.replicate 16 0xFF
      ∧ pollingErase.sp.cmd = .erase 0 .busy ∧ pollingErase.sp.poll = some 500
      ∧ pollingErase.jc.job = some (.erase 0) := by decide +kernel

/-- EraseEndsItsJob: a compaction erase leaves compaction IDLE, one of replay's list leaves the list alone; a failed one with bands
enough, and with 8, which puts the journal in FAULT. -/
theorem test_erase_ends :
    (∃ t, exec .eraseCheck (checking []) = .next t ∧ (checking []).jc.compaction = .retiring 0 none ∧ t.jc.job = none
        ∧ t.jc.bands[0]? = some { state := .erased, seq := none, live := 0 } ∧ t.jc.compaction = .idle)
      ∧ (let s := checking []
         ∃ t, exec .eraseCheck { s with jc := { s.jc with toErase := [0, 3], compaction := .idle } } = .next t
          ∧ t.jc.toErase = [3] ∧ t.jc.compaction = .idle)
      ∧ (let s := checking [(15, 0)]
         let rows := fun n => List.replicate n ({ state := .full, seq := some 1, live := 1 } : BandRow)
         (∃ t, exec .eraseCheck { s with jc := { s.jc with bands := rows 9 } } = .next t ∧ t.jc.fault = false)
          ∧ ∃ t, exec .eraseCheck { s with jc := { s.jc with bands := rows 8 } } = .next t ∧ t.jc.fault = true) :=
  ⟨⟨_, rfl, by decide, by decide +kernel, by decide +kernel, by decide +kernel⟩,
    ⟨_, rfl, by decide +kernel, by decide +kernel⟩, ⟨⟨_, rfl, by decide +kernel⟩, ⟨_, rfl, by decide +kernel⟩⟩⟩

/-! ### Lending -/

/-- A request that waits, with a flash command. -/
def asked (cmd : SpCmd) : State :=
  { live .active with sp := { StoragePort.reset with lreq := true, lend := .waiting, cmd := cmd } }

/-- A busy check. -/
def checkingBusy (c : Check) (lreq : Bool) (cmd : SpCmd) (next : Option Prog) : State :=
  { live .active with
    sp := { StoragePort.reset with check := c, poll := some 500, lreq := lreq, cmd := cmd }
    jc := { (live .active).jc with next := next } }

/-- Hypotheses of LendHandshake. -/
theorem test_lend_hypotheses :
    (live .active).sp.lreq = false ∧ (live .active).sp.lend = .idle ∧ (live .active).lendPoint = true
      ∧ writing.lendPoint = false ∧ writing.sp.lreq = false ∧ State.reset.power ≠ .running ∧ State.reset.sp.lreq = false
      ∧ (asked .none).sp.lend = .waiting ∧ (asked .none).lendPoint = true ∧ (asked .read).lendPoint = false
      ∧ lent.sp.lend = .granted ∧ lent.sp.lreq = true ∧ (asked .none).jc.next = none ∧ (asked .none).jc.replay = none
      ∧ (asked (.program ⟨.header, 0, 0, []⟩ .ready)).sp.cmd = .program ⟨.header, 0, 0, []⟩ .ready
      ∧ (asked .none).cp.restarting = false := by decide

/-- LendHandshake, a request within a busy check: in the start-up check WAITING, withdrawn without a trace, granted once as the check
ends or the journal faults; in RETURNING held. -/
theorem test_request_in_check :
    let s : State := { State.reset with
      power := .running, sp := { StoragePort.reset with check := .startUp, poll := some 500 } }
    let r := checkingBusy .returning false .none none
    let r := { r with sp := { r.sp with lend := .returning } }
    s.sp.lreq = false ∧ s.sp.check ≠ .none ∧ s.lendPoint = false ∧ r.sp.lend ≠ .idle
      ∧ (∃ t u v w, exec .lreqAsserted s = .next t ∧ t.sp = { s.sp with lreq := true, lend := .waiting }
        ∧ exec .lendGrant t = .next t ∧ exec (.lreqDeasserted []) t = .next s
        ∧ exec .busyCheckEnd t = .next u ∧ u.sp.lend = .granted ∧ u.sp.lendCount = 1
        ∧ exec .busyCheckTimeout t = .next v ∧ v.sp.lend = .granted ∧ v.sp.lendCount = 1 ∧ v.jc.fault = true
        ∧ exec .lreqAsserted r = .next w ∧ w.sp = { r.sp with lreq := true }) :=
  ⟨by decide, by decide, by decide, by decide, _, _, _, _, rfl, by decide, rfl, rfl, rfl, by decide +kernel, by decide +kernel, rfl,
    by decide +kernel, by decide +kernel, by decide +kernel, rfl, by decide +kernel⟩

/-- LendHandshake, the levels of the bus: without supply, lent, in a program, between commands, in a busy check. -/
theorem test_bus_levels :
    ({ live .active with power := .off } : State).fcs = [.floating] ∧ lent.fcs = [.floating] ∧ lent.fsck = .floating
      ∧ writing.fcs = [.high, .low, .high, .low, .high, .low, .high] ∧ writing.fsck = .low ∧ (live .active).fcs = [.high]
      ∧ State.reset.fcs = [.high] ∧ (checkingBusy .startUp false .none none).fcs = [.high, .low, .high]
      ∧ (checkingBusy .startUp false .none none).sp.cmd.pauses = true ∧ lent.sp.cmd.pauses = true ∧ lent.power ≠ .off := by decide

/-- Hypotheses of BusyChecksEnd. -/
theorem test_busy_check_hypotheses :
    (checkingBusy .returning true .none none).sp.check ≠ .none ∧ (checkingBusy .returning true .none none).sp.poll = some 500
      ∧ (checkingBusy .returning true .none none).sp.lreq = true ∧ (checkingBusy .returning false .none none).sp.lreq = false
      ∧ (∃ r, State.reset.jc.replay = some r ∧ r.phase = .starting)
      ∧ (checkingBusy .returning false .none (some ⟨.header, 0, 0, []⟩)).jc.next = some ⟨.header, 0, 0, []⟩
      ∧ (checkingBusy .returning false (.erase 0 .ready) none).sp.cmd = .erase 0 .ready
      ∧ (checkingBusy .returning false (.program ⟨.header, 0, 0, []⟩ .ready) none).sp.cmd
          = .program ⟨.header, 0, 0, []⟩ .ready ∧ (checkingBusy .startUp false .none none).sp.check ≠ .none :=
  ⟨by decide, by decide, by decide, by decide, ⟨_, rfl, rfl⟩, by decide, by decide, by decide, by decide⟩

/-! ### Replay -/

/-- Replay at a phase. -/
def replaying (p : ReplayPhase) (content : List Host.Cell) : State :=
  { live .replay with
    jc := { (live .replay).jc with replay := some { phase := p, lens := [], ends := [] } }
    sp := { StoragePort.reset with cmd := .read }, flash := content }

/-- The cells of bytes from an address. -/
def cellsAt (a : Nat) (bs : List Byte) : List Host.Cell :=
  (((List.range bs.length).map (a + ·)).zip bs).filter fun c => c.2 ≠ erasedByte

/-- A record of entry 44. -/
def record44 : JRecord := e44.journalRecord .full

/-- A device with one OPEN band of sequence 1 that holds the record of entry 44. -/
def oneRecord : List Host.Cell :=
  cellsAt 0 (headerBytes ⟨4, 0, 0⟩ 1) ++ cellsAt 16 record44.bytes

/-- Hypotheses of SurveyAndWalkReadBands (the survey and the walk). -/
theorem test_survey_hypotheses :
    (replaying (.survey 0) []).jc.replay = some { phase := .survey 0, lens := [], ends := [] }
      ∧ readHeader (Flash.read [] 0 16) = .erased ∧ readHeader (Flash.read oneRecord 0 16) = .opened 1
      ∧ readHeader (Flash.read [(0, 0)] 0 16) = .garbled
      ∧ readHeader (Flash.read (Flash.and (Flash.and oneRecord 11 (closeBytes 15)) 10 [0]) 0 16) = .full 1 15
      ∧ (replaying (.walk [0, 1]) oneRecord).sp.cmd = .read ∧ 14 + 1 < 16 * 2 ^ (0 : BitVec 2).toNat := by decide +kernel

/-- LendHandshake and BusyChecksEnd, what goes on after a request withdrawn and after a busy check: replay's survey, walk and closes,
an erase, a program that waits; and the lend points of replay. -/
theorem test_goes_on :
    let p : Prog := ⟨.replayLength, 0, 11, closeBytes 4⟩
    let m : Prog := ⟨.replayMark, 0, 10, [0]⟩
    let wait := fun (s : State) => ({ s with sp := { StoragePort.reset with lreq := true, lend := .waiting } } : State)
    let check := fun (s : State) => ({ s with
      sp := { StoragePort.reset with check := .returning, lend := .returning, poll := some 500 } } : State)
    let close := fun (n : Prog) => ({ replaying (.closing [(0, 20)]) [] with
      jc := { (replaying (.closing [(0, 20)]) []).jc with next := some n } } : State)
    ([wait (replaying (.survey 3) []), wait (replaying (.walk [0]) []), wait (close p)].all fun s => s.lendPoint) = true
      ∧ (replaying (.survey 3) []).lendPoint = false ∧ (wait (close m)).lendPoint = false
      ∧ ([replaying (.survey 3) [], replaying (.walk [0]) []].all fun s =>
          (match exec (.lreqDeasserted []) (wait s), exec .busyCheckEnd (check s) with
            | .next t, .next u => t.sp.cmd = .read && u.sp.cmd = .read && u.sp.lend = .idle
            | _, _ => false)) = true
      ∧ (match exec (.lreqDeasserted []) (wait (close p)), exec .busyCheckEnd (check (close p)),
            exec (.lreqDeasserted []) (asked (.erase 0 .ready)), exec (.lreqDeasserted []) { asked .none with
              jc := { (asked .none).jc with next := some p } } with
          | .next t, .next u, .next v, .next w => t.sp.cmd = .program p .busy && u.sp.cmd = .program p .busy
              && v.sp.cmd = .erase 0 .verify && w.sp.cmd = .program p .busy && w.jc.next = none
          | _, _, _, _ => false) = true := by decide +kernel

/-- A RESTART in replay waits for the read in progress, no read follows it, and then it acts (R161). -/
theorem test_restart_waits_for_read :
    let s : State := { replaying (.survey 0) [] with cp := { CommandPort.reset with restarting := true } }
    exec (.restartTakesEffect ⟨9, 0, 0⟩ []) s = .next s
      ∧ ∃ t u, exec .headerSurvey s = .next t ∧ t.sp.cmd = .none ∧ t.cp.restarting = true
        ∧ t.jc.replay = some { phase := .survey 1, lens := [], ends := [] }
        ∧ exec (.restartTakesEffect ⟨9, 0, 0⟩ []) t = .next u ∧ u.sp.check = .startUp ∧ u.cp.restarting = false
        ∧ u.jc.replay = State.reset.jc.replay ∧ u.straps = ⟨9, 0, 0⟩ :=
  ⟨rfl, _, _, rfl, by decide +kernel, by decide +kernel, by decide +kernel, rfl, by decide +kernel,
    by decide +kernel, by decide +kernel, by decide +kernel⟩

/-- A replay at its last header or band, its rows as given. -/
def replayingRows (p : ReplayPhase) (rows : List BandRow) (content : List Host.Cell) : State :=
  let s := replaying p content
  { s with jc := { s.jc with bands := rows } }

/-- Rows of a device with one OPEN band. -/
def oneOpen (n : Nat) : List BandRow :=
  { state := .open_, seq := some 1, live := 0 } :: List.replicate n { state := .erased, seq := none, live := 0 }

/-- SurveyAndWalkReadBands at the ends: the last header with no valid band and with one; the walk of the last band, which keeps the
head; of one before it; and a FULL band whose close length is consumed. -/
theorem test_replay_end_hypotheses :
    16 * 2 ^ (live .replay).straps.bc.toNat ≤ 15 + 1
      ∧ (∃ t, exec .headerSurvey (replayingRows (.survey 15) (List.replicate 15 { state := .erased, seq := none, live := 0 }) [])
          = .next t ∧ t.sc.station = .held)
      ∧ (∃ t, exec .headerSurvey (replayingRows (.survey 15) (oneOpen 14) oneRecord) = .next t ∧ t.jc.lastSeq = 1
          ∧ t.jc.replay.map Replay.phase = some (.walk [0]))
      ∧ (∃ t, exec .bandWalk (replayingRows (.walk [0]) (oneOpen 15) oneRecord) = .next t ∧ t.sc.station = .held
          ∧ t.jc.head = some ⟨0, 31⟩ ∧ (t.entry 44).map Entry.base = some (some 1))
      ∧ (∃ t, exec .bandWalk (replayingRows (.walk [0, 1]) (oneOpen 15) oneRecord) = .next t
          ∧ t.jc.replay.map Replay.phase = some (.walk [1]))
      ∧ NewestOpen (oneOpen 15) 0 := by
  refine ⟨by decide, ⟨_, rfl, by decide +kernel⟩, ⟨_, rfl, by decide +kernel, by decide +kernel⟩,
    ⟨_, rfl, by decide +kernel, by decide +kernel, by decide +kernel⟩, ⟨_, rfl, by decide +kernel⟩,
    ⟨{ state := .open_, seq := some 1, live := 0 }, 1, rfl, rfl, rfl, ?_⟩⟩
  intro i x q hx ho _
  match i with
  | 0 => simp [oneOpen] at hx; subst hx; simp_all
  | i + 1 =>
    simp only [oneOpen, List.getElem?_cons_succ] at hx
    have := List.eq_of_mem_replicate (List.mem_of_getElem? hx)
    subst this
    cases ho

/-- PollingEndsTheWriteWindow, what the bus carries: a program, an erase, their reads, the read of a header, a busy check, nothing. -/
theorem test_bus_transfers :
    writing.busTransfers = [{ out := [0x06], ins := 0 }, { out := [0x02, 0x00, 0x10, 0x10, 0x0F], ins := 0 }, { out := [0x05], ins := 1 }]
      ∧ erasing.busTransfers = [{ out := [0x06], ins := 0 }, { out := [0x20, 0x00, 0x10, 0x00], ins := 0 }, { out := [0x05], ins := 1 }]
      ∧ (checking []).busTransfers = [{ out := [0x03, 0, 0, 0], ins := 16 }]
      ∧ (replaying (.survey 17) []).busTransfers = [{ out := [0x03, 0x01, 0x10, 0x00], ins := 16 }]
      ∧ (checkingBusy .startUp false .none none).busTransfers = [{ out := [0x05], ins := 1 }]
      ∧ (live .active).busTransfers = [] ∧ (live .active).sp.cmd.pauses = true ∧ writing.sp.cmd.pauses = false := by decide

/-- BusyChecksEnd past 500 ms: in FAULT already, in a running journal, in replay before and in its closes, with a request and without. -/
theorem test_check_timeout_hypotheses :
    ({ checkingBusy .returning true .none none with jc := { (live .active).jc with fault := true } } : State).jc.fault = true
      ∧ (checkingBusy .returning false .none none).jc.replay = none ∧ (checkingBusy .returning false .none none).jc.fault = false
      ∧ (∃ t, exec .busyCheckTimeout { closingReplay .replayMark 10 [0] [(0, 20)] 0 [] with
            sp := { StoragePort.reset with check := .returning, lend := .returning, poll := some 500 } } = .next t
          ∧ t.sc.station = .held ∧ t.jc.fault = true ∧ t.jc.bands.length = 16)
      ∧ (∃ t, exec .busyCheckTimeout { replaying .starting [] with
            sp := { StoragePort.reset with check := .startUp, poll := some 3, lreq := true } } = .next t
          ∧ t.sp.lend = .granted ∧ t.jc.fault = true) :=
  ⟨by decide, by decide, by decide, ⟨_, rfl, by decide +kernel, by decide +kernel, by decide +kernel⟩,
    ⟨_, rfl, by decide +kernel, by decide +kernel⟩⟩

/-- A FAULT in the closes of replay: the OPEN band that is the head stays OPEN, another walked one is FULL, a valid
and an ERASED one not walked are BAD. -/
theorem test_replay_fault_rows :
    let s := closingReplay .replayMark 10 [0] [(0, 20)] 1 []
    let note := fun b => ({ band := b, offset := 20, end_ := .noRecord } : WalkNote)
    (∃ t, exec .programVerify { s with jc := { s.jc with
          head := some ⟨1, 20⟩, replay := some { phase := .closing [(0, 20)], lens := [], ends := [note 0, note 1] } } } = .next t
        ∧ (t.jc.bands.take 3).map BandRow.state = [.full, .open_, .bad] ∧ t.jc.fault = true)
      ∧ (∃ t, exec .busyCheckTimeout { s with
          jc := { s.jc with replay := some { phase := .walk [1], lens := [], ends := [note 0] } }
          sp := { StoragePort.reset with check := .returning, lend := .returning, poll := some 500 } } = .next t
        ∧ (t.jc.bands.take 3).map BandRow.state = [.full, .bad, .bad]) :=
  ⟨⟨_, rfl, by decide +kernel, by decide +kernel⟩, ⟨_, rfl, by decide +kernel⟩⟩

/-- The record is read back as it was written, and replay gives its entry. -/
theorem test_replay_record :
    readRecord oneRecord 0 16 = .record record44 15
      ∧ ((State.replayRecord (replaying (.walk [0]) oneRecord) 1 record44).entry 44).map Entry.value = some [0x0A, 0x14]
      ∧ validId record44.id = true ∧ validGen record44.gen = true ∧ record44.origin ≤ 31 := by decide +kernel

/-- A FULL record of entry 44, of a later generation. -/
def full44 : JRecord := ⟨1, false, 44, 2, 6, 1, 0, [7]⟩

/-- A TAIL of entry 44 from its second byte. -/
def tail44 : JRecord := ⟨2, false, 44, 2, 6, 2, 1, [7]⟩

/-- A LOCAL TOMB of entry 300. -/
def tomb300 : JRecord := ⟨3, true, 300, 1, 6, 0, 0, []⟩

/-- What replay of a record leaves: the anomaly count, H, and the record's entry. -/
structure Replayed where
  anomalies : Nat
  h : Nat
  entry : Option Entry
  deriving DecidableEq

/-- What replay of a record from the band of sequence 5 leaves. -/
def replayed (r : JRecord) : Replayed :=
  let t := (table .replay).replayRecord 5 r
  { anomalies := t.jc.anomalies, h := t.pt.h, entry := t.entry r.id }

/-- SurveyAndWalkReadBands, records with an invalid id, generation and origin; a FULL of the other scope, an equal and an older one;
a SHARED TOMB; LOCAL TOMBs that delete and that do not. -/
theorem test_replay_record_full_and_tomb :
    replayed { full44 with id := 0 } = ⟨1, 1, none⟩
      ∧ replayed { full44 with gen := 0 } = ⟨1, 1, some e44⟩
      ∧ replayed { full44 with origin := 32 } = ⟨1, 1, some e44⟩
      ∧ replayed { full44 with loc := true }
        = ⟨0, 2, some { e44 with scope := .loc, ver := ⟨2, 6, valueCheck [7]⟩, value := [7], base := some 5 }⟩
      ∧ replayed (e44.journalRecord .full) = ⟨0, 1, some { e44 with base := some 5 }⟩
      ∧ replayed { full44 with gen := 1 } = ⟨0, 1, some e44⟩
      ∧ replayed ⟨3, false, 44, 2, 6, 0, 0, []⟩ = ⟨0, 2, some { e44 with ver := ⟨2, 6, 0⟩, value := [], base := some 5 }⟩
      ∧ replayed tomb300 = ⟨0, 1, none⟩
      ∧ replayed { tomb300 with id := 44 } = ⟨0, 1, some e44⟩
      ∧ replayed { tomb300 with id := 46 } = ⟨0, 1, none⟩ := by decide +kernel

/-- SurveyAndWalkReadBands, TAILs: one that applies, one of another length and one of another scope, an orphan, one for a tombstone. -/
theorem test_replay_record_tail :
    replayed tail44 = ⟨0, 2, some { e44 with ver := ⟨2, 6, valueCheck [0x0A, 7]⟩, value := [0x0A, 7] }⟩
      ∧ replayed { tail44 with length := 3 } = ⟨1, 2, some e44⟩
      ∧ replayed { tail44 with loc := true } = ⟨1, 2, some e44⟩
      ∧ replayed { tail44 with id := 46 } = ⟨0, 2, none⟩
      ∧ replayed { tail44 with id := 45, length := 0 } = ⟨1, 2, some e45⟩ := by decide +kernel

/-- SurveyAndWalkReadBands, a record that would create a 513th entry. -/
theorem test_replay_record_no_room :
    ((holding .replay ((List.range 512).map fun i => entryOf (i + 1) .shared [1] none)).replayRecord 5
      ⟨1, false, 600, 2, 6, 1, 0, [7]⟩).jc.anomalies = 1 := by decide +kernel

/-! ### Versions and frames -/

/-- Hypotheses of FramesReadBackAsBuilt: frames of every kind that keep the law. -/
theorem test_frame_law_hypotheses :
    FrameLaw (update6 { id := 4094, gen := 0xFFFFFFFE, origin := 31, value := List.replicate 32 1 }) ∧ FrameLaw summary6
      ∧ FrameLaw request6 ∧ FrameLaw fetch6 ∧ FrameLaw leave6
      ∧ FrameLaw
          { flags := { FrameFlags.zero with reply := true, end_ := true, bucketLast := true }, src := 31, dst := 1, seq := 255
            payload := .listing 44 255 [{ id := 44, ver := e44.ver }, { id := 108, ver := e44.ver }] } := by
  unfold FrameLaw PayloadLaw update6 summary6 request6 fetch6 leave6
  decide +kernel

/-- Hypotheses of PrecedenceIsATotalOrder. -/
theorem test_version_hypotheses :
    (Version.mk 3 1 0).supersedes ⟨2, 1, 0⟩ = true ∧ (Version.mk 2 1 0).supersedes ⟨2, 2, 0⟩ = true
      ∧ Version.mk 3 1 0 ≠ ⟨2, 1, 0⟩ := by decide

end Sys2Proof.Machine.Tests
end

section
/-! The laws of the Parameter Table: what a step can do to the table, the outbound list and the frame in flight, said once, and
the three laws of chapter 1 that follow from it. -/

namespace Sys2Proof.Machine

/-! ### Members of a table after a change -/

/-- In ascending ids, the members after an insertion are the new entry and the others. -/
theorem mem_insertEntry_iff {es : List Entry} (hs : es.Pairwise fun a b => a.id < b.id) (e x : Entry) :
    x ∈ insertEntry es e ↔ x = e ∨ (x ∈ es ∧ x.id ≠ e.id) := by
  induction es with
  | nil => simp [insertEntry]
  | cons y es ih =>
    rw [List.pairwise_cons] at hs
    have hlt := hs.1 x
    have hy : x = y → x.id = y.id := fun h => by rw [h]
    simp only [insertEntry]
    split
    · simp only [List.mem_cons]
      grind
    · split <;> simp only [List.mem_cons, ih hs.2] <;> grind

/-- In ascending ids, an entry found by its id is the member of that id. -/
theorem findEntry_eq_some_iff {es : List Entry} (hs : es.Pairwise fun a b => a.id < b.id) {id : Nat} {e : Entry} :
    findEntry es id = some e ↔ e ∈ es ∧ e.id = id :=
  ⟨fun h => ⟨findEntry_mem h, findEntry_id h⟩, fun h => h.2 ▸ findEntry_of_mem hs h.1⟩

/-- A symmetric relation among the entries is kept by an entry that has it to all others. -/
theorem insertEntry_pairwise {R : Entry → Entry → Prop} (hR : ∀ a b, R a b → R b a) {es : List Entry}
    (hs : es.Pairwise fun a b => a.id < b.id) (h : es.Pairwise R) {e : Entry} (he : ∀ x ∈ es, x.id ≠ e.id → R e x) :
    (insertEntry es e).Pairwise R := by
  induction es with
  | nil => exact List.pairwise_singleton _ _
  | cons y es ih =>
    rw [List.pairwise_cons] at hs h
    simp only [insertEntry]
    split
    · refine List.pairwise_cons.mpr ⟨fun x hx => he x hx ?_, List.pairwise_cons.mpr h⟩
      rcases List.mem_cons.mp hx with rfl | hx
      · omega
      · have := hs.1 x hx
        omega
    · split
      · refine List.pairwise_cons.mpr ⟨fun x hx => he x (by simp [hx]) ?_, h.2⟩
        have := hs.1 x hx
        omega
      · refine List.pairwise_cons.mpr ⟨fun x hx => ?_, ih hs.2 h.2 fun x hx => he x (by simp [hx])⟩
        rcases mem_insertEntry hx with rfl | hx
        · exact hR _ _ (he y (by simp) (by omega))
        · exact h.1 x hx

/-- No two entries hold one slot. -/
theorem usedSlots_nodup_iff (es : List Entry) :
    (usedSlots es).Nodup ↔ es.Pairwise fun a b => ∀ k, a.slot = some k → b.slot ≠ some k := by
  unfold usedSlots List.Nodup
  rw [List.pairwise_filterMap]
  constructor <;> refine List.Pairwise.imp fun h => ?_
  · intro k ha hb
    exact h k ha k hb rfl
  · rintro k ha k' hb rfl
    exact h k ha hb

theorem mem_usedSlots {es : List Entry} {k : Nat} : k ∈ usedSlots es ↔ ∃ e ∈ es, e.slot = some k := by
  simp [usedSlots]

/-! ### What a step can do -/

/-- The new entry fits the table: its generation is covered by H, its fields are valid, there is room for it, and its slot is the
one its id held or a free one. -/
def Fits (t : ParamTable) (e : Entry) : Prop :=
  HighMarkLaw t → e.ver.gen ≤ t.h
    ∧ (TableLaw t → EntryLaw e ∧ (findEntry t.entries e.id = none → t.entries.length < Config.maxEntries)
      ∧ ∀ k, e.slot = some k → (findEntry t.entries e.id).bind Entry.slot = some k ∨ freeSlot t.entries = some k)

/-- The outbound list and the send mark of an entry put in go together: both as they were; the mark set and the id on the list
(R28), which no station does in REPLAY; or the mark cleared and the id off the list (R34). -/
def OutboundFollows (s : State) (e : Entry) (out : List Nat) : Prop :=
  (out = s.re.outbound ∧ e.mark = (s.entry e.id).elim .none Entry.mark)
  ∨ (s.sc.station ≠ .replay ∧ e.scope = .shared ∧ e.mark ≠ .none
      ∧ out = joinOutbound s.re.outbound ((s.entry e.id).elim .none Entry.mark) e.id)
  ∨ (e.mark = .none ∧ out = s.re.outbound.filter fun i => i ≠ e.id)

/-- A change of fields keeps what the table's laws speak of, the send mark apart. -/
def KeepsVersion (f : Entry → Entry) : Prop :=
  ∀ e, (f e).id = e.id ∧ (f e).scope = e.scope ∧ (f e).ver = e.ver ∧ (f e).value = e.value ∧ (f e).slot = e.slot

/-- After a change of fields the outbound list `out` agrees with the marks (R39), if it did before. -/
def MarksAgree (s : State) (f : Entry → Entry) (out : List Nat) : Prop :=
  s.pt.entries.Pairwise (fun a b => a.id < b.id) → OutboundLaw s →
    out.Nodup ∧ (∀ i ∈ out, ∃ e ∈ s.pt.entries, e.id = i ∧ e.scope = .shared)
      ∧ (∀ e ∈ s.pt.entries, (f e).mark ≠ .none ↔ e.id ∈ out) ∧ (s.jc.replay ≠ none → out = [])

/-- A frame that starts outside REPLAY has ids that are marked SHARED ones, each once, if the outbound list agrees with the marks (R41). -/
def SendsFrom (s : State) (packed : List Packed) : Prop :=
  s.sc.station ≠ .replay ∧ (s.pt.entries.Pairwise (fun a b => a.id < b.id) → OutboundLaw s →
    (packed.map Packed.id).Nodup ∧ ∀ p ∈ packed, p.mark ≠ .none ∧ ∃ e ∈ s.pt.entries, e.id = p.id ∧ e.scope = .shared)

/-- No UPDATE is in flight but one that was or one built from the outbound list, and a part that stays in replay stays in the
station state REPLAY and sends nothing. -/
structure LineKept (s t : State) : Prop where
  flight : ∀ f packed, t.li.flight = some f → f.cargo = .update packed →
    (∃ g, s.li.flight = some g ∧ g.cargo = .update packed) ∨ SendsFrom s packed
  replay : t.jc.replay ≠ none → s.jc.replay ≠ none
    ∧ (s.sc.station = .replay → t.sc.station = .replay ∧ (s.li.flight = none → t.li.flight = none))

/-- What steps do to the Parameter Table, the outbound list and the frame in flight. -/
inductive TableMove : State → State → Prop
  | quiet {s t : State} (line : LineKept s t) (pt : t.pt = s.pt) (out : t.re.outbound = s.re.outbound) : TableMove s t
  | trans {s t u : State} : TableMove s t → TableMove t u → TableMove s u
  | fields {s t : State} (f : Entry → Entry) (keeps : KeepsVersion f) (line : LineKept s t) (pt : t.pt = s.pt.mapEntries f)
      (marks : MarksAgree s f t.re.outbound) : TableMove s t
  | raise {s t : State} (g : Nat) (valid : HighMarkLaw s.pt → g ≤ Config.maxGeneration) (line : LineKept s t)
      (pt : t.pt = s.pt.raiseH g) (out : t.re.outbound = s.re.outbound) : TableMove s t
  | put {s t : State} (e : Entry) (fits : Fits s.pt e)
      (scope : (∀ old, s.entry e.id = some old → old.scope = e.scope) ∨ s.jc.replay ≠ none) (line : LineKept s t)
      (pt : t.pt = s.pt.put e) (out : OutboundFollows s e t.re.outbound) : TableMove s t
  | delete {s t : State} (id : Nat) (loc : ∀ e, s.entry id = some e → e.scope = .loc) (line : LineKept s t)
      (pt : t.pt = s.pt.delete id) (out : t.re.outbound = s.re.outbound) : TableMove s t
  | reset {s t : State} (pt : t.pt = .reset) (out : t.re.outbound = []) (flight : t.li.flight = none)
      (station : t.sc.station = .replay) : TableMove s t

/-! ### The laws follow (R3, R4, R8, R9, R11, R17 to R19, R39) -/

theorem TableMove.digestLaw {s t : State} (h : TableMove s t) (hd : DigestLaw s.pt) : DigestLaw t.pt := by
  induction h with
  | quiet _ pt _ => exact pt ▸ hd
  | trans _ _ ih1 ih2 => exact ih2 (ih1 hd)
  | fields f keeps _ pt _ =>
    rw [pt]
    exact hd.mapEntries fun e => let ⟨h1, h2, h3, _, h5⟩ := keeps e; ⟨h1, h2, h3, h5⟩
  | raise g _ _ pt _ => exact pt ▸ hd
  | put e _ _ _ pt _ => exact pt ▸ hd.put e
  | delete id _ _ pt _ => exact pt ▸ hd.delete id
  | reset pt _ _ _ =>
    rw [pt]
    refine ⟨?_, rfl, rfl, rfl⟩
    show List.replicate Config.buckets 0 = (List.range Config.buckets).map fun _ => 0
    rw [List.map_const', List.length_range]

theorem TableMove.highMarkLaw {s t : State} (h : TableMove s t) (hh : HighMarkLaw s.pt) : HighMarkLaw t.pt := by
  induction h with
  | quiet _ pt _ => exact pt ▸ hh
  | trans _ _ ih1 ih2 => exact ih2 (ih1 hh)
  | @fields s t f keeps _ pt _ =>
    rw [pt]
    refine ⟨hh.1, fun e he => ?_⟩
    obtain ⟨x, hx, rfl⟩ := List.mem_map.mp he
    obtain ⟨_, _, hv, _, _⟩ := keeps x
    exact hv ▸ hh.2 x hx
  | raise g valid _ pt _ =>
    rw [pt]
    exact ⟨Nat.max_le.mpr ⟨hh.1, valid hh⟩, fun e he => (hh.2 e he).trans (Nat.le_max_left _ _)⟩
  | put e fits _ _ pt _ =>
    rw [pt]
    refine ⟨hh.1, fun x hx => ?_⟩
    rcases mem_insertEntry hx with rfl | hx
    · exact (fits hh).1
    · exact hh.2 x hx
  | delete id _ _ pt _ =>
    rw [pt]
    exact ⟨hh.1, fun x hx => hh.2 x (List.mem_filter.mp hx).1⟩
  | reset pt _ _ _ =>
    rw [pt]
    exact ⟨Nat.zero_le _, by simp [ParamTable.reset]⟩

/-- A change of fields outside the version and the value keeps the law of the table. -/
theorem TableLaw.mapEntries {t : ParamTable} (h : TableLaw t) {f : Entry → Entry} (hf : KeepsVersion f) :
    TableLaw (t.mapEntries f) := by
  obtain ⟨hs, hl, he, hn, hk⟩ := h
  have hslots : usedSlots (t.entries.map f) = usedSlots t.entries := by
    unfold usedSlots
    rw [List.filterMap_map]
    exact congrArg (List.filterMap · t.entries) (funext fun e => (hf e).2.2.2.2)
  refine ⟨mapEntries_sorted hs fun e => (hf e).1, by simpa [ParamTable.mapEntries] using hl, fun e hm => ?_, ?_, ?_⟩
  · obtain ⟨x, hx, rfl⟩ := List.mem_map.mp hm
    obtain ⟨h1, h2, h3, h4, h5⟩ := hf x
    unfold EntryLaw
    rw [h1, h2, h3, h4, h5]
    exact he x hx
  · exact hslots ▸ hn
  · exact hslots ▸ hk

/-- An entry that fits keeps the law of the table (R3, R9). -/
theorem TableLaw.put {t : ParamTable} (h : TableLaw t) (hh : HighMarkLaw t) {e : Entry} (hf : Fits t e) : TableLaw (t.put e) := by
  obtain ⟨he, hroom, hslot⟩ := (hf hh).2 h
  obtain ⟨hs, hl, hes, hn, hk⟩ := h
  refine ⟨insertEntry_sorted hs e, ?_, fun x hx => ?_, ?_, ?_⟩
  · show (insertEntry t.entries e).length ≤ _
    rw [insertEntry_length hs]
    split
    · have := hroom ‹_›
      omega
    · exact hl
  · rcases mem_insertEntry hx with rfl | hx
    · exact he
    · exact hes x hx
  · rw [usedSlots_nodup_iff] at hn ⊢
    refine insertEntry_pairwise (fun a b hab k hb ha => hab k ha hb) hs hn fun x hx hne k hek hxk => ?_
    rcases hslot k hek with hold | hfree
    · obtain ⟨old, ho, hok⟩ := Option.bind_eq_some_iff.mp hold
      have hne' : old ≠ x := fun h => hne (h ▸ findEntry_id ho)
      have : Std.Symm fun a b : Entry => ∀ k, a.slot = some k → b.slot ≠ some k := ⟨fun a b hab k hb ha => hab k ha hb⟩
      exact hn.forall (findEntry_mem ho) hx hne' k hok hxk
    · exact (freeSlot_spec hfree).2 (mem_usedSlots.mpr ⟨x, hx, hxk⟩)
  · intro k hmem
    obtain ⟨x, hx, hxk⟩ := mem_usedSlots.mp hmem
    rcases mem_insertEntry hx with rfl | hx
    · rcases hslot k hxk with hold | hfree
      · obtain ⟨old, ho, hok⟩ := Option.bind_eq_some_iff.mp hold
        exact hk k (mem_usedSlots.mpr ⟨old, findEntry_mem ho, hok⟩)
      · exact (freeSlot_spec hfree).1
    · exact hk k (mem_usedSlots.mpr ⟨x, hx, hxk⟩)

/-- An entry taken out keeps the law of the table. -/
theorem TableLaw.delete {t : ParamTable} (h : TableLaw t) (id : Nat) : TableLaw (t.delete id) := by
  obtain ⟨hs, hl, he, hn, hk⟩ := h
  have hsub : (removeEntry t.entries id).Sublist t.entries := List.filter_sublist
  refine ⟨removeEntry_sorted hs id, hsub.length_le.trans hl, fun e hm => he e (hsub.subset hm), ?_, fun k hm => hk k ?_⟩
  · exact hn.sublist (hsub.filterMap _)
  · exact (hsub.filterMap _).subset hm

theorem TableMove.tableLaw {s t : State} (h : TableMove s t) (hh : HighMarkLaw s.pt) (ht : TableLaw s.pt) : TableLaw t.pt := by
  induction h with
  | quiet _ pt _ => exact pt ▸ ht
  | trans h1 _ ih1 ih2 => exact ih2 (h1.highMarkLaw hh) (ih1 hh ht)
  | fields f keeps _ pt _ => exact pt ▸ ht.mapEntries keeps
  | raise g _ _ pt _ => exact pt ▸ ht
  | put e fits _ _ pt _ => exact pt ▸ ht.put hh fits
  | delete id _ _ pt _ => exact pt ▸ ht.delete id
  | reset pt _ _ _ =>
    rw [pt]
    exact ⟨List.Pairwise.nil, Nat.zero_le _, by simp [ParamTable.reset], List.nodup_nil, by simp [ParamTable.reset, usedSlots]⟩

/-- The outbound law after a change, from what the change leaves of the list, the marks and the SHARED entries. -/
theorem OutboundLaw.of_line {s t : State} (hs : s.pt.entries.Pairwise fun a b => a.id < b.id) (h : OutboundLaw s)
    (line : LineKept s t) (hnodup : t.re.outbound.Nodup)
    (hshared : ∀ i ∈ t.re.outbound, ∃ e ∈ t.pt.entries, e.id = i ∧ e.scope = .shared)
    (hmarks : ∀ e ∈ t.pt.entries, e.mark ≠ .none ↔ e.id ∈ t.re.outbound)
    (hscope : s.jc.replay = none → ∀ e ∈ s.pt.entries, e.scope = .shared → ∃ x ∈ t.pt.entries, x.id = e.id ∧ x.scope = .shared)
    (hout : s.jc.replay ≠ none → t.re.outbound = []) : OutboundLaw t := by
  have hlaw := h
  obtain ⟨-, -, -, hflight, hreplay⟩ := h
  have hstopped : s.jc.replay ≠ none → s.sc.station = .replay ∧ s.li.flight = none := fun hr =>
    let ⟨r, hr⟩ := Option.ne_none_iff_exists'.mp hr
    ⟨(hreplay r hr).1, (hreplay r hr).2.2⟩
  have hkept : s.jc.replay = none → ∀ p : Packed, (∃ e ∈ s.pt.entries, e.id = p.id ∧ e.scope = .shared) →
      ∃ e ∈ t.pt.entries, e.id = p.id ∧ e.scope = .shared := by
    rintro hr p ⟨e, he, hid, hsh⟩
    obtain ⟨x, hx, hxid, hxs⟩ := hscope hr e he hsh
    exact ⟨x, hx, hxid.trans hid, hxs⟩
  refine ⟨hnodup, hshared, hmarks, fun f packed hf hc => ?_, fun r hr => ?_⟩
  · rcases line.flight f packed hf hc with ⟨g, hg, hgc⟩ | ⟨hst, hsends⟩
    · have hr : s.jc.replay = none := by
        by_contra hr
        rw [(hstopped hr).2] at hg
        cases hg
      obtain ⟨hn, hp⟩ := hflight g packed hg hgc
      exact ⟨hn, fun p hm => ⟨(hp p hm).1, hkept hr p (hp p hm).2⟩⟩
    · have hr : s.jc.replay = none := by
        by_contra hr
        exact hst (hstopped hr).1
      obtain ⟨hn, hp⟩ := hsends hs hlaw
      exact ⟨hn, fun p hm => ⟨(hp p hm).1, hkept hr p (hp p hm).2⟩⟩
  · obtain ⟨hsr, hline⟩ := line.replay (by rw [hr]; exact Option.some_ne_none r)
    obtain ⟨hst, hfl⟩ := hstopped hsr
    exact ⟨(hline hst).1, hout hsr, (hline hst).2 hfl⟩

/-- An entry put in with the outbound list that follows keeps the outbound law (R28, R34, R39). -/
theorem OutboundLaw.put {s t : State} (hs : s.pt.entries.Pairwise fun a b => a.id < b.id) (h : OutboundLaw s) {e : Entry}
    (scope : (∀ old, s.entry e.id = some old → old.scope = e.scope) ∨ s.jc.replay ≠ none) (line : LineKept s t)
    (pt : t.pt = s.pt.put e) (out : OutboundFollows s e t.re.outbound) : OutboundLaw t := by
  have hlaw := h
  obtain ⟨hn, hsh, hm, -, hreplay⟩ := h
  have hmem : ∀ x, x ∈ t.pt.entries ↔ x = e ∨ (x ∈ s.pt.entries ∧ x.id ≠ e.id) := fun x => by
    rw [pt]
    exact mem_insertEntry_iff hs e x
  have hempty : s.jc.replay ≠ none → s.re.outbound = [] := fun hr =>
    let ⟨r, hr⟩ := Option.ne_none_iff_exists'.mp hr
    (hreplay r hr).2.1
  have hold : e.id ∈ s.re.outbound ↔ (s.entry e.id).elim .none Entry.mark ≠ .none := by
    cases he : s.entry e.id with
    | none =>
      have hno := findEntry_none.mp he
      simp only [Option.elim_none, ne_eq, not_true_eq_false, iff_false]
      intro hi
      obtain ⟨x, hx, hid, _⟩ := hsh _ hi
      exact hno x hx hid
    | some old => simpa [findEntry_id he] using (hm old (findEntry_mem he)).symm
  have hscope : e.id ∈ s.re.outbound → e.scope = .shared := by
    intro hi
    rcases scope with hsc | hr
    · obtain ⟨x, hx, hid, hxs⟩ := hsh _ hi
      exact (hsc x ((findEntry_eq_some_iff hs).mpr ⟨hx, hid⟩)) ▸ hxs
    · rw [hempty hr] at hi
      cases hi
  -- What the three ways of following have in common.
  obtain ⟨hnodup, hothers, hself, hsend, hout⟩ : t.re.outbound.Nodup
      ∧ (∀ i, i ≠ e.id → (i ∈ t.re.outbound ↔ i ∈ s.re.outbound)) ∧ (e.id ∈ t.re.outbound ↔ e.mark ≠ .none)
      ∧ (e.id ∈ t.re.outbound → e.scope = .shared) ∧ (s.jc.replay ≠ none → t.re.outbound = []) := by
    rcases out with ⟨ho, hmk⟩ | ⟨hst, hes, hmk, ho⟩ | ⟨hmk, ho⟩
    · rw [ho, hmk]
      exact ⟨hn, fun _ _ => Iff.rfl, hold, hscope, hempty⟩
    · have hr : ¬ s.jc.replay ≠ none := fun hr =>
        let ⟨r, hr⟩ := Option.ne_none_iff_exists'.mp hr
        hst (hreplay r hr).1
      rw [ho]
      unfold joinOutbound
      by_cases hmo : (s.entry e.id).elim .none Entry.mark = .none
      · have hni : e.id ∉ s.re.outbound := fun hi => hold.mp hi hmo
        rw [if_pos hmo]
        refine ⟨?_, fun i hi => by simp [hi], by simp [hmk], fun _ => hes, fun h => absurd h hr⟩
        exact List.nodup_append.mpr ⟨hn, List.nodup_singleton _, fun a ha b hb => by
          rw [List.mem_singleton.mp hb]
          rintro rfl
          exact hni ha⟩
      · rw [if_neg hmo]
        exact ⟨hn, fun _ _ => Iff.rfl, by simp [hold, hmo, hmk], fun _ => hes, fun h => absurd h hr⟩
    · rw [ho]
      exact ⟨hn.filter _, fun i hi => by simp [hi], by simp [hmk], by simp, fun hr => by rw [hempty hr]; rfl⟩
  refine hlaw.of_line hs line hnodup (fun i hi => ?_) (fun x hx => ?_) (fun hr x hx hxs => ?_) hout
  · by_cases hie : i = e.id
    · exact ⟨e, (hmem e).mpr (.inl rfl), hie.symm, hsend (hie ▸ hi)⟩
    · obtain ⟨x, hx, hid, hxs⟩ := hsh i ((hothers i hie).mp hi)
      exact ⟨x, (hmem x).mpr (.inr ⟨hx, hid ▸ hie⟩), hid, hxs⟩
  · rcases (hmem x).mp hx with rfl | ⟨hx, hne⟩
    · exact hself.symm
    · rw [hothers _ hne]
      exact hm x hx
  · by_cases hxe : x.id = e.id
    · rcases scope with hsc | hr'
      · exact ⟨e, (hmem e).mpr (.inl rfl), hxe.symm, hsc x ((findEntry_eq_some_iff hs).mpr ⟨hx, hxe⟩) ▸ hxs⟩
      · exact absurd hr hr'
    · exact ⟨x, (hmem x).mpr (.inr ⟨hx, hxe⟩), rfl, hxs⟩

/-- A change that leaves the entries and the list keeps the outbound law. -/
theorem OutboundLaw.of_same {s t : State} (hs : s.pt.entries.Pairwise fun a b => a.id < b.id) (h : OutboundLaw s)
    (line : LineKept s t) (pt : t.pt.entries = s.pt.entries) (out : t.re.outbound = s.re.outbound) : OutboundLaw t := by
  have hlaw := h
  obtain ⟨hn, hsh, hm, -, hreplay⟩ := h
  refine hlaw.of_line hs line (out ▸ hn) ?_ ?_ ?_ fun hr => ?_
  · rwa [out, pt]
  · rwa [out, pt]
  · exact fun _ e he hs => ⟨e, pt ▸ he, rfl, hs⟩
  · obtain ⟨r, hr⟩ := Option.ne_none_iff_exists'.mp hr
    exact out.trans (hreplay r hr).2.1

theorem TableMove.outboundLaw {s t : State} (h : TableMove s t) (hh : HighMarkLaw s.pt) (ht : TableLaw s.pt)
    (ho : OutboundLaw s) : OutboundLaw t := by
  induction h with
  | trans h1 _ ih1 ih2 => exact ih2 (h1.highMarkLaw hh) (h1.tableLaw hh ht) (ih1 hh ht ho)
  | quiet line pt out => exact ho.of_same ht.1 line (congrArg _ pt) out
  | @fields s t f keeps line pt marks =>
    obtain ⟨hn, hsh, hm, hout⟩ := marks ht.1 ho
    have hmem : ∀ e ∈ s.pt.entries, f e ∈ t.pt.entries := fun e he => pt ▸ List.mem_map_of_mem he
    refine ho.of_line ht.1 line hn (fun i hi => ?_) (fun x hx => ?_) (fun _ e he hs => ?_) hout
    · obtain ⟨e, he, hid, hs⟩ := hsh i hi
      exact ⟨f e, hmem e he, (keeps e).1.trans hid, (keeps e).2.1.trans hs⟩
    · rw [pt] at hx
      obtain ⟨e, he, rfl⟩ := List.mem_map.mp hx
      rw [(keeps e).1]
      exact hm e he
    · exact ⟨f e, hmem e he, (keeps e).1, (keeps e).2.1.trans hs⟩
  | raise g _ line pt out => exact ho.of_same ht.1 line (by rw [pt]; rfl) out
  | put e _ scope line pt out => exact ho.put ht.1 scope line pt out
  | @delete s t id loc line pt out =>
    have hmem : ∀ x, x ∈ t.pt.entries ↔ x ∈ s.pt.entries ∧ x.id ≠ id := fun x => by
      rw [pt]
      exact List.mem_filter.trans (and_congr_right fun _ => by simp)
    have hstay : ∀ e ∈ s.pt.entries, e.scope = .shared → e ∈ t.pt.entries := fun e he hs => by
      refine (hmem e).mpr ⟨he, fun hid => ?_⟩
      have := loc e ((findEntry_eq_some_iff ht.1).mpr ⟨he, hid⟩)
      rw [hs] at this
      cases this
    have hlaw := ho
    obtain ⟨hn, hsh, hm, -, hreplay⟩ := ho
    refine hlaw.of_line ht.1 line (out ▸ hn) (fun i hi => ?_) (fun x hx => ?_) (fun _ e he hs => ?_) fun hr => ?_
    · obtain ⟨e, he, hid, hs⟩ := hsh i (out ▸ hi)
      exact ⟨e, hstay e he hs, hid, hs⟩
    · rw [out]
      exact hm x ((hmem x).mp hx).1
    · exact ⟨e, hstay e he hs, rfl, hs⟩
    · obtain ⟨r, hr⟩ := Option.ne_none_iff_exists'.mp hr
      exact out.trans (hreplay r hr).2.1
  | reset pt out flight station =>
    unfold OutboundLaw
    rw [pt, out, flight]
    exact ⟨List.nodup_nil, by simp, by simp [ParamTable.reset], by simp, fun r _ => ⟨station, rfl, rfl⟩⟩

end Sys2Proof.Machine
end

section
/-! What each shared operation does to the table, the outbound list and the frame in flight, once each. -/

namespace Sys2Proof.Machine

/-! ### Operations that touch none of them -/

/-- The frame in flight is the one it was, as far as an UPDATE goes, or none. -/
def FlightKept (s t : State) : Prop :=
  (∀ f packed, t.li.flight = some f → f.cargo = .update packed → ∃ g, s.li.flight = some g ∧ g.cargo = .update packed)
    ∧ (s.li.flight = none → t.li.flight = none)

theorem FlightKept.of_eq {s t : State} (h : t.li.flight = s.li.flight) : FlightKept s t :=
  ⟨fun f _ hf hc => ⟨f, h ▸ hf, hc⟩, fun hn => h.trans hn⟩

theorem FlightKept.of_none {s t : State} (h : t.li.flight = none) : FlightKept s t :=
  ⟨fun f _ hf _ => by simp [h] at hf, fun _ => h⟩

theorem FlightKept.of_map {s t : State} {g : Flight → Flight} (hg : ∀ f packed, (g f).cargo = .update packed → f.cargo = .update packed)
    (h : t.li.flight = s.li.flight.map g) : FlightKept s t := by
  refine ⟨fun f packed hf hc => ?_, fun hn => by rw [h, hn]; rfl⟩
  obtain ⟨x, hx, rfl⟩ := Option.map_eq_some_iff.mp (h ▸ hf)
  exact ⟨x, hx, hg x packed hc⟩

theorem LineKept.of_flight {s t : State} (hf : FlightKept s t)
    (hr : t.jc.replay ≠ none → s.jc.replay ≠ none ∧ (s.sc.station = .replay → t.sc.station = .replay)) : LineKept s t :=
  ⟨fun f packed h hc => .inl (hf.1 f packed h hc), fun h => ⟨(hr h).1, fun hs => ⟨(hr h).2 hs, hf.2⟩⟩⟩

theorem LineKept.of_eq {s t : State} (hf : t.li.flight = s.li.flight) (hr : t.jc.replay = s.jc.replay)
    (hs : t.sc.station = s.sc.station) : LineKept s t :=
  .of_flight (.of_eq hf) fun h => ⟨hr ▸ h, fun h => hs.trans h⟩

/-- An operation that leaves the table, the outbound list, the frame in flight, replay and the station state. -/
theorem TableMove.still {s t : State} (pt : t.pt = s.pt) (out : t.re.outbound = s.re.outbound)
    (hf : t.li.flight = s.li.flight) (hr : t.jc.replay = s.jc.replay) (hs : t.sc.station = s.sc.station) : TableMove s t :=
  .quiet (.of_eq hf hr hs) pt out

theorem TableMove.refl (s : State) : TableMove s s := .still rfl rfl rfl rfl rfl

theorem TableMove.of_eq {s t u : State} (h : TableMove s t) (e : u = t) : TableMove s u := e ▸ h

/-- An operation that leaves the table and the outbound list, with the station outside REPLAY. -/
theorem TableMove.outside {s t : State} (hst : s.sc.station ≠ .replay) (hf : FlightKept s t) (pt : t.pt = s.pt)
    (out : t.re.outbound = s.re.outbound) (hr : t.jc.replay = s.jc.replay) : TableMove s t :=
  .quiet (.of_flight hf fun h => ⟨hr ▸ h, fun h => absurd h hst⟩) pt out

/-- A change of fields that keeps versions and marks. -/
theorem TableMove.fieldsOnly {s t : State} (f : Entry → Entry) (keeps : KeepsVersion f) (hm : ∀ e, (f e).mark = e.mark)
    (line : LineKept s t) (pt : t.pt = s.pt.mapEntries f) (out : t.re.outbound = s.re.outbound) : TableMove s t := by
  refine .fields f keeps line pt fun _ ho => ?_
  obtain ⟨hn, hsh, hmk, -, hreplay⟩ := ho
  rw [out]
  refine ⟨hn, hsh, fun e he => (hm e).symm ▸ hmk e he, fun hr => ?_⟩
  obtain ⟨r, hr⟩ := Option.ne_none_iff_exists'.mp hr
  exact (hreplay r hr).2.1

theorem LineIf.pass_flight (li : LineIf) (n : Nat) :
    (li.pass n).flight = li.flight ∨ ∃ k, (li.pass n).flight = li.flight.map fun f => { f with elapsed := f.elapsed + k } := by
  unfold LineIf.pass
  split
  · exact .inl rfl
  · split
    · next h => exact .inr ⟨n, by rw [h]; rfl⟩
    · exact .inl rfl
  · exact .inl (li.counts_fields n).2.2.2
  all_goals exact .inl (li.counts_fields n).2.2.2

/-- The frame in flight over line time: the same cargo. -/
theorem State.passLine_flight (s : State) (n : Nat) :
    ∃ k, (s.passLine n).li.flight = s.li.flight.map fun f => { f with elapsed := f.elapsed + k } := by
  have hid : s.li.flight = s.li.flight.map fun f => { f with elapsed := f.elapsed + 0 } := by simp
  unfold State.passLine
  split
  · rcases s.li.pass_flight n with h | h
    · exact ⟨0, h.trans hid⟩
    · exact h
  · exact ⟨0, hid⟩

theorem State.passLine_station (s : State) (n : Nat) : (s.passLine n).sc.station = s.sc.station := by
  rw [s.passLine_sc n]

theorem State.passLine_moves (s : State) (n : Nat) : TableMove s (s.passLine n) := by
  obtain ⟨_, _, hpt, hjc, _, _, _⟩ := s.passLine_frame n
  obtain ⟨k, hf⟩ := s.passLine_flight n
  refine .quiet (.of_flight (.of_map (g := fun f => { f with elapsed := f.elapsed + k }) (fun _ _ h => h) hf) fun h => ⟨hjc ▸ h, fun h => ?_⟩) hpt (by rw [s.passLine_re n])
  rw [s.passLine_station, h]

theorem State.passUntil_moves (s : State) (t l : Nat) : TableMove s (s.passUntil t l) := by
  rcases s.passUntil_eq t l with h | ⟨n, h⟩
  · exact (TableMove.refl s).of_eq h
  · exact (s.passLine_moves n).of_eq h

theorem State.passUntil_station (s : State) (t l : Nat) : (s.passUntil t l).sc.station = s.sc.station := by
  rcases s.passUntil_eq t l with h | ⟨n, h⟩
  · rw [h]
  · rw [h, s.passLine_station]

theorem State.notify_moves (s : State) (k : EventKind) (p : Nat) : TableMove s (s.notify k p) := .still rfl rfl rfl rfl rfl

theorem State.count_moves (s : State) (f : Counters → Counters) : TableMove s (s.count f) := .still rfl rfl rfl rfl rfl

theorem State.mapPort_moves (s : State) (f : StoragePort → StoragePort) : TableMove s (s.mapPort f) := .still rfl rfl rfl rfl rfl

theorem State.mapJournal_moves {s : State} {f : Journal → Journal} (h : (f s.jc).replay = s.jc.replay) :
    TableMove s (s.mapJournal f) := .still rfl rfl rfl h rfl

theorem State.completeLong_moves (s : State) (code : Byte) (r : Result) : TableMove s (s.completeLong code r) := by
  obtain ⟨_, _, h⟩ := s.completeLong_slot code r
  rw [h]
  exact .still rfl rfl rfl rfl rfl

/-! ### The judgement of convergence and sessions -/

/-- A judgement leaves a station in REPLAY there. -/
theorem State.judge_station_replay {s : State} (h : s.sc.station = .replay) : s.judge.sc.station = .replay := by
  obtain ⟨conv, joined, _, _, hj⟩ := s.judge_judged
  rw [hj]
  simp [h]

theorem State.judge_moves (s : State) : TableMove s s.judge := by
  have h := s.judge_frame
  refine .quiet (.of_flight (.of_eq ?_) fun hr => ⟨?_, State.judge_station_replay⟩) ?_ ?_
  · rw [h]
  · rwa [h] at hr
  · rw [h]
  · rw [h]

theorem State.endJoinWindow_moves (s : State) : TableMove s s.endJoinWindow := by
  have h := s.endJoinWindow_frame
  refine .quiet (.of_flight (.of_eq ?_) fun hr => ⟨?_, fun hs => ?_⟩) ?_ ?_
  · rw [h]
  · rwa [h] at hr
  · simp [State.endJoinWindow, hs]
  · rw [h]
  · rw [h]

theorem State.updatePeer_moves (s : State) (n : Nat) (f : Peer → Peer) : TableMove s (s.updatePeer n f) := by
  unfold State.updatePeer
  split <;> exact .still rfl rfl rfl rfl rfl

theorem State.setSession_moves (s : State) (se : Session) : TableMove s (s.setSession se) := .still rfl rfl rfl rfl rfl

theorem State.searchSession_moves (s : State) : TableMove s s.searchSession := by
  rw [s.searchSession_frame]
  exact .still rfl rfl rfl rfl rfl

/-- A frame left to run on carries the same UPDATE. -/
theorem Flight.left_update (a b : Bool) (f : Flight) (packed : List Packed) (h : (f.left a b).cargo = .update packed) :
    f.cargo = .update packed := by
  cases hc : f.cargo <;> simp_all [Flight.left]

theorem State.closeSession_moves (s : State) : TableMove s s.closeSession := by
  rw [s.closeSession_eq]
  exact .quiet (.of_flight (.of_map (Flight.left_update true false) rfl) fun h => ⟨h, id⟩) rfl rfl

theorem State.dropRequest_moves (s : State) (n : Nat) : TableMove s (s.dropRequest n) := by
  rw [s.dropRequest_eq n]
  exact .quiet (.of_flight (.of_map (Flight.left_update false _) rfl) fun h => ⟨h, id⟩) rfl rfl

theorem State.emptyReplies_moves (s : State) : TableMove s s.emptyReplies := by
  refine .quiet (.of_flight (.of_map (g := Flight.orphan) (fun f packed h => ?_) rfl) fun h => ⟨h, id⟩) rfl rfl
  rw [f.orphan_left] at h
  exact f.left_update _ _ _ h

theorem State.setReplies_moves (s : State) (q : List Request) : TableMove s (s.setReplies q) := .still rfl rfl rfl rfl rfl

theorem State.placeRequest_moves (s : State) (r : Request) : TableMove s (s.placeRequest r) := by
  unfold State.placeRequest
  split
  · split
    · exact (s.dropRequest_moves _).trans (State.setReplies_moves _ _)
    · exact s.setReplies_moves _
  · split
    · exact s.count_moves _
    · exact s.setReplies_moves _

theorem State.giveBack_moves (s : State) : TableMove s s.giveBack := s.updatePeer_moves _ _

theorem State.abandonSession_moves (s : State) : TableMove s s.abandonSession := by
  unfold State.abandonSession
  split
  · exact .refl s
  · exact s.giveBack_moves.trans (State.closeSession_moves _)

theorem State.sessionSuccess_moves (s : State) : TableMove s s.sessionSuccess :=
  (s.updatePeer_moves _ _).trans ((State.closeSession_moves _).trans (State.searchSession_moves _))

theorem State.sessionTimeout_moves (s : State) : TableMove s s.sessionTimeout := by
  unfold State.sessionTimeout
  dsimp only
  split
  · split <;> exact s.setSession_moves _
  · exact s.giveBack_moves.trans ((State.updatePeer_moves _ _ _).trans
      ((State.closeSession_moves _).trans (State.searchSession_moves _)))

/-! ### Station states and line health -/

/-- What the abandoning of a session leaves of the station state. -/
theorem State.abandonSession_station (s : State) : s.abandonSession.sc.station = s.sc.station := by
  unfold State.abandonSession
  split
  · rfl
  · rw [State.closeSession_eq]
    exact congrArg StationCtl.station (s.updatePeer_frame _ _).2.2.2.2.1

theorem State.enterHeld_moves {s : State} (h : s.sc.station ≠ .replay) : TableMove s s.enterHeld :=
  .outside h (.of_eq rfl) rfl rfl rfl

theorem State.endClosing_moves {s : State} (h : s.sc.station ≠ .replay) (r : Result) : TableMove s (s.endClosing r) :=
  (State.enterHeld_moves h).trans (State.completeLong_moves _ _ _)

theorem State.enterMuted_moves {s : State} (h : s.sc.station ≠ .replay) (c : Cause) : TableMove s (s.enterMuted c) := by
  have hst : s.abandonSession.emptyReplies.sc.station ≠ .replay := by
    show s.abandonSession.sc.station ≠ .replay
    rwa [s.abandonSession_station]
  exact s.abandonSession_moves.trans ((State.emptyReplies_moves _).trans (.outside hst (.of_eq rfl) rfl rfl rfl))

theorem State.furtherCause_moves (s : State) (c : Cause) : TableMove s (s.furtherCause c) := by
  unfold State.furtherCause
  split <;> exact .still rfl rfl rfl rfl rfl

theorem State.takeCause_moves (s : State) (c : Cause) : TableMove s (s.takeCause c) := by
  cases hst : s.sc.station <;> simp only [State.takeCause, hst]
  case replay => exact .refl s
  case held => exact .refl s
  case joining => exact (State.enterMuted_moves (by simp [hst]) c).trans (State.judge_moves _)
  case active => exact (State.enterMuted_moves (by simp [hst]) c).trans (State.judge_moves _)
  case muted => exact s.furtherCause_moves c
  case closing => exact (State.endClosing_moves (by simp [hst]) _).trans (State.judge_moves _)

/-! ### Frames that start (R41, R72, R73) -/

/-- No demand is served in REPLAY (Table 4.1.1). -/
theorem State.nextDemand_outside {s : State} {x : GapClass × Demand} (h : s.nextDemand = some x) : s.sc.station ≠ .replay := by
  intro hr
  have hno : ∀ d, s.wants d = false := fun d => by cases d <;> simp [State.wants, State.servesDemand, Station.onLine, hr]
  simp [State.nextDemand, hno] at h

/-- The launch of a frame that is no UPDATE. -/
theorem State.launch_moves {s : State} (h : s.sc.station ≠ .replay) (f : Frame) (cls : GapClass) (probe : Bool) {cargo : Cargo}
    (hc : ∀ packed, cargo ≠ .update packed) : TableMove s (s.launch f cls probe cargo) := by
  refine .quiet ⟨fun g packed hg hgc => ?_, fun hr => ⟨hr, fun h' => absurd h' h⟩⟩ rfl rfl
  obtain rfl := Option.some.inj hg
  exact absurd hgc (hc packed)

/-- The ids packed from an outbound list that agrees with the marks: SHARED ones with the mark, each once (R41, R42). -/
theorem packOutbound_sends {s : State} {m : Mark} (hm : m ≠ .none) (hst : s.sc.station ≠ .replay) :
    SendsFrom s ((packOutbound s.pt.entries m s.re.outbound 0 0).map fun e => { id := e.id, mark := e.mark, ver := e.ver }) := by
  refine ⟨hst, fun hs ho => ?_⟩
  obtain ⟨hn, hsh, -, -, -⟩ := ho
  obtain ⟨left, hpack, -, -, -⟩ := packOutbound_spec s.pt.entries m s.re.outbound 0 0 (by omega) (by omega)
  generalize packOutbound s.pt.entries m s.re.outbound 0 0 = es at hpack
  have hbear : ∀ {i e}, ((findEntry s.pt.entries i).filter fun e => e.mark = m) = some e →
      findEntry s.pt.entries i = some e ∧ e.mark = m := fun h => by
    simpa using Option.filter_eq_some_iff.mp h
  have hids : (es.map Entry.id).Nodup := by
    have hall : (List.map Entry.id (es ++ left)).Sublist s.re.outbound := by
      rw [hpack, List.map_filterMap]
      generalize s.re.outbound = l
      induction l with
      | nil => exact List.Sublist.slnil
      | cons i l ih =>
        cases he : (findEntry s.pt.entries i).filter fun e => e.mark = m with
        | none => simpa [he] using ih.cons i
        | some e => simpa [he, findEntry_id (hbear he).1] using ih.cons_cons i
    exact (hn.sublist hall).sublist ((List.sublist_append_left es left).map _)
  refine ⟨by simpa [Function.comp_def] using hids, fun p hp => ?_⟩
  obtain ⟨e, he, rfl⟩ := List.mem_map.mp hp
  have hmem : e ∈ es ++ left := List.mem_append_left _ he
  rw [hpack] at hmem
  obtain ⟨i, hi, hie⟩ := List.mem_filterMap.mp hmem
  obtain ⟨hf, hem⟩ := hbear hie
  obtain ⟨x, hx, hxid, hxs⟩ := hsh i hi
  have : x = e := Option.some.inj (((findEntry_eq_some_iff hs).mpr ⟨hx, hxid⟩).symm.trans hf)
  exact ⟨hem ▸ hm, e, findEntry_mem hf, rfl, this ▸ hxs⟩

/-- The ids of an UPDATE that starts leave the list, and their marks become NONE (R41). -/
theorem State.launchUpdate_moves {s : State} (hst : s.sc.station ≠ .replay) (cls : GapClass) {m : Mark} (hm : m ≠ .none) :
    TableMove s (s.launchUpdate cls m) := by
  have hsend := packOutbound_sends hm hst
  unfold State.launchUpdate
  generalize packOutbound s.pt.entries m s.re.outbound 0 0 = es at hsend
  refine TableMove.trans (t := s.useSequence.launch (s.ownFrame .zero 0 (.update (es.map Entry.record))) cls false
    (.update (es.map fun e => { id := e.id, mark := e.mark, ver := e.ver }))) ?_ (.trans ?_ (State.judge_moves _))
  · refine .quiet ⟨fun f packed hf hc => .inr ?_, fun hr => ⟨hr, fun h => absurd h hst⟩⟩ rfl rfl
    obtain rfl := Option.some.inj hf
    cases hc
    exact hsend
  · refine .fields (fun e => if (es.map Entry.id).contains e.id then { e with mark := .none } else e)
      (fun e => by dsimp only; split <;> exact ⟨rfl, rfl, rfl, rfl, rfl⟩) (.of_eq rfl rfl rfl) rfl fun _ ho => ?_
    obtain ⟨hn, hsh, hmk, -, hreplay⟩ := ho
    refine ⟨hn.filter _, fun i hi => hsh i (List.mem_filter.mp hi).1, fun e he => ?_, fun hr => ?_⟩
    · rw [List.mem_filter, ← hmk e he]
      by_cases hc : (es.map Entry.id).contains e.id = true <;> simp only [hc] <;> simp
    · obtain ⟨r, hr⟩ := Option.ne_none_iff_exists'.mp hr
      show List.filter _ _ = []
      rw [(hreplay r hr).2.1]
      rfl

theorem State.startDemand_moves {s : State} (h : s.sc.station ≠ .replay) (cls : GapClass) (d : Demand) :
    TableMove s (s.startDemand cls d) := by
  have hseq : TableMove s s.useSequence := .still rfl rfl rfl rfl rfl
  have hother : ∀ (f : Frame) {cargo : Cargo}, (∀ packed, cargo ≠ .update packed) →
      TableMove s (s.useSequence.launch f cls false cargo) := fun f _ hc =>
    hseq.trans (State.launch_moves (s := s.useSequence) h f cls false hc)
  cases d with
  | reply =>
    cases hq : s.re.replyQueue with
    | nil => simpa only [State.startDemand, hq] using .refl s
    | cons r q =>
      simp only [State.startDemand, hq]
      exact State.launch_moves h _ _ _ (by simp)
  | repair => exact hother _ (by simp)
  | push => exact State.launchUpdate_moves h cls (by simp)
  | summary => exact hother _ (by simp)
  | newUpdate => exact State.launchUpdate_moves h cls (by simp)
  | leave => exact hother _ (by simp)

/-! ### Frames that end (R43, R62, R74) -/

theorem State.replyCompleted_moves (s : State) (forHead ends : Bool) (moved : Work) :
    TableMove s (s.replyCompleted forHead ends moved) := by
  unfold State.replyCompleted
  split
  · split
    · exact .refl s
    · split <;> exact s.setReplies_moves _
  · exact .refl s

theorem State.frameSent_moves (s : State) (f : Flight) : TableMove s (s.frameSent f) :=
  (s.passLine_moves _).trans (.quiet (.of_flight (.of_none rfl) fun h => ⟨h, id⟩) rfl rfl)

theorem State.demandCompleted_moves (s : State) (f : Flight) : TableMove s (s.demandCompleted f) := by
  unfold State.demandCompleted
  split
  · exact .refl s
  · exact .still rfl rfl rfl rfl rfl
  · split
    · exact s.setSession_moves _
    · exact .refl s
  · exact s.replyCompleted_moves _ _ _
  · split
    · next h => exact (State.endClosing_moves (by simp [h]) _).trans (State.judge_moves _)
    · exact .refl s

/-- The ids of an UPDATE that was in flight return to the list with their marks, where they are not on it and the version is the
one sent (R43). -/
theorem State.restoreIds_moves {s u : State} {f : Flight} {packed : List Packed} (hf : s.li.flight = some f)
    (hc : f.cargo = .update packed) (line : LineKept s u) (hpt : u.pt = s.pt) (hout : u.re.outbound = s.re.outbound) :
    TableMove s (u.restoreIds packed) := by
  unfold State.restoreIds
  generalize hb : (packed.filter fun p => !u.re.outbound.contains p.id && (u.entry p.id).any fun e => e.ver = p.ver) = back
  have hback : ∀ p ∈ back, p ∈ packed ∧ p.id ∉ s.re.outbound := by
    intro p hp
    rw [← hb, hout] at hp
    simp only [List.mem_filter, Bool.and_eq_true, Bool.not_eq_true', List.contains_eq_mem, decide_eq_false_iff_not] at hp
    exact ⟨hp.1, hp.2.1⟩
  refine .fields (fun e => match back.find? fun p => p.id = e.id with
    | some p => { e with mark := p.mark }
    | none => e) (fun e => by dsimp only; split <;> exact ⟨rfl, rfl, rfl, rfl, rfl⟩) ⟨line.flight, line.replay⟩
    (congrArg (ParamTable.mapEntries · _) hpt) fun _ ho => ?_
  obtain ⟨hn, hsh, hmk, hflight, hreplay⟩ := ho
  obtain ⟨hpn, hp⟩ := hflight f packed hf hc
  show (back.map Packed.id ++ u.re.outbound).Nodup ∧ (∀ i ∈ back.map Packed.id ++ u.re.outbound, _) ∧ _ ∧ (_ → back.map Packed.id ++ u.re.outbound = [])
  rw [hout]
  refine ⟨?_, fun i hi => ?_, fun e he => ?_, fun hr => ?_⟩
  · refine List.nodup_append.mpr ⟨hpn.sublist ((hb ▸ List.filter_sublist).map _), hn, ?_⟩
    rintro a ha b hb' rfl
    obtain ⟨p, hp', rfl⟩ := List.mem_map.mp ha
    exact (hback p hp').2 hb'
  · rcases List.mem_append.mp hi with hi | hi
    · obtain ⟨p, hp', rfl⟩ := List.mem_map.mp hi
      exact (hp p (hback p hp').1).2
    · exact hsh i hi
  · rw [List.mem_append, ← hmk e he]
    cases hfind : back.find? fun p => p.id = e.id with
    | none =>
      have hno : e.id ∉ back.map Packed.id := by
        rintro hm
        obtain ⟨p, hp', hpe⟩ := List.mem_map.mp hm
        simpa [hpe] using List.find?_eq_none.mp hfind p hp'
      simp only [hno, false_or, hfind]
    | some p =>
      have hpm := List.mem_of_find?_eq_some hfind
      have hid : p.id = e.id := by simpa using List.find?_some hfind
      have hin : e.id ∈ back.map Packed.id := hid ▸ List.mem_map_of_mem hpm
      simp only [hin, true_or, iff_true, hfind]
      exact (hp p (hback p hpm).1).1
  · obtain ⟨r, hr⟩ := Option.ne_none_iff_exists'.mp hr
    rw [(hreplay r hr).2.2] at hf
    cases hf

theorem State.recover_moves {s : State} (h : s.sc.station ≠ .replay) : TableMove s s.recover := by
  unfold State.recover
  refine TableMove.trans ?_ (State.searchSession_moves _)
  exact .outside h (.of_eq rfl) rfl rfl rfl

end Sys2Proof.Machine
end

section
/-! The changes of entries: local changes, received records, pushes, the records of replay. -/

namespace Sys2Proof.Machine

/-! ### What a frame that is parsed carries (Table 3.4.2) -/

/-- The fields of a payload that a taken frame carries are in range. -/
def Payload.Sound : Payload → Prop
  | .update recs =>
    ∀ r ∈ recs, validId r.id = true ∧ validGen r.gen = true ∧ validStation r.origin = true ∧ r.value.length ≤ Config.maxLength
  | .summary h _ _ _ => h ≤ Config.maxGeneration
  | .listing b _ quads =>
    quads.Pairwise (fun x y => x.id < y.id) ∧ ∀ q ∈ quads, bucketOf q.id = b ∧ validGen q.ver.gen = true
  | .listingRequest _ | .fetch _ | .leave => True

theorem leNat_lt (bs : List Byte) : leNat bs < 256 ^ bs.length := by
  induction bs with
  | nil => simp [leNat]
  | cons b bs ih =>
    have hb := b.isLt
    simp only [leNat, List.length_cons, pow_succ]
    omega

theorem num_lt (bs : List Byte) (off n : Nat) : num bs off n < 256 ^ n :=
  (leNat_lt _).trans_le (Nat.pow_le_pow_right (by decide) (by simp [field]))

theorem field_length_le (bs : List Byte) (off n : Nat) : (field bs off n).length ≤ n := List.length_take_le _ _

theorem parseRecords_sound {n : Nat} {bs : List Byte} {recs : List LineRecord} (h : parseRecords n bs = some recs) :
    ∀ r ∈ recs, validId r.id = true ∧ validGen r.gen = true ∧ validStation r.origin = true ∧ r.value.length ≤ Config.maxLength := by
  induction n generalizing bs recs with
  | zero =>
    simp only [parseRecords, Option.ite_none_right_eq_some, Option.some.injEq] at h
    simp [← h.2]
  | succ n ih =>
    simp only [parseRecords, Option.ite_none_left_eq_some, Option.map_eq_some_iff] at h
    obtain ⟨hok, rest, hrest, rfl⟩ := h
    simp only [not_or, Bool.not_eq_true', Bool.not_eq_false, not_lt] at hok
    obtain ⟨-, hlen, hid, hgen, horg⟩ := hok
    intro r hr
    rcases List.mem_cons.mp hr with rfl | hr
    · exact ⟨hid, hgen, horg, (field_length_le _ _ _).trans hlen⟩
    · exact ih hrest r hr

theorem parseQuads_sound {b k last : Nat} {bs : List Byte} {quads : List Quad} (h : parseQuads b k last bs = some quads) :
    quads.Pairwise (fun x y => x.id < y.id) ∧ ∀ q ∈ quads, last < q.id ∧ bucketOf q.id = b ∧ validGen q.ver.gen = true := by
  induction k generalizing last bs quads with
  | zero =>
    simp only [parseQuads, Option.ite_none_right_eq_some, Option.some.injEq] at h
    simp [← h.2]
  | succ k ih =>
    simp only [parseQuads, Option.ite_none_left_eq_some, Option.map_eq_some_iff] at h
    obtain ⟨hok, rest, hrest, rfl⟩ := h
    simp only [not_or, Bool.not_eq_true', Bool.not_eq_false, not_lt, not_le, not_not] at hok
    obtain ⟨-, -, hlast, hb, hgen, -⟩ := hok
    obtain ⟨hsort, hall⟩ := ih hrest
    refine ⟨List.pairwise_cons.mpr ⟨fun q hq => (hall q hq).1, hsort⟩, fun q hq => ?_⟩
    rcases List.mem_cons.mp hq with rfl | hq
    · exact ⟨hlast, hb, hgen⟩
    · exact ⟨hlast.trans (hall q hq).1, (hall q hq).2⟩

theorem parsePayload_sound {kind : Nat} {fl : FrameFlags} {p : List Byte} {pl : Payload} (h : parsePayload kind fl p = some pl) :
    pl.Sound := by
  unfold parsePayload at h
  split at h
  · simp only [Option.ite_none_left_eq_some, Option.map_eq_some_iff] at h
    obtain ⟨-, recs, hrecs, rfl⟩ := h
    exact parseRecords_sound hrecs
  · simp only [Option.ite_none_left_eq_some, Option.some.injEq, not_or] at h
    obtain ⟨⟨-, hh, -, -⟩, rfl⟩ := h
    have := num_lt p 0 4
    show num p 0 4 ≤ 0xFFFFFFFE
    omega
  · simp only [Option.ite_none_left_eq_some, Option.some.injEq] at h
    obtain ⟨-, rfl⟩ := h
    trivial
  · simp only [Option.ite_none_left_eq_some, Option.map_eq_some_iff] at h
    obtain ⟨-, quads, hq, rfl⟩ := h
    obtain ⟨hsort, hall⟩ := parseQuads_sound hq
    exact ⟨hsort, fun q hm => (hall q hm).2⟩
  · simp only [Option.ite_none_left_eq_some, Option.map_eq_some_iff] at h
    obtain ⟨-, ids, -, rfl⟩ := h
    trivial
  · simp only [Option.ite_none_right_eq_some, Option.some.injEq] at h
    obtain ⟨-, rfl⟩ := h
    trivial
  · cases h

/-- The payload parsed for a kind is of that kind. -/
theorem parsePayload_code {kind : Nat} {fl : FrameFlags} {p : List Byte} {pl : Payload} (h : parsePayload kind fl p = some pl) :
    pl.code = kind := by
  unfold parsePayload at h
  split at h <;>
    simp only [Option.ite_none_left_eq_some, Option.ite_none_right_eq_some, Option.map_eq_some_iff, Option.some.injEq,
      reduceCtorEq] at h
  · obtain ⟨-, _, -, rfl⟩ := h
    rfl
  · obtain ⟨-, rfl⟩ := h
    rfl
  · obtain ⟨-, rfl⟩ := h
    rfl
  · obtain ⟨-, _, -, rfl⟩ := h
    rfl
  · obtain ⟨-, _, -, rfl⟩ := h
    rfl
  · obtain ⟨-, rfl⟩ := h
    rfl

/-- A frame that is taken is from a station of the line, with flags and destination of its kind and fields in range. -/
theorem parseFrame_sound {chars : List Byte} {F : Frame} (h : parseFrame chars = some F) :
    validStation F.src = true ∧ flagsGood F.payload.code F.flags F.src F.dst = true ∧ F.payload.Sound := by
  unfold parseFrame at h
  simp only [Option.ite_none_right_eq_some, Option.map_eq_some_iff, Bool.and_eq_true] at h
  obtain ⟨⟨⟨hsrc, -⟩, hflags⟩, pl, hpl, rfl⟩ := h
  refine ⟨hsrc, ?_, parsePayload_sound hpl⟩
  rwa [show pl.code = (chars.getD 0 0).toNat % 16 from parsePayload_code hpl]

/-! ### Entries that fit -/

/-- The slot that `slotFor` answers is held by long values alone, and is the one held before or a free one (R8, R9). -/
theorem slotFor_some {es : List Entry} {old : Option Nat} {n : Nat} {slot : Option Nat} (h : slotFor es old n = some slot) :
    (slot.isSome = true ↔ Config.inlineLength < n) ∧ ∀ k, slot = some k → old = some k ∨ freeSlot es = some k := by
  have h8 : Config.inlineLength = 8 := rfl
  rw [slotFor_eq, Option.ite_none_right_eq_some, Option.some.injEq] at h
  obtain ⟨hok, rfl⟩ := h
  by_cases hn : n ≤ 8
  · simp [hn]
    omega
  · simp only [hn, if_false]
    cases old with
    | some k => simp; omega
    | none =>
      obtain ⟨k, hk⟩ := Option.ne_none_iff_exists'.mp (show freeSlot es ≠ none by simpa [hn] using hok)
      simp [hk]
      omega

/-- An entry with a valid version and value, the slot that PT finds for it and room for it fits. -/
theorem Fits.of_slotFor {t : ParamTable} {e : Entry} (hid : TableLaw t → validId e.id = true)
    (hver : HighMarkLaw t → validGen e.ver.gen = true ∧ e.ver.gen ≤ t.h) (horigin : e.ver.origin ≤ 31)
    (hcheck : e.ver.check = valueCheck e.value) (hlen : e.value.length ≤ Config.maxLength) (hloc : e.scope = .loc → e.value ≠ [])
    (hroom : ((findEntry t.entries e.id).isNone && decide (Config.maxEntries ≤ t.entries.length)) = false)
    (hslot : slotFor t.entries ((findEntry t.entries e.id).bind Entry.slot) e.value.length = some e.slot) : Fits t e := by
  obtain ⟨hs, hk⟩ := slotFor_some hslot
  refine fun hh => ⟨(hver hh).2, fun ht => ⟨⟨hid ht, (hver hh).1, horigin, hcheck, hlen, hloc, hs⟩, fun hn => ?_, hk⟩⟩
  simpa [hn] using hroom

/-! ### Local changes (R24, R27, R30) -/

theorem stationNumber_le (st : Straps) : stationNumber st ≤ 31 := Nat.le_of_lt_succ st.sn.isLt

/-- The entry that a local change leaves (R24 to R28). -/
def State.localEntry (s : State) (id : Nat) (scope : Scope) (value : List Byte) (slot : Option Nat) : Entry :=
  let e := (s.entry id).getD (Entry.fresh id scope)
  { e with
    id := id, ver := s.localVersion value, value := value, slot := slot, jstate := s.jc.markState id
    dirty := dirtyAfter (s.entry id) value, mark := if scope = .shared then e.mark.afterSend else e.mark }

/-- The notify queue after an id was marked for the journal (R26, R157). -/
def State.markedNotify (s : State) (id : Nat) : List Event :=
  if s.jc.markState id = .unsaved ∧ (s.entry id).map Entry.jstate ≠ some .unsaved then
    placeEvent s.cp.notify { kind := .unsaved, param := 0 }
  else s.cp.notify

/-- What a local change leaves in the table, the journal and the notify queue (R24 to R27). -/
def State.locallyChanged (s : State) (id : Nat) (scope : Scope) (value : List Byte) (slot : Option Nat) : State :=
  { s with
    pt := (s.pt.raiseH (s.pt.h + 1)).put (s.localEntry id scope value slot)
    jc := (s.jc.enqueue id).touch id false
    cp := { s.cp with notify := s.markedNotify id } }

/-- What a local change of a SHARED entry leaves for the line (R28, R37). -/
def Replication.afterLocal (re : Replication) (mark : Mark) (id : Nat) : Replication :=
  { re with
    outbound := joinOutbound re.outbound mark id
    roster := re.roster.map fun p => { p with agreement := .unknown } }

/-- The entry before a local change, or the fresh one, has the id, and the mark that stood. -/
theorem State.entryBefore (s : State) (id : Nat) (scope : Scope) :
    ((s.entry id).getD (Entry.fresh id scope)).id = id
      ∧ ((s.entry id).getD (Entry.fresh id scope)).mark = (s.entry id).elim .none Entry.mark
      ∧ ((s.entry id = none ∨ ∃ e, s.entry id = some e ∧ e.scope = scope) →
        ((s.entry id).getD (Entry.fresh id scope)).scope = scope) := by
  cases he : s.entry id with
  | none => exact ⟨rfl, rfl, fun _ => rfl⟩
  | some e => exact ⟨findEntry_id he, rfl, by simp⟩

/-- The marking of an id leaves replay. -/
theorem Journal.enqueue_touch_replay (jc : Journal) (id : Nat) (deleted : Bool) :
    ((jc.enqueue id).touch id deleted).replay = jc.replay := by
  rw [Journal.touch_eq, Journal.enqueue_eq]

/-- A local change, by scope. -/
theorem State.localChange_eq (s : State) (id : Nat) (scope : Scope) (value : List Byte) (slot : Option Nat) :
    s.localChange id scope value slot = if scope = .shared then
      State.judge { s.locallyChanged id scope value slot with re := s.re.afterLocal ((s.entry id).elim .none Entry.mark) id }
    else s.locallyChanged id scope value slot := by
  obtain ⟨hid, hmark, -⟩ := s.entryBefore id scope
  unfold State.localChange State.locallyChanged State.localEntry
  dsimp only
  rw [State.commitEntry_eq, ← hmark]
  dsimp only
  rw [hid]
  rfl

/-- A local change that passed PT's tests. -/
theorem State.localChange_moves {s : State} {id : Nat} {scope : Scope} {value : List Byte} {slot : Option Nat}
    (hid : validId id = true) (hscope : ∀ e, s.entry id = some e → e.scope = scope) (hst : scope = .shared → s.sc.station ≠ .replay)
    (hlen : value.length ≤ Config.maxLength) (hloc : scope = .loc → value ≠ []) (hh : s.pt.h ≠ Config.maxGeneration)
    (hroom : ((s.entry id).isNone && decide (Config.maxEntries ≤ s.pt.entries.length)) = false)
    (hslot : slotFor s.pt.entries ((s.entry id).bind Entry.slot) value.length = some slot) :
    TableMove s (s.localChange id scope value slot) := by
  obtain ⟨-, hmark, hbefore⟩ := s.entryBefore id scope
  have hsc : (s.localEntry id scope value slot).scope = scope := hbefore (by
    cases he : s.entry id with
    | none => exact .inl rfl
    | some e => exact .inr ⟨e, rfl, hscope e he⟩)
  have hraise : TableMove s { s with pt := s.pt.raiseH (s.pt.h + 1) } :=
    .raise (s.pt.h + 1) (fun hm => by have := hm.1; omega) (.of_eq rfl rfl rfl) rfl rfl
  have hfits : Fits (s.pt.raiseH (s.pt.h + 1)) (s.localEntry id scope value slot) := by
    refine .of_slotFor (fun _ => hid) (fun hm => ?_) (stationNumber_le _) rfl hlen (fun h => hloc (hsc ▸ h)) hroom hslot
    have : s.pt.h + 1 ≤ Config.maxGeneration := (Nat.le_max_right _ _).trans hm.1
    exact ⟨by simpa [validGen, State.localEntry, State.localVersion] using this, Nat.le_max_right _ _⟩
  have hstays : ∀ x, State.entry { s with pt := s.pt.raiseH (s.pt.h + 1) } id = some x →
      x.scope = (s.localEntry id scope value slot).scope := fun x hx => (hscope x hx).trans hsc.symm
  rw [State.localChange_eq]
  by_cases hs : scope = .shared
  · rw [if_pos hs]
    refine hraise.trans (.trans ?_ (State.judge_moves _))
    refine .put _ hfits (.inl hstays) (.of_eq rfl (s.jc.enqueue_touch_replay id false) rfl) rfl (.inr (.inl ⟨hst hs, hsc.trans hs, ?_, rfl⟩))
    show (if scope = .shared then Mark.afterSend _ else _) ≠ Mark.none
    rw [if_pos hs]
    unfold Mark.afterSend
    split
    · simp
    · assumption
  · rw [if_neg hs]
    refine hraise.trans (.put _ hfits (.inl hstays) (.of_eq rfl (s.jc.enqueue_touch_replay id false) rfl) rfl (.inl ⟨rfl, ?_⟩))
    show (if scope = .shared then Mark.afterSend _ else _) = _
    rw [if_neg hs]
    exact hmark

/-- A PUT with a valid id and a value of 1 to 32 bytes (R20, R24). -/
theorem State.localPut_moves {s : State} {id : Nat} {scope : Scope} {value : List Byte} (hid : validId id = true)
    (hst : scope = .shared → s.sc.station ≠ .replay) (hlen : value.length ≤ Config.maxLength) (hne : value ≠ []) :
    TableMove s (s.localPut id scope value).2 := by
  unfold State.localPut
  cases ht : s.putTests id scope value with
  | inl r => exact .refl s
  | inr slot =>
    unfold State.putTests at ht
    simp only at ht
    split at ht
    · cases ht
    · next hsc =>
      split at ht
      · cases ht
      · split at ht
        · cases ht
        · next hh =>
          split at ht
          · cases ht
          · next hroom =>
            split at ht
            · cases ht
            · next hslot =>
              cases ht
              refine State.localChange_moves hid (fun e he => ?_) hst hlen (fun _ => hne) hh (Bool.eq_false_iff.mpr hroom) hslot
              simpa [he] using hsc

/-- A REMOVE of an id whose entry, where it is SHARED, may change (R27, R30). -/
theorem State.localRemove_moves {s : State} {id : Nat} (hid : validId id = true)
    (hst : ∀ e, s.entry id = some e → e.scope = .shared → s.sc.station ≠ .replay) : TableMove s (s.localRemove id).2 := by
  unfold State.localRemove
  cases he : s.entry id with
  | none => exact .refl s
  | some e =>
    dsimp only
    split
    · exact .refl s
    · split
      · exact .refl s
      · next hh =>
        cases hs : e.scope with
        | shared =>
          refine State.localChange_moves (scope := .shared) (value := []) (slot := none) hid (fun x hx => ?_) (fun _ => hst e he hs) (Nat.zero_le _)
            (by simp) hh (by rw [he]; rfl) rfl
          rw [he] at hx
          exact Option.some.inj hx ▸ hs
        | loc =>
          obtain ⟨_, _, _, hjc⟩ := s.deleteLocal_deleted e
          have hrep : (s.deleteLocal e).jc.replay = s.jc.replay := by rw [hjc]
          refine .delete e.id (fun x hx => ?_) (.of_eq rfl hrep rfl) rfl rfl
          rw [findEntry_id he, he] at hx
          exact Option.some.inj hx ▸ hs

/-! ### Received records and pushes (R32 to R38, R40) -/

theorem State.remoteChange_moves (s : State) (old : Option Entry) (id : Nat) : TableMove s (s.remoteChange old id) := by
  unfold State.remoteChange
  split
  · exact s.notify_moves _ _
  · exact .refl s

theorem State.takeRecord_moves {s : State} {r : LineRecord} {slot : Option Nat} (hsh : ∀ e, s.entry r.id = some e → e.scope = .shared)
    (hr : validId r.id = true ∧ validGen r.gen = true ∧ validStation r.origin = true ∧ r.value.length ≤ Config.maxLength)
    (hh : r.gen ≤ s.pt.h)
    (hroom : ((s.entry r.id).isNone && decide (Config.maxEntries ≤ s.pt.entries.length)) = false)
    (hslot : slotFor s.pt.entries ((s.entry r.id).bind Entry.slot) r.value.length = some slot) :
    TableMove s (s.takeRecord (s.entry r.id) r slot) := by
  obtain ⟨hid, hgen, horg, hlen⟩ := hr
  obtain ⟨hbid, -, hbefore⟩ := s.entryBefore r.id .shared
  have hsc : ((s.entry r.id).getD (Entry.fresh r.id .shared)).scope = .shared := hbefore (by
    cases he : s.entry r.id with
    | none => exact .inl rfl
    | some e => exact .inr ⟨e, rfl, hsh e he⟩)
  have hle : r.origin ≤ 31 := by
    unfold validStation at horg
    simp only [Bool.and_eq_true, decide_eq_true_eq] at horg
    exact horg.2
  unfold State.takeRecord
  dsimp only
  rw [State.commitEntry_eq]
  dsimp only
  refine TableMove.trans (TableMove.trans ?_ (State.remoteChange_moves _ _ _)) (State.count_moves _ _)
  generalize (s.entry r.id).getD (Entry.fresh r.id .shared) = old at hbid hsc
  rw [hbid]
  refine .put { old with
      id := r.id, ver := r.ver, value := r.value, slot := slot, jstate := s.jc.markState r.id
      dirty := dirtyAfter (s.entry r.id) r.value, mark := .none }
    (.of_slotFor (fun _ => hid) (fun _ => ⟨hgen, hh⟩) hle rfl hlen (fun h => by simp [hsc] at h) hroom hslot)
    (.inl fun e he => (hsh e he).trans hsc.symm) (.of_eq rfl (s.jc.enqueue_touch_replay r.id false) rfl) ?_ (.inr (.inr ⟨rfl, rfl⟩))
  rw [← hbid]
  rfl

/-- A record whose version would be taken. -/
theorem State.takeIfRoom_moves {s : State} {r : LineRecord} (hsh : ∀ e, s.entry r.id = some e → e.scope = .shared)
    (hr : validId r.id = true ∧ validGen r.gen = true ∧ validStation r.origin = true ∧ r.value.length ≤ Config.maxLength)
    (hh : r.gen ≤ s.pt.h) : TableMove s (s.takeIfRoom (s.entry r.id) r) := by
  have hdrop : TableMove s s.capacityDrop := .still rfl rfl rfl rfl rfl
  unfold State.takeIfRoom
  split
  · exact hdrop
  · next hroom =>
    split
    · exact hdrop
    · next hslot => exact State.takeRecord_moves hsh hr hh (Bool.eq_false_iff.mpr hroom) hslot

/-- One received record, of a generation that H covers (R32). -/
theorem State.applyRecord_moves {s : State} {r : LineRecord}
    (hr : validId r.id = true ∧ validGen r.gen = true ∧ validStation r.origin = true ∧ r.value.length ≤ Config.maxLength)
    (hh : r.gen ≤ s.pt.h) : TableMove s (s.applyRecord r) := by
  have hroom : ∀ old, s.entry r.id = old → (∀ e, old = some e → e.scope = .shared) → TableMove s (s.takeIfRoom old r) := by
    rintro _ rfl hsh
    exact State.takeIfRoom_moves hsh hr hh
  unfold State.applyRecord
  cases he : s.entry r.id with
  | none => exact hroom _ he (by simp)
  | some e =>
    dsimp only
    split
    · exact s.count_moves _
    · next hloc =>
      have hsh : e.scope = .shared := by
        cases h : e.scope with
        | shared => rfl
        | loc => exact absurd h hloc
      split
      · exact hroom _ he (by simp [hsh])
      · split
        · exact .refl s
        · exact s.count_moves _

/-- A received record leaves H (R16). -/
theorem State.applyRecord_h (s : State) (r : LineRecord) : (s.applyRecord r).pt.h = s.pt.h := by
  have htake : ∀ old, (s.takeIfRoom old r).pt.h = s.pt.h := fun old => by
    unfold State.takeIfRoom
    split
    · rfl
    · split
      · rfl
      · have hpt : ∀ (u : State) (o : Option Entry) (i : Nat), (u.remoteChange o i).pt = u.pt := fun u o i => by
          unfold State.remoteChange
          split <;> rfl
        show (State.remoteChange _ old r.id).pt.h = s.pt.h
        rw [hpt, State.commitEntry_eq]
        rfl
  unfold State.applyRecord
  split
  · exact htake none
  · split
    · rfl
    · split
      · exact htake _
      · split <;> rfl

/-- The records of an UPDATE, of generations that H covers. -/
theorem State.applyRecords_moves {recs : List LineRecord} {s : State} (hr : (Payload.update recs).Sound)
    (hh : ∀ r ∈ recs, r.gen ≤ s.pt.h) : TableMove s (recs.foldl State.applyRecord s) := by
  induction recs generalizing s with
  | nil => exact .refl s
  | cons r rs ih =>
    exact (State.applyRecord_moves (hr r (by simp)) (hh r (by simp))).trans
      (ih (fun x hx => hr x (by simp [hx])) fun x hx => (s.applyRecord_h r).symm ▸ hh x (by simp [hx]))

/-- A push request for a SHARED entry, outside REPLAY (R40). -/
theorem State.pushRequest_moves {s : State} {id : Nat} (hst : s.sc.station ≠ .replay)
    (hsh : s.pt.entries.Pairwise (fun a b => a.id < b.id) → ∀ e, s.entry id = some e → e.scope = .shared) :
    TableMove s (s.pushRequest id) := by
  unfold State.pushRequest
  cases he : s.entry id with
  | none => exact .refl s
  | some e =>
    have hid : e.id = id := findEntry_id he
    refine .fields (fun x => if x.id = id then { x with mark := .push } else x)
      (fun x => by dsimp only; split <;> exact ⟨rfl, rfl, rfl, rfl, rfl⟩) (.of_eq rfl rfl rfl) rfl fun hs ho => ?_
    obtain ⟨hn, hshared, hmk, -, hreplay⟩ := ho
    have hmem : ∀ i, i ∈ joinOutbound s.re.outbound e.mark id ↔ i ∈ s.re.outbound ∨ i = id := fun i => by
      unfold joinOutbound
      split
      · simp
      · next hm =>
        refine ⟨.inl, ?_⟩
        rintro (hi | rfl)
        · exact hi
        · exact hid ▸ (hmk e (findEntry_mem he)).mp hm
    show (joinOutbound s.re.outbound e.mark id).Nodup ∧ (∀ i ∈ joinOutbound s.re.outbound e.mark id, _)
      ∧ (∀ x ∈ s.pt.entries, _ ↔ x.id ∈ joinOutbound s.re.outbound e.mark id) ∧ _
    refine ⟨?_, fun i hi => ?_, fun x hx => ?_, fun hr => ?_⟩
    · unfold joinOutbound
      split
      · next hm =>
        refine List.nodup_append.mpr ⟨hn, List.nodup_singleton _, ?_⟩
        rintro a ha b hb rfl
        obtain rfl := List.mem_singleton.mp hb
        exact (hmk e (findEntry_mem he)).mpr (hid ▸ ha) hm
      · exact hn
    · rcases (hmem i).mp hi with hi | rfl
      · exact hshared i hi
      · exact ⟨e, findEntry_mem he, hid, hsh hs e he⟩
    · rw [hmem, ← hmk x hx]
      by_cases hxi : x.id = id <;> simp [hxi]
    · obtain ⟨r, hr⟩ := Option.ne_none_iff_exists'.mp hr
      exact absurd (hreplay r hr).1 hst

/-- A push leaves the station, the ids and their scopes. -/
theorem State.pushRequest_keeps (s : State) (id : Nat) : (s.pushRequest id).sc = s.sc
    ∧ (s.pushRequest id).pt.entries.map (fun e => (e.id, e.scope)) = s.pt.entries.map fun e => (e.id, e.scope) := by
  unfold State.pushRequest
  split
  · refine ⟨rfl, ?_⟩
    show (s.pt.entries.map _).map _ = _
    rw [List.map_map]
    refine List.map_congr_left fun x _ => ?_
    simp only [Function.comp_apply]
    split <;> rfl
  · exact ⟨rfl, rfl⟩

/-- Every entry of the list is SHARED at its id, in ascending ids. -/
def SharedAt (es : List Entry) (l : List Nat) : Prop :=
  es.Pairwise (fun a b => a.id < b.id) → ∀ i ∈ l, ∃ e ∈ es, e.id = i ∧ e.scope = .shared

theorem SharedAt.congr {es es' : List Entry} {l : List Nat} (h : SharedAt es l)
    (he : es'.map (fun e => (e.id, e.scope)) = es.map fun e => (e.id, e.scope)) : SharedAt es' l := by
  have hsort : ∀ x : List Entry, x.Pairwise (fun a b => a.id < b.id)
      ↔ (x.map fun e => (e.id, e.scope)).Pairwise fun a b => a.1 < b.1 := fun x => by rw [List.pairwise_map]
  intro hs i hi
  obtain ⟨e, hm, rfl, hsc⟩ := h ((hsort es).mpr (he ▸ (hsort es').mp hs)) i hi
  have hmem : (e.id, e.scope) ∈ es'.map fun e => (e.id, e.scope) := he ▸ List.mem_map_of_mem hm
  obtain ⟨x, hx, hxe⟩ := List.mem_map.mp hmem
  obtain ⟨hid, hsc'⟩ := Prod.mk.inj hxe
  exact ⟨x, hx, hid, hsc'.trans hsc⟩

/-- Pushes of SHARED entries, outside REPLAY. -/
theorem State.pushAll_moves (l : List Entry) {s : State} (hst : s.sc.station ≠ .replay)
    (hsh : SharedAt s.pt.entries (l.map Entry.id)) :
    TableMove s (l.foldl (fun s e => s.pushRequest e.id) s) ∧ (l.foldl (fun s e => s.pushRequest e.id) s).sc = s.sc := by
  induction l generalizing s with
  | nil => exact ⟨.refl s, rfl⟩
  | cons a l ih =>
    obtain ⟨hsc, hes⟩ := s.pushRequest_keeps a.id
    have hmove : TableMove s (s.pushRequest a.id) := State.pushRequest_moves hst fun hs e he => by
      obtain ⟨x, hx, hid, hxs⟩ := hsh hs a.id (by simp)
      have := ((findEntry_eq_some_iff hs).mpr ⟨hx, hid⟩).symm.trans he
      exact Option.some.inj this ▸ hxs
    obtain ⟨h1, h2⟩ := ih (s := s.pushRequest a.id) (by rwa [hsc])
      (SharedAt.congr (fun hs i hi => hsh hs i (List.mem_cons_of_mem _ hi)) hes)
    exact ⟨hmove.trans h1, h2.trans hsc⟩

theorem State.pushBetween_moves {s : State} (hst : s.sc.station ≠ .replay) (b : Nat) (lo hi : Option Nat) :
    TableMove s (s.pushBetween b lo hi) ∧ (s.pushBetween b lo hi).sc = s.sc := by
  refine State.pushAll_moves _ hst fun _ i hi => ?_
  obtain ⟨e, he, rfl⟩ := List.mem_map.mp hi
  obtain ⟨hmem, hsc⟩ := List.mem_filter.mp (List.mem_filter.mp he).1
  simp only [Bool.and_eq_true, decide_eq_true_eq] at hsc
  exact ⟨e, hmem, rfl, hsc.1⟩

theorem State.compareQuad_moves {s : State} (hst : s.sc.station ≠ .replay) (b : Nat) (cursor : Option Nat) (q : Quad) :
    TableMove s (State.compareQuad b (s, cursor) q).1 ∧ (State.compareQuad b (s, cursor) q).1.sc = s.sc := by
  obtain ⟨hmove, hsc⟩ := State.pushBetween_moves hst b cursor (some q.id)
  unfold State.compareQuad
  dsimp only
  generalize s.pushBetween b cursor (some q.id) = u at hmove hsc
  have hkeep : ∀ se, TableMove s (u.setSession se) ∧ (u.setSession se).sc = s.sc :=
    fun se => ⟨hmove.trans (u.setSession_moves se), hsc⟩
  split
  · exact hkeep _
  · next e he =>
    split
    · exact ⟨hmove, hsc⟩
    · next hloc =>
      split
      · exact hkeep _
      · split
        · refine ⟨hmove.trans (State.pushRequest_moves (by rwa [hsc]) fun _ x hx => ?_), (u.pushRequest_keeps q.id).1.trans hsc⟩
          obtain rfl := Option.some.inj (he.symm.trans hx)
          cases h : e.scope with
          | shared => rfl
          | loc => exact absurd h hloc
        · exact ⟨hmove, hsc⟩

theorem State.compareListing_moves {s : State} (hst : s.sc.station ≠ .replay) (b : Nat) (quads : List Quad) (bucketLast : Bool) :
    TableMove s (s.compareListing b quads bucketLast) := by
  have hfold : ∀ (l : List Quad) (u : State) (c : Option Nat), u.sc.station ≠ .replay →
      TableMove u (l.foldl (State.compareQuad b) (u, c)).1 ∧ (l.foldl (State.compareQuad b) (u, c)).1.sc = u.sc := by
    intro l
    induction l with
    | nil => exact fun u _ _ => ⟨.refl u, rfl⟩
    | cons q l ih =>
      intro u c hu
      obtain ⟨h1, h2⟩ := State.compareQuad_moves hu b c q
      obtain ⟨h3, h4⟩ := ih (State.compareQuad b (u, c) q).1 (State.compareQuad b (u, c) q).2 (by rwa [h2])
      exact ⟨h1.trans h3, h4.trans h2⟩
  obtain ⟨h1, h2⟩ := hfold quads s s.re.session.cursor hst
  unfold State.compareListing
  dsimp only
  split
  · exact h1.trans (State.pushBetween_moves (by rwa [h2]) _ _ _).1
  · exact h1

theorem State.takeListing_moves {s : State} (hst : s.sc.station ≠ .replay) (b part : Nat) (quads : List Quad) (fl : FrameFlags) :
    TableMove s (s.takeListing b part quads fl) := by
  unfold State.takeListing
  dsimp only
  split
  · have h : TableMove s ((s.setSession { s.re.session with timer := 0 }).compareListing b quads fl.bucketLast) :=
      (s.setSession_moves _).trans (State.compareListing_moves (by exact hst) b quads _)
    refine h.trans ?_
    split
    · exact State.setSession_moves _ _
    · split
      · exact State.setSession_moves _ _
      · unfold State.listingComplete
        split
        · exact State.sessionSuccess_moves _
        · exact State.setSession_moves _ _
  · exact s.sessionTimeout_moves

/-! ### A frame taken (R65, R66) -/

theorem State.refresh_moves (s : State) (n : Nat) : TableMove s (s.refresh n) := by
  unfold State.refresh
  split
  · exact s.updatePeer_moves _ _
  · exact (s.updatePeer_moves _ _).trans (State.notify_moves _ _ _)
  · exact (s.updatePeer_moves _ _).trans (State.notify_moves _ _ _)

/-- A fold of maxima is at least its start and each of its members. -/
theorem le_foldl_max (l : List Nat) (m : Nat) : m ≤ l.foldl max m ∧ ∀ x ∈ l, x ≤ l.foldl max m := by
  induction l generalizing m with
  | nil => simp
  | cons a l ih =>
    obtain ⟨h1, h2⟩ := ih (max m a)
    refine ⟨(Nat.le_max_left m a).trans h1, fun x hx => ?_⟩
    rcases List.mem_cons.mp hx with rfl | hx
    · exact (Nat.le_max_right m x).trans h1
    · exact h2 x hx

/-- What the refresh of a roster entry leaves. -/
theorem State.refresh_frame (s : State) (n : Nat) : (s.refresh n).pt = s.pt ∧ (s.refresh n).sc = s.sc := by
  have h := fun f => s.updatePeer_frame n f
  unfold State.refresh
  split
  · exact ⟨(h _).2.2.2.1, (h _).2.2.2.2.1⟩
  · exact ⟨(h _).2.2.2.1, (h _).2.2.2.2.1⟩
  · exact ⟨(h _).2.2.2.1, (h _).2.2.2.2.1⟩

/-- H after the generations of a frame, each at most FFFFFFFEH (R16). -/
theorem State.raiseH_moves {s : State} {p : Payload} (hp : p.Sound) :
    TableMove s (s.raiseH p) ∧ (s.raiseH p).pt = { s.pt with h := p.generations.foldl max s.pt.h } := by
  have hgen : ∀ g ∈ p.generations, g ≤ Config.maxGeneration := by
    have hle : ∀ g, validGen g = true → g ≤ Config.maxGeneration := fun g h => by
      simp only [validGen, Bool.and_eq_true, decide_eq_true_eq] at h
      exact h.2
    cases p with
    | update recs =>
      intro g hg
      obtain ⟨r, hr, rfl⟩ := List.mem_map.mp hg
      obtain ⟨-, hv, -, -⟩ := hp r hr
      exact hle _ hv
    | summary h _ _ _ => exact fun g hg => List.mem_singleton.mp hg ▸ hp
    | listing b _ quads =>
      intro g hg
      obtain ⟨q, hq, rfl⟩ := List.mem_map.mp hg
      exact hle _ (hp.2 q hq).2
    | listingRequest _ => simp [Payload.generations]
    | fetch _ => simp [Payload.generations]
    | leave => simp [Payload.generations]
  have hfold : ∀ (gs : List Nat) (t : ParamTable), gs.foldl ParamTable.raiseH t = { t with h := gs.foldl max t.h } := by
    intro gs
    induction gs with
    | nil => exact fun _ => rfl
    | cons g gs ih => exact fun t => ih (t.raiseH g)
  have hpt : (s.raiseH p).pt = { s.pt with h := p.generations.foldl max s.pt.h } := hfold _ _
  refine ⟨.raise (p.generations.foldl max s.pt.h) (fun hh => ?_) (.of_eq rfl rfl rfl) ?_ rfl, hpt⟩
  · have hmax : ∀ (gs : List Nat) (m : Nat), m ≤ Config.maxGeneration → (∀ g ∈ gs, g ≤ Config.maxGeneration) →
        gs.foldl max m ≤ Config.maxGeneration := by
      intro gs
      induction gs with
      | nil => exact fun _ h _ => h
      | cons g gs ih =>
        exact fun m hm hg => ih _ (Nat.max_le.mpr ⟨hm, hg g (by simp)⟩) fun x hx => hg x (by simp [hx])
    exact hmax _ _ hh.1 hgen
  · rw [hpt]
    show ParamTable.mk _ _ _ _ _ _ = ParamTable.mk _ _ _ _ _ _
    congr 1
    exact (Nat.max_eq_right (le_foldl_max p.generations s.pt.h).1).symm

end Sys2Proof.Machine
end

section
/-! Frames taken, the journal, replay and the commands: what they do to the table. -/

namespace Sys2Proof.Machine

/-- A change of some entries' fields outside the version and the send mark. -/
theorem TableMove.someFields {s t : State} (c : Entry → Prop) [DecidablePred c] {f : Entry → Entry} (keeps : KeepsVersion f)
    (hm : ∀ e, (f e).mark = e.mark) (line : LineKept s t) (pt : t.pt = s.pt.mapEntries fun e => if c e then f e else e)
    (out : t.re.outbound = s.re.outbound) : TableMove s t := by
  refine .fieldsOnly _ (fun e => ?_) (fun e => ?_) line pt out
  · by_cases h : c e
    · simpa [h] using keeps e
    · simp [h]
  · by_cases h : c e <;> simp [h, hm]

theorem State.testSession_moves (s : State) (n : Nat) : TableMove s (s.testSession n) := by
  unfold State.testSession
  split
  · exact (s.updatePeer_moves _ _).trans (State.setSession_moves _ _)
  · exact .refl s

theorem State.takeSummary_moves (s : State) (n h count interval : Nat) (digests : List Half) (joining : Bool) :
    TableMove s (s.takeSummary n h count interval digests joining) := by
  have hearly : ∀ u : State, TableMove u u.earlySummary := fun u => by
    unfold State.earlySummary
    split
    · exact .still rfl rfl rfl rfl rfl
    · exact .refl u
  unfold State.takeSummary
  dsimp only
  refine TableMove.trans (s.updatePeer_moves n fun p =>
    { p with h := h, count := count, interval := some interval, joining := joining }) ?_
  generalize s.updatePeer n _ = u
  split
  · generalize differing u.pt.digests digests = diff
    refine TableMove.trans (u.updatePeer_moves n fun p => p.compare diff) ?_
    generalize u.updatePeer n _ = v
    have htest : TableMove v (if diff = 0 then v else v.testSession n) := by
      split
      · exact .refl v
      · exact v.testSession_moves n
    split
    · exact htest.trans (hearly _)
    · exact htest
  · exact .refl _

theorem State.peerLeft_moves (s : State) (n : Nat) : TableMove s (s.peerLeft n) := by
  unfold State.peerLeft
  split
  · exact .refl s
  · have h : TableMove s (((s.updatePeer n fun _ => .cleared).notify .peerLeft n).dropRequest n) :=
      (s.updatePeer_moves _ _).trans ((State.notify_moves _ _ _).trans (State.dropRequest_moves _ _))
    dsimp only
    split
    · exact h.trans ((State.closeSession_moves _).trans (State.searchSession_moves _))
    · exact h

theorem State.takeRequest_moves (s : State) (f : Frame) (w : Work) : TableMove s (s.takeRequest f w) := by
  unfold State.takeRequest
  split
  · exact s.placeRequest_moves _
  · exact .refl s

/-- The work of a frame's kind, its generations covered by H, outside REPLAY. -/
theorem State.takeKind_moves {s : State} {f : Frame} (hst : s.sc.station ≠ .replay) (hf : f.payload.Sound)
    (hh : ∀ g ∈ f.payload.generations, g ≤ s.pt.h) : TableMove s (s.takeKind f) := by
  unfold State.takeKind
  split
  · next recs hp =>
    rw [hp] at hf hh
    split
    · have hrecs := State.applyRecords_moves hf fun r hr => hh r.gen (List.mem_map_of_mem hr)
      dsimp only
      split
      · refine hrecs.trans ?_
        unfold State.takeReplyUpdate
        split
        · exact State.sessionSuccess_moves _
        · exact State.setSession_moves _ _
      · exact hrecs
    · exact .refl s
  · exact s.takeSummary_moves _ _ _ _ _ _
  · exact s.takeRequest_moves _ _
  · split
    · exact State.takeListing_moves hst _ _ _ _
    · exact .refl s
  · exact s.takeRequest_moves _ _
  · exact s.peerLeft_moves _

theorem State.actOn_moves {s : State} {f : Frame} (hst : s.sc.station ≠ .replay) (hf : f.payload.Sound) :
    TableMove s (s.actOn f) := by
  obtain ⟨hraise, hpt⟩ := State.raiseH_moves (s := s) hf
  have hh : ∀ g ∈ f.payload.generations, g ≤ (s.raiseH f.payload).pt.h := by
    rw [hpt]
    exact (le_foldl_max _ _).2
  unfold State.actOn
  dsimp only
  refine hraise.trans ?_
  split
  · exact State.takeKind_moves (by exact hst) hf hh
  · obtain ⟨hrpt, hrsc⟩ := (s.raiseH f.payload).refresh_frame f.src
    exact (State.refresh_moves _ _).trans (State.takeKind_moves (by rw [hrsc]; exact hst) hf (by rw [hrpt]; exact hh))

/-! ### The journal (chapter 8) -/

theorem State.grantWaiting_moves (s : State) : TableMove s s.grantWaiting := by
  unfold State.grantWaiting
  split
  · exact s.mapPort_moves _
  · exact .refl s

theorem State.enterFault_moves (s : State) : TableMove s s.enterFault := by
  have hfault : ∀ sp : StoragePort, TableMove s
      { s with pt := s.pt.mapEntries Entry.unqueue, jc := s.jc.toFault, sp := sp } := fun sp =>
    .someFields (fun e => e.jstate = .queued) (f := fun e => { e with jstate := .unsaved })
      (fun _ => ⟨rfl, rfl, rfl, rfl, rfl⟩) (fun _ => rfl) (.of_eq rfl rfl rfl) rfl rfl
  unfold State.enterFault
  dsimp only
  refine TableMove.trans ?_ (State.grantWaiting_moves _)
  refine TableMove.trans ((hfault { s.sp with cmd := .none, poll := none }).trans ((State.completeLong_moves _ flushCode .failedStorage).trans
    (State.notify_moves _ .journalFault 0))) ?_
  split
  · exact State.notify_moves _ _ _
  · exact .refl _

theorem State.judgeTrigger_moves (s : State) : TableMove s s.judgeTrigger := by
  unfold State.judgeTrigger
  dsimp only
  split
  · split <;> exact State.mapJournal_moves rfl
  · exact State.mapJournal_moves rfl

theorem State.judgeUsable_moves (s : State) : TableMove s s.judgeUsable := by
  unfold State.judgeUsable
  split
  · exact s.enterFault_moves
  · exact s.judgeTrigger_moves

theorem State.issue_moves (s : State) (p : Prog) : TableMove s (s.issue p) := by
  unfold State.issue
  split <;> exact .still rfl rfl rfl rfl rfl

theorem State.openBand_moves (s : State) (w : WriteJob) : TableMove s (s.openBand w) := by
  unfold State.openBand
  split
  · exact .still rfl rfl rfl rfl rfl
  · split
    · exact s.enterFault_moves
    · split
      · exact s.enterFault_moves
      · exact (State.mapJournal_moves rfl).trans (State.issue_moves _ _)

theorem State.beginWrite_moves (s : State) (w : WriteJob) : TableMove s (s.beginWrite w) := by
  unfold State.beginWrite
  refine (State.mapJournal_moves rfl : TableMove s (s.mapJournal fun jc => jc.startWrite w)).trans ?_
  dsimp only
  split
  · exact State.openBand_moves _ _
  · split
    · exact State.issue_moves _ _
    · exact State.issue_moves _ _

/-! ### The end of a write (R144, R151, R158) -/

/-- A change of one entry's fields outside the version and the send mark. -/
theorem State.mapEntry_moves {s : State} (id : Nat) {f : Entry → Entry} (keeps : KeepsVersion f) (hm : ∀ e, (f e).mark = e.mark) :
    TableMove s (s.mapEntry id f) :=
  .someFields (fun e => e.id = id) keeps hm (.of_eq rfl rfl rfl) rfl rfl

theorem State.sweep_moves (s : State) : TableMove s s.sweep := by
  unfold State.sweep
  split
  · dsimp only
    generalize (((s.pt.entries.filter fun e => e.jstate = .unsaved).map Entry.id).take Config.maxQueue) = ids
    exact .someFields (fun e => ids.contains e.id = true) (f := fun e => { e with jstate := .queued })
      (fun _ => ⟨rfl, rfl, rfl, rfl, rfl⟩) (fun _ => rfl) (.of_eq rfl rfl rfl) rfl rfl
  · exact .refl s

theorem State.moveBase_moves (s : State) (id band seq : Nat) : TableMove s (s.moveBase id band seq) := by
  unfold State.moveBase
  split
  · split
    · exact .refl s
    · next e _ _ =>
      exact TableMove.trans (t := { s with jc := { s.jc with bands := raiseLive (dropLive s.jc.bands e.base) band } })
        (.still rfl rfl rfl rfl rfl) (State.mapEntry_moves id (fun _ => ⟨rfl, rfl, rfl, rfl, rfl⟩) fun _ => rfl)
  · exact .refl s

theorem State.settleBase_moves (s : State) (w : WriteJob) (h : Head) : TableMove s (s.settleBase w h) := by
  unfold State.settleBase
  split
  · split
    · exact s.moveBase_moves _ _ _
    · exact .refl s
  · exact .refl s

theorem State.settleId_moves (s : State) (w : WriteJob) : TableMove s (s.settleId w) := by
  have hsaved : TableMove s ((s.mapJournal fun jc => jc.leave w.id).mapEntry w.id Entry.saved) :=
    (State.mapJournal_moves rfl).trans (State.mapEntry_moves w.id (fun _ => ⟨rfl, rfl, rfl, rfl, rfl⟩) fun _ => rfl)
  unfold State.settleId
  split
  · split
    · exact State.mapJournal_moves rfl
    · exact hsaved
  · split
    · exact .refl s
    · exact hsaved

theorem State.settleFlush_moves (s : State) : TableMove s s.settleFlush := by
  unfold State.settleFlush
  split
  · exact s.completeLong_moves _ _
  · exact .refl s

theorem State.writeDone_moves (s : State) (w : WriteJob) (h : Head) : TableMove s (s.writeDone w h) := by
  have hjudged : ∀ u : State, TableMove s u → TableMove s (if u.jc.chooseHeld then u.judgeTrigger else u).settleFlush := by
    intro u hu
    refine TableMove.trans ?_ (State.settleFlush_moves _)
    split
    · exact hu.trans u.judgeTrigger_moves
    · exact hu
  unfold State.writeDone
  dsimp only
  apply hjudged
  refine TableMove.trans ?_ (State.sweep_moves _)
  refine TableMove.trans ?_ (State.mapJournal_moves rfl)
  refine TableMove.trans ?_ (State.settleId_moves _ _)
  refine TableMove.trans ?_ (State.settleBase_moves _ _ _)
  exact (s.count_moves _).trans (State.mapJournal_moves rfl)

theorem State.rewrite_moves (s : State) (w : WriteJob) : TableMove s (s.rewrite w) := by
  unfold State.rewrite
  split
  · exact (State.mapJournal_moves rfl).trans (State.openBand_moves _ _)
  · exact State.mapJournal_moves rfl

/-! ### The end of replay (R168 to R170) -/

/-- The table settled: every mark NONE, the outbound list of a part in replay being empty (R168). -/
theorem State.settleTable_moves {s : State} (hr : s.jc.replay ≠ none) :
    TableMove s s.settleTable ∧ s.settleTable.jc.replay = s.jc.replay := by
  have hmove : ∀ (f : Entry → Entry) (jc : Journal), KeepsVersion f → (∀ e, (f e).mark = .none) → jc.replay = s.jc.replay →
      TableMove s { s with pt := s.pt.mapEntries f, jc := jc } := fun f jc keeps hm hjc => by
    refine .fields f keeps (.of_eq rfl hjc rfl) rfl fun _ ho => ?_
    obtain ⟨-, -, -, -, hreplay⟩ := ho
    obtain ⟨r, hr⟩ := Option.ne_none_iff_exists'.mp hr
    show s.re.outbound.Nodup ∧ (∀ i ∈ s.re.outbound, _) ∧ (∀ e ∈ s.pt.entries, _ ↔ e.id ∈ s.re.outbound) ∧ (_ → s.re.outbound = [])
    rw [(hreplay r hr).2.1]
    simp [hm]
  unfold State.settleTable
  dsimp only
  have hsettled : ∀ firsts, KeepsVersion (s.jc.settled firsts) ∧ ∀ e, (s.jc.settled firsts e).mark = .none :=
    fun firsts => ⟨fun _ => ⟨rfl, rfl, rfl, rfl, rfl⟩, fun _ => rfl⟩
  split
  · exact ⟨TableMove.trans (hmove _ _ (hsettled _).1 (hsettled _).2 (by rfl)) (State.notify_moves _ .unsaved 0), rfl⟩
  · exact ⟨hmove _ _ (hsettled _).1 (hsettled _).2 (by rfl), rfl⟩

theorem State.leaveReplay_moves (s : State) : TableMove s s.leaveReplay :=
  .quiet (.of_flight (.of_eq rfl) fun h => absurd rfl h) rfl rfl

theorem State.completeReplay_moves (s : State) : TableMove s s.completeReplay :=
  s.leaveReplay_moves.trans (State.judgeTrigger_moves _)

/-- A change of phase: replay goes on if it did. -/
theorem State.setPhase_moves (s : State) (p : ReplayPhase) : TableMove s (s.setPhase p) :=
  .quiet (.of_flight (.of_eq rfl) fun h => ⟨fun hn => h (by simp [State.setPhase, hn]), id⟩) rfl rfl

theorem State.nextClose_moves (s : State) (todo : List (Nat × Nat)) : TableMove s (s.nextClose todo) := by
  cases todo with
  | nil => exact s.completeReplay_moves
  | cons c todo => exact (s.setPhase_moves _).trans (State.issue_moves _ _)

theorem State.finishWalk_moves (s : State) : TableMove s s.finishWalk := by
  unfold State.finishWalk
  split
  · next r hr =>
    refine (State.settleTable_moves (by simp [hr])).1.trans ?_
    unfold State.settleHead
    exact TableMove.trans (State.mapJournal_moves (by rfl)) (State.nextClose_moves _ _)
  · exact .refl s

theorem State.replayFault_moves {s : State} (hr : s.jc.replay ≠ none) : TableMove s s.replayFault := by
  unfold State.replayFault
  dsimp only
  refine TableMove.trans ?_ ((State.leaveReplay_moves _).trans (State.enterFault_moves _))
  have hrows : TableMove s (s.mapJournal fun jc => { jc with bands := jc.badRows (bandCount s.straps), toErase := [] }) :=
    State.mapJournal_moves rfl
  split
  · exact hrows
  · exact hrows.trans (State.settleTable_moves (by exact hr)).1

theorem State.fail_moves (s : State) : TableMove s s.fail := by
  unfold State.fail
  split
  · next h => exact State.replayFault_moves (Option.isSome_iff_ne_none.mp h)
  · exact s.enterFault_moves

theorem State.readOn_moves (s : State) : TableMove s s.readOn := s.mapPort_moves _

theorem State.resume_moves (s : State) : TableMove s s.resume := by
  have hnext : TableMove s (match s.jc.next with | some p => s.issue p | none => s) := by
    split
    · exact s.issue_moves _
    · exact .refl s
  unfold State.resume
  split
  · split
    · unfold State.resumeReplay
      split
      · exact (s.setPhase_moves _).trans (State.readOn_moves _)
      · exact s.readOn_moves
      · exact s.readOn_moves
      · exact hnext
    · split
      · exact s.mapPort_moves _
      · exact s.mapPort_moves _
      · exact hnext
  · exact .refl s

/-! ### Programs, erases and lends (chapter 10) -/

theorem State.withWrite_moves {s : State} {k : WriteJob → State} (h : ∀ w, TableMove s (k w)) : TableMove s (s.withWrite k) := by
  unfold State.withWrite
  split
  · exact h _
  · exact .refl s

theorem State.withHead_moves {s : State} {k : Head → State} (h : ∀ x, TableMove s (k x)) : TableMove s (s.withHead k) := by
  unfold State.withHead
  split
  · exact h _
  · exact .refl s

theorem State.bandOpened_moves (s : State) (band : Nat) (w : WriteJob) : TableMove s (s.bandOpened band w) := by
  unfold State.bandOpened
  exact (State.mapJournal_moves rfl).trans ((State.judgeTrigger_moves _).trans (State.issue_moves _ _))

theorem State.replayClosed_moves (s : State) (written : Bool) : TableMove s (s.replayClosed written) := by
  unfold State.replayClosed
  split
  · refine TableMove.trans ?_ (State.nextClose_moves _ _)
    refine TableMove.trans ?_ (State.setPhase_moves _ _)
    refine State.mapJournal_moves ?_
    split <;> rfl
  · exact .refl s

theorem State.programDone_moves (s : State) (p : Prog) : TableMove s (s.programDone p) := by
  unfold State.programDone
  split
  · exact s.issue_moves _
  · exact State.withWrite_moves fun w => State.withHead_moves fun h =>
      (State.mapJournal_moves rfl).trans (State.openBand_moves _ _)
  · exact State.withWrite_moves fun w => s.bandOpened_moves _ w
  · refine State.withWrite_moves fun w => State.withHead_moves fun h => ?_
    split
    · exact s.writeDone_moves w h
    · exact s.issue_moves _
  · exact State.withWrite_moves fun w => State.withHead_moves fun h => s.writeDone_moves w h
  · exact State.withWrite_moves fun w => State.withHead_moves fun h => s.issue_moves _
  · exact s.issue_moves _
  · exact State.withWrite_moves fun w => State.withHead_moves fun h =>
      (State.mapJournal_moves rfl).trans (State.rewrite_moves _ _)
  · unfold State.issueInReplay
    split <;> exact .still rfl rfl rfl rfl rfl
  · exact s.replayClosed_moves true

theorem State.headerFailed_moves (s : State) (band : Nat) : TableMove s (s.headerFailed band) := by
  unfold State.headerFailed
  dsimp only
  have h : TableMove s (s.mapJournal fun jc => jc.mapRow band (.bare .bad)).judgeUsable :=
    (State.mapJournal_moves rfl).trans (State.judgeUsable_moves _)
  refine h.trans ?_
  split
  · exact .refl _
  · exact State.withWrite_moves fun w => State.openBand_moves _ w

theorem State.programFailed_moves (s : State) (p : Prog) : TableMove s (s.programFailed p) := by
  have hcount : TableMove s s.countFailure := .still rfl rfl rfl rfl rfl
  unfold State.programFailed
  dsimp only
  refine hcount.trans ?_
  split
  · exact State.fail_moves _
  · split
    · exact State.withHead_moves fun h => State.issue_moves _ _
    · exact State.withHead_moves fun h => State.issue_moves _ _
    · exact State.withWrite_moves fun w => (State.mapJournal_moves rfl).trans (State.openBand_moves _ _)
    · exact State.withWrite_moves fun w => (State.mapJournal_moves rfl).trans (State.openBand_moves _ _)
    · exact State.headerFailed_moves _ _
    · exact State.fail_moves _
    · exact State.fail_moves _
    · exact State.fail_moves _
    · exact State.replayClosed_moves _ _
    · exact State.replayClosed_moves _ _

theorem State.land_moves (s : State) (left : DeviceLeft) : TableMove s (s.land left) := by
  unfold State.land
  split <;> exact .still rfl rfl rfl rfl rfl

theorem Journal.eraseOver_replay (jc : Journal) (band : Nat) : (jc.eraseOver band).replay = jc.replay := by
  unfold Journal.eraseOver
  dsimp only
  split <;> rfl

theorem State.eraseDone_moves (s : State) (band : Nat) : TableMove s (s.eraseDone band) :=
  (s.count_moves _).trans ((State.mapJournal_moves (Journal.eraseOver_replay _ _)).trans (State.judgeTrigger_moves _))

theorem State.eraseFailed_moves (s : State) (band : Nat) : TableMove s (s.eraseFailed band) :=
  (State.mapJournal_moves (Journal.eraseOver_replay _ _)).trans (State.judgeUsable_moves _)

/-! ### The records of replay (R165 to R167) -/

/-- A record read from flash has the data bytes that its kind and its length call for (R136, R140). -/
theorem readRecord_data {f : List Host.Cell} {base off size : Nat} {r : JRecord} (h : readRecord f base off = .record r size) :
    r.data.length ≤ Config.maxLength ∧ (r.kind = 2 → r.offset ≤ r.length ∧ r.data.length = r.length - r.offset)
      ∧ (r.kind ≠ 2 → (r.kind = 3 ∧ r.loc = true) ∨ (r.loc = true → r.data ≠ [])) := by
  unfold readRecord at h
  simp only at h
  split at h
  · cases h
  · split at h
    · cases h
    · split at h
      · cases h
      · next n hn =>
        split at h
        · cases h
        · cases h
          have hlen : ∀ a k, (Flash.read f a k).length = k := fun a k => by simp [Flash.read]
          have h32 : Config.maxLength = 32 := rfl
          unfold dataLength at hn
          dsimp only
          rw [hlen, h32]
          split at hn <;> simp only [Option.ite_none_right_eq_some, Option.some.injEq, reduceCtorEq] at hn
          · next hk =>
            refine ⟨by omega, fun h2 => by omega, fun _ => .inr fun _ hnil => ?_⟩
            have := congrArg List.length hnil
            rw [hlen] at this
            simp only [List.length_nil] at this
            omega
          · next hk => exact ⟨by omega, fun _ => by omega, fun h2 => absurd hk h2⟩
          · next hk =>
            refine ⟨by omega, fun h2 => by omega, fun _ => ?_⟩
            by_cases hl : ((Flash.read f (base + off) 13).getD 1 0).getLsbD 0 = true
            · exact .inl ⟨hk, hl⟩
            · exact .inr fun h' => absurd h' hl

end Sys2Proof.Machine
end

section
/-! The records of replay, the commands, and the theorem that every step makes such moves; the three laws of chapter 1. -/

namespace Sys2Proof.Machine

/-! ### The records of replay (R165 to R167) -/

theorem State.addAnomalies_moves (s : State) (k : Nat) : TableMove s (s.addAnomalies k) := State.mapJournal_moves rfl

/-- A record that replay can apply: its fields in range, its data those of its kind. -/
def JRecord.Sound (r : JRecord) : Prop :=
  validId r.id = true ∧ validGen r.gen = true ∧ r.origin ≤ 31 ∧ r.data.length ≤ Config.maxLength

/-- A whole record goes into the table of a part in replay (R166). -/
theorem State.replayEntry_moves {s : State} {r : JRecord} (seq : Nat) (hr : s.jc.replay ≠ none) (hs : r.Sound)
    (hloc : r.loc = true → r.data ≠ []) (hh : r.gen ≤ s.pt.h) : TableMove s (s.replayEntry seq r (s.entry r.id)) := by
  obtain ⟨hid, hgen, horg, hlen⟩ := hs
  obtain ⟨hbid, hmark, -⟩ := s.entryBefore r.id .shared
  unfold State.replayEntry
  split
  · exact s.addAnomalies_moves 1
  · next hroom =>
    split
    · exact s.addAnomalies_moves 1
    · next slot hslot =>
      generalize (s.entry r.id).getD (Entry.fresh r.id .shared) = old at hbid hmark
      dsimp only
      rw [hbid]
      refine .put { old with
          id := r.id, ver := r.ver r.data, value := r.data, scope := if r.loc then .loc else .shared, slot := slot
          base := some seq }
        (.of_slotFor (fun _ => hid) (fun _ => ⟨hgen, hh⟩) horg rfl hlen (fun h => hloc ?_) (Bool.eq_false_iff.mpr hroom) hslot)
        (.inr hr) (.of_eq rfl rfl rfl) rfl (.inl ⟨rfl, hmark⟩)
      by_contra hl
      simp [hl] at h

theorem State.replayWhole_moves {s : State} {r : JRecord} (seq : Nat) (hr : s.jc.replay ≠ none) (hs : r.Sound)
    (hloc : r.loc = true → r.data ≠ []) (hh : r.gen ≤ s.pt.h) : TableMove s (s.replayWhole seq r) := by
  have hput : ∀ old, s.entry r.id = old → TableMove s (s.replayEntry seq r old) := by
    rintro _ rfl
    exact State.replayEntry_moves seq hr hs hloc hh
  unfold State.replayWhole
  cases he : s.entry r.id with
  | none => exact hput _ he
  | some e =>
    dsimp only
    split
    · exact hput _ he
    · exact .refl s

theorem State.replayDelete_moves (s : State) (r : JRecord) : TableMove s (s.replayDelete r) := by
  unfold State.replayDelete
  split
  · next e he =>
    split
    · next h =>
      refine .delete r.id (fun x hx => ?_) (.of_eq rfl rfl rfl) rfl rfl
      exact Option.some.inj (he.symm.trans hx) ▸ h.1
    · exact .refl s
  · exact .refl s

/-- A TAIL keeps the length of its entry's value, and so its slot (R167). -/
theorem State.replayTail_moves {s : State} {r : JRecord} (hs : r.Sound) (hh : r.gen ≤ s.pt.h)
    (hdata : r.offset ≤ r.length ∧ r.data.length = r.length - r.offset) : TableMove s (s.replayTail r) := by
  obtain ⟨-, hgen, horg, -⟩ := hs
  unfold State.replayTail
  split
  · exact .refl s
  · next e he =>
    dsimp only
    generalize (if r.loc = true then Scope.loc else Scope.shared) = scope
    split
    · next hfits =>
      simp only [Bool.and_eq_true, beq_iff_eq] at hfits
      obtain ⟨⟨⟨-, -⟩, hlength⟩, -⟩ := hfits
      have hlen : (tailValue e r).length = e.value.length := by
        unfold tailValue
        rw [List.length_append, List.length_take, hdata.2]
        omega
      have hfind : findEntry s.pt.entries e.id = some e := (findEntry_id he).symm ▸ he
      refine .put { e with ver := r.ver (tailValue e r), value := tailValue e r } (fun _ => ⟨hh, fun ht => ?_⟩)
        (.inl fun x hx => ?_) (.of_eq rfl rfl rfl) rfl (.inl ⟨rfl, ?_⟩)
      · obtain ⟨-, -, hes, -, -⟩ := ht
        obtain ⟨h1, -, -, -, h5, h6, h7⟩ := hes e (findEntry_mem he)
        refine ⟨⟨h1, hgen, horg, rfl, hlen ▸ h5, fun hl hnil => h6 hl ?_, hlen ▸ h7⟩, fun hn => ?_, fun k hk => .inl ?_⟩
        · have : (tailValue e r).length = 0 := by
            rw [show tailValue e r = [] from hnil]
            rfl
          exact List.eq_nil_of_length_eq_zero (hlen ▸ this)
        · cases hfind.symm.trans hn
        · rw [hfind]
          exact hk
      · have hxe : x = e := Option.some.inj (hx.symm.trans hfind)
        rw [hxe]
      · show e.mark = (findEntry s.pt.entries e.id).elim _ _
        rw [hfind]
        rfl
    · exact s.addAnomalies_moves 1

/-- A record read from flash, applied by a part in replay, which stays in replay. -/
theorem State.replayRecord_moves {s : State} {f : List Host.Cell} {base off size : Nat} {r : JRecord} (seq : Nat)
    (hread : readRecord f base off = .record r size) (hr : s.jc.replay ≠ none) : TableMove s (s.replayRecord seq r) := by
  obtain ⟨hlen, htail, hwhole⟩ := readRecord_data hread
  unfold State.replayRecord
  split
  · exact s.addAnomalies_moves 1
  · next hv =>
    simp only [Bool.or_eq_true, Bool.not_eq_true', decide_eq_true_eq, not_or, Bool.not_eq_false, not_lt] at hv
    obtain ⟨⟨hid, hgen⟩, horg⟩ := hv
    have hs : r.Sound := ⟨hid, hgen, horg, hlen⟩
    have hle : r.gen ≤ Config.maxGeneration := by
      simp only [validGen, Bool.and_eq_true, decide_eq_true_eq] at hgen
      exact hgen.2
    have hh : r.gen ≤ (s.pt.raiseH r.gen).h := Nat.le_max_right _ _
    dsimp only
    refine TableMove.trans (t := { s with pt := s.pt.raiseH r.gen }) (.raise r.gen (fun _ => hle) (.of_eq rfl rfl rfl) rfl rfl) ?_
    split
    · next h2 => exact State.replayTail_moves hs hh (htail h2)
    · next h2 =>
      split
      · exact State.replayDelete_moves _ r
      · next h3 => exact State.replayWhole_moves seq (by exact hr) hs ((hwhole h2).resolve_left h3) hh

/-- What the application of a record leaves of the journal: all but the anomaly count. -/
theorem State.replayRecord_replay (s : State) (seq : Nat) (r : JRecord) : (s.replayRecord seq r).jc.replay = s.jc.replay := by
  have hentry : ∀ (u : State) old, (u.replayEntry seq r old).jc.replay = u.jc.replay := fun u old => by
    unfold State.replayEntry
    split
    · rfl
    · split <;> rfl
  unfold State.replayRecord
  split
  · rfl
  · dsimp only
    split
    · unfold State.replayTail
      split
      · rfl
      · dsimp only
        generalize (if r.loc = true then Scope.loc else Scope.shared) = scope
        split <;> rfl
    · split
      · unfold State.replayDelete
        split
        · split <;> rfl
        · rfl
      · unfold State.replayWhole
        split
        · exact hentry _ _
        · split
          · exact hentry _ _
          · rfl

theorem walkBand_moves (fuel : Nat) {s : State} (hr : s.jc.replay ≠ none) (band seq : Nat) (closeEnd : Option Nat) (off : Nat) :
    TableMove s (walkBand fuel s band seq closeEnd off).1
      ∧ (walkBand fuel s band seq closeEnd off).1.jc.replay = s.jc.replay := by
  induction fuel generalizing s off with
  | zero => exact ⟨.refl s, rfl⟩
  | succ fuel ih =>
    unfold walkBand
    split
    · exact ⟨.refl s, rfl⟩
    · split
      · exact ⟨.refl s, rfl⟩
      · split
        · exact ⟨.refl s, rfl⟩
        · exact ⟨.refl s, rfl⟩
        · exact ⟨.refl s, rfl⟩
        · next r size hread =>
          have hrep := s.replayRecord_replay seq r
          obtain ⟨h1, h2⟩ := ih (s := s.replayRecord seq r) (by rwa [hrep]) (off + size)
          exact ⟨(State.replayRecord_moves seq hread hr).trans h1, h2.trans hrep⟩

/-- A change of the Journal Controller of a part in replay. -/
theorem State.mapJournal_replaying {s : State} {f : Journal → Journal} (hr : s.jc.replay ≠ none) : TableMove s (s.mapJournal f) :=
  .quiet (.of_flight (.of_eq rfl) fun _ => ⟨hr, id⟩) rfl rfl

theorem State.walkOne_moves {s : State} (hr : s.jc.replay ≠ none) (r : Replay) (band : Nat) (todo : List Nat) :
    TableMove s (s.walkOne r band todo) := by
  unfold State.walkOne
  dsimp only
  generalize (s.jc.seqOf band).getD 0 = seq
  generalize ((r.lens.find? fun l => l.1 = band).map fun l => Config.headerBytes + l.2) = closeEnd
  obtain ⟨hwalk, hrep⟩ := walkBand_moves 320 hr band seq closeEnd Config.headerBytes
  generalize walkBand 320 s band seq closeEnd Config.headerBytes = w at hwalk hrep
  have hnote : ∀ k, TableMove s ((w.1.addAnomalies k).mapJournal fun jc =>
      { jc with replay := some { r with
          phase := .walk todo, ends := r.ends ++ [{ band := band, offset := w.2.1, end_ := w.2.2 }] } }) := fun k =>
    (hwalk.trans (State.addAnomalies_moves _ k)).trans (State.mapJournal_replaying (s := w.1.addAnomalies k) (by
      show w.1.jc.replay ≠ none
      rwa [hrep]))
  split
  · exact (hnote _).trans (State.finishWalk_moves _)
  · exact (hnote _).trans (State.readOn_moves _)

theorem State.endSurvey_moves (s : State) : TableMove s s.endSurvey := by
  have h : TableMove s ((s.addAnomalies (duplicates s.jc.walkOrder)).mapJournal fun jc =>
      { jc with lastSeq := s.jc.walkOrder.foldl (fun m b => max m b.1) 0 }) :=
    (s.addAnomalies_moves _).trans (State.mapJournal_moves rfl)
  unfold State.endSurvey
  dsimp only
  split
  · exact h.trans (State.finishWalk_moves _)
  · exact h.trans ((State.setPhase_moves _ _).trans (State.readOn_moves _))

theorem State.surveyHeader_moves {s : State} (hr : s.jc.replay ≠ none) (r : Replay) (i : Nat) :
    TableMove s (s.surveyHeader r i) := by
  have hnext : ∀ u : State, TableMove u (if i + 1 < bandCount u.straps then (u.setPhase (.survey (i + 1))).readOn else u.endSurvey) := by
    intro u
    split
    · exact (u.setPhase_moves _).trans (State.readOn_moves _)
    · exact u.endSurvey_moves
  unfold State.surveyHeader
  refine TableMove.trans ?_ (hnext _)
  exact (State.mapJournal_replaying hr).trans (State.addAnomalies_moves _ _)

/-! ### The commands of the host (chapter 11) -/

/-- The state that the carrying out of a command leaves, its slot apart. -/
def Reply.after : Reply → State
  | .answer _ _ s => s
  | .wait s => s

theorem Reply.settle_moves (k : Reply) (code tag : Byte) : TableMove k.after (k.settle code tag) := by
  cases k <;> exact .still rfl rfl rfl rfl rfl

theorem sendCommand_moves {code : Byte} {b : Block} {body : List Byte → State → Reply} {s t : State}
    (h : ∀ p u, TableMove u (body p u).after) (ht : sendCommand code b body s = .next t) : TableMove s t := by
  have hstatus : ∀ n, TableMove s (s.statusOnly n) := fun n => .still rfl rfl rfl rfl rfl
  have hslot : ∀ (u : State) sl, TableMove u (u.setSlot sl) := fun u sl => .still rfl rfl rfl rfl rfl
  have hjudge : TableMove s (s.judgeBlock code b body) := by
    unfold State.judgeBlock
    refine (hstatus (blockCount b + b.extra)).trans ?_
    dsimp only
    split
    · exact .still rfl rfl rfl rfl rfl
    · split
      · exact hslot _ _
      · exact (hslot _ _).trans ((h _ _).trans (Reply.settle_moves _ _ _))
  rcases whenRunning_cases s fun s => s.judgeBlock code b body with hw | hw <;> rw [sendCommand, hw] at ht <;> cases ht
  · exact hjudge
  · exact .refl s

/-- A command that passes the tests 1 and 2 of R186. -/
theorem tested_moves {inReplay fits : Bool} {s : State} {k : Reply}
    (h : (s.sc.station = .replay → inReplay = true) → fits = true → TableMove s k.after) :
    TableMove s (tested inReplay fits s k).after := by
  unfold tested
  split
  · exact .refl s
  · next h1 =>
    split
    · exact .refl s
    · next h2 => exact h (by simpa using h1) (by simpa using h2)

theorem getBody_moves (p : List Byte) (s : State) : TableMove s (getBody p s).after := by
  refine tested_moves fun _ _ => ?_
  split
  · exact .refl s
  · split <;> exact .refl s

theorem listBody_moves (p : List Byte) (s : State) : TableMove s (listBody p s).after := by
  refine tested_moves fun _ _ => ?_
  split <;> exact .refl s

theorem countersBody_moves (p : List Byte) (s : State) : TableMove s (countersBody p s).after := by
  refine tested_moves fun _ _ => ?_
  show TableMove s (if num p 0 1 = 1 then s.count fun _ => .zero else s)
  split
  · exact s.count_moves _
  · exact .refl s

theorem setupBody_moves (p : List Byte) (s : State) : TableMove s (setupBody p s).after := by
  refine tested_moves fun _ _ => ?_
  split
  · exact .still rfl rfl rfl rfl rfl
  · exact .refl s

theorem openBody_moves (p : List Byte) (s : State) : TableMove s (openBody p s).after := by
  refine tested_moves fun _ _ => ?_
  split
  · exact .refl s
  · next hheld =>
    split
    · exact .refl s
    · have hst : s.sc.station ≠ .replay := fun h => hheld (by simp [h])
      show TableMove s s.openStation
      unfold State.openStation
      refine TableMove.trans ?_ (State.judge_moves _)
      exact .outside hst (.of_eq rfl) rfl rfl rfl

theorem State.startClosing_moves {s : State} (h : s.sc.station ≠ .replay) : TableMove s s.startClosing := by
  have hst : s.abandonSession.emptyReplies.sc.station ≠ .replay := by
    show s.abandonSession.sc.station ≠ .replay
    rwa [s.abandonSession_station]
  refine TableMove.trans ?_ (State.judge_moves _)
  exact s.abandonSession_moves.trans ((State.emptyReplies_moves _).trans (.outside hst (.of_eq rfl) rfl rfl rfl))

theorem closeBody_moves (p : List Byte) (s : State) : TableMove s (closeBody p s).after := by
  refine tested_moves fun _ _ => ?_
  split
  · next h => exact State.startClosing_moves (by simp [h])
  · next h => exact State.startClosing_moves (by simp [h])
  · next h =>
    show TableMove s s.closeMuted
    unfold State.closeMuted
    refine TableMove.trans ?_ (State.judge_moves _)
    exact .outside (by simp [h]) (.of_eq rfl) rfl rfl rfl
  · exact .refl s
  · exact .refl s
  · exact .refl s

theorem putBody_moves (p : List Byte) (s : State) : TableMove s (putBody p s).after := by
  refine tested_moves fun _ hfits => ?_
  simp only [Bool.and_eq_true, decide_eq_true_eq] at hfits
  obtain ⟨⟨h4, h35⟩, -⟩ := hfits
  split
  · exact .refl s
  · next hid =>
    split
    · exact .refl s
    · next hsh =>
      have hlen : (p.drop 3).length = p.length - 3 := List.length_drop
      refine State.localPut_moves (by simpa using hid) (fun hs hst => hsh ?_) (by rw [hlen]; show _ ≤ 32; omega) fun hn => ?_
      · simp [hs, hst, Station.changesShared]
      · rw [hn] at hlen
        simp only [List.length_nil] at hlen
        omega

theorem removeBody_moves (p : List Byte) (s : State) : TableMove s (removeBody p s).after := by
  refine tested_moves fun _ _ => ?_
  split
  · exact .refl s
  · next hid =>
    split
    · exact .refl s
    · next hsh =>
      refine State.localRemove_moves (by simpa using hid) fun e he hs hst => hsh ?_
      simp [he, hs, hst, Station.changesShared]

theorem watchBody_moves (p : List Byte) (s : State) : TableMove s (watchBody p s).after := by
  refine tested_moves fun _ _ => ?_
  split
  · exact .refl s
  · split
    · exact .refl s
    · split
      · exact .refl s
      · exact State.mapEntry_moves _ (fun _ => ⟨rfl, rfl, rfl, rfl, rfl⟩) fun _ => rfl

theorem flushBody_moves (p : List Byte) (s : State) : TableMove s (flushBody p s).after := by
  refine tested_moves fun _ _ => ?_
  split
  · exact .refl s
  · split <;> exact .refl s

end Sys2Proof.Machine
end

section
/-! Every command, and so every step, makes only moves of the table that keep its laws. -/

namespace Sys2Proof.Machine

/-- A command that goes on makes a move of the table. -/
def Moves (s : State) (o : Host.Outcome State Fault Refusal) : Prop := ∀ t, o = .next t → TableMove s t

theorem Moves.next {s t : State} (h : TableMove s t) : Moves s (.next t) := fun _ ht => Host.Outcome.next.inj ht ▸ h

theorem Moves.nothing (s : State) : Moves s (noEvent s) := .next (.refl s)

theorem Moves.running {s : State} {k : State → State} (h : TableMove s (k s)) : Moves s (whenRunning s k) := by
  rcases whenRunning_cases s k with hw | hw <;> rw [hw]
  · exact .next h
  · exact .next (.refl s)

theorem Moves.command {code : Byte} {b : Block} {body : List Byte → State → Reply} {s : State}
    (h : ∀ p u, TableMove u (body p u).after) : Moves s (sendCommand code b body s) :=
  fun _ ht => sendCommand_moves h ht

/-- An operation that may be followed by another. -/
theorem TableMove.thenIf {s t u : State} {c : Prop} [Decidable c] (h : TableMove s t) (hu : TableMove t u) :
    TableMove s (if c then u else t) := by
  split
  · exact h.trans hu
  · exact h

/-! ### The line (chapter 3) -/

theorem execFrameStart_moves (line : Level) (s : State) : Moves s (execFrameStart line s) := by
  refine .running ?_
  split
  · next cls d hd =>
    split
    · refine (s.passLine_moves (s.gap cls - s.li.quiet)).trans ?_
      split
      · exact .still rfl rfl rfl rfl rfl
      · exact State.startDemand_moves (by rw [State.passLine_station]; exact State.nextDemand_outside hd) cls d
    · exact .refl s
  · exact .refl s

theorem execFrameComplete_moves (s : State) : Moves s (execFrameComplete s) := by
  refine .running ?_
  split
  · split
    · exact .refl s
    · exact (s.frameSent_moves _).trans (State.demandCompleted_moves _ _)
  · exact .refl s

/-- A frame given up: the line state changes, the ids of an UPDATE return (R43). -/
theorem State.frameUndone_moves {s u : State} {f : Flight} (hf : s.li.flight = some f) (line : LineKept s u) (hpt : u.pt = s.pt)
    (hout : u.re.outbound = s.re.outbound) : TableMove s (u.frameUndone f) := by
  unfold State.frameUndone
  split
  · next packed hc => exact State.restoreIds_moves hf hc line hpt hout
  · exact .quiet line hpt hout

/-- The line state after a frame given up some bits on. -/
theorem LineKept.givenUp {s u : State} {n : Nat} (hfl : u.li.flight = none) (hjc : u.jc = (s.passLine n).jc)
    (hsc : u.sc = (s.passLine n).sc) : LineKept s u := by
  obtain ⟨_, _, _, hj, _, _, _⟩ := s.passLine_frame n
  refine .of_flight (.of_none hfl) fun h => ⟨?_, fun hs => ?_⟩
  · rwa [hjc, hj] at h
  · rw [hsc, State.passLine_station, hs]

theorem State.passLine_outbound (s : State) (n : Nat) : (s.passLine n).re.outbound = s.re.outbound := by
  rw [s.passLine_re n]

theorem execWithdrawal_moves (bit : Nat) (s : State) : Moves s (execWithdrawal bit s) := by
  refine .running ?_
  split
  · next f hf =>
    split
    · obtain ⟨_, _, hpt, _, _, _, _⟩ := s.passLine_frame (bit - f.elapsed)
      have hout := s.passLine_outbound (bit - f.elapsed)
      dsimp only
      split
      · next packed hc =>
        refine TableMove.trans ?_ (State.judge_moves _)
        exact State.restoreIds_moves hf hc (.givenUp (n := bit - f.elapsed) rfl rfl rfl) hpt hout
      · exact .quiet (.givenUp (n := bit - f.elapsed) rfl rfl rfl) hpt hout
    · exact .refl s
  · exact .refl s

theorem execDriveFault_moves (bit : Nat) (s : State) : Moves s (execDriveFault bit s) := by
  refine .running ?_
  split
  · next f hf =>
    split
    · obtain ⟨_, _, hpt, _, _, _, _⟩ := s.passLine_frame (bit - f.elapsed)
      have hout := s.passLine_outbound (bit - f.elapsed)
      dsimp only
      have hcut : TableMove s (State.frameUndone { s.passLine (bit - f.elapsed) with
          li := { (s.passLine (bit - f.elapsed)).li with
            receiver := .seeking, quiet := 0, stuck := 0, stuckDeclared := false, line := .recessive, flight := none } } f) :=
        State.frameUndone_moves hf (.givenUp (n := bit - f.elapsed) rfl rfl rfl) hpt hout
      split
      · exact hcut.trans (.still rfl rfl rfl rfl rfl)
      · exact hcut.trans (State.takeCause_moves _ _)
    · exact .refl s
  · exact .refl s

theorem execProbeDue_moves (s : State) : Moves s (execProbeDue s) := by
  refine .running ?_
  split
  · split
    · exact .refl s
    · exact (s.passUntil_moves _ _).trans (.still rfl rfl rfl rfl rfl)
  · exact .refl s

theorem execProbeStart_moves (line : Level) (s : State) : Moves s (execProbeStart line s) := by
  refine .running ?_
  split
  · next h =>
    obtain ⟨hst, -, -⟩ := h
    refine (s.passLine_moves (Config.probeGap - s.li.quiet)).trans ?_
    split
    · exact .still rfl rfl rfl rfl rfl
    · refine TableMove.trans (t := (s.passLine (Config.probeGap - s.li.quiet)).useSequence) (.still rfl rfl rfl rfl rfl) ?_
      refine State.launch_moves ?_ _ _ _ (by simp)
      show (s.passLine _).sc.station ≠ .replay
      simp [State.passLine_station, hst]
  · exact .refl s

/-- The completion of a frame's demand leaves MUTED. -/
theorem State.demandCompleted_muted {s : State} (h : s.sc.station = .muted) (f : Flight) :
    (s.demandCompleted f).sc.station = .muted := by
  unfold State.demandCompleted
  split
  · exact h
  · exact h
  · split <;> exact h
  · unfold State.replyCompleted
    split
    · split
      · exact h
      · split <;> exact h
    · exact h
  · rwa [if_neg (by simp [h])]

theorem execProbeComplete_moves (s : State) : Moves s (execProbeComplete s) := by
  refine .running ?_
  split
  · next f hf =>
    split
    · next h =>
      have hst : (s.frameSent f).sc.station = .muted := (s.passLine_station _).trans h.2
      refine (s.frameSent_moves f).trans ((State.demandCompleted_moves _ f).trans (.trans (State.recover_moves ?_) (State.judge_moves _)))
      simp [State.demandCompleted_muted hst]
    · exact .refl s
  · exact .refl s

theorem execStartBit_moves (c : LineChange) (s : State) : Moves s (execStartBit c s) := by
  have hflight : ∀ c, (s.li.change c).flight = s.li.flight := fun c => by cases c <;> rfl
  refine .running ?_
  split
  · exact .still rfl rfl rfl rfl rfl
  · exact .still rfl rfl (hflight c) rfl rfl
  · exact .still rfl rfl (hflight c) rfl rfl
  · exact .still rfl rfl (hflight c) rfl rfl
  · exact .refl s

theorem State.testFrame_moves (s : State) (chars : List Byte) : TableMove s (s.testFrame chars) := by
  unfold State.testFrame
  split
  · exact s.count_moves _
  · split
    · exact s.count_moves _
    · split
      · unfold State.duplicateStation
        split
        · exact s.takeCause_moves _
        · exact (s.notify_moves _ _).trans (State.takeCause_moves _ _)
      · unfold State.bufferFrame
        split <;> exact .still rfl rfl rfl rfl rfl

theorem State.seekQuiet_moves (s : State) (n : Nat) : TableMove s (s.seekQuiet n) := .still rfl rfl rfl rfl rfl

theorem execFrameReceived_moves (chars : List Byte) (s : State) : Moves s (execFrameReceived chars s) := by
  refine .running ?_
  split
  · split
    · exact (s.passLine_moves _).trans ((State.seekQuiet_moves _ _).trans (State.testFrame_moves _ _))
    · exact .refl s
  · exact .refl s

theorem execFramingError_moves (d : DominantStop) (s : State) : Moves s (execFramingError d s) := by
  refine .running ?_
  split
  · split
    · exact (s.passLine_moves _).trans (.still rfl rfl rfl rfl rfl)
    · exact .refl s
  · exact .refl s

theorem execFormatError_moves (char4 : Byte) (s : State) : Moves s (execFormatError char4 s) := by
  refine .running ?_
  split
  · split
    · exact (s.passLine_moves _).trans (.still rfl rfl rfl rfl rfl)
    · exact .refl s
  · exact .refl s

theorem execGapError_moves (quiet : Nat) (s : State) : Moves s (execGapError quiet s) := by
  refine .running ?_
  split
  · split
    · exact (s.passLine_moves _).trans (.still rfl rfl rfl rfl rfl)
    · exact .refl s
  · exact .refl s

theorem execReceiverIdle_moves (s : State) : Moves s (execReceiverIdle s) := by
  refine .running ?_
  split
  · refine TableMove.trans (t := { s with li := s.li.change .release }) (.still rfl rfl rfl rfl rfl) ?_
    exact (State.passLine_moves _ _).trans (.still rfl rfl rfl rfl rfl)
  · exact .refl s

theorem execStuckDeclaration_moves (s : State) : Moves s (execStuckDeclaration s) := by
  refine .running ?_
  split
  · refine (s.passLine_moves (Config.stuckLimit - s.li.stuck)).trans ?_
    refine TableMove.trans ?_ (State.takeCause_moves _ _)
    exact .still rfl rfl rfl rfl rfl
  · exact .refl s

/-! ### Frames taken and the timers (chapter 5) -/

theorem execTakeFrame_moves (s : State) : Moves s (execTakeFrame s) := by
  refine .running ?_
  split
  · next chars rest hbuf =>
    split
    · exact .refl s
    · next hst =>
      have hleft : TableMove s { s with re := { s.re with rxBuffer := rest } } := .still rfl rfl rfl rfl rfl
      dsimp only
      split
      · next F hF =>
        obtain ⟨-, -, hsound⟩ := parseFrame_sound hF
        exact hleft.trans ((State.actOn_moves (by exact hst) hsound).trans (State.judge_moves _))
      · exact hleft
  · exact .refl s

theorem execReplyTimeout_moves (s : State) : Moves s (execReplyTimeout s) := by
  refine .running ?_
  dsimp only
  split
  · exact (s.passLine_moves _).trans (State.sessionTimeout_moves _)
  · exact .refl s

theorem execSummaryTimerExpiry_moves (s : State) : Moves s (execSummaryTimerExpiry s) := by
  refine .running ?_
  split
  · exact (s.passUntil_moves _ _).trans (.still rfl rfl rfl rfl rfl)
  · exact .refl s

theorem execJoinWindowExpiry_moves (s : State) : Moves s (execJoinWindowExpiry s) := by
  refine .running ?_
  split
  · exact (s.passUntil_moves _ _).trans ((State.endJoinWindow_moves _).trans (State.judge_moves _))
  · exact .refl s

theorem execCloseLimitExpiry_moves (s : State) : Moves s (execCloseLimitExpiry s) := by
  refine .running ?_
  split
  · next hst _ =>
    exact (s.passUntil_moves _ _).trans
      ((State.endClosing_moves (by simp [State.passUntil_station, hst]) _).trans (State.judge_moves _))
  · exact .refl s

theorem State.passSilence_moves (s : State) (p : Peer) (ms : Nat) : TableMove s (s.passSilence p ms) := by
  unfold State.passSilence
  split
  · exact s.passUntil_moves _ _
  · exact .refl s

theorem execPeerLost_moves (n : Nat) (s : State) : Moves s (execPeerLost n s) := by
  refine .running ?_
  dsimp only
  split
  · refine TableMove.trans (.thenIf ?_ ((State.abandonSession_moves _).trans (State.searchSession_moves _))) (State.judge_moves _)
    exact (s.passSilence_moves _ _).trans ((State.updatePeer_moves _ _ _).trans
      ((State.notify_moves _ _ _).trans (State.dropRequest_moves _ _)))
  · exact .refl s

theorem execPeerAbsent_moves (n : Nat) (s : State) : Moves s (execPeerAbsent n s) := by
  refine .running ?_
  dsimp only
  split
  · exact (s.passSilence_moves _ _).trans ((State.updatePeer_moves _ _ _).trans (State.judge_moves _))
  · exact .refl s

/-! ### The command port (chapter 11) -/

theorem execReadStatus_moves (r : StatusRead) (s : State) : Moves s (execReadStatus r s) := by
  refine .running ?_
  split
  · exact .still rfl rfl rfl rfl rfl
  · split <;> exact .still rfl rfl rfl rfl rfl

theorem execOtherTransactionCode_moves (c : OtherCode) (s : State) : Moves s (execOtherTransactionCode c s) := by
  refine .running ?_
  split <;> exact .still rfl rfl rfl rfl rfl

theorem execRestart_moves (n : Nat) (s : State) : Moves s (execRestart n s) := by
  refine .running ?_
  dsimp only
  split <;> exact .still rfl rfl rfl rfl rfl

theorem State.restRead_moves (s : State) (n : Nat) : TableMove s (s.restRead n) := by
  unfold State.restRead
  split
  · dsimp only
    split <;> exact .still rfl rfl rfl rfl rfl
  · exact .refl s

theorem execReadResponse_moves (p : Portion) (s : State) : Moves s (execReadResponse p s) := by
  have hstart : TableMove s s.startRead := .still rfl rfl rfl rfl rfl
  refine .running ?_
  split
  · exact hstart.trans (State.restRead_moves _ _)
  · exact hstart
  · exact s.restRead_moves _

theorem State.restPop_moves (s : State) (n : Nat) : TableMove s (s.restPop n) := by
  unfold State.restPop
  split <;> exact .still rfl rfl rfl rfl rfl

theorem execPopEvent_moves (p : Portion) (s : State) : Moves s (execPopEvent p s) := by
  have hstart : TableMove s s.startPop := .still rfl rfl rfl rfl rfl
  refine .running ?_
  split
  · exact hstart.trans (State.restPop_moves _ _)
  · exact hstart
  · exact s.restPop_moves _

theorem statusBody_moves (p : List Byte) (s : State) : TableMove s (statusBody p s).after := tested_moves fun _ _ => .refl s

theorem journalBody_moves (p : List Byte) (s : State) : TableMove s (journalBody p s).after := tested_moves fun _ _ => .refl s

theorem rosterBody_moves (p : List Byte) (s : State) : TableMove s (rosterBody p s).after := tested_moves fun _ _ => .refl s

theorem execFlushComplete_moves (s : State) : Moves s (execFlushComplete s) := by
  refine .running ?_
  split
  · exact s.completeLong_moves _ _
  · exact s.settleFlush_moves

/-! ### The journal and the Storage Port (chapters 8 to 10) -/

theorem execAppend_moves (s : State) : Moves s (execAppend s) := by
  refine .running ?_
  split
  · split
    · exact s.beginWrite_moves _
    · exact .refl s
  · exact .refl s

theorem execCopy_moves (s : State) : Moves s (execCopy s) := by
  refine .running ?_
  split
  · split
    · split
      · dsimp only
        split
        · exact s.enterFault_moves
        · exact s.beginWrite_moves _
      · exact .refl s
    · exact .refl s
  · exact .refl s

theorem execErase_moves (s : State) : Moves s (execErase s) := by
  refine .running ?_
  split
  · split
    · exact .still rfl rfl rfl rfl rfl
    · exact .refl s
  · exact .refl s

theorem execHeaderSurvey_moves (s : State) : Moves s (execHeaderSurvey s) := by
  refine .running ?_
  split
  · next r hr =>
    split
    · split
      · exact State.surveyHeader_moves (by simp [hr]) _ _
      · exact .refl s
    · exact .refl s
  · exact .refl s

theorem execBandWalk_moves (s : State) : Moves s (execBandWalk s) := by
  refine .running ?_
  split
  · next r hr =>
    split
    · split
      · exact State.walkOne_moves (by simp [hr]) _ _ _
      · exact .refl s
    · exact .refl s
  · exact .refl s

theorem execProgramNotBusy_moves (left : DeviceLeft) (s : State) : Moves s (execProgramNotBusy left s) := by
  refine .running ?_
  split
  · split
    · exact (s.land_moves left).trans (State.mapPort_moves _ _)
    · exact .refl s
  · split
    · exact (s.land_moves left).trans (State.mapPort_moves _ _)
    · exact .refl s
  · exact .refl s

theorem execProgramVerify_moves (s : State) : Moves s (execProgramVerify s) := by
  refine .running ?_
  split
  · split
    · exact (s.mapPort_moves _).trans (State.programDone_moves _ _)
    · exact (s.mapPort_moves _).trans (State.programFailed_moves _ _)
  · exact .refl s

/-- A program or an erase that has not ended in its time. -/
theorem State.timedOut_moves (s : State) (t limit : Nat) (left : DeviceLeft) :
    TableMove s ((s.passUntil t limit).land left).endCommand :=
  (s.passUntil_moves _ _).trans ((State.land_moves _ _).trans (State.mapPort_moves _ _))

theorem execProgramTimeout_moves (left : DeviceLeft) (s : State) : Moves s (execProgramTimeout left s) := by
  refine .running ?_
  split
  · exact (s.timedOut_moves _ _ _).trans (State.programFailed_moves _ _)
  · exact .refl s

theorem execEraseCheck_moves (s : State) : Moves s (execEraseCheck s) := by
  refine .running ?_
  split
  · split
    · exact (s.mapPort_moves _).trans (State.eraseDone_moves _ _)
    · exact (s.mapPort_moves _).trans (State.eraseFailed_moves _ _)
  · exact .refl s

theorem execEraseTimeout_moves (left : DeviceLeft) (s : State) : Moves s (execEraseTimeout left s) := by
  refine .running ?_
  split
  · exact (s.timedOut_moves _ _ _).trans (State.eraseFailed_moves _ _)
  · exact .refl s

theorem execLreqAsserted_moves (s : State) : Moves s (execLreqAsserted s) := by
  unfold execLreqAsserted
  split
  · exact .nothing s
  · dsimp only
    split
    · refine .next ?_
      exact .thenIf ((s.mapPort_moves _).trans (State.mapPort_moves _ _)) (State.grantWaiting_moves _)
    · exact .next (s.mapPort_moves _)

theorem execLendGrant_moves (s : State) : Moves s (execLendGrant s) := by
  refine .running ?_
  split
  · exact s.grantWaiting_moves
  · exact .refl s

theorem execLreqDeasserted_moves (host : List Host.Cell) (s : State) : Moves s (execLreqDeasserted host s) := by
  unfold execLreqDeasserted
  split
  · dsimp only
    split
    · refine .next ?_
      exact .thenIf ((s.mapPort_moves _).trans (State.mapPort_moves _ _)) (State.resume_moves _)
    · exact .next (.still rfl rfl rfl rfl rfl)
    · exact .next (s.mapPort_moves _)
  · exact .nothing s

theorem execBusyCheckEnd_moves (s : State) : Moves s (execBusyCheckEnd s) := by
  refine .running ?_
  split
  · exact .refl s
  · split
    · split
      · exact (s.mapPort_moves _).trans (State.mapPort_moves _ _)
      · exact (s.mapPort_moves _).trans (State.resume_moves _)
    · exact .refl s
  · exact .refl s

theorem execBusyCheckTimeout_moves (s : State) : Moves s (execBusyCheckTimeout s) := by
  refine .running ?_
  split
  · exact .refl s
  · have hfault : ∀ u : State, TableMove u (if u.jc.fault then u else u.fail) := fun u => by
      split
      · exact .refl u
      · exact u.fail_moves
    refine .thenIf (TableMove.trans ?_ (hfault _)) (State.mapPort_moves _ _)
    exact (s.passUntil_moves _ _).trans (State.mapPort_moves _ _)
  · exact .refl s

/-! ### Resets (chapter 9) -/

theorem State.cleared_moves (s : State) (p : Power) (flash : List Host.Cell) : TableMove s (s.cleared p flash) :=
  .reset rfl rfl rfl rfl

theorem State.startUp_moves (s : State) (straps : Straps) : TableMove s (s.startUp straps) := by
  unfold State.startUp
  dsimp only
  split <;> exact .still rfl rfl rfl rfl rfl

theorem execPinReset_moves (left : DeviceLeft) (host : List Host.Cell) (s : State) : Moves s (execPinReset left host s) := by
  unfold execPinReset
  split
  · exact .nothing s
  · exact .next (s.cleared_moves _ _)

theorem execResetRelease_moves (straps : Straps) (s : State) : Moves s (execResetRelease straps s) := by
  unfold execResetRelease
  split
  · exact .nothing s
  · exact .next ((s.cleared_moves _ _).trans (State.startUp_moves _ _))

theorem execRestartTakesEffect_moves (straps : Straps) (host : List Host.Cell) (s : State) :
    Moves s (execRestartTakesEffect straps host s) := by
  refine .running ?_
  split
  · exact (s.cleared_moves _ _).trans (State.startUp_moves _ _)
  · exact .refl s

theorem execLossOfSupply_moves (left : DeviceLeft) (host : List Host.Cell) (s : State) : Moves s (execLossOfSupply left host s) := by
  unfold execLossOfSupply
  split
  · exact .nothing s
  · exact .next (s.cleared_moves _ _)

/-! ### Every step -/

theorem exec_moves (i : Instr) (s : State) : Moves s (exec i s) := by
  cases i with
  | pinReset left host => exact execPinReset_moves left host s
  | resetRelease straps => exact execResetRelease_moves straps s
  | restart n => exact execRestart_moves n s
  | restartTakesEffect straps host => exact execRestartTakesEffect_moves straps host s
  | readStatus r => exact execReadStatus_moves r s
  | otherTransactionCode c => exact execOtherTransactionCode_moves c s
  | commandBlockAborted bytes => exact .running (k := fun s => s.statusOnly bytes.length) (.still rfl rfl rfl rfl rfl)
  | unknownCommand code b => exact .command fun _ u => .refl u
  | readResponse p => exact execReadResponse_moves p s
  | popEvent p => exact execPopEvent_moves p s
  | cmdStatus b => exact .command statusBody_moves
  | cmdSetup b => exact .command setupBody_moves
  | cmdOpen b => exact .command openBody_moves
  | cmdClose b => exact .command closeBody_moves
  | cmdPut b => exact .command putBody_moves
  | cmdRemove b => exact .command removeBody_moves
  | cmdGet b => exact .command getBody_moves
  | cmdList b => exact .command listBody_moves
  | cmdWatch b => exact .command watchBody_moves
  | cmdFlush b => exact .command flushBody_moves
  | flushComplete => exact execFlushComplete_moves s
  | cmdJournalInfo b => exact .command journalBody_moves
  | cmdRoster b => exact .command rosterBody_moves
  | cmdCounters b => exact .command countersBody_moves
  | frameStart line => exact execFrameStart_moves line s
  | frameComplete => exact execFrameComplete_moves s
  | withdrawal bit => exact execWithdrawal_moves bit s
  | driveFault bit => exact execDriveFault_moves bit s
  | probeDue => exact execProbeDue_moves s
  | probeStart line => exact execProbeStart_moves line s
  | probeComplete => exact execProbeComplete_moves s
  | frameReceived chars => exact execFrameReceived_moves chars s
  | framingError d => exact execFramingError_moves d s
  | formatError char4 => exact execFormatError_moves char4 s
  | gapError quiet => exact execGapError_moves quiet s
  | receiverIdle => exact execReceiverIdle_moves s
  | stuckDeclaration => exact execStuckDeclaration_moves s
  | takeFrame => exact execTakeFrame_moves s
  | replyTimeout => exact execReplyTimeout_moves s
  | summaryTimerExpiry => exact execSummaryTimerExpiry_moves s
  | joinWindowExpiry => exact execJoinWindowExpiry_moves s
  | closeLimitExpiry => exact execCloseLimitExpiry_moves s
  | peerLost n => exact execPeerLost_moves n s
  | peerAbsent n => exact execPeerAbsent_moves n s
  | append => exact execAppend_moves s
  | copy => exact execCopy_moves s
  | erase => exact execErase_moves s
  | programNotBusy left => exact execProgramNotBusy_moves left s
  | programVerify => exact execProgramVerify_moves s
  | programTimeout left => exact execProgramTimeout_moves left s
  | eraseCheck => exact execEraseCheck_moves s
  | eraseTimeout left => exact execEraseTimeout_moves left s
  | lreqAsserted => exact execLreqAsserted_moves s
  | lendGrant => exact execLendGrant_moves s
  | lreqDeasserted host => exact execLreqDeasserted_moves host s
  | busyCheckEnd => exact execBusyCheckEnd_moves s
  | busyCheckTimeout => exact execBusyCheckTimeout_moves s
  | headerSurvey => exact execHeaderSurvey_moves s
  | bandWalk => exact execBandWalk_moves s
  | startBit c => exact execStartBit_moves c s
  | lossOfSupply left host => exact execLossOfSupply_moves left host s

theorem step_moves (s : State) : Moves s (step s) := by
  unfold step
  split
  · exact .next (s.passLine_moves 1)
  · next c rest _ =>
    exact fun t ht => TableMove.trans (t := { s with pending := rest }) (.still rfl rfl rfl rfl rfl) (exec_moves c _ t ht)

/-! ### The three laws of chapter 1 -/

/-- Settles O6: every step makes moves of the table, and each move keeps the law of the table and that of the outbound list. -/
theorem tableLawKept : Obligations.TableLawKept := fun s t ht hlaw hh =>
  ⟨(step_moves s t ht).tableLaw hh hlaw, (step_moves s t ht).outboundLaw hh hlaw⟩

/-- Settles O7, by the moves of the table, each of which updates the digests and the counts with the entries. -/
theorem digestsAndCountsKept : Obligations.DigestsAndCountsKept := fun s t ht hd => (step_moves s t ht).digestLaw hd

/-- Settles O8, by the moves of the table: an entry is put in only with a generation that H covers. -/
theorem highMarkLawKept : Obligations.HighMarkLawKept := fun s t ht hh => (step_moves s t ht).highMarkLaw hh

end Sys2Proof.Machine
end

section
/-! Precedence of versions, and the commands of the host that the slot judges, PUT, REMOVE and WATCH. -/

namespace Sys2Proof.Machine

/-! ### Precedence (R12) -/

theorem Version.supersedes_iff (a b : Version) : a.supersedes b = true ↔ b.gen < a.gen ∨ (a.gen = b.gen ∧ (a.origin < b.origin
    ∨ (a.origin = b.origin ∧ b.check.toNat < a.check.toNat))) := by
  simp [Version.supersedes]

/-- Of two different versions one supersedes the other. -/
theorem Version.supersedes_total {a b : Version} (h : a ≠ b) : a.supersedes b = true ∨ b.supersedes a = true := by
  have hne : ¬ (a.gen = b.gen ∧ a.origin = b.origin ∧ a.check.toNat = b.check.toNat) := by
    rintro ⟨h1, h2, h3⟩
    have hv : Version.mk a.gen a.origin a.check = Version.mk b.gen b.origin b.check := by rw [h1, h2, BitVec.eq_of_toNat_eq h3]
    exact h hv
  rw [Version.supersedes_iff, Version.supersedes_iff]
  omega

/-- Settles O59: precedence compares generations, then origins, then checks, each a strict order of numbers. -/
theorem precedenceIsATotalOrder : Obligations.PrecedenceIsATotalOrder := by
  refine ⟨fun a => ?_, fun a b c hab hbc => ?_, fun a b h => ⟨Version.supersedes_asymm, fun hba => ?_⟩, Version.supersedes_iff⟩
  · simp [Version.supersedes]
  · rw [Version.supersedes_iff] at *
    omega
  · exact (Version.supersedes_total h).resolve_right (by simp [hba])

/-! ### The slot (R183, R186) -/

/-- The state in which a block that was taken is carried out. -/
def State.carriesOut (s : State) (code : Byte) (b : Block) : State :=
  { s with cp := { portAfter s (4 + b.len.toNat + b.extra) with slot := .executing code b.tag } }

/-- A command that completes at once leaves its result in the slot. -/
theorem sendCommand_answers {code : Byte} {b : Block} {p : List Byte} {s : State} (h : blockTaken s code b p)
    {body : List Byte → State → Reply} {r : Result} {data : List Byte} {t : State}
    (hb : body p (s.carriesOut code b) = .answer r data t) :
    sendCommand code b body s = .next (t.setSlot (doneSlot code b r data)) := by
  rw [sendCommand_taken h]
  exact congrArg (fun k : Reply => Host.Outcome.next (k.settle code b.tag)) hb

/-- A refusal changes nothing but the slot. -/
theorem sendCommand_refuses {code : Byte} {b : Block} {p : List Byte} {s : State} (h : blockTaken s code b p)
    {body : List Byte → State → Reply} {r : Result} (hb : body p (s.carriesOut code b) = refuse r (s.carriesOut code b)) :
    sendCommand code b body s = .next { s with cp := portWith s b (doneSlot code b r []) } :=
  sendCommand_answers h hb

/-- A command outside REPLAY whose parameters fit passes the tests 1 and 2 of R186. -/
theorem tested_passes {inReplay fits : Bool} {s : State} (k : Reply) (hst : s.sc.station ≠ .replay) (hf : fits = true) :
    tested inReplay fits s k = k := by
  simp [tested, hst, hf]

/-- The number of the first two bytes, low byte first; a byte that is not there counts 0. -/
theorem num_two (p : List Byte) : num p 0 2 = (p.getD 0 0).toNat + 256 * (p.getD 1 0).toNat := by
  match p with
  | [] => rfl
  | [a] => rfl
  | a :: b :: p => rfl

theorem num_one (p : List Byte) (i : Nat) : num p i 1 = (p.getD i 0).toNat := by
  unfold num field
  rw [List.getD_eq_getElem?_getD, ← List.head?_drop]
  cases p.drop i <;> rfl

theorem validId_iff (n : Nat) : validId n = true ↔ 1 ≤ n ∧ n ≤ 4094 := by
  simp [validId, show Config.maxId = 4094 from rfl]

/-! ### WATCH (R7, R188) -/

/-- The field of one entry after a change of it. -/
theorem State.entry_mapEntry (s : State) (id : Nat) {f : Entry → Entry} (hf : ∀ e, (f e).id = e.id) (j : Nat) :
    (s.mapEntry id f).entry j = if j = id then (s.entry id).map f else s.entry j := by
  have hid : ∀ e : Entry, (if e.id = id then f e else e).id = e.id := fun e => by split <;> simp [hf]
  show findEntry (s.pt.entries.map _) j = _
  rw [findEntry_map hid]
  show (s.entry j).map _ = _
  split
  · next h =>
    subst h
    refine Option.map_congr fun e he => ?_
    rw [if_pos (findEntry_id he)]
  · next h =>
    cases he : s.entry j with
    | none => rfl
    | some e => simp [findEntry_id he, h]

/-- Settles O33, by the cases of WATCH: an absent id, a LOCAL entry, a SHARED one. -/
theorem watchSets : Obligations.WatchSets := by
  intro b lo hi w s id hid hv hw hb hst
  have hn : num [lo, hi, w] 0 2 = id := (num_two _).trans hid.symm
  have hall : ∀ u : State, u.sc.station ≠ .replay → watchBody [lo, hi, w] u = match u.entry id with
      | none => refuse .notFound u
      | some e => if e.scope = .loc then refuse .refusedScope u
        else .answer .done [] (u.mapEntry id fun e => { e with watch := num [lo, hi, w] 2 1 == 1 }) := fun u hu => by
    unfold watchBody
    rw [tested_passes _ hu (by simpa [num_one] using hw), hn, hv]
    rfl
  have hbody := hall (s.carriesOut 0x24 b) hst
  have hentry : ∀ j, (s.carriesOut 0x24 b).entry j = s.entry j := fun _ => rfl
  rw [hentry] at hbody
  refine ⟨fun hno => sendCommand_refuses hb ?_, fun e he => ⟨fun hl => sendCommand_refuses hb ?_, fun hsh => ?_⟩⟩
  · rw [hbody, hno]
  · rw [hbody, he]
    exact if_pos hl
  · rw [he] at hbody
    have hset := hbody.trans (if_neg (by simp [hsh]))
    have hwatch : (num [lo, hi, w] 2 1 == 1) = (w == 1) := by
      rw [num_one, Bool.eq_iff_iff, beq_iff_eq, beq_iff_eq]
      exact ⟨fun h => BitVec.eq_of_toNat_eq h, fun h => congrArg BitVec.toNat h⟩
    rw [hwatch] at hset
    have hmap : ∀ j, ((s.carriesOut 0x24 b).mapEntry id fun e => { e with watch := w == 1 }).entry j
        = if j = id then some { e with watch := w == 1 } else s.entry j := fun j => by
      rw [State.entry_mapEntry (f := fun e => { e with watch := w == 1 }) _ _ (fun _ => rfl), hentry, hentry, he]
      rfl
    exact ⟨_, sendCommand_answers hb hset, (hmap id).trans (if_pos rfl), fun j hj => (hmap j).trans (if_neg hj), rfl⟩

/-! ### PUT (R20, R24) -/

/-- The result of PT's tests on a PUT, by the order of Table 1.7.1, and the slot where all pass. -/
theorem State.putTests_eq (s : State) (id : Nat) (scope : Scope) (value : List Byte) : s.putTests id scope value =
    if (s.entry id).any (fun e => e.scope ≠ scope) then .inl .refusedScope
    else if (s.entry id).any (fun e => e.isTombstone = false ∧ e.value = value) then .inl .same
    else if s.pt.h = 0xFFFFFFFE then .inl .refusedGeneration
    else if s.entry id = none ∧ 512 ≤ s.pt.entries.length then .inl .refusedTableFull
    else if 8 < value.length ∧ (s.entry id).bind Entry.slot = none ∧ freeSlot s.pt.entries = none then .inl .refusedNoSlot
    else .inr (if value.length ≤ 8 then none else (s.entry id).bind Entry.slot <|> freeSlot s.pt.entries) := by
  have hsame : ((s.entry id).any fun e => !e.isTombstone && e.value == value)
      = (s.entry id).any fun e => e.isTombstone = false ∧ e.value = value := by
    congr 1
    funext e
    rw [Bool.eq_iff_iff]
    simp
  have hroom : ((s.entry id).isNone && decide (Config.maxEntries ≤ s.pt.entries.length)) = true
      ↔ s.entry id = none ∧ 512 ≤ s.pt.entries.length := by
    simp [show Config.maxEntries = 512 from rfl]
  unfold State.putTests
  dsimp only
  rw [hsame, slotFor_eq, show Config.maxGeneration = 0xFFFFFFFE from rfl]
  simp only [hroom]
  by_cases hslot : value.length ≤ 8 ∨ (s.entry id).bind Entry.slot ≠ none ∨ freeSlot s.pt.entries ≠ none
  · rw [if_pos hslot, if_neg (c := 8 < _ ∧ _) (by rintro ⟨h1, h2, h3⟩; rcases hslot with h | h | h; omega; exact h h2; exact h h3)]
  · rw [if_neg hslot, if_pos (c := 8 < _ ∧ _) (by simpa [not_or] using hslot)]

/-- A PUT of an id and a value that fit comes to PT's tests, where the station state allows a change of its scope. -/
theorem putBody_tests {lo hi sc : Byte} {value : List Byte} {s : State} {id : Nat} {scope : Scope}
    (hid : id = lo.toNat + 256 * hi.toNat) (hv : validId id = true) (hsc : sc.toNat ≤ 1) (hscope : scope = if sc = 0 then .shared else .loc)
    (h1 : 1 ≤ value.length) (h32 : value.length ≤ 32) (hst : s.sc.station ≠ .replay)
    (hsh : scope = .shared → s.sc.station = .joining ∨ s.sc.station = .active ∨ s.sc.station = .muted) :
    putBody (lo :: hi :: sc :: value) s
      = .answer (s.localPut id scope value).1 [] (s.localPut id scope value).2 := by
  have hn : num (lo :: hi :: sc :: value) 0 2 = id := (num_two _).trans hid.symm
  have hs : scopeOf (num (lo :: hi :: sc :: value) 2 1) = scope := by
    rw [num_one, hscope]
    unfold scopeOf
    congr 1
    exact propext ⟨fun h => BitVec.eq_of_toNat_eq h, fun h => congrArg BitVec.toNat h⟩
  have hchange : (scope = .shared && !s.sc.station.changesShared) = false := by
    by_cases h : scope = .shared
    · rcases hsh h with h | h | h <;> simp [h, Station.changesShared]
    · simp [h]
  unfold putBody
  rw [tested_passes _ hst, hn, hv, hs, hchange]
  · rfl
  · simp only [Bool.and_eq_true, decide_eq_true_eq, num_one, List.length_cons]
    exact ⟨⟨by omega, by omega⟩, hsc⟩

/-- Settles O31: PT's tests in their order answer the result of the first that fails. -/
theorem putTestsInOrder : Obligations.PutTestsInOrder := by
  intro b lo hi sc value s id scope r hid hv hsc hscope hb h1 h32 hst hsh hr hdone
  have htests : (s.carriesOut 0x20 b).putTests id scope value = .inl r := by
    show s.putTests id scope value = .inl r
    rw [State.putTests_eq]
    subst hr
    split_ifs at hdone ⊢
    iterate 5 rfl
    exact absurd rfl hdone
  refine sendCommand_refuses hb ?_
  rw [putBody_tests (s := s.carriesOut 0x20 b) hid hv hsc hscope h1 h32 hst hsh]
  simp only [State.localPut, htests]
  rfl

end Sys2Proof.Machine
end

section
/-! The judging of command blocks, and REMOVE. -/

namespace Sys2Proof.Machine

/-! ### What the slot refuses (R183, R186) -/

/-- The commands that are answered in REPLAY too (R186). -/
def answersInReplay (code : Byte) : Bool := decide (code ∈ [(0x10 : Byte), 0x31, 0x41])

/-- The id field is refused: of a command that names an entry, or of LIST, which takes a from-id of 0 as well. -/
def IdRefused (code : Byte) (id : Nat) : Prop :=
  (code ∈ [(0x20 : Byte), 0x21, 0x22, 0x24] ∧ ¬ (1 ≤ id ∧ id ≤ 4094)) ∨ (code = 0x23 ∧ 4094 < id)

/-- The command would change a SHARED entry: a PUT of that scope, or a REMOVE of such an entry. -/
def ChangesShared (code : Byte) (p : List Byte) (id : Nat) (s : State) : Prop :=
  (code = 0x20 ∧ p.getD 2 0 = 0) ∨ (code = 0x21 ∧ ∃ e, s.entry id = some e ∧ e.scope = .shared)

/-- A command carried out by the tests of R186 in their order: the station state REPLAY, the parameters, the id, and the station
states in which no SHARED entry changes. -/
def TestsInOrder (code : Byte) (body : List Byte → State → Reply) : Prop :=
  ∀ (p : List Byte) (s : State), ∃ k : Reply, body p s = tested (answersInReplay code) (parametersFit code p) s k
    ∧ (IdRefused code (num p 0 2) → k = refuse .refusedId s)
    ∧ (s.sc.station = .held ∨ s.sc.station = .closing → 1 ≤ num p 0 2 → num p 0 2 ≤ 4094 → ChangesShared code p (num p 0 2) s →
      k = refuse .refusedState s)

/-- A command without an id field has the tests 1 and 2 alone. -/
theorem TestsInOrder.of_tested {code : Byte} {body : List Byte → State → Reply} {k : List Byte → State → Reply}
    (hcode : code ∉ [(0x20 : Byte), 0x21, 0x22, 0x23, 0x24])
    (h : ∀ p s, body p s = tested (answersInReplay code) (parametersFit code p) s (k p s)) : TestsInOrder code body := by
  refine fun p s => ⟨k p s, h p s, fun hid => absurd ?_ hcode, fun _ _ _ hsh => absurd ?_ hcode⟩
  · rcases hid with ⟨h, -⟩ | ⟨rfl, -⟩
    · exact (show [(0x20 : Byte), 0x21, 0x22, 0x24] ⊆ [0x20, 0x21, 0x22, 0x23, 0x24] by decide) h
    · decide
  · rcases hsh with ⟨rfl, -⟩ | ⟨rfl, -⟩ <;> decide

theorem isEmpty_eq (p : List Byte) : p.isEmpty = decide (p = []) := by cases p <;> rfl

theorem statusBody_tests : TestsInOrder 0x10 statusBody :=
  .of_tested (by decide) fun p _ => by rw [statusBody, isEmpty_eq]; rfl

theorem setupBody_tests : TestsInOrder 0x11 setupBody := .of_tested (by decide) fun _ _ => rfl

theorem openBody_tests : TestsInOrder 0x12 openBody :=
  .of_tested (by decide) fun p _ => by rw [openBody, isEmpty_eq]; rfl

theorem closeBody_tests : TestsInOrder 0x13 closeBody :=
  .of_tested (by decide) fun p _ => by rw [closeBody, isEmpty_eq]; rfl

theorem flushBody_tests : TestsInOrder 0x30 flushBody :=
  .of_tested (by decide) fun p _ => by rw [flushBody, isEmpty_eq]; rfl

theorem journalBody_tests : TestsInOrder 0x31 journalBody :=
  .of_tested (by decide) fun p _ => by rw [journalBody, isEmpty_eq]; rfl

theorem rosterBody_tests : TestsInOrder 0x40 rosterBody := by
  refine .of_tested (k := fun p s => .answer .done (s.rosterData (num p 0 1)) s) (by decide) fun p s => ?_
  rw [rosterBody, validStation, ← Bool.and_assoc]
  rfl

theorem countersBody_tests : TestsInOrder 0x41 countersBody := .of_tested (by decide) fun _ _ => rfl

/-- An id field that is refused is no valid id, where the command is not LIST. -/
theorem IdRefused.invalid {code : Byte} {id : Nat} (h : IdRefused code id) (hcode : code ≠ 0x23) : validId id = false := by
  rw [Bool.eq_false_iff, ne_eq, validId_iff]
  rcases h with ⟨-, h⟩ | ⟨h, -⟩
  · exact h
  · exact absurd h hcode

theorem not_changesShared {s : State} (h : s.sc.station = .held ∨ s.sc.station = .closing) :
    s.sc.station.changesShared = false := by
  rcases h with h | h <;> rw [h] <;> rfl

theorem putBody_tests_in_order : TestsInOrder 0x20 putBody := by
  refine fun p s => ⟨_, rfl, fun hid => ?_, fun hst h1 h2 hsh => ?_⟩
  · rw [hid.invalid (by decide)]
    rfl
  · rw [(validId_iff _).mpr ⟨h1, h2⟩, not_changesShared hst]
    rcases hsh with ⟨-, h0⟩ | ⟨h, -⟩
    · rw [num_one, h0]
      rfl
    · exact absurd h (by decide)

theorem removeBody_tests_in_order : TestsInOrder 0x21 removeBody := by
  refine fun p s => ⟨_, rfl, fun hid => ?_, fun hst h1 h2 hsh => ?_⟩
  · rw [hid.invalid (by decide)]
    rfl
  · rw [(validId_iff _).mpr ⟨h1, h2⟩, not_changesShared hst]
    rcases hsh with ⟨h, -⟩ | ⟨-, e, he, hs⟩
    · exact absurd h (by decide)
    · rw [he]
      simp [hs]

theorem getBody_tests_in_order : TestsInOrder 0x22 getBody := by
  refine fun p s => ⟨_, rfl, fun hid => ?_, fun _ _ _ hsh => ?_⟩
  · rw [hid.invalid (by decide)]
    rfl
  · simp [ChangesShared] at hsh

theorem listBody_tests_in_order : TestsInOrder 0x23 listBody := by
  refine fun p s => ⟨_, rfl, fun hid => ?_, fun _ _ _ hsh => ?_⟩
  · rcases hid with ⟨h, -⟩ | ⟨-, h⟩
    · exact absurd h (by decide)
    · exact if_pos h
  · simp [ChangesShared] at hsh

theorem watchBody_tests_in_order : TestsInOrder 0x24 watchBody := by
  refine fun p s => ⟨_, rfl, fun hid => ?_, fun _ _ _ hsh => ?_⟩
  · rw [hid.invalid (by decide)]
    rfl
  · simp [ChangesShared] at hsh

/-- A command with a block is carried out by a body, which for a known code makes the tests of R186 in their order. -/
theorem exec_commandBlock {i : Instr} {code : Byte} {b : Block} (h : commandBlock i = some (code, b)) :
    ∃ body, (∀ s, exec i s = sendCommand code b body s) ∧ (i ≠ .unknownCommand code b → TestsInOrder code body) := by
  cases i <;> simp only [commandBlock, Option.some.injEq, Prod.mk.injEq, reduceCtorEq] at h <;> obtain ⟨rfl, rfl⟩ := h
  case unknownCommand => exact ⟨_, fun _ => rfl, fun h => absurd rfl h⟩
  case cmdStatus => exact ⟨_, fun _ => rfl, fun _ => statusBody_tests⟩
  case cmdSetup => exact ⟨_, fun _ => rfl, fun _ => setupBody_tests⟩
  case cmdOpen => exact ⟨_, fun _ => rfl, fun _ => openBody_tests⟩
  case cmdClose => exact ⟨_, fun _ => rfl, fun _ => closeBody_tests⟩
  case cmdPut => exact ⟨_, fun _ => rfl, fun _ => putBody_tests_in_order⟩
  case cmdRemove => exact ⟨_, fun _ => rfl, fun _ => removeBody_tests_in_order⟩
  case cmdGet => exact ⟨_, fun _ => rfl, fun _ => getBody_tests_in_order⟩
  case cmdList => exact ⟨_, fun _ => rfl, fun _ => listBody_tests_in_order⟩
  case cmdWatch => exact ⟨_, fun _ => rfl, fun _ => watchBody_tests_in_order⟩
  case cmdFlush => exact ⟨_, fun _ => rfl, fun _ => flushBody_tests⟩
  case cmdJournalInfo => exact ⟨_, fun _ => rfl, fun _ => journalBody_tests⟩
  case cmdRoster => exact ⟨_, fun _ => rfl, fun _ => rosterBody_tests⟩
  case cmdCounters => exact ⟨_, fun _ => rfl, fun _ => countersBody_tests⟩

/-- A block on a slot not EMPTY is discarded (R183). -/
theorem sendCommand_rejected {code : Byte} {b : Block} {s : State} (body : List Byte → State → Reply) (hp : s.power = .running)
    (hs : s.cp.slot ≠ .empty) :
    sendCommand code b body s = .next { s with cp := { portAfter s (blockCount b + b.extra) with rejected := true } } := by
  have he : s.cp.slot.isEmpty = false := by
    cases h : s.cp.slot with
    | empty => exact absurd h hs
    | executing _ _ => rfl
    | done _ => rfl
  rw [sendCommand, whenRunning_running hp]
  exact congrArg Host.Outcome.next (if_pos (by simp [he]))

/-- A block that is not good gives BAD-BLOCK on an EMPTY slot (R183). -/
theorem sendCommand_bad {code : Byte} {b : Block} {s : State} (body : List Byte → State → Reply) (hp : s.power = .running)
    (hs : s.cp.slot = .empty) (hb : blockGood code b = false) :
    sendCommand code b body s = .next { s with cp := { portAfter s (blockCount b + b.extra) with
      slot := .done { code := code, tag := b.tag, result := .badBlock, data := [] } } } := by
  have he : (s.statusOnly (blockCount b + b.extra)).cp.slot.isEmpty = true := by
    show s.cp.slot.isEmpty = true
    rw [hs]
    rfl
  rw [sendCommand, whenRunning_running hp]
  unfold State.judgeBlock
  dsimp only
  rw [he, hb]
  rfl

/-- The sum of bytes as a byte is 0 just where their sum as numbers is a multiple of 256. -/
theorem byteSum_eq_zero (bs : List Byte) : byteSum bs = 0 ↔ (bs.map BitVec.toNat).sum % 256 = 0 := by
  have hfold : ∀ (bs : List Byte) (a : Byte), (bs.foldl (· + ·) a).toNat = (a.toNat + (bs.map BitVec.toNat).sum) % 256 := by
    intro bs
    induction bs with
    | nil =>
      intro a
      have := a.isLt
      simp only [List.foldl_nil, List.map_nil, List.sum_nil]
      omega
    | cons b bs ih =>
      intro a
      rw [List.foldl_cons, ih, BitVec.toNat_add, List.map_cons, List.sum_cons]
      omega
  have h : (byteSum bs).toNat = (0 + (bs.map BitVec.toNat).sum) % 256 := hfold bs 0
  rw [Nat.zero_add] at h
  rw [← BitVec.toNat_inj, h]
  rfl

/-- Settles O23: rejection and BAD-BLOCK by the slot alone, then each command's tests in the order of R186. -/
theorem slotJudgesBlocks : Obligations.SlotJudgesBlocks := by
  refine ⟨fun i code b s hi hp => ?_, fun code b s hp hs hb => ?_, fun code b => ?_, fun i code b p id s hi hk hb hid => ?_⟩
  · obtain ⟨body, hexec, -⟩ := exec_commandBlock hi
    rw [hexec]
    exact ⟨sendCommand_rejected body hp, sendCommand_bad body hp⟩
  · exact sendCommand_refuses ⟨hp, hs, hb, rfl⟩ rfl
  · unfold blockGood
    rw [Bool.and_eq_true, decide_eq_true_eq, beq_iff_eq, byteSum_eq_zero]
    rfl
  · obtain ⟨body, hexec, htests⟩ := exec_commandBlock hi
    obtain ⟨k, hbody, hbad, hshared⟩ := htests hk p (s.carriesOut code b)
    rw [← num_two] at hid
    subst hid
    rw [hexec]
    refine ⟨fun hst hc => ?_, fun hst hf => ?_, fun hst hf hr => ?_, fun hst hf h1 h2 hsh => ?_⟩ <;>
      refine sendCommand_refuses hb (hbody.trans ?_)
    · have hc : answersInReplay code = false := decide_eq_false hc
      exact if_pos (by rw [hc]; simp [State.carriesOut, hst])
    · have hpass : ¬ ((s.carriesOut code b).sc.station = .replay && !answersInReplay code) = true := by
        show ¬ (s.sc.station = .replay && !answersInReplay code) = true
        rcases hst with h | h
        · simp [h]
        · rw [show answersInReplay code = true from decide_eq_true h]
          simp
      rw [tested, if_neg hpass, hf]
      rfl
    · rw [tested_passes _ (by exact hst) hf]
      exact hbad hr
    · rw [tested_passes _ (by show s.sc.station ≠ .replay; rcases hst with h | h <;> simp [h]) hf]
      exact hshared hst h1 h2 hsh

/-! ### REMOVE (R27, R30) -/

/-- The table after a local change: H one higher, the entry changed, the others as they were. -/
theorem State.locallyChanged_entry (s : State) (id : Nat) (scope : Scope) (value : List Byte) (slot : Option Nat) :
    (s.locallyChanged id scope value slot).pt.h = s.pt.h + 1
      ∧ (s.locallyChanged id scope value slot).entry id = some (s.localEntry id scope value slot)
      ∧ ∀ j, j ≠ id → (s.locallyChanged id scope value slot).entry j = s.entry j :=
  ⟨Nat.max_eq_right (Nat.le_succ _), findEntry_insert_self s.pt.entries (s.localEntry id scope value slot),
    fun _ hj => findEntry_insert_other s.pt.entries (s.localEntry id scope value slot) hj⟩

/-- What a local change of a SHARED entry leaves, by what the judgement of convergence makes of the station, the access control and
the notify queue. -/
def State.sharedChanged (s : State) (id : Nat) (value : List Byte) (slot : Option Nat) (sc : StationCtl) (ac : AccessCtl)
    (q : List Event) : State :=
  { s.locallyChanged id .shared value slot with
    re := s.re.afterLocal ((s.entry id).elim .none Entry.mark) id, sc := sc, ac := ac, cp := { s.cp with notify := q } }

theorem State.localChange_shared (s : State) (id : Nat) (value : List Byte) (slot : Option Nat) :
    ∃ sc ac q, s.localChange id .shared value slot = s.sharedChanged id value slot sc ac q
      ∧ Judged (s.sharedChanged id value slot s.sc s.ac (s.markedNotify id)) (s.sharedChanged id value slot sc ac q) := by
  rw [State.localChange_eq, if_pos rfl]
  obtain ⟨conv, joined, hconv, hjoined, ht⟩ :=
    State.judge_judged (s.sharedChanged id value slot s.sc s.ac (s.markedNotify id))
  exact ⟨_, _, _, ht, conv, joined, hconv, hjoined, rfl⟩

/-- The slot does not matter to a judgement. -/
theorem Judged.setSlot {s t : State} (h : Judged s t) (sl : Slot) : Judged (s.setSlot sl) (t.setSlot sl) := by
  obtain ⟨conv, joined, hconv, hjoined, ht⟩ := h
  exact ⟨conv, joined, hconv, hjoined, by rw [ht]; rfl⟩

/-- A REMOVE of a valid id comes to PT's tests, where the station state allows a change of its entry. -/
theorem removeBody_tests {lo hi : Byte} {s : State} {id : Nat} (hid : id = lo.toNat + 256 * hi.toNat) (hv : validId id = true)
    (hst : s.sc.station ≠ .replay) (hsh : ∀ e, s.entry id = some e → e.scope = .shared →
      s.sc.station = .joining ∨ s.sc.station = .active ∨ s.sc.station = .muted) :
    removeBody [lo, hi] s = .answer (s.localRemove id).1 [] (s.localRemove id).2 := by
  have hn : num [lo, hi] 0 2 = id := (num_two _).trans hid.symm
  have hchange : ((s.entry id).any (fun e => e.scope = .shared) && !s.sc.station.changesShared) = false := by
    cases he : s.entry id with
    | none => rfl
    | some e =>
      by_cases hs : e.scope = .shared
      · rcases hsh e he hs with h | h | h <;> simp [h, Station.changesShared]
      · simp [hs]
  unfold removeBody
  rw [tested_passes (fits := [lo, hi].length == 2) _ hst rfl, hn, hv, hchange]
  rfl

/-- A tombstone made of a SHARED entry that held a value. -/
theorem State.localEntry_tombstone {s : State} {id : Nat} {e : Entry} (he : s.entry id = some e) :
    s.localEntry id .shared [] none = { e with
      id := id, ver := { gen := s.pt.h + 1, origin := stationNumber s.straps, check := 0 }, value := [], slot := none
      jstate := s.jc.markState id, dirty := .whole, mark := if e.mark = .none then .new else e.mark } := by
  obtain ⟨hwhole, -, -⟩ := (dirtyAfter_law (some e) []).2 e rfl
  unfold State.localEntry
  rw [he, hwhole (.inr (.inl rfl))]
  rfl

/-- The notify queue after the marking of an id that has an entry (R157). -/
theorem State.markedNotify_some {s : State} {id : Nat} {e : Entry} (he : s.entry id = some e) :
    s.markedNotify id = if s.jc.markState id = .unsaved ∧ e.jstate ≠ .unsaved
      then placeEvent s.cp.notify { kind := .unsaved, param := 0 } else s.cp.notify := by
  simp [State.markedNotify, he]

/-- Settles O32, by the cases of REMOVE: an absent id, a tombstone, H at its end, a SHARED entry, a LOCAL one. -/
theorem removeEndsAnEntry : Obligations.RemoveEndsAnEntry := by
  intro b lo hi s id hid hv hb hst _
  have hbody := removeBody_tests (s := s.carriesOut 0x21 b) hid hv hst
  refine ⟨fun hno => sendCommand_refuses hb ?_, fun e he hsh => ?_⟩
  · have hno : (s.carriesOut 0x21 b).entry id = none := hno
    rw [hbody fun x hx => nomatch hno.symm.trans hx]
    simp only [State.localRemove, hno]
    rfl
  have hue : (s.carriesOut 0x21 b).entry id = some e := he
  have hbody := hbody fun x hx => Option.some.inj (hue.symm.trans hx) ▸ hsh
  rw [State.localRemove, hue] at hbody
  dsimp only at hbody
  refine ⟨fun htomb => sendCommand_refuses hb ?_, fun htomb hh => sendCommand_refuses hb ?_, fun htomb hh => ?_⟩
  · rw [hbody, if_pos htomb]
    rfl
  · have hh : (s.carriesOut 0x21 b).pt.h = Config.maxGeneration := hh
    rw [hbody, if_neg (by simp [htomb]), if_pos hh]
    rfl
  have hh : (s.carriesOut 0x21 b).pt.h ≠ Config.maxGeneration := hh
  rw [if_neg (by simp [htomb]), if_neg hh] at hbody
  cases hscope : e.scope with
  | shared =>
    rw [hscope] at hbody
    obtain ⟨sc, ac, q, hchange, hjudged⟩ := (s.carriesOut 0x21 b).localChange_shared id [] none
    dsimp only at hbody
    rw [hchange] at hbody
    obtain ⟨hh1, hself, hother⟩ := (s.carriesOut 0x21 b).locallyChanged_entry id .shared [] none
    rw [State.localEntry_tombstone hue] at hself
    refine ⟨_, sendCommand_answers hb hbody, rfl, hother, fun _ => ⟨hh1, _, hself, rfl, rfl, rfl, rfl, hscope, rfl, rfl, rfl,
      s.jc.enqueue_marked id, ?_, s.jc.markState_eq id, _, ?_, hjudged.setSlot _⟩, by simp, rfl⟩
    · show s.re.afterLocal (((s.carriesOut 0x21 b).entry id).elim .none Entry.mark) id = _
      rw [hue]
      rfl
    · exact State.markedNotify_some hue
  | loc =>
    rw [hscope] at hbody
    have hid' : e.id = id := findEntry_id he
    refine ⟨_, sendCommand_answers hb hbody, rfl, fun j hj => ?_, by simp, fun _ => ⟨?_, rfl, rfl, rfl, rfl, rfl, ?_⟩, rfl⟩
    · exact findEntry_remove_other s.pt.entries (hid' ▸ hj)
    · exact hid' ▸ findEntry_remove_self s.pt.entries e.id
    · exact (s.carriesOut 0x21 b).deleteLocal_deleted e

end Sys2Proof.Machine
end

section
/-! The taking of a frame: what leaves the buffer, what the roster notes, and the records of an UPDATE. -/

namespace Sys2Proof.Machine

/-! ### The roster under the operations of repair -/

/-- A field of a roster entry that repair leaves: none of the mask, the wish for repair and the failures. -/
def KeptByRepair {α : Type} (g : Peer → α) : Prop :=
  ∀ p mask wanted failures, g { p with mask := mask, wanted := wanted, failures := failures } = g p

/-- A change of one member leaves a field of all members that it leaves of that one. -/
theorem map_modify_eq {α : Type} {g : Peer → α} {f : Peer → Peer} (h : ∀ p, g (f p) = g p) (l : List Peer) (i : Nat) :
    (l.modify i f).map g = l.map g := by
  refine List.ext_getElem? fun j => ?_
  rw [List.getElem?_map, List.getElem?_map, List.getElem?_modify]
  split
  · cases l[j]? <;> simp [h]
  · simp

theorem State.updatePeer_map {α : Type} {g : Peer → α} {f : Peer → Peer} (h : ∀ p, g (f p) = g p) (s : State) (n : Nat) :
    (s.updatePeer n f).re.roster.map g = s.re.roster.map g := by
  unfold State.updatePeer
  split
  · rfl
  · exact map_modify_eq h s.re.roster (n - 1)

theorem State.searchSession_map {α : Type} {g : Peer → α} (hg : KeptByRepair g) (s : State) :
    s.searchSession.re.roster.map g = s.re.roster.map g := by
  unfold State.searchSession
  split
  · split
    · next n _ => exact State.updatePeer_map (fun p => hg p _ _ _) s n
    · rfl
  · rfl

/-- What the change of a roster entry leaves: all but the roster. -/
theorem State.updatePeer_eq (s : State) (n : Nat) (f : Peer → Peer) :
    s.updatePeer n f = { s with re := { s.re with roster := (s.updatePeer n f).re.roster } } := by
  unfold State.updatePeer
  split <;> rfl

/-- A session over and the next searched for change the session, the roster and the frame in flight alone. -/
theorem State.closeSession_search_eq (s : State) : s.closeSession.searchSession = { s with
    re := { s.re with
      session := s.closeSession.searchSession.re.session, roster := s.closeSession.searchSession.re.roster }
    li := { s.li with flight := s.li.flight.map (Flight.left true false) } } := by
  have hsearch := s.closeSession.searchSession_frame
  have hclose := s.closeSession_eq
  generalize s.closeSession.searchSession = a at *
  generalize s.closeSession = b at *
  rw [hsearch, hclose]

/-- The same, with a roster entry changed first. -/
theorem State.sessionOver_eq (s : State) (n : Nat) (f : Peer → Peer) : (s.updatePeer n f).closeSession.searchSession = { s with
    re := { s.re with
      session := (s.updatePeer n f).closeSession.searchSession.re.session
      roster := (s.updatePeer n f).closeSession.searchSession.re.roster }
    li := { s.li with flight := s.li.flight.map (Flight.left true false) } } := by
  have hover := (s.updatePeer n f).closeSession_search_eq
  have hpeer := s.updatePeer_eq n f
  generalize (s.updatePeer n f).closeSession.searchSession = a at *
  generalize s.updatePeer n f = c at *
  rw [hover, hpeer]

theorem State.sessionSuccess_eq (s : State) : s.sessionSuccess = { s with
    re := { s.re with session := s.sessionSuccess.re.session, roster := s.sessionSuccess.re.roster }
    li := { s.li with flight := s.li.flight.map (Flight.left true false) } } := s.sessionOver_eq _ _

theorem State.sessionSuccess_map {α : Type} {g : Peer → α} (hg : KeptByRepair g) (s : State) :
    s.sessionSuccess.re.roster.map g = s.re.roster.map g :=
  (State.searchSession_map hg _).trans (State.updatePeer_map (fun p => hg p _ _ _) s _)

/-- A matching reply UPDATE changes the session, and, where it is the last one, the roster and the frame in flight. -/
theorem State.takeReplyUpdate_eq (s : State) (e : Bool) : s.takeReplyUpdate e = { s with
    re := { s.re with session := (s.takeReplyUpdate e).re.session, roster := (s.takeReplyUpdate e).re.roster }
    li := { s.li with flight := (s.takeReplyUpdate e).li.flight } } := by
  unfold State.takeReplyUpdate
  split
  · have h := s.sessionSuccess_eq
    generalize s.sessionSuccess = t at *
    rw [h]
  · rfl

theorem State.takeReplyUpdate_map {α : Type} {g : Peer → α} (hg : KeptByRepair g) (s : State) (e : Bool) :
    (s.takeReplyUpdate e).re.roster.map g = s.re.roster.map g := by
  unfold State.takeReplyUpdate
  split
  · exact s.sessionSuccess_map hg
  · rfl

/-! ### A frame leaves the buffer and its source is heard (R65, R66, R100) -/

/-- The events after a frame of a station was taken: PEER-JOINED where it was not PRESENT. -/
def State.heardNotify (s : State) (n : Nat) : List Event :=
  if (s.peer n).presence = .present then s.cp.notify else placeEvent s.cp.notify { kind := .peerJoined, param := n }

theorem State.refresh_eq (s : State) (n : Nat) : s.refresh n = { s with
    re := { s.re with roster := (s.refresh n).re.roster }, cp := { s.cp with notify := s.heardNotify n } } := by
  have hjoined : ∀ f, (s.updatePeer n f).notify .peerJoined n = { s with
      re := { s.re with roster := (s.updatePeer n f).re.roster }
      cp := { s.cp with notify := placeEvent s.cp.notify { kind := .peerJoined, param := n } } } := fun f => by
    have h := s.updatePeer_eq n f
    generalize s.updatePeer n f = t at *
    rw [h]
    rfl
  unfold State.refresh State.heardNotify
  cases (s.peer n).presence with
  | present => exact s.updatePeer_eq n _
  | absent => exact hjoined _
  | silent => exact hjoined _

/-- The state after a frame left the buffer, H as it is then, and what its source's being heard leaves of roster and events. -/
def State.frameTaken (s : State) (h : Nat) (rest : List (List Byte)) (roster : List Peer) (q : List Event) : State :=
  { s with pt := { s.pt with h := h }, re := { s.re with rxBuffer := rest, roster := roster }, cp := { s.cp with notify := q } }

/-- A change of a roster entry, by what it makes of the entry that stands. -/
theorem State.modify_peer {s : State} {n : Nat} (hn : 1 ≤ n) (hown : n ≠ stationNumber s.straps) (hlen : n - 1 < s.re.roster.length)
    {f g : Peer → Peer} (h : f (s.peer n) = g (s.peer n)) : s.re.roster.modify (n - 1) f = s.re.roster.modify (n - 1) g := by
  have hn0 : n ≠ 0 := by omega
  have hpeer : s.re.roster[n - 1]? = some (s.peer n) := by
    rw [State.peer, if_neg (by simp [hn0, hown]), List.getD_eq_getElem?_getD, List.getElem?_eq_getElem hlen]
    rfl
  refine List.ext_getElem? fun j => ?_
  rw [List.getElem?_modify, List.getElem?_modify]
  by_cases hj : n - 1 = j
  · rw [← hj, hpeer]
    simpa using h
  · simp [hj]

/-- The roster after a frame of another station was taken. -/
theorem State.refresh_roster {s : State} {n : Nat} (hn : 1 ≤ n) (hown : n ≠ stationNumber s.straps)
    (hlen : n - 1 < s.re.roster.length) :
    (s.refresh n).re.roster = s.re.roster.modify (n - 1) (Peer.heard s.clk.now) := by
  have hn0 : n ≠ 0 := by omega
  have hmodify : ∀ f : Peer → Peer, f (s.peer n) = Peer.heard s.clk.now (s.peer n) →
      (s.updatePeer n f).re.roster = s.re.roster.modify (n - 1) (Peer.heard s.clk.now) := fun f hf => by
    rw [State.updatePeer, if_neg hn0]
    exact State.modify_peer hn hown hlen hf
  unfold State.refresh
  cases hp : (s.peer n).presence with
  | present => exact hmodify _ (by simp [Peer.heard, hp])
  | absent => exact hmodify _ (by simp [Peer.heard, hp])
  | silent => exact hmodify _ (by simp [Peer.heard, hp])

/-- A frame that is no LEAVE acts on the state that its taking leaves. -/
theorem State.actOn_eq {s : State} {F : Frame} (hsrc : validStation F.src = true) (hF : F.payload.Sound) (hl : F.payload ≠ .leave)
    (rest : List (List Byte)) :
    ∃ roster, (F.src ≠ stationNumber s.straps → s.re.roster.length = 31 →
        roster = s.re.roster.modify (F.src - 1) (Peer.heard s.clk.now))
      ∧ State.actOn { s with re := { s.re with rxBuffer := rest } } F
        = (s.frameTaken (F.payload.generations.foldl max s.pt.h) rest roster (s.heardNotify F.src)).takeKind F := by
  obtain ⟨-, hpt⟩ := State.raiseH_moves (s := { s with re := { s.re with rxBuffer := rest } }) hF
  generalize hu : State.raiseH { s with re := { s.re with rxBuffer := rest } } F.payload = u at hpt
  have hraise : u = { s with
      re := { s.re with rxBuffer := rest }, pt := { s.pt with h := F.payload.generations.foldl max s.pt.h } } := by
    rw [← hu] at hpt ⊢
    exact congrArg (fun pt : ParamTable => { s with re := { s.re with rxBuffer := rest }, pt := pt }) hpt
  refine ⟨(u.refresh F.src).re.roster, fun hown hlen => ?_, ?_⟩
  · simp only [validStation, Bool.and_eq_true, decide_eq_true_eq] at hsrc
    rw [State.refresh_roster hsrc.1 (by rwa [hraise]) (by rw [hraise]; show _ < s.re.roster.length; omega), hraise]
  · unfold State.actOn
    dsimp only
    rw [if_neg hl, hu]
    have hrefresh := u.refresh_eq F.src
    generalize u.refresh F.src = v at hrefresh
    rw [hrefresh, hraise]
    rfl

/-- TAKE_FRAME outside REPLAY (R65). -/
theorem execTakeFrame_acts {s : State} {chars : List Byte} {rest : List (List Byte)} {F : Frame} (hp : s.power = .running)
    (hbuf : s.re.rxBuffer = chars :: rest) (hF : parseFrame chars = some F) (hst : s.sc.station ≠ .replay) :
    exec .takeFrame s = .next (State.actOn { s with re := { s.re with rxBuffer := rest } } F).judge := by
  show execTakeFrame s = _
  rw [execTakeFrame, whenRunning_running hp]
  simp only [hbuf, hst, hF, if_false]

/-- An UPDATE in a station state that applies records: they are taken one after another, and a matching reply acts on the session. -/
theorem State.takeKind_update {s : State} {F : Frame} {recs : List LineRecord} (hp : F.payload = .update recs)
    (happlies : s.sc.station.applies = true) : s.takeKind F = if s.matchesSession F
      then (recs.foldl State.applyRecord s).takeReplyUpdate F.flags.end_ else recs.foldl State.applyRecord s := by
  unfold State.takeKind
  rw [hp]
  dsimp only
  rw [if_pos happlies]

/-- What a judgement leaves, by its result: all but the station state, the prior state and the events. -/
theorem State.judge_spec (w : State) : ∃ t, w.judge = t ∧ Judged w t
    ∧ t = { w with sc := t.sc, ac := { w.ac with prior := t.ac.prior }, cp := { w.cp with notify := t.cp.notify } }
    ∧ t.cp.notify = judgedNotify w.sc.converged t.sc.converged w.cp.notify := by
  obtain ⟨conv, joined, hconv, hjoined, ht⟩ := w.judge_judged
  refine ⟨_, rfl, w.judge_judged, ?_, ?_⟩
  · have h := w.judge_frame
    generalize w.judge = t at *
    rw [h]
  · rw [ht]

/-! ### Received records (R32 to R38) -/

/-- Precedence of a received record over an entry's version. -/
theorem LineRecord.supersedes_iff (r : LineRecord) (v : Version) : r.ver.supersedes v = true ↔ v.gen < r.gen
    ∨ (r.gen = v.gen ∧ (r.origin < v.origin ∨ (v.origin = r.origin ∧ v.check.toNat < (valueCheck r.value).toNat))) := by
  rw [Version.supersedes_iff, eq_comm (a := v.origin)]
  rfl

/-- Precedence of an entry's version over a received record. -/
theorem LineRecord.supersededBy_iff (r : LineRecord) (v : Version) : v.supersedes r.ver = true ↔ r.gen < v.gen
    ∨ (r.gen = v.gen ∧ (v.origin < r.origin ∨ (v.origin = r.origin ∧ (valueCheck r.value).toNat < v.check.toNat))) := by
  rw [Version.supersedes_iff, eq_comm (a := v.gen)]
  rfl

/-- Where a record is not taken, only counters and events change. -/
theorem RecordOutcome.not_taken {s t : State} {r : LineRecord} (h : RecordOutcome s t r)
    (hno : ¬ ((s.entry r.id = none ∨ ∃ e, s.entry r.id = some e ∧ e.scope = .shared ∧ r.ver.supersedes e.ver = true)
      ∧ ((s.entry r.id ≠ none ∨ s.pt.entries.length < 512)
        ∧ (r.value.length ≤ 8 ∨ (s.entry r.id).bind Entry.slot ≠ none ∨ freeSlot s.pt.entries ≠ none)))) :
    t = { s with cp := { s.cp with notify := t.cp.notify, counters := t.cp.counters } } := by
  obtain ⟨takes, room, htakes, hroom, hloc, hsame, hold, hdrop, -⟩ := h
  rw [← htakes, ← hroom] at hno
  by_cases ht : takes
  · rw [hdrop ht fun hr => hno ⟨ht, hr⟩]
  · cases he : s.entry r.id with
    | none => exact absurd (htakes.mpr (.inl he)) ht
    | some e =>
      cases hsc : e.scope with
      | loc => rw [hloc e he hsc]
      | shared =>
        by_cases hv : r.ver = e.ver
        · rw [hsame e he hsc hv]
        · rcases Version.supersedes_total hv with h | h
          · exact absurd (htakes.mpr (.inr ⟨e, he, hsc, h⟩)) ht
          · rw [hold e he hsc h]

/-- Settles O45: the one record's outcome by Table 2.3.1, which a matching reply and the judgement leave as it is. -/
theorem receivedRecordOutcome : Obligations.ReceivedRecordOutcome := by
  intro chars rest F r s takes room heard hp hbuf hF hpay hst htakes hroom hheard
  have hnr : s.sc.station ≠ .replay := by rcases hst with h | h | h | h <;> simp [h]
  have happlies : s.sc.station.applies = true := by rcases hst with h | h | h | h <;> rw [h] <;> rfl
  obtain ⟨hsrc, -, hsound⟩ := parseFrame_sound hF
  obtain ⟨roster, -, hact⟩ := State.actOn_eq (s := s) hsrc hsound (by simp [hpay]) rest
  generalize hv : s.frameTaken (F.payload.generations.foldl max s.pt.h) rest roster (s.heardNotify F.src) = v at hact
  obtain ⟨w, hw, hframe, hrost⟩ : ∃ w, v.takeKind F = w
      ∧ w = { v.applyRecord r with
        re := { (v.applyRecord r).re with session := w.re.session, roster := w.re.roster }
        li := { (v.applyRecord r).li with flight := w.li.flight } }
      ∧ w.re.roster.map Peer.agreement = (v.applyRecord r).re.roster.map Peer.agreement := by
    refine ⟨_, rfl, ?_⟩
    rw [State.takeKind_update hpay (by rw [← hv]; exact happlies), List.foldl_cons, List.foldl_nil]
    split
    · exact ⟨State.takeReplyUpdate_eq _ _, State.takeReplyUpdate_map (fun _ _ _ _ => rfl) _ _⟩
    · exact ⟨rfl, rfl⟩
  obtain ⟨t, hjudge, -, hjframe, hnotify⟩ := w.judge_spec
  have hout := v.applyRecord_outcome r
  generalize v.applyRecord r = u at hframe hrost hout
  have hentry : ∀ j, t.entry j = u.entry j := fun j => by
    unfold State.entry
    rw [hjframe, hframe]
  have hsc : w.sc = u.sc := by rw [hframe]
  have hq : w.cp = u.cp := by rw [hframe]
  have hcounters : t.cp.counters = u.cp.counters := by rw [hjframe, hframe]
  have hno := hout.not_taken
  obtain ⟨takes', room', htakes', hroom', hloc, hsame, hold, hdrop, htaken⟩ := hout
  have hve : ∀ j, v.entry j = s.entry j := fun j => by rw [← hv]; rfl
  have hves : v.pt.entries = s.pt.entries := by rw [← hv]; rfl
  have hvcp : v.cp = { s.cp with notify := heard } := by rw [hheard, ← hv]; rfl
  have htk : takes' ↔ takes := by
    rw [htakes, htakes']
    simp only [hve, LineRecord.supersedes_iff]
  have hrm : room' ↔ room := by rw [hroom, hroom', hve, hves]
  rw [← htakes', ← hroom', htk, hrm] at hno
  rw [htk] at hdrop htaken
  rw [hrm] at hdrop htaken
  rw [hve] at hloc hsame hold htaken
  have hvjc : v.jc = s.jc ∧ v.sc = s.sc ∧ v.re.outbound = s.re.outbound := by
    rw [← hv]
    exact ⟨rfl, rfl, rfl⟩
  obtain ⟨hvjc, hvsc, hvout⟩ := hvjc
  have htjc : t.jc = u.jc ∧ t.pt = u.pt ∧ t.re = w.re ∧ w.re.outbound = u.re.outbound := by
    rw [hjframe, hframe]
    exact ⟨rfl, rfl, rfl, rfl⟩
  obtain ⟨htjc, htpt, htre, hwout⟩ := htjc
  have husc : u.sc = s.sc := by
    by_cases h : takes ∧ room
    · obtain ⟨_, _, _, _, _, _, _, _, hu⟩ := htaken h.1 h.2
      rw [hu]
      exact hvsc
    · rw [hno h]
      exact hvsc
  refine ⟨t, u.cp.notify, ?_, fun j hj => ?_, ?_, fun h => ?_, fun e he hl => ?_, fun e he hs hv => ?_, fun e he hs hv => ?_,
    fun h1 h2 => ?_, fun h1 h2 => ?_⟩
  · rw [execTakeFrame_acts hp hbuf hF hnr, hact, hw, hjudge]
  · rw [hentry]
    by_cases h : takes ∧ room
    · obtain ⟨_, _, _, _, _, hothers, _⟩ := htaken h.1 h.2
      rw [hothers j hj, hve]
    · rw [hno h]
      exact hve j
  · rw [hnotify, hq, hsc, husc]
  · rw [hentry, htpt, htre, hwout, htjc, hno h, ← hve, ← hves, ← hvout, ← hvjc]
    exact ⟨rfl, rfl, rfl, rfl⟩
  · rw [hcounters, hloc e he hl, hvcp]
    exact ⟨rfl, rfl⟩
  · rw [hcounters, hsame e he hs hv, hvcp]
    exact ⟨rfl, rfl⟩
  · rw [hcounters, hold e he hs ((r.supersededBy_iff _).mpr hv), hvcp]
    exact ⟨rfl, rfl⟩
  · rw [hcounters, hdrop h1 h2, hvcp]
    exact ⟨rfl, rfl⟩
  · obtain ⟨e', q, he', hall, hdirty, -, hmarked, hq', hu⟩ := htaken h1 h2
    refine ⟨e', q, (hentry _).trans he', congrArg Entry.id hall, congrArg Entry.scope hall, congrArg Entry.ver hall,
      congrArg Entry.value hall, congrArg Entry.mark hall, hdirty, ?_, ?_, congrArg Entry.watch hall, congrArg Entry.base hall,
      ?_, ?_, fun p hp => ?_, ?_, ?_, ?_⟩
    · rw [← hves]
      exact congrArg Entry.slot hall
    · rw [← hvjc]
      exact congrArg Entry.jstate hall
    · rwa [htjc, ← hvjc]
    · rw [htre, hwout, hu, ← hvout]
    · rw [htre] at hp
      have hmem : p.agreement ∈ w.re.roster.map Peer.agreement := List.mem_map_of_mem hp
      rw [hrost, hu] at hmem
      obtain ⟨x, hx, hxp⟩ := List.mem_map.mp hmem
      obtain ⟨y, -, rfl⟩ := List.mem_map.mp hx
      exact hxp.symm
    · rw [hcounters, hu, hvcp]
    · rw [hq', hvcp]
    · rw [hu, hvcp]

end Sys2Proof.Machine
end

section
/-! The kinds of frames taken: what an UPDATE, a LEAVE and a request do, and what each kind leaves. -/

namespace Sys2Proof.Machine

/-! ### What every kind leaves (R65, R66) -/

/-- When a station was heard, and its presence. -/
def Peer.sign (p : Peer) : Presence × Option Nat := (p.presence, p.lastHeard)

theorem Peer.sign_heard (now : Nat) (p : Peer) : (p.heard now).sign = (.present, some now) := by
  unfold Peer.heard
  split <;> rfl

/-- A field of the roster entries that stands stands in each of them. -/
theorem State.peer_map {α : Type} {g : Peer → α} {s t : State} (hst : t.straps = s.straps)
    (h : t.re.roster.map g = s.re.roster.map g) (n : Nat) : g (t.peer n) = g (s.peer n) := by
  have hget : ∀ (l : List Peer) i, g (l.getD i .cleared) = (l.map g).getD i (g .cleared) := fun l i => by
    rw [List.getD_eq_getElem?_getD, List.getD_eq_getElem?_getD, List.getElem?_map]
    cases l[i]? <;> rfl
  unfold State.peer
  rw [hst]
  split
  · rfl
  · rw [hget, hget, h]

/-- The entry of a station 1 to 31 that is not the own one, after it was changed. -/
theorem State.peer_modified {s t : State} {n : Nat} (hst : t.straps = s.straps) (hn : 1 ≤ n) (hown : n ≠ stationNumber s.straps)
    (hlen : n - 1 < s.re.roster.length) {f : Peer → Peer} (h : t.re.roster = s.re.roster.modify (n - 1) f) :
    t.peer n = f (s.peer n) := by
  have hno : ¬ (n = 0 ∨ n = stationNumber s.straps) := by
    rintro (h | h)
    · omega
    · exact hown h
  unfold State.peer
  rw [hst, if_neg hno, if_neg hno, h, List.getD_eq_getElem?_getD, List.getD_eq_getElem?_getD, List.getElem?_modify,
    List.getElem?_eq_getElem hlen]
  simp

/-- What is common to the kinds of frames taken: `w` is what a frame's work makes of `s` before convergence is judged. -/
structure Acted (s : State) (F : Frame) (rest : List (List Byte)) (w : State) : Prop where
  frame : w = { s with
    pt := w.pt, re := w.re, ac := { s.ac with summaryDue := w.ac.summaryDue }, li := { s.li with flight := w.li.flight }
    jc := { s.jc with queue := w.jc.queue, job := w.jc.job, held := w.jc.held }
    cp := { s.cp with notify := w.cp.notify, counters := w.cp.counters } }
  buffer : w.re.rxBuffer = rest
  high : w.pt.h = F.payload.generations.foldl max s.pt.h
  leaves : F.payload = .leave → w.cp.notify = (if (s.peer F.src).presence = .absent then s.cp.notify
    else placeEvent s.cp.notify { kind := .peerLeft, param := F.src })
  told : F.payload ≠ .leave → (∀ recs, F.payload ≠ .update recs) → w.cp.notify = s.heardNotify F.src
  counters : (∀ recs, F.payload ≠ .update recs) → (∀ m, F.payload ≠ .listingRequest m) → (∀ ids, F.payload ≠ .fetch ids) →
    w.cp.counters = s.cp.counters
  journal : (∀ recs, F.payload ≠ .update recs) → w.jc = s.jc ∧ w.pt = { s.pt with h := w.pt.h, entries := w.pt.entries }
  entries : (∀ recs, F.payload ≠ .update recs) → (∀ b part quads, F.payload ≠ .listing b part quads) →
    w.pt.entries = s.pt.entries
  summary : (∀ h count interval digests, F.payload ≠ .summary h count interval digests) ∨ F.flags.joining = false
      ∨ ¬ (s.sc.station = .joining ∨ s.sc.station = .active) →
    w.ac.summaryDue = s.ac.summaryDue ∧ w.re.summaryTimer = s.re.summaryTimer
  heard : F.payload ≠ .leave → (w.peer F.src).sign = (.present, some s.clk.now)

/-- A frame taken from another station: its source, and the roster that notes it. -/
structure TakenFrom (s : State) (F : Frame) (roster : List Peer) : Prop where
  low : 1 ≤ F.src
  high : F.src ≤ 31
  other : F.src ≠ stationNumber s.straps
  length : s.re.roster.length = 31
  roster : roster = s.re.roster.modify (F.src - 1) (Peer.heard s.clk.now)

/-- The state that the taking of a frame other than a LEAVE leaves for the work of its kind. -/
def State.taken (s : State) (F : Frame) (rest : List (List Byte)) (roster : List Peer) : State :=
  s.frameTaken (F.payload.generations.foldl max s.pt.h) rest roster (s.heardNotify F.src)

theorem TakenFrom.inRange {s : State} {F : Frame} {roster : List Peer} (h : TakenFrom s F roster) :
    F.src - 1 < s.re.roster.length := by
  have := h.high
  have := h.length
  omega

/-- The entry of the source once it was heard. -/
theorem TakenFrom.peer {s : State} {F : Frame} {roster : List Peer} (h : TakenFrom s F roster) (rest : List (List Byte)) :
    (s.taken F rest roster).peer F.src = Peer.heard s.clk.now (s.peer F.src) :=
  State.peer_modified (s := s) (t := s.taken F rest roster) rfl h.low h.other h.inRange h.roster

/-- The source was heard, where what followed left when it was. -/
theorem TakenFrom.heard {s : State} {F : Frame} {roster : List Peer} (h : TakenFrom s F roster) {rest : List (List Byte)} {w : State}
    (hst : w.straps = s.straps) (hr : w.re.roster.map Peer.sign = roster.map Peer.sign) :
    (w.peer F.src).sign = (.present, some s.clk.now) := by
  rw [State.peer_map (s := s.taken F rest roster) hst hr, h.peer, Peer.sign_heard]

/-! ### An UPDATE (R32, R113, R118) -/

/-- What received records change: the table apart from H, the outbound list and the roster, the queue and the jobs of the journal,
the events and the counters; and no station is heard by them. -/
def RecordsFrame (s t : State) : Prop :=
  t = { s with
    pt := { t.pt with h := s.pt.h }, re := { s.re with outbound := t.re.outbound, roster := t.re.roster }
    jc := { s.jc with queue := t.jc.queue, job := t.jc.job, held := t.jc.held }
    cp := { s.cp with notify := t.cp.notify, counters := t.cp.counters } }
  ∧ t.re.roster.map Peer.sign = s.re.roster.map Peer.sign

theorem RecordsFrame.trans {s t u : State} (h1 : RecordsFrame s t) (h2 : RecordsFrame t u) : RecordsFrame s u := by
  obtain ⟨ht, hrt⟩ := h1
  obtain ⟨hu, hru⟩ := h2
  refine ⟨hu.trans ?_, hru.trans hrt⟩
  rw [ht]

theorem RecordOutcome.frame {s t : State} {r : LineRecord} (h : RecordOutcome s t r) : RecordsFrame s t := by
  have hno := h.not_taken
  obtain ⟨takes, room, htakes, hroom, -, -, -, -, htaken⟩ := h
  rw [← htakes, ← hroom] at hno
  by_cases hc : takes ∧ room
  · obtain ⟨_, _, _, _, _, _, hmarked, _, ht⟩ := htaken hc.1 hc.2
    unfold JournalMarked at hmarked
    refine ⟨?_, ?_⟩
    · rw [ht, hmarked]
    · rw [ht]
      show (s.re.roster.map _).map Peer.sign = _
      rw [List.map_map]
      rfl
  · rw [hno hc]
    exact ⟨rfl, rfl⟩

theorem applyRecords_frame (recs : List LineRecord) (s : State) : RecordsFrame s (recs.foldl State.applyRecord s) := by
  induction recs generalizing s with
  | nil => exact ⟨rfl, rfl⟩
  | cons r rs ih => exact (s.applyRecord_outcome r).frame.trans (ih _)

/-- The match of an UPDATE with the session (R113). -/
theorem State.matchesSession_update (s : State) {F : Frame} {recs : List LineRecord} (hp : F.payload = .update recs) :
    s.matchesSession F = true ↔ s.re.session.state = .awaitUpdates ∧ s.re.session.raised = false ∧ F.flags.reply = true
      ∧ F.dst = s.straps.sn.toNat ∧ F.src = s.re.session.peer ∧ F.seq = s.re.session.reqSeq := by
  unfold State.matchesSession
  rw [hp]
  dsimp only
  generalize s.re.session.state = st
  cases st <;> simp [stationNumber]
  tauto

theorem peerSign_kept : KeptByRepair Peer.sign := fun _ _ _ _ => rfl

/-- What the work of a frame's kind changes at most; no station is heard by it. -/
def WorkDone (v w : State) : Prop :=
  w = { v with
    pt := { w.pt with h := v.pt.h }, re := { w.re with rxBuffer := v.re.rxBuffer, seq := v.re.seq }
    ac := { v.ac with summaryDue := w.ac.summaryDue }, li := { v.li with flight := w.li.flight }
    jc := { v.jc with queue := w.jc.queue, job := w.jc.job, held := w.jc.held }
    cp := { v.cp with notify := w.cp.notify, counters := w.cp.counters } }
  ∧ w.re.roster.map Peer.sign = v.re.roster.map Peer.sign

/-- What the kinds have in common follows from what their work changes at most. -/
theorem Acted.of_work {s : State} {F : Frame} {rest : List (List Byte)} {roster : List Peer} {w : State}
    (hfrom : TakenFrom s F roster) (hl : F.payload ≠ .leave) (hwork : WorkDone (s.taken F rest roster) w)
    (told : (∀ recs, F.payload ≠ .update recs) → w.cp.notify = s.heardNotify F.src)
    (counters : (∀ recs, F.payload ≠ .update recs) → (∀ m, F.payload ≠ .listingRequest m) → (∀ ids, F.payload ≠ .fetch ids) →
      w.cp.counters = s.cp.counters)
    (journal : (∀ recs, F.payload ≠ .update recs) → w.jc = s.jc ∧ w.pt = { s.pt with h := w.pt.h, entries := w.pt.entries })
    (entries : (∀ recs, F.payload ≠ .update recs) → (∀ b part quads, F.payload ≠ .listing b part quads) →
      w.pt.entries = s.pt.entries)
    (summary : (∀ h count interval digests, F.payload ≠ .summary h count interval digests) ∨ F.flags.joining = false
        ∨ ¬ (s.sc.station = .joining ∨ s.sc.station = .active) →
      w.ac.summaryDue = s.ac.summaryDue ∧ w.re.summaryTimer = s.re.summaryTimer) : Acted s F rest w := by
  obtain ⟨hw, hr⟩ := hwork
  refine ⟨?_, ?_, ?_, fun h => absurd h hl, fun _ => told, counters, journal, entries, summary,
    fun _ => hfrom.heard (rest := rest) ?_ hr⟩
  all_goals rw [hw]
  all_goals rfl

/-- An UPDATE in a station state that applies no records. -/
theorem State.takeKind_update_held {v : State} {F : Frame} {recs : List LineRecord} (hp : F.payload = .update recs)
    (happ : v.sc.station.applies = false) : v.takeKind F = v := by
  unfold State.takeKind
  rw [hp]
  exact if_neg (by simp [happ])

/-- An UPDATE changes what its records change, and the session, the roster and the frame in flight where a session ends by it. -/
theorem State.takeKind_update_frame (v : State) {F : Frame} {recs : List LineRecord} (hp : F.payload = .update recs) :
    ∃ w, v.takeKind F = w ∧ w = { v with
      pt := { w.pt with h := v.pt.h }
      re := { v.re with outbound := w.re.outbound, session := w.re.session, roster := w.re.roster }
      li := { v.li with flight := w.li.flight }, jc := { v.jc with queue := w.jc.queue, job := w.jc.job, held := w.jc.held }
      cp := { v.cp with notify := w.cp.notify, counters := w.cp.counters } }
      ∧ w.re.roster.map Peer.sign = v.re.roster.map Peer.sign := by
  refine ⟨_, rfl, ?_⟩
  cases happ : v.sc.station.applies with
  | false =>
    rw [State.takeKind_update_held hp happ]
    exact ⟨rfl, rfl⟩
  | true =>
    rw [State.takeKind_update hp happ]
    obtain ⟨hu, hru⟩ := applyRecords_frame recs v
    generalize recs.foldl State.applyRecord v = u at hu hru
    split
    · have hreply := u.takeReplyUpdate_eq F.flags.end_
      have hmap := u.takeReplyUpdate_map peerSign_kept F.flags.end_
      generalize u.takeReplyUpdate F.flags.end_ = x at hreply hmap
      refine ⟨?_, hmap.trans hru⟩
      rw [hreply, hu]
    · refine ⟨?_, hru⟩
      rw [hu]

theorem update_acted {s : State} {F : Frame} {recs : List LineRecord} (hp : F.payload = .update recs) (rest : List (List Byte))
    {roster : List Peer} (hfrom : TakenFrom s F roster) : Acted s F rest ((s.taken F rest roster).takeKind F) := by
  obtain ⟨w, hw, hframe, hr⟩ := (s.taken F rest roster).takeKind_update_frame hp
  have hupd : ∀ {P : Prop}, (∀ recs, F.payload ≠ .update recs) → P := fun h => absurd hp (h recs)
  rw [hw]
  refine .of_work hfrom (by simp [hp]) ⟨?_, hr⟩ (fun h => hupd h) (fun h => hupd h) (fun h => hupd h) (fun h => hupd h) fun _ => ?_
  all_goals rw [hframe]
  exact ⟨rfl, rfl⟩

/-- The end of a session looks at the station state, the straps and what the session and the roster are as it begins. -/
theorem SessionEnded.congr {s s' t t' : State} {roster : List Peer} (h : SessionEnded s roster t)
    (hst : s'.sc.station = s.sc.station) (hstraps : s'.straps = s.straps) (hse : t'.re.session = t.re.session)
    (hro : t'.re.roster = t.re.roster) : SessionEnded s' roster t' := by
  obtain ⟨w, hw, h1, h2⟩ := h
  obtain ⟨w', hw', h3, h4⟩ := hw.congr (s' := { s' with re := { s'.re with session := .cleared, roster := roster } }) hst hstraps rfl
  exact ⟨w', hw', hse.trans (h1.trans h3.symm), hro.trans (h2.trans h4.symm)⟩

/-- What a matching reply UPDATE makes of the session once its records are taken (R118, R120). -/
theorem update_matched {v w : State} {F : Frame} {recs : List LineRecord} (hp : F.payload = .update recs)
    (happ : v.sc.station.applies = true) (hw : v.takeKind F = w) {u : State} (hu : recs.foldl State.applyRecord v = u) :
    w.pt = u.pt ∧ w.jc = u.jc ∧ w.cp = u.cp
      ∧ (v.matchesSession F = false → w = u)
      ∧ (v.matchesSession F = true → F.flags.end_ = false → w = u.setSession { v.re.session with timer := 0 })
      ∧ (v.matchesSession F = true → F.flags.end_ = true → 1 ≤ F.src →
          w.re = { u.re with session := w.re.session, roster := w.re.roster }
          ∧ w.li = { v.li with flight := v.li.flight.map (Flight.left true false) }
          ∧ SessionEnded u (u.re.roster.modify (F.src - 1) (Peer.repaired v.re.session v.re.session.more)) w) := by
  obtain ⟨hframe, -⟩ := applyRecords_frame recs v
  rw [hu] at hframe
  have hse : u.re.session = v.re.session := by rw [hframe]
  have hli : u.li = v.li := by rw [hframe]
  rw [State.takeKind_update hp happ, hu] at hw
  cases hm : v.matchesSession F with
  | false =>
    rw [hm] at hw
    rw [← hw]
    exact ⟨rfl, rfl, rfl, fun _ => rfl, nofun, nofun⟩
  | true =>
    obtain ⟨-, -, -, -, hpeer, -⟩ := (v.matchesSession_update hp).mp hm
    rw [hm, if_pos rfl, State.takeReplyUpdate] at hw
    cases hend : F.flags.end_ with
    | false =>
      rw [hend] at hw
      rw [← hw, ← hse]
      exact ⟨rfl, rfl, rfl, nofun, fun _ _ => rfl, nofun⟩
    | true =>
      rw [hend, if_pos rfl] at hw
      have heq := u.sessionSuccess_eq
      rw [hw, hli] at heq
      refine ⟨?_, ?_, ?_, nofun, nofun, fun _ _ hn => ⟨?_, ?_, ?_⟩⟩
      any_goals rw [heq]
      rw [← heq]
      rw [hpeer, ← hse, ← hw]
      exact u.sessionSuccess_ended (by rw [hse, ← hpeer]; exact hn)

/-! ### A LEAVE (R103, R121, R128) -/

/-- The state after the oldest frame has left the buffer. -/
def State.unbuffered (s : State) (rest : List (List Byte)) : State := { s with re := { s.re with rxBuffer := rest } }

/-- The state after the source of a LEAVE has departed, before a session with it ends. -/
def State.departed (s : State) (n : Nat) : State :=
  { s with
    re := { s.re with
      roster := s.re.roster.modify (n - 1) fun _ => .cleared, replyQueue := s.re.replyQueue.filter fun r => r.requester ≠ n }
    li := { s.li with flight := s.li.flight.map (Flight.left false (s.re.replyQueue.head?.any fun r => r.requester = n)) }
    cp := { s.cp with notify := placeEvent s.cp.notify { kind := .peerLeft, param := n } } }

theorem State.peerLeft_eq {s : State} {n : Nat} (hn : 1 ≤ n) : s.peerLeft n =
    if (s.peer n).presence = .absent then s
    else if s.re.session.state ≠ .idle ∧ s.re.session.peer = n then (s.departed n).closeSession.searchSession
    else s.departed n := by
  have hdrop : ((s.updatePeer n fun _ => .cleared).notify .peerLeft n).dropRequest n = s.departed n := by
    rw [State.dropRequest_eq, State.updatePeer, if_neg (by omega)]
    rfl
  unfold State.peerLeft
  dsimp only
  rw [hdrop]
  rfl

/-- The search for a session changes no roster entry but a candidate's (R109). -/
theorem State.searchSession_peer {s : State} {n : Nat} (h : (s.peer n).candidate = false) : s.searchSession.peer n = s.peer n := by
  unfold State.searchSession
  split
  · split
    · next m hm =>
      have hne : n ≠ m := by
        rintro rfl
        exact absurd (List.find?_some hm) (by simp [h])
      exact s.updatePeer_other _ hne
    · rfl
  · rfl

/-- What the work of a LEAVE leaves. -/
theorem leave_acted {s : State} {F : Frame} (hp : F.payload = .leave) (rest : List (List Byte)) {roster : List Peer}
    (hfrom : TakenFrom s F roster) : Acted s F rest ((s.unbuffered rest).peerLeft F.src) := by
  rw [State.peerLeft_eq hfrom.low]
  have hpeer : (s.unbuffered rest).peer F.src = s.peer F.src := rfl
  rw [hpeer]
  have hhigh : F.payload.generations.foldl max s.pt.h = s.pt.h := by rw [hp]; rfl
  split
  · next ha => exact ⟨rfl, rfl, hhigh.symm, fun _ => (if_pos ha).symm, fun h => absurd hp h, fun _ _ _ => rfl,
      fun _ => ⟨rfl, rfl⟩, fun _ _ => rfl, fun _ => ⟨rfl, rfl⟩, fun h => absurd hp h⟩
  · next ha =>
    split
    · have heq := ((s.unbuffered rest).departed F.src).closeSession_search_eq
      generalize ((s.unbuffered rest).departed F.src).closeSession.searchSession = w at heq
      refine ⟨?_, ?_, ?_, fun _ => ?_, fun h => absurd hp h, fun _ _ _ => ?_, fun _ => ?_, fun _ _ => ?_, fun _ => ?_,
        fun h => absurd hp h⟩
      all_goals rw [heq]
      · rfl
      · rfl
      · exact hhigh.symm
      · exact (if_neg ha).symm
      · rfl
      · exact ⟨rfl, rfl⟩
      · rfl
      · exact ⟨rfl, rfl⟩
    · exact ⟨rfl, rfl, hhigh.symm, fun _ => (if_neg ha).symm, fun h => absurd hp h, fun _ _ _ => rfl,
        fun _ => ⟨rfl, rfl⟩, fun _ _ => rfl, fun _ => ⟨rfl, rfl⟩, fun h => absurd hp h⟩

/-- The departure of a peer that was not ABSENT. -/
theorem leave_departs {s : State} {F : Frame} (rest : List (List Byte)) {roster : List Peer} (hfrom : TakenFrom s F roster) {w : State}
    (hw : (s.unbuffered rest).peerLeft F.src = w) (ha : (s.peer F.src).presence ≠ .absent) :
    w.peer F.src = Peer.cleared
      ∧ w.re = { s.re with
          rxBuffer := rest, session := w.re.session, roster := w.re.roster
          replyQueue := s.re.replyQueue.filter fun r => r.requester ≠ F.src }
      ∧ w.li = { s.li with flight := s.li.flight.map (Flight.left
          (s.re.session.state ≠ .idle && s.re.session.peer = F.src)
          (s.re.replyQueue.head?.any fun r => r.requester = F.src)) }
      ∧ (s.re.session.state ≠ .idle → s.re.session.peer = F.src →
          SessionEnded s (s.re.roster.modify (F.src - 1) fun _ => .cleared) w)
      ∧ (s.re.session.state = .idle ∨ s.re.session.peer ≠ F.src →
          w.re.session = s.re.session ∧ w.re.roster = s.re.roster.modify (F.src - 1) fun _ => .cleared) := by
  have hpeer : (s.unbuffered rest).peer F.src = s.peer F.src := rfl
  rw [State.peerLeft_eq hfrom.low, hpeer, if_neg ha] at hw
  generalize hd : (s.unbuffered rest).departed F.src = d at hw
  have hcleared : d.peer F.src = Peer.cleared := by
    rw [← hd]
    exact State.peer_modified (s := s) (t := (s.unbuffered rest).departed F.src) (f := fun _ => .cleared) rfl hfrom.low hfrom.other hfrom.inRange rfl
  by_cases hse : (s.unbuffered rest).re.session.state ≠ .idle ∧ (s.unbuffered rest).re.session.peer = F.src
  · rw [if_pos hse] at hw
    have hse : s.re.session.state ≠ .idle ∧ s.re.session.peer = F.src := hse
    have hended := d.closeSession_search
    have heq := d.closeSession_search_eq
    have hpeer : d.closeSession.searchSession.peer F.src = d.peer F.src := by
      have hclosed : d.closeSession.peer F.src = d.peer F.src := by
        rw [State.closeSession_eq]
        rfl
      rw [State.searchSession_peer, hclosed]
      rw [hclosed, hcleared]
      rfl
    rw [hw] at hended heq hpeer
    refine ⟨hpeer.trans hcleared, ?_, ?_, fun _ _ => ?_, fun h => ?_⟩
    · rw [heq, ← hd]
      rfl
    · rw [heq, ← hd]
      have hleft : ∀ head, Flight.left true false ∘ Flight.left false head = Flight.left true head := fun head => by
        funext f
        simp [Flight.left_left]
      show ({ s.li with flight := (s.li.flight.map _).map _ } : LineIf) = _
      rw [Option.map_map, hleft, show (s.re.session.state ≠ .idle && s.re.session.peer = F.src : Bool) = true by simp [hse]]
      rfl
    · rw [← hd] at hended
      exact hended.congr rfl rfl rfl rfl
    · exact absurd hse (by tauto)
  · rw [if_neg hse] at hw
    have hse : ¬ (s.re.session.state ≠ .idle ∧ s.re.session.peer = F.src) := hse
    subst hw
    refine ⟨hcleared, ?_, ?_, fun h1 h2 => absurd ⟨h1, h2⟩ hse, fun _ => ?_⟩
    · rw [← hd]
      rfl
    · rw [← hd, show (s.re.session.state ≠ .idle && s.re.session.peer = F.src : Bool) = false by
        rw [Bool.eq_false_iff]
        simpa using hse]
      rfl
    · rw [← hd]
      exact ⟨rfl, rfl⟩

/-! ### Requests (R124) -/

/-- The placing of a request looks at the reply queue and the frame in flight alone. -/
theorem State.placeRequest_frameTaken (s : State) (h : Nat) (rest : List (List Byte)) (roster : List Peer) (q : List Event)
    (r : Request) : (s.frameTaken h rest roster q).placeRequest r = (s.placeRequest r).frameTaken h rest roster q := by
  have hserved : ∀ old, (s.frameTaken h rest roster q).served old = s.served old := fun _ => rfl
  have hqueue : (s.frameTaken h rest roster q).re.replyQueue = s.re.replyQueue := rfl
  unfold State.placeRequest
  rw [hqueue]
  simp only [hserved]
  split
  · split
    · rw [State.dropRequest_eq, State.dropRequest_eq]
      rfl
    · rfl
  · split <;> rfl

/-- What the placing of a request changes. -/
theorem State.placeRequest_frame (s : State) (r : Request) : s.placeRequest r = { s with
    re := { s.re with replyQueue := (s.placeRequest r).re.replyQueue }
    li := { s.li with flight := (s.placeRequest r).li.flight }
    cp := { s.cp with counters := (s.placeRequest r).cp.counters } } := by
  unfold State.placeRequest
  split
  · split
    · rw [State.dropRequest_eq]
      rfl
    · rfl
  · split <;> rfl

theorem State.takeRequest_frameTaken (s : State) (F : Frame) (work : Work) (h : Nat) (rest : List (List Byte)) (roster : List Peer)
    (q : List Event) : (s.frameTaken h rest roster q).takeRequest F work = (s.takeRequest F work).frameTaken h rest roster q := by
  have hcond : ∀ u : State, u.straps = s.straps → u.sc = s.sc → u.takeRequest F work
      = if F.dst = stationNumber s.straps ∧ s.sc.station.onLine = true
        then u.placeRequest { requester := F.src, seq := F.seq, work := work, completed := false } else u := fun u h1 h2 => by
    rw [State.takeRequest, h1, h2]
  rw [hcond s rfl rfl, hcond (s.frameTaken h rest roster q) rfl rfl]
  split
  · exact s.placeRequest_frameTaken h rest roster q _
  · rfl

theorem State.takeRequest_frame (s : State) (F : Frame) (work : Work) : s.takeRequest F work = { s with
    re := { s.re with replyQueue := (s.takeRequest F work).re.replyQueue }
    li := { s.li with flight := (s.takeRequest F work).li.flight }
    cp := { s.cp with counters := (s.takeRequest F work).cp.counters } } := by
  unfold State.takeRequest
  split
  · exact s.placeRequest_frame _
  · rfl

/-- The work of a LISTING-REQUEST or a FETCH. -/
def requestWork : Payload → Option Work
  | .listingRequest m => some (.listing (bucketList m) 0 0 none)
  | .fetch ids => some (.fetch ids 0)
  | _ => none

/-- A request is placed as it would be before its frame was taken. -/
theorem State.takeKind_request {s : State} {F : Frame} {work : Work} (hp : requestWork F.payload = some work)
    (rest : List (List Byte)) (roster : List Peer) : (s.taken F rest roster).takeKind F
      = (s.takeRequest F work).frameTaken (F.payload.generations.foldl max s.pt.h) rest roster (s.heardNotify F.src) := by
  have hkind : ∀ v : State, v.takeKind F = v.takeRequest F work := fun v => by
    unfold State.takeKind
    cases h : F.payload <;> rw [h] at hp <;> cases hp <;> rfl
  rw [hkind]
  exact s.takeRequest_frameTaken F work _ _ _ _

theorem request_acted {s : State} {F : Frame} {work : Work} (hp : requestWork F.payload = some work) (rest : List (List Byte))
    {roster : List Peer} (hfrom : TakenFrom s F roster) : Acted s F rest ((s.taken F rest roster).takeKind F) := by
  have hnot : (∀ m, F.payload ≠ .listingRequest m) → ¬ ∀ ids, F.payload ≠ .fetch ids := fun h1 h2 => by
    cases h : F.payload with
    | listingRequest m => exact h1 m h
    | fetch ids => exact h2 ids h
    | _ => rw [h] at hp; cases hp
  have hleave : F.payload ≠ .leave := fun h => by rw [h] at hp; cases hp
  rw [State.takeKind_request hp]
  have hu := s.takeRequest_frame F work
  generalize s.takeRequest F work = u at hu
  refine .of_work hfrom hleave ⟨?_, ?_⟩ (fun _ => ?_) (fun _ h1 h2 => absurd h2 (hnot h1)) (fun _ => ?_) (fun _ _ => ?_) fun _ => ?_
  all_goals rw [hu]
  · rfl
  · rfl
  · rfl
  · exact ⟨rfl, rfl⟩
  · rfl
  · exact ⟨rfl, rfl⟩

theorem Station.onLine_iff (st : Station) : st.onLine = true ↔ st = .joining ∨ st = .active := by
  cases st <;> simp [Station.onLine]

/-- The placing of a request by the cases of Table 6.5.2, in JOINING and ACTIVE and for the own number alone. -/
theorem State.takeRequest_placed (s : State) (F : Frame) (work : Work) :
    (F.dst = s.straps.sn.toNat ∧ (s.sc.station = .joining ∨ s.sc.station = .active) →
      RequestPlaced s (s.takeRequest F work) { requester := F.src, seq := F.seq, work := work, completed := false })
    ∧ (¬ (F.dst = s.straps.sn.toNat ∧ (s.sc.station = .joining ∨ s.sc.station = .active)) → s.takeRequest F work = s) := by
  rw [← Station.onLine_iff]
  unfold State.takeRequest
  refine ⟨fun h => ?_, fun h => if_neg h⟩
  rw [if_pos (show F.dst = stationNumber s.straps ∧ _ from h)]
  exact s.placeRequest_placed _

end Sys2Proof.Machine
end

section
/-! A SUMMARY taken: the agreement, and the session that may open with its sender. -/

namespace Sys2Proof.Machine

/-! ### Sets of buckets (R57) -/

theorem getLsbD_bucketSet {l : List Nat} (hl : ∀ b ∈ l, b < 64) (b : Nat) : (bucketSet l).getLsbD b = decide (b ∈ l) := by
  have hfold : ∀ (l : List Nat) (m : BucketSet), (∀ b ∈ l, b < 64) →
      (l.foldl (fun m b => m ||| (1#64 <<< b)) m).getLsbD b = (m.getLsbD b || decide (b ∈ l)) := by
    intro l
    induction l with
    | nil => simp
    | cons a l ih =>
      intro m hl
      have ha : a < 64 := hl a (by simp)
      have hbit : (1#64 <<< a).getLsbD b = decide (b = a) := by
        simp only [BitVec.getLsbD_shiftLeft, BitVec.getLsbD_one]
        by_cases h : b = a
        · simp [h, ha]
        · have : b < a ∨ b - a ≠ 0 := by omega
          rcases this with h' | h' <;> simp [h, h']
      rw [List.foldl_cons, ih _ fun x hx => hl x (by simp [hx]), BitVec.getLsbD_or, hbit]
      simp [Bool.or_assoc]
  have h := hfold l 0 hl
  rwa [show (0 : BucketSet).getLsbD b = false by simp, Bool.false_or] at h

/-- The set of some buckets has no member where there are none. -/
theorem bucketSet_eq_zero {l : List Nat} (hl : ∀ b ∈ l, b < 64) : bucketSet l = 0 ↔ l = [] := by
  constructor
  · intro h
    refine List.eq_nil_iff_forall_not_mem.mpr fun b hb => ?_
    have := getLsbD_bucketSet hl b
    rw [h] at this
    simp [hb] at this
  · rintro rfl
    rfl

/-- The list of a set of buckets chosen in ascending order. -/
theorem bucketList_bucketSet (p : Nat → Bool) :
    bucketList (bucketSet ((List.range 64).filter p)) = (List.range 64).filter p := by
  unfold bucketList
  refine List.filter_congr fun b hb => ?_
  rw [getLsbD_bucketSet fun x hx => List.mem_range.mp (List.mem_filter.mp hx).1]
  simp only [List.mem_filter, show b ∈ List.range 64 from hb, true_and, Bool.decide_eq_true]

/-! ### One roster entry -/

/-- The state with a roster entry set. -/
def State.withPeer (s : State) (n : Nat) (p : Peer) : State :=
  { s with re := { s.re with roster := s.re.roster.modify (n - 1) fun _ => p } }

/-- A station number that the roster has an entry for, other than the own one. -/
structure InRoster (s : State) (n : Nat) : Prop where
  low : 1 ≤ n
  other : n ≠ stationNumber s.straps
  inside : n - 1 < s.re.roster.length

theorem InRoster.withPeer_peer {s : State} {n : Nat} (h : InRoster s n) (p : Peer) : (s.withPeer n p).peer n = p :=
  State.peer_modified (s := s) (t := s.withPeer n p) rfl h.low h.other h.inside rfl

theorem InRoster.withPeer {s : State} {n : Nat} (h : InRoster s n) (p : Peer) : InRoster (s.withPeer n p) n :=
  ⟨h.low, h.other, by
    show n - 1 < (s.re.roster.modify (n - 1) fun _ => p).length
    rw [List.length_modify]
    exact h.inside⟩

theorem InRoster.updatePeer {s : State} {n : Nat} (h : InRoster s n) (f : Peer → Peer) :
    s.updatePeer n f = s.withPeer n (f (s.peer n)) := by
  have hn0 : n ≠ 0 := by
    have := h.low
    omega
  unfold State.updatePeer State.withPeer
  rw [if_neg hn0, State.modify_peer (f := f) (g := fun _ => f (s.peer n)) h.low h.other h.inside rfl]

theorem State.withPeer_withPeer (s : State) (n : Nat) (p q : Peer) : (s.withPeer n p).withPeer n q = s.withPeer n q := by
  unfold State.withPeer
  rw [List.modify_modify_eq]
  rfl

/-! ### A SUMMARY (R98, R101, R102, R109) -/

/-- The entry of the sender of a SUMMARY, its agreement apart. -/
def Peer.summed (h count interval : Nat) (joining : Bool) (p : Peer) : Peer :=
  { p with h := h, count := count, interval := some interval, joining := joining }

/-- Buckets whose digests differ. -/
def diffBuckets (own theirs : List Half) : List Nat := (List.range 64).filter fun b => own[b]? ≠ theirs[b]?

theorem diffBuckets_lt {own theirs : List Half} : ∀ b ∈ diffBuckets own theirs, b < 64 :=
  fun _ hb => List.mem_range.mp (List.mem_filter.mp hb).1

/-- The agreement, the mask and the session after a SUMMARY with these differing buckets was compared: a session opens or not. -/
structure Compared (v : State) (n : Nat) (diffs : List Nat) (opens : Prop) (p : Peer) (se : Session) : Prop where
  agreement : p.agreement = if diffs = [] then .agree else .disagree
  agrees : diffs = [] → p.mask = 0 ∧ p.wanted = false ∧ p.failures = 0
  failures : diffs ≠ [] → p.failures = (v.peer n).failures
  opened : opens → se = { Session.cleared with state := .awaitListing, peer := n, buckets := diffs.take 8, raised := true }
    ∧ p.wanted = false ∧ ∀ b, p.mask.getLsbD b = true ↔ b ∈ diffs.drop 8
  session : ¬ opens → se = v.re.session
  waits : ¬ opens → diffs ≠ [] → p.wanted = true ∧ ∀ b, p.mask.getLsbD b = true ↔ b ∈ diffs

/-- The mask left to repair when a session takes the first 8 of the differing buckets. -/
theorem getLsbD_mask_left {diffs : List Nat} (hlt : ∀ b ∈ diffs, b < 64) (hn : diffs.Nodup) (b : Nat) :
    (bucketSet diffs &&& ~~~bucketSet (diffs.take 8)).getLsbD b = true ↔ b ∈ diffs.drop 8 := by
  have htake : ∀ b ∈ diffs.take 8, b < 64 := fun b hb => hlt b (List.mem_of_mem_take hb)
  have hsplit : b ∈ diffs ↔ b ∈ diffs.take 8 ∨ b ∈ diffs.drop 8 := by
    rw [← List.mem_append, List.take_append_drop]
  have hdisj : b ∈ diffs.take 8 → b ∉ diffs.drop 8 := fun h1 h2 => by
    have := hn
    rw [← List.take_append_drop 8 diffs] at this
    exact (List.disjoint_of_nodup_append this) h1 h2
  rw [BitVec.getLsbD_and, BitVec.getLsbD_not, getLsbD_bucketSet hlt, getLsbD_bucketSet htake]
  simp only [Bool.and_eq_true, Bool.not_eq_true', decide_eq_true_eq, decide_eq_false_iff_not]
  constructor
  · rintro ⟨h1, -, h2⟩
    exact (hsplit.mp h1).resolve_left h2
  · exact fun h => ⟨hsplit.mpr (.inr h), hlt b (hsplit.mpr (.inr h)), fun h' => hdisj h' h⟩

/-- The comparison of a SUMMARY's digests with the own ones, and the test for a session with its sender. -/
theorem State.compare_summary {v : State} {n : Nat} (hn : InRoster v n) (hpresent : (v.peer n).presence = .present)
    {diffs : List Nat} (hd : ∃ p, diffs = (List.range 64).filter p) {opens : Prop}
    (hopens : opens ↔ diffs ≠ [] ∧ (v.sc.station = .joining ∨ v.sc.station = .active) ∧ v.re.session.state = .idle
      ∧ (v.peer n).failures < 3) :
    ∃ p se, (if bucketSet diffs = 0 then v.updatePeer n fun p => p.compare (bucketSet diffs)
        else (v.updatePeer n fun p => p.compare (bucketSet diffs)).testSession n) = (v.withPeer n p).setSession se
      ∧ Compared v n diffs opens p se
      ∧ ∃ ag mask wanted failures,
        p = { v.peer n with agreement := ag, mask := mask, wanted := wanted, failures := failures } := by
  obtain ⟨sel, hsel⟩ := hd
  have hlt : ∀ b ∈ diffs, b < 64 := fun b hb => by
    rw [hsel] at hb
    exact List.mem_range.mp (List.mem_filter.mp hb).1
  have hnodup : diffs.Nodup := hsel ▸ List.nodup_range.filter _
  rw [hn.updatePeer]
  by_cases hnil : diffs = []
  · have hz := (bucketSet_eq_zero hlt).mpr hnil
    have hno : ¬ opens := fun h => (hopens.mp h).1 hnil
    rw [if_pos hz]
    refine ⟨(v.peer n).compare (bucketSet diffs), v.re.session, rfl, ?_, ?_⟩
    · rw [Peer.compare, if_pos hz]
      exact ⟨(if_pos hnil).symm, fun _ => ⟨rfl, rfl, rfl⟩, fun h => absurd hnil h, fun h => absurd h hno, fun _ => rfl,
        fun _ h => absurd hnil h⟩
    · rw [Peer.compare, if_pos hz]
      exact ⟨_, _, _, _, rfl⟩
  · have hz : bucketSet diffs ≠ 0 := fun h => hnil ((bucketSet_eq_zero hlt).mp h)
    rw [if_neg hz]
    have hcompare : (v.peer n).compare (bucketSet diffs)
        = { v.peer n with agreement := .disagree, mask := bucketSet diffs, wanted := true } := if_neg hz
    rw [hcompare]
    generalize hp : ({ v.peer n with agreement := .disagree, mask := bucketSet diffs, wanted := true } : Peer) = p
    have hcand : p.candidate = decide ((v.peer n).failures < 3) := by
      rw [← hp]
      simp [Peer.candidate, hpresent, show Config.maxFailures = 3 from rfl]
    have hmay : (v.withPeer n p).mayOpenSession = true ↔ v.re.session.state = .idle ∧ (v.sc.station = .joining ∨ v.sc.station = .active) := by
      show (decide (v.re.session.state = .idle) && v.sc.station.onLine) = true ↔ _
      rw [Bool.and_eq_true, decide_eq_true_eq, Station.onLine_iff]
    have htest : ((v.withPeer n p).mayOpenSession && ((v.withPeer n p).peer n).candidate) = true ↔ opens := by
      rw [hn.withPeer_peer, Bool.and_eq_true, hmay, hcand, decide_eq_true_eq, hopens]
      tauto
    unfold State.testSession
    by_cases ho : opens
    · rw [if_pos (htest.mpr ho)]
      have hbuckets : (bucketList p.mask).take Config.sessionBuckets = diffs.take 8 := by
        rw [← hp]
        dsimp only
        rw [hsel, bucketList_bucketSet]
        rfl
      have hopen : (v.withPeer n p).openSession n
          = (v.withPeer n { p with mask := p.mask &&& ~~~bucketSet (diffs.take 8), wanted := false }).setSession
            { Session.cleared with state := .awaitListing, peer := n, buckets := diffs.take 8, raised := true } := by
        unfold State.openSession
        dsimp only
        rw [(hn.withPeer p).updatePeer, hn.withPeer_peer, hbuckets, State.withPeer_withPeer]
      refine ⟨_, _, hopen, ?_, ?_⟩
      · rw [← hp]
        exact ⟨(if_neg hnil).symm, fun h => absurd h hnil, fun _ => rfl, fun _ => ⟨rfl, rfl, getLsbD_mask_left hlt hnodup⟩,
          fun h => absurd ho h, fun h => absurd ho h⟩
      · rw [← hp]
        exact ⟨_, _, _, _, rfl⟩
    · rw [if_neg fun h => ho (htest.mp h)]
      refine ⟨p, v.re.session, rfl, ?_, ?_⟩
      · rw [← hp]
        exact ⟨(if_neg hnil).symm, fun h => absurd h hnil, fun _ => rfl, fun h => absurd h ho, fun _ => rfl,
          fun _ _ => ⟨rfl, fun b => by
            rw [getLsbD_bucketSet hlt]
            simp⟩⟩
      · rw [← hp]
        exact ⟨_, _, _, _, rfl⟩

/-- A SUMMARY changes its sender's entry and the session, and, with the JOINING flag, what makes a SUMMARY due (R98). -/
structure SummaryTaken (v : State) (n : Nat) (p : Peer) (se : Session) (joining : Bool) (w : State) : Prop where
  frame : w = { v with
    re := { v.re with
      roster := v.re.roster.modify (n - 1) fun _ => p, session := se, summaryTimer := w.re.summaryTimer }
    ac := { v.ac with summaryDue := w.ac.summaryDue } }
  early : joining = true → v.sc.station.onLine = true → w.ac.summaryDue = true ∧ w.re.summaryTimer = some 0
  still : joining = false ∨ v.sc.station.onLine = false →
    w.ac.summaryDue = v.ac.summaryDue ∧ w.re.summaryTimer = v.re.summaryTimer

theorem SummaryTaken.of_early (v : State) (n : Nat) (p : Peer) (se : Session) (joining : Bool) :
    SummaryTaken v n p se joining (if joining = true then ((v.withPeer n p).setSession se).earlySummary
      else (v.withPeer n p).setSession se) := by
  cases joining with
  | false => exact ⟨rfl, nofun, fun _ => ⟨rfl, rfl⟩⟩
  | true =>
    have hon : ((v.withPeer n p).setSession se).sc.station.onLine = v.sc.station.onLine := rfl
    rw [if_pos rfl, State.earlySummary, hon]
    split
    · next h => exact ⟨rfl, fun _ _ => ⟨rfl, rfl⟩, fun hn => by simp [h] at hn⟩
    · next h => exact ⟨rfl, fun _ h' => absurd h' h, fun _ => ⟨rfl, rfl⟩⟩

/-- The taking of a SUMMARY: its sender's entry, and where records are applied the comparison and the early SUMMARY. -/
theorem State.takeSummary_eq {v : State} {n : Nat} (hn : InRoster v n) (h count interval : Nat) (digests : List Half) (joining : Bool)
    {q : Peer} (hq : (v.peer n).summed h count interval joining = q) {diffs : List Nat}
    (hd : diffBuckets v.pt.digests digests = diffs) : v.takeSummary n h count interval digests joining =
      if v.sc.station.applies = true then
        (fun x : State => if joining = true then x.earlySummary else x)
          (if bucketSet diffs = 0 then (v.withPeer n q).updatePeer n fun p => p.compare (bucketSet diffs)
          else ((v.withPeer n q).updatePeer n fun p => p.compare (bucketSet diffs)).testSession n)
      else v.withPeer n q := by
  subst hq hd
  unfold State.takeSummary
  dsimp only
  rw [hn.updatePeer]
  rfl

/-- A SUMMARY is taken: compared where records are applied, noted alone where they are not. -/
theorem State.takeSummary_taken {v : State} {n : Nat} (hn : InRoster v n) (hpresent : (v.peer n).presence = .present)
    (h count interval : Nat) (digests : List Half) (joining : Bool) {opens : Prop}
    (hopens : opens ↔ diffBuckets v.pt.digests digests ≠ [] ∧ (v.sc.station = .joining ∨ v.sc.station = .active)
      ∧ v.re.session.state = .idle ∧ (v.peer n).failures < 3) :
    ∃ p se, SummaryTaken v n p se joining (v.takeSummary n h count interval digests joining)
      ∧ (∃ ag mask wanted failures, p = { (v.peer n).summed h count interval joining with
          agreement := ag, mask := mask, wanted := wanted, failures := failures })
      ∧ (v.sc.station.applies = false → se = v.re.session ∧ p = (v.peer n).summed h count interval joining)
      ∧ (v.sc.station.applies = true → Compared v n (diffBuckets v.pt.digests digests) opens p se) := by
  generalize hd : diffBuckets v.pt.digests digests = diffs at hopens
  generalize hq : (v.peer n).summed h count interval joining = q
  rw [State.takeSummary_eq hn h count interval digests joining hq hd]
  cases happ : v.sc.station.applies with
  | false =>
    have hoff : v.sc.station.onLine ≠ true := fun h => by
      rcases (Station.onLine_iff _).mp h with h | h <;> rw [h] at happ <;> cases happ
    rw [if_neg (by simp)]
    exact ⟨q, v.re.session, ⟨rfl, fun _ h => absurd h hoff, fun _ => ⟨rfl, rfl⟩⟩, ⟨_, _, _, _, rfl⟩, fun _ => ⟨rfl, rfl⟩, nofun⟩
  | true =>
    rw [if_pos rfl]
    have hpeer := hn.withPeer_peer q
    have hfail : ((v.withPeer n q).peer n).failures = (v.peer n).failures := by
      rw [hpeer, ← hq]
      rfl
    obtain ⟨p, se, heq, hc, ag, mask, wanted, failures, hp⟩ := State.compare_summary (hn.withPeer q)
      (by rw [hpeer, ← hq]; exact hpresent) (diffs := diffs) ⟨_, hd.symm⟩ (opens := opens)
      (by rw [hopens, hfail]; exact Iff.rfl)
    rw [State.withPeer_withPeer] at heq
    rw [hpeer] at hp
    refine ⟨p, se, ?_, ⟨ag, mask, wanted, failures, hp⟩, nofun, fun _ => ⟨hc.agreement, hc.agrees,
      fun h => (hc.failures h).trans hfail, hc.opened, hc.session, hc.waits⟩⟩
    rw [heq]
    exact SummaryTaken.of_early v n p se joining

theorem TakenFrom.inRoster {s : State} {F : Frame} {roster : List Peer} (h : TakenFrom s F roster) (rest : List (List Byte)) :
    InRoster (s.taken F rest roster) F.src :=
  ⟨h.low, h.other, by
    show F.src - 1 < roster.length
    rw [h.roster, List.length_modify]
    exact h.inRange⟩

theorem Peer.heard_failures (now : Nat) (p : Peer) : (p.heard now).failures = p.failures := by
  unfold Peer.heard
  split <;> rfl

/-- The work of a SUMMARY. -/
theorem State.takeKind_summary {s : State} {F : Frame} {h count interval : Nat} {digests : List Half}
    (hp : F.payload = .summary h count interval digests) (rest : List (List Byte)) {roster : List Peer}
    (hfrom : TakenFrom s F roster) :
    ∃ p se w, (s.taken F rest roster).takeKind F = w ∧ SummaryTaken (s.taken F rest roster) F.src p se F.flags.joining w
      ∧ w.peer F.src = p
      ∧ (∃ ag mask wanted failures, p = { (Peer.heard s.clk.now (s.peer F.src)).summed h count interval F.flags.joining with
          agreement := ag, mask := mask, wanted := wanted, failures := failures })
      ∧ (s.sc.station.applies = false → se = s.re.session
          ∧ p = (Peer.heard s.clk.now (s.peer F.src)).summed h count interval F.flags.joining)
      ∧ (s.sc.station.applies = true → Compared (s.taken F rest roster) F.src (diffBuckets s.pt.digests digests)
          (diffBuckets s.pt.digests digests ≠ [] ∧ (s.sc.station = .joining ∨ s.sc.station = .active)
            ∧ s.re.session.state = .idle ∧ (s.peer F.src).failures < 3) p se) := by
  have hn := hfrom.inRoster rest
  have hpeer := hfrom.peer rest
  have hkind : (s.taken F rest roster).takeKind F
      = (s.taken F rest roster).takeSummary F.src h count interval digests F.flags.joining := by
    unfold State.takeKind
    rw [hp]
  obtain ⟨p, se, htaken, hsum, hheld, hcmp⟩ := State.takeSummary_taken hn
    (by rw [hpeer]; exact congrArg Prod.fst (Peer.sign_heard s.clk.now (s.peer F.src))) h count interval digests F.flags.joining
    (opens := diffBuckets s.pt.digests digests ≠ [] ∧ (s.sc.station = .joining ∨ s.sc.station = .active)
      ∧ s.re.session.state = .idle ∧ (s.peer F.src).failures < 3) (by rw [hpeer, Peer.heard_failures]; exact Iff.rfl)
  rw [hpeer] at hsum hheld
  rw [← hkind] at htaken
  refine ⟨p, se, _, rfl, htaken, ?_, hsum, hheld, hcmp⟩
  rw [htaken.frame]
  exact hn.withPeer_peer p

theorem summary_acted {s : State} {F : Frame} {h count interval : Nat} {digests : List Half}
    (hp : F.payload = .summary h count interval digests) (rest : List (List Byte)) {roster : List Peer}
    (hfrom : TakenFrom s F roster) : Acted s F rest ((s.taken F rest roster).takeKind F) := by
  obtain ⟨p, se, w, hw, htaken, -, ⟨ag, mask, wanted, failures, hsum⟩, -, -⟩ := State.takeKind_summary hp rest hfrom
  have hframe := htaken.frame
  have hn := hfrom.inRoster rest
  have hroster : (s.taken F rest roster).re.roster.modify (F.src - 1) (fun _ => p)
      = (s.taken F rest roster).re.roster.modify (F.src - 1) fun x => { x.summed h count interval F.flags.joining with
          agreement := ag, mask := mask, wanted := wanted, failures := failures } :=
    State.modify_peer hn.low hn.other hn.inside (by rw [hsum, hfrom.peer])
  have hstill : F.flags.joining = false ∨ ¬ (s.sc.station = .joining ∨ s.sc.station = .active) →
      w.ac.summaryDue = s.ac.summaryDue ∧ w.re.summaryTimer = s.re.summaryTimer := fun h => by
    refine htaken.still (h.imp_right fun h => ?_)
    rw [Bool.eq_false_iff, ne_eq, Station.onLine_iff]
    exact h
  rw [hw]
  refine .of_work hfrom (by simp [hp]) ⟨?_, ?_⟩ (fun _ => ?_) (fun _ _ _ => ?_) (fun _ => ?_) (fun _ _ => ?_)
    fun hno => hstill (hno.resolve_left fun h => h _ _ _ _ hp)
  all_goals rw [hframe]
  · show ((s.taken F rest roster).re.roster.modify _ _).map Peer.sign = _
    rw [hroster]
    refine map_modify_eq (fun x => ?_) _ _
    rfl
  · rfl
  · rfl
  · exact ⟨rfl, rfl⟩
  · rfl

/-- What a SUMMARY does to its sender's entry and to the session (R101, R102, R109, R110). -/
theorem summary_taken {s : State} {F : Frame} {h count interval : Nat} {digests : List Half}
    (hp : F.payload = .summary h count interval digests) (rest : List (List Byte)) {roster : List Peer}
    (hfrom : TakenFrom s F roster) (hst : s.sc.station ≠ .replay) {w : State} (hw : (s.taken F rest roster).takeKind F = w) :
    (w.peer F.src).h = h ∧ (w.peer F.src).count = count ∧ (w.peer F.src).interval = some interval
      ∧ (w.peer F.src).joining = F.flags.joining
      ∧ w.re = { s.re with
          rxBuffer := rest, session := w.re.session, summaryTimer := w.re.summaryTimer
          roster := s.re.roster.modify (F.src - 1) fun _ => w.peer F.src }
      ∧ w.li = s.li
      ∧ (s.sc.station = .held → w.re.session = s.re.session
          ∧ w.peer F.src = { Peer.heard s.clk.now (s.peer F.src) with
              h := h, count := count, interval := some interval, joining := F.flags.joining })
      ∧ (s.sc.station ≠ .held → ∃ (diffs : List Nat) (opens : Prop),
          diffs = ((List.range 64).filter fun b => s.pt.digests[b]? ≠ digests[b]?)
          ∧ (opens ↔ diffs ≠ [] ∧ (s.sc.station = .joining ∨ s.sc.station = .active) ∧ s.re.session.state = .idle
              ∧ (s.peer F.src).failures < 3)
          ∧ (w.peer F.src).agreement = (if diffs = [] then .agree else .disagree)
          ∧ (diffs = [] → (w.peer F.src).mask = 0 ∧ (w.peer F.src).wanted = false ∧ (w.peer F.src).failures = 0)
          ∧ (diffs ≠ [] → (w.peer F.src).failures = (s.peer F.src).failures)
          ∧ (opens → w.re.session = { Session.cleared with
                state := .awaitListing, peer := F.src, buckets := diffs.take 8, raised := true }
              ∧ (w.peer F.src).wanted = false ∧ ∀ b, (w.peer F.src).mask.getLsbD b = true ↔ b ∈ diffs.drop 8)
          ∧ (¬ opens → w.re.session = s.re.session)
          ∧ (¬ opens → diffs ≠ [] → (w.peer F.src).wanted = true
              ∧ ∀ b, (w.peer F.src).mask.getLsbD b = true ↔ b ∈ diffs))
      ∧ (F.flags.joining = true → s.sc.station = .joining ∨ s.sc.station = .active →
          w.ac.summaryDue = true ∧ w.re.summaryTimer = some 0) := by
  obtain ⟨p, se, w', hw', htaken, hpeer, ⟨ag, mask, wanted, failures, hsum⟩, hheld, hcmp⟩ := State.takeKind_summary hp rest hfrom
  obtain rfl : w = w' := hw.symm.trans hw'
  have hframe := htaken.frame
  have hse : w.re.session = se := by rw [hframe]
  rw [hpeer, hse]
  refine ⟨congrArg Peer.h hsum, congrArg Peer.count hsum, congrArg Peer.interval hsum, congrArg Peer.joining hsum, ?_, ?_,
    fun h => hheld (by rw [h]; rfl), fun h => ?_, fun h1 h2 => htaken.early h1 ((Station.onLine_iff _).mpr h2)⟩
  · have hro : roster.modify (F.src - 1) (fun _ => p) = s.re.roster.modify (F.src - 1) fun _ => p := by
      rw [hfrom.roster, List.modify_modify_eq]
      rfl
    rw [hframe, ← hro]
    rfl
  · rw [hframe]
    rfl
  · have hc := hcmp (by revert hst h; cases s.sc.station <;> simp [Station.applies])
    refine ⟨_, _, rfl, Iff.rfl, hc.agreement, hc.agrees, fun h => (hc.failures h).trans ?_, hc.opened, hc.session, hc.waits⟩
    rw [hfrom.peer, Peer.heard_failures]

end Sys2Proof.Machine
end

section
/-! A LISTING taken: the merge with the table, and the session's next step. -/

namespace Sys2Proof.Machine

/-! ### What a LISTING changes (R115 to R120) -/

/-- What the merge of a listing with the table changes: the entries, the outbound list and the session. -/
def MergeFrame (u x : State) : Prop :=
  x = { u with
    pt := { u.pt with entries := x.pt.entries }, re := { u.re with outbound := x.re.outbound, session := x.re.session } }

theorem MergeFrame.refl (u : State) : MergeFrame u u := rfl

theorem MergeFrame.trans {u x y : State} (h1 : MergeFrame u x) (h2 : MergeFrame x y) : MergeFrame u y := by
  refine Eq.trans h2 ?_
  unfold MergeFrame at h1
  rw [h1]

theorem State.setSession_merge (u : State) (se : Session) : MergeFrame u (u.setSession se) := rfl

theorem State.pushRequest_merge (u : State) (id : Nat) : MergeFrame u (u.pushRequest id) := by
  unfold State.pushRequest
  split <;> exact rfl

theorem State.pushBetween_merge (u : State) (b : Nat) (lo hi : Option Nat) : MergeFrame u (u.pushBetween b lo hi) := by
  have hfold : ∀ (es : List Entry) (u : State), MergeFrame u (es.foldl (fun s e => s.pushRequest e.id) u) := by
    intro es
    induction es with
    | nil => exact MergeFrame.refl
    | cons e es ih => exact fun u => (u.pushRequest_merge e.id).trans (ih _)
  exact hfold _ u

theorem State.compareQuad_merge (b : Nat) (u : State) (cursor : Option Nat) (q : Quad) :
    MergeFrame u (State.compareQuad b (u, cursor) q).1 := by
  refine (u.pushBetween_merge b cursor (some q.id)).trans ?_
  unfold State.compareQuad
  dsimp only
  generalize u.pushBetween b cursor (some q.id) = x
  split
  · exact x.setSession_merge _
  · split
    · exact .refl x
    · split
      · exact x.setSession_merge _
      · split
        · exact x.pushRequest_merge q.id
        · exact .refl x

theorem State.compareListing_merge (u : State) (b : Nat) (quads : List Quad) (bucketLast : Bool) :
    MergeFrame u (u.compareListing b quads bucketLast) := by
  have hfold : ∀ (quads : List Quad) (u : State) (c : Option Nat), MergeFrame u (quads.foldl (State.compareQuad b) (u, c)).1 := by
    intro quads
    induction quads with
    | nil => exact fun u _ => .refl u
    | cons q quads ih => exact fun u c => (State.compareQuad_merge b u c q).trans (ih _ _)
  unfold State.compareListing
  dsimp only
  split
  · exact (hfold _ _ _).trans (State.pushBetween_merge _ _ _ _)
  · exact hfold _ _ _

/-- What a LISTING changes at most; no station is heard by it. -/
def ListingFrame (v w : State) : Prop :=
  w = { v with
    pt := { v.pt with entries := w.pt.entries }
    re := { v.re with outbound := w.re.outbound, session := w.re.session, roster := w.re.roster }
    li := { v.li with flight := w.li.flight } }
  ∧ w.re.roster.map Peer.sign = v.re.roster.map Peer.sign

theorem MergeFrame.listing {v x : State} (h : MergeFrame v x) : ListingFrame v x := by
  refine ⟨?_, ?_⟩ <;> rw [show x = _ from h]

theorem ListingFrame.trans {u v w : State} (h1 : ListingFrame u v) (h2 : ListingFrame v w) : ListingFrame u w := by
  obtain ⟨hv, hrv⟩ := h1
  obtain ⟨hw, hrw⟩ := h2
  refine ⟨hw.trans ?_, hrw.trans hrv⟩
  rw [hv]

theorem State.sessionSuccess_listing (s : State) : ListingFrame s s.sessionSuccess := by
  have h := s.sessionSuccess_eq
  have hr := s.sessionSuccess_map peerSign_kept
  generalize s.sessionSuccess = t at *
  refine ⟨?_, hr⟩
  rw [h]

/-- The second timeout of a session ends it (R119). -/
theorem State.sessionTimeout_second {s : State} (h : s.re.session.attempt ≠ 1) : s.sessionTimeout = { s with
    re := { s.re with session := s.sessionTimeout.re.session, roster := s.sessionTimeout.re.roster }
    li := { s.li with flight := s.li.flight.map (Flight.left true false) } }
    ∧ s.sessionTimeout.re.roster.map Peer.sign = s.re.roster.map Peer.sign := by
  have ht : s.sessionTimeout = (s.giveBack.updatePeer s.re.session.peer fun p =>
      { p with failures := p.failures + 1 }).closeSession.searchSession := if_neg h
  have hover := s.giveBack.sessionOver_eq s.re.session.peer fun p => { p with failures := p.failures + 1 }
  have hback : s.giveBack = { s with re := { s.re with roster := s.giveBack.re.roster } } := s.updatePeer_eq _ _
  have hr : s.sessionTimeout.re.roster.map Peer.sign = s.re.roster.map Peer.sign := by
    rw [ht, State.searchSession_map peerSign_kept]
    show (s.giveBack.updatePeer _ _).re.roster.map Peer.sign = _
    exact (State.updatePeer_map (f := fun p => { p with failures := p.failures + 1 }) (fun _ => rfl) s.giveBack _).trans
      (State.updatePeer_map (g := Peer.sign) (f := fun p => { p with mask := p.mask ||| bucketSet s.re.session.buckets, wanted := true })
        (fun _ => rfl) s s.re.session.peer)
  rw [← ht] at hover
  generalize s.sessionTimeout = t at *
  generalize s.giveBack = g at *
  refine ⟨?_, hr⟩
  rw [hover, hback]

theorem State.sessionTimeout_listing (s : State) : ListingFrame s s.sessionTimeout := by
  by_cases h : s.re.session.attempt = 1
  · unfold State.sessionTimeout
    dsimp only
    rw [if_pos h]
    split <;> exact MergeFrame.listing rfl
  · obtain ⟨ht, hr⟩ := State.sessionTimeout_second h
    generalize s.sessionTimeout = t at *
    refine ⟨?_, hr⟩
    rw [ht]

/-- The listing is in the order the session expects it. -/
def InOrder (se : Session) (b part : Nat) (fl : FrameFlags) : Prop :=
  se.buckets[se.pos]? = some b ∧ part = se.part
    ∧ (fl.end_ = true → fl.bucketLast = true ∧ se.pos + 1 = se.buckets.length)

/-- The session after a listing of its expected bucket and part was merged. -/
def State.nextListing (x : State) (quads : List Quad) (bucketLast last : Bool) : State :=
  if bucketLast = false then
    x.setSession { x.re.session with part := x.re.session.part + 1, cursor := lastQuad quads x.re.session.cursor }
  else if last = false then x.setSession { x.re.session with pos := x.re.session.pos + 1, part := 0, cursor := none }
  else x.listingComplete

theorem State.takeListing_eq (s : State) (b part : Nat) (quads : List Quad) (fl : FrameFlags) :
    (InOrder s.re.session b part fl → s.takeListing b part quads fl
      = ((s.setSession { s.re.session with timer := 0 }).compareListing b quads fl.bucketLast).nextListing quads fl.bucketLast
          (s.re.session.pos + 1 == s.re.session.buckets.length))
    ∧ (¬ InOrder s.re.session b part fl → s.takeListing b part quads fl = s.sessionTimeout) := by
  have hcond : (s.re.session.buckets[s.re.session.pos]? = some b ∧ part = s.re.session.part
      ∧ (!(fl.end_ && !(fl.bucketLast && (s.re.session.pos + 1 == s.re.session.buckets.length)))) = true)
      ↔ InOrder s.re.session b part fl := by
    refine and_congr_right fun _ => and_congr_right fun _ => ?_
    cases fl.end_ <;> simp
  unfold State.takeListing
  dsimp only
  refine ⟨fun h => ?_, fun h => ?_⟩
  · rw [if_pos (hcond.mpr h)]
    unfold State.nextListing
    generalize (s.setSession { s.re.session with timer := 0 }).compareListing b quads fl.bucketLast = x
    cases fl.bucketLast <;> cases (s.re.session.pos + 1 == s.re.session.buckets.length) <;> rfl
  · rw [if_neg fun h' => h (hcond.mp h')]

theorem State.nextListing_listing (x : State) (quads : List Quad) (bucketLast last : Bool) :
    ListingFrame x (x.nextListing quads bucketLast last) := by
  unfold State.nextListing
  split
  · exact MergeFrame.listing rfl
  · split
    · exact MergeFrame.listing rfl
    · unfold State.listingComplete
      split
      · exact x.sessionSuccess_listing
      · exact MergeFrame.listing rfl

theorem State.takeListing_listing (s : State) (b part : Nat) (quads : List Quad) (fl : FrameFlags) :
    ListingFrame s (s.takeListing b part quads fl) := by
  obtain ⟨hin, hout⟩ := s.takeListing_eq b part quads fl
  by_cases h : InOrder s.re.session b part fl
  · rw [hin h]
    exact (((s.setSession_merge _).trans (State.compareListing_merge _ _ _ _)).listing).trans (State.nextListing_listing _ _ _ _)
  · rw [hout h]
    exact s.sessionTimeout_listing

/-! ### The work of a LISTING -/

theorem State.takeKind_listing (v : State) {F : Frame} {b part : Nat} {quads : List Quad} (hp : F.payload = .listing b part quads) :
    v.takeKind F = if v.matchesSession F then v.takeListing b part quads F.flags else v := by
  unfold State.takeKind
  rw [hp]

theorem listing_acted {s : State} {F : Frame} {b part : Nat} {quads : List Quad} (hp : F.payload = .listing b part quads)
    (rest : List (List Byte)) {roster : List Peer} (hfrom : TakenFrom s F roster) :
    Acted s F rest ((s.taken F rest roster).takeKind F) := by
  have hframe : ListingFrame (s.taken F rest roster) ((s.taken F rest roster).takeKind F) := by
    rw [State.takeKind_listing _ hp]
    split
    · exact State.takeListing_listing _ _ _ _ _
    · exact (MergeFrame.refl _).listing
  obtain ⟨hw, hr⟩ := hframe
  generalize (s.taken F rest roster).takeKind F = w at hw hr
  refine .of_work hfrom (by simp [hp]) ⟨?_, hr⟩ (fun _ => ?_) (fun _ _ _ => ?_) (fun _ => ?_) (fun _ h => absurd hp (h _ _ _))
    fun _ => ?_
  all_goals rw [hw]
  · rfl
  · rfl
  · exact ⟨rfl, rfl⟩
  · exact ⟨rfl, rfl⟩

/-- The match of a LISTING with the session (R113): a frame of this kind is a reply (Table 3.2.2). -/
theorem State.matchesSession_listing (s : State) {F : Frame} {b part : Nat} {quads : List Quad}
    (hp : F.payload = .listing b part quads) (hreply : F.flags.reply = true) :
    s.matchesSession F = true ↔ s.re.session.state = .awaitListing ∧ s.re.session.raised = false
      ∧ F.dst = s.straps.sn.toNat ∧ F.src = s.re.session.peer ∧ F.seq = s.re.session.reqSeq := by
  unfold State.matchesSession
  rw [hp]
  dsimp only
  generalize s.re.session.state = st
  cases st <;> simp [stationNumber, hreply]
  tauto

theorem lastQuad_eq (quads : List Quad) (cursor : Option Nat) :
    lastQuad quads cursor = quads.getLast?.elim cursor fun q => some q.id := by
  unfold lastQuad
  cases quads.getLast? <;> rfl

/-- The ids that a listing newly wants (R115, R116). -/
def State.freshWants (s : State) (quads : List Quad) : List Nat :=
  ((quads.filter (wantsQuad s)).map Quad.id).filter fun i => i ∉ s.re.session.want

/-- The session with the ids that a listing wants, as far as there is room, and its timer restarted. -/
def State.wantSession (s : State) (quads : List Quad) : Session :=
  { s.re.session with
    timer := 0
    want := s.re.session.want ++ (s.freshWants quads).take (32 - s.re.session.want.length)
    more := s.re.session.more || decide (32 - s.re.session.want.length < (s.freshWants quads).length) }

/-- The state with a listing merged. -/
def State.mergeListing (s : State) (b : Nat) (quads : List Quad) (bucketLast : Bool) : State :=
  (s.withPushed (pushesEntry b quads s.re.session.cursor bucketLast)).setSession (s.wantSession quads)

/-- A listing in the expected order is merged, and the session goes on from it (R114 to R117). -/
theorem State.takeListing_inOrder {s : State} {b part : Nat} {quads : List Quad} {fl : FrameFlags}
    (hs : s.pt.entries.Pairwise fun x y => x.id < y.id) (hquads : (Payload.listing b part quads).Sound)
    (h : InOrder s.re.session b part fl) : s.takeListing b part quads fl
      = (s.mergeListing b quads fl.bucketLast).nextListing quads fl.bucketLast
          (s.re.session.pos + 1 == s.re.session.buckets.length) := by
  obtain ⟨hsorted, hbucket⟩ := hquads
  have hnodup : ((quads.filter (wantsQuad s)).map Quad.id).Nodup :=
    List.pairwise_map.mpr ((hsorted.filter _).imp fun h => Nat.ne_of_lt h)
  have hmerge : (s.setSession { s.re.session with timer := 0 }).compareListing b quads fl.bucketLast
      = s.mergeListing b quads fl.bucketLast := by
    rw [State.compareListing_eq (by exact hs) b quads fl.bucketLast hsorted fun q hq => (hbucket q hq).1]
    unfold Session.takeQuads
    rw [Session.addWants _ _ (by exact hnodup)]
    rfl
  rw [(s.takeListing_eq b part quads fl).1 h, hmerge]

/-- The first timeout of a session that awaits a listing asks again (R119). -/
theorem State.sessionTimeout_first {s : State} (ha : s.re.session.attempt = 1) (hst : s.re.session.state = .awaitListing) :
    s.sessionTimeout = s.setSession { s.re.session with
      attempt := 2, raised := true, timer := 0, want := [], more := false, pos := 0, part := 0, cursor := none } := by
  unfold State.sessionTimeout
  dsimp only
  rw [if_pos ha, hst]

/-- The next listing expected, or a FETCH raised, change the session alone; success ends it (R117, R120). -/
theorem State.nextListing_spec {x w : State} {quads : List Quad} {bucketLast : Bool} {se : Session} (hse : x.re.session = se)
    (hw : x.nextListing quads bucketLast (se.pos + 1 == se.buckets.length) = w) (hpeer : 1 ≤ se.peer) :
    w = { x with
      re := { x.re with session := w.re.session, roster := w.re.roster }, li := { x.li with flight := w.li.flight } }
    ∧ (bucketLast = false ∨ se.pos + 1 ≠ se.buckets.length ∨ se.want ≠ [] → w.re.roster = x.re.roster ∧ w.li = x.li)
    ∧ (bucketLast = false → w.re.session
      = { se with part := se.part + 1, cursor := quads.getLast?.elim se.cursor fun q => some q.id })
    ∧ (bucketLast = true → se.pos + 1 ≠ se.buckets.length → w.re.session
      = { se with pos := se.pos + 1, part := 0, cursor := none })
    ∧ (bucketLast = true → se.pos + 1 = se.buckets.length → se.want ≠ [] → w.re.session
      = { se with state := .awaitUpdates, attempt := 1, raised := true, timer := 0 })
    ∧ (bucketLast = true → se.pos + 1 = se.buckets.length → se.want = [] →
      SessionEnded x (x.re.roster.modify (se.peer - 1) (Peer.repaired se se.more)) w
      ∧ w.li = { x.li with flight := x.li.flight.map (Flight.left true false) }) := by
  subst hse hw
  unfold State.nextListing
  cases bucketLast with
  | false =>
    rw [if_pos rfl, lastQuad_eq]
    exact ⟨rfl, fun _ => ⟨rfl, rfl⟩, fun _ => rfl, nofun, nofun, nofun⟩
  | true =>
    rw [if_neg (by simp)]
    by_cases hlast : x.re.session.pos + 1 = x.re.session.buckets.length
    · rw [if_neg (by simp [hlast]), State.listingComplete]
      by_cases hwant : x.re.session.want = []
      · rw [if_pos (by simp [hwant])]
        have heq := x.sessionSuccess_eq
        have hended := x.sessionSuccess_ended hpeer
        generalize x.sessionSuccess = w at heq hended
        refine ⟨?_, ?_, nofun, fun _ h => absurd hlast h, fun _ _ h => absurd hwant h, fun _ _ _ => ⟨hended, ?_⟩⟩
        · rw [heq]
        · rintro (h | h | h)
          · cases h
          · exact absurd hlast h
          · exact absurd hwant h
        · rw [heq]
      · rw [if_neg (by simpa using hwant)]
        exact ⟨rfl, fun _ => ⟨rfl, rfl⟩, nofun, fun _ h => absurd hlast h, fun _ _ _ => rfl, fun _ _ h => absurd h hwant⟩
    · rw [if_pos (by simpa using hlast)]
      exact ⟨rfl, fun _ => ⟨rfl, rfl⟩, nofun, fun _ _ => rfl, fun _ h => absurd h hlast, fun _ h => absurd h hlast⟩

/-- What a LISTING does to the session, the table and the outbound list (R113 to R120). -/
theorem listing_taken {s : State} {F : Frame} {b part : Nat} {quads : List Quad} (hp : F.payload = .listing b part quads)
    (hreply : F.flags.reply = true) (hquads : F.payload.Sound) (rest : List (List Byte)) {roster : List Peer}
    (hfrom : TakenFrom s F roster) {w : State} (hw : (s.taken F rest roster).takeKind F = w) {matched inOrder : Prop}
    (hmatched : matched ↔ s.re.session.state = .awaitListing ∧ s.re.session.raised = false
      ∧ F.dst = s.straps.sn.toNat ∧ F.src = s.re.session.peer ∧ F.seq = s.re.session.reqSeq)
    (hinOrder : inOrder ↔ s.re.session.buckets[s.re.session.pos]? = some b ∧ part = s.re.session.part
      ∧ (F.flags.end_ = true → F.flags.bucketLast = true ∧ s.re.session.pos + 1 = s.re.session.buckets.length))
    (hsorted : s.pt.entries.Pairwise fun x y => x.id < y.id) :
    w.re = { s.re with
      rxBuffer := rest, session := w.re.session, roster := w.re.roster, outbound := w.re.outbound }
    ∧ (¬ (matched ∧ inOrder) → w.pt.entries = s.pt.entries ∧ w.re.outbound = s.re.outbound)
    ∧ (¬ matched → w.re.session = s.re.session ∧ w.re.roster = roster ∧ w.li = s.li)
    ∧ (matched → ¬ inOrder → s.re.session.attempt = 1 → w.re.roster = roster ∧ w.li = s.li
        ∧ w.re.session = { s.re.session with
          attempt := 2, raised := true, timer := 0, want := [], more := false, pos := 0, part := 0, cursor := none })
    ∧ (matched → ¬ inOrder → s.re.session.attempt ≠ 1 →
        SessionEnded s (roster.modify (F.src - 1) (Peer.failed s.re.session)) w
        ∧ w.li = { s.li with flight := s.li.flight.map (Flight.left true false) })
    ∧ (matched → inOrder → ∃ (pushed : Entry → Bool) (fresh : List Nat) (se : Session),
        pushed = pushesEntry b quads s.re.session.cursor F.flags.bucketLast
        ∧ fresh = (((quads.filter (wantsQuad s)).map Quad.id).filter fun i => i ∉ s.re.session.want)
        ∧ se = { s.re.session with
            timer := 0
            want := s.re.session.want ++ fresh.take (32 - s.re.session.want.length)
            more := s.re.session.more || decide (32 - s.re.session.want.length < fresh.length) }
        ∧ w.pt.entries = (s.pt.entries.map fun e => if pushed e then { e with mark := .push } else e)
        ∧ w.re.outbound
          = s.re.outbound ++ ((s.pt.entries.filter fun e => pushed e && e.mark = .none).map Entry.id)
        ∧ (F.flags.bucketLast = false ∨ se.pos + 1 ≠ se.buckets.length ∨ se.want ≠ [] →
          w.re.roster = roster ∧ w.li = s.li)
        ∧ (F.flags.bucketLast = false → w.re.session
          = { se with part := se.part + 1, cursor := quads.getLast?.elim se.cursor fun q => some q.id })
        ∧ (F.flags.bucketLast = true → se.pos + 1 ≠ se.buckets.length → w.re.session
          = { se with pos := se.pos + 1, part := 0, cursor := none })
        ∧ (F.flags.bucketLast = true → se.pos + 1 = se.buckets.length → se.want ≠ [] → w.re.session
          = { se with state := .awaitUpdates, attempt := 1, raised := true, timer := 0 })
        ∧ (F.flags.bucketLast = true → se.pos + 1 = se.buckets.length → se.want = [] →
          SessionEnded s (roster.modify (F.src - 1) (Peer.repaired se se.more)) w
          ∧ w.li = { s.li with flight := s.li.flight.map (Flight.left true false) })) := by
  generalize hv : s.taken F rest roster = v at hw
  have hm : v.matchesSession F = true ↔ matched := by
    rw [State.matchesSession_listing v hp hreply, hmatched, ← hv]
    exact Iff.rfl
  have hpeer : matched → v.re.session.peer = F.src := fun h => by
    rw [← hv]
    exact (hmatched.mp h).2.2.2.1.symm
  have ho : InOrder v.re.session b part F.flags ↔ inOrder := by
    rw [hinOrder, ← hv]
    exact Iff.rfl
  rw [State.takeKind_listing v hp] at hw
  have hin := State.takeListing_inOrder (s := v) (fl := F.flags) (by rw [← hv]; exact hsorted) (hp ▸ hquads)
  have hout := (v.takeListing_eq b part quads F.flags).2
  rw [ho] at hin hout
  by_cases h1 : matched
  · rw [if_pos (hm.mpr h1)] at hw
    have hlow : 1 ≤ v.re.session.peer := (hpeer h1).symm ▸ hfrom.low
    by_cases h2 : inOrder
    · rw [hin h2] at hw
      obtain ⟨hframe, hsame, hpart, hpos, hfetch, hover⟩ := State.nextListing_spec
        (x := v.mergeListing b quads F.flags.bucketLast) (se := v.wantSession quads) rfl hw hlow
      refine ⟨?_, fun h => absurd ⟨h1, h2⟩ h, fun h => absurd h1 h, fun _ h => absurd h2 h, fun _ h => absurd h2 h,
        fun _ _ => ⟨_, _, v.wantSession quads, rfl, rfl, ?_, ?_, ?_, ?_, hpart, hpos, hfetch, fun ha hb hc => ?_⟩⟩
      · rw [hframe, ← hv]
        rfl
      · rw [← hv]
        rfl
      · rw [hframe, ← hv]
        rfl
      · rw [hframe, ← hv]
        rfl
      · rw [← hv] at hsame ⊢
        exact hsame
      · obtain ⟨hended, hli⟩ := hover ha hb hc
        have hp' : (v.wantSession quads).peer = F.src := hpeer h1
        rw [hp'] at hended
        subst hv
        exact ⟨hended.congr rfl rfl rfl rfl, hli⟩
    · rw [hout h2] at hw
      by_cases ha : v.re.session.attempt = 1
      · have hstate : v.re.session.state = .awaitListing := by
          rw [← hv]
          exact (hmatched.mp h1).1
        rw [State.sessionTimeout_first ha hstate] at hw
        subst hw hv
        exact ⟨rfl, fun _ => ⟨rfl, rfl⟩, fun h => absurd h1 h, fun _ _ _ => ⟨rfl, rfl, rfl⟩, fun _ _ h => absurd ha h,
          fun _ h => absurd h h2⟩
      · obtain ⟨heq, -⟩ := State.sessionTimeout_second ha
        have hended := v.sessionTimeout_ended hlow ha
        rw [hpeer h1] at hended
        rw [hw] at heq hended
        subst hv
        refine ⟨?_, fun _ => ⟨?_, ?_⟩, fun h => absurd h1 h, fun _ _ h => absurd h ha,
          fun _ _ _ => ⟨hended.congr rfl rfl rfl rfl, ?_⟩, fun _ h => absurd h h2⟩
        all_goals rw [heq]
        all_goals rfl
  · rw [if_neg (fun h => h1 (hm.mp h))] at hw
    rw [← hw, ← hv]
    exact ⟨rfl, fun _ => ⟨rfl, rfl⟩, fun _ => ⟨rfl, rfl, rfl⟩, fun h => absurd h h1, fun h => absurd h h1, fun h => absurd h h1⟩

end Sys2Proof.Machine
end

section
/-! TAKE_FRAME: the frame leaves the buffer, its kind acts as the station state allows, and convergence is judged. -/

namespace Sys2Proof.Machine

/-! ### The work of a frame, by its kind -/

/-- A LEAVE is the departure of its source, and raises no generation. -/
theorem State.actOn_leave {s : State} {F : Frame} (hp : F.payload = .leave) (rest : List (List Byte)) :
    State.actOn (s.unbuffered rest) F = (s.unbuffered rest).peerLeft F.src := by
  unfold State.actOn State.takeKind
  dsimp only
  rw [if_pos hp, hp]
  rfl

/-- What a frame's work makes of the state: a LEAVE its source's departure, another kind its work once its source was heard. -/
theorem State.actOn_acted {s : State} {F : Frame} {chars : List Byte} (hF : parseFrame chars = some F) (rest : List (List Byte))
    {roster : List Peer} (hfrom : TakenFrom s F roster) :
    ∃ w, State.actOn (s.unbuffered rest) F = w ∧ Acted s F rest w
      ∧ (F.payload = .leave → (s.unbuffered rest).peerLeft F.src = w)
      ∧ (F.payload ≠ .leave → (s.taken F rest roster).takeKind F = w) := by
  obtain ⟨hsrc, -, hsound⟩ := parseFrame_sound hF
  refine ⟨_, rfl, ?_⟩
  by_cases hl : F.payload = .leave
  · rw [State.actOn_leave hl]
    exact ⟨leave_acted hl rest hfrom, fun _ => rfl, fun h => absurd hl h⟩
  · obtain ⟨roster', hroster, hact⟩ := State.actOn_eq (s := s) hsrc hsound hl rest
    obtain rfl : roster' = roster := (hroster hfrom.other hfrom.length).trans hfrom.roster.symm
    have hact : State.actOn (s.unbuffered rest) F = (s.taken F rest roster').takeKind F := hact
    rw [hact]
    refine ⟨?_, fun h => absurd h hl, fun _ => rfl⟩
    cases hp : F.payload with
    | update recs => exact update_acted hp rest hfrom
    | summary h count interval digests => exact summary_acted hp rest hfrom
    | listingRequest m => exact request_acted (work := .listing (bucketList m) 0 0 none) (by rw [hp]; rfl) rest hfrom
    | listing b part quads => exact listing_acted hp rest hfrom
    | fetch ids => exact request_acted (work := .fetch ids 0) (by rw [hp]; rfl) rest hfrom
    | leave => exact absurd hp hl

/-- TAKE_FRAME in REPLAY takes nothing (R65). -/
theorem execTakeFrame_replay {s : State} {chars : List Byte} {rest : List (List Byte)} (hp : s.power = .running)
    (hbuf : s.re.rxBuffer = chars :: rest) (hst : s.sc.station = .replay) : exec .takeFrame s = .next s := by
  show execTakeFrame s = _
  rw [execTakeFrame, whenRunning_running hp]
  simp only [hbuf, hst, if_true]

/-- An UPDATE whose records are applied, and what a matching reply makes of the session (R32, R118, R120). -/
theorem update_taken {s : State} {F : Frame} {recs : List LineRecord} (hp : F.payload = .update recs) (rest : List (List Byte))
    {roster : List Peer} (hfrom : TakenFrom s F roster) (happ : s.sc.station.applies = true) {w : State}
    (hw : (s.taken F rest roster).takeKind F = w) {matched : Prop}
    (hmatched : matched ↔ s.re.session.state = .awaitUpdates ∧ s.re.session.raised = false
      ∧ F.flags.reply = true ∧ F.dst = s.straps.sn.toNat ∧ F.src = s.re.session.peer ∧ F.seq = s.re.session.reqSeq) :
    ∃ u : State, RecordsTaken (s.taken F rest roster) recs u
      ∧ w.pt = u.pt ∧ w.jc = u.jc ∧ w.cp.notify = u.cp.notify ∧ w.cp.counters = u.cp.counters
      ∧ (¬ matched → w.re = u.re ∧ w.li = s.li)
      ∧ (matched → F.flags.end_ = false → w.re = { u.re with session := { s.re.session with timer := 0 } } ∧ w.li = s.li)
      ∧ (matched → F.flags.end_ = true → w.re = { u.re with session := w.re.session, roster := w.re.roster }
          ∧ w.li = { s.li with flight := s.li.flight.map (Flight.left true false) }
          ∧ SessionEnded u (u.re.roster.modify (F.src - 1) (Peer.repaired s.re.session s.re.session.more)) w) := by
  have hm : (s.taken F rest roster).matchesSession F = true ↔ matched := by
    rw [State.matchesSession_update _ hp, hmatched]
    exact Iff.rfl
  obtain ⟨hpt, hjc, hcp, hno, hgoes, hends⟩ := update_matched hp (by exact happ) hw rfl
  have hli : (recs.foldl State.applyRecord (s.taken F rest roster)).li = s.li := by
    rw [(applyRecords_frame recs (s.taken F rest roster)).1]
    rfl
  refine ⟨_, State.foldl_applyRecord recs _, hpt, hjc, congrArg _ hcp, congrArg _ hcp, fun h => ?_, fun h he => ?_,
    fun h he => hends (hm.mpr h) he hfrom.low⟩
  · rw [hno (Bool.eq_false_iff.mpr fun h' => h (hm.mp h'))]
    exact ⟨rfl, hli⟩
  · rw [hgoes (hm.mpr h) he]
    exact ⟨rfl, hli⟩

/-- A LISTING is a reply (Table 3.2.2). -/
theorem flagsGood_listing {fl : FrameFlags} {src dst : Nat} (h : flagsGood 4 fl src dst = true) : fl.reply = true := by
  simp only [flagsGood, Bool.and_eq_true] at h
  exact h.1.1.1

/-- Settles O44, by the work `w` of the frame's kind: the judgement after it leaves the table, the repair part, the line part, the
journal and the counters, so that each clause is one about `w`. -/
theorem takeFrameActsByState : Obligations.TakeFrameActsByState := by
  intro chars rest F s roster heard hp hbuf hF hown hlen hroster hheard
  refine ⟨execTakeFrame_replay hp hbuf, fun hst => ?_⟩
  obtain ⟨hsrc, hflags, hsound⟩ := parseFrame_sound hF
  simp only [validStation, Bool.and_eq_true, decide_eq_true_eq] at hsrc
  have hfrom : TakenFrom s F roster := ⟨hsrc.1, by omega, hown, hlen, hroster⟩
  obtain ⟨w, hw, hacted, hleave, hkind⟩ := State.actOn_acted hF rest hfrom
  obtain ⟨t, ht, hjudged, hframe, -⟩ := w.judge_spec
  have hpt : t.pt = w.pt := by rw [hframe]
  have hre : t.re = w.re := by rw [hframe]
  have hli : t.li = w.li := by rw [hframe]
  have hjc : t.jc = w.jc := by rw [hframe]
  have hcounters : t.cp.counters = w.cp.counters := by rw [hframe]
  have hdue : t.ac.summaryDue = w.ac.summaryDue := by rw [hframe]
  have hpeer : t.peer F.src = w.peer F.src := by
    unfold State.peer
    rw [hframe]
  have hended : ∀ u ro, SessionEnded u ro t ↔ SessionEnded u ro w := fun u ro => by
    unfold SessionEnded
    rw [hre]
  have hback : { t with sc := s.sc, ac := { t.ac with prior := s.ac.prior }, cp := { t.cp with notify := w.cp.notify } } = w := by
    rw [hframe, hacted.frame]
  have hexec : exec .takeFrame s = .next t := by
    rw [execTakeFrame_acts hp hbuf hF hst, ← ht, ← hw]
    rfl
  have hwhole : t = { s with
      pt := t.pt, re := t.re, sc := t.sc, ac := { s.ac with summaryDue := t.ac.summaryDue, prior := t.ac.prior }
      li := { s.li with flight := t.li.flight }
      jc := { s.jc with queue := t.jc.queue, job := t.jc.job, held := t.jc.held }
      cp := { s.cp with notify := t.cp.notify, counters := t.cp.counters } } := by
    refine hframe.trans ?_
    rw [hpt, hre, hli, hjc, hcounters, hdue, hacted.frame]
  have hsign : F.payload ≠ .leave → (w.peer F.src).presence = .present ∧ (w.peer F.src).lastHeard = some s.clk.now := fun h =>
    Prod.mk.inj (hacted.heard h)
  obtain rfl : heard = s.heardNotify F.src := hheard
  have hstart : { s with
      pt := { s.pt with h := w.pt.h }, re := { s.re with rxBuffer := rest, roster := roster }
      cp := { s.cp with notify := s.heardNotify F.src } } = s.taken F rest roster := by
    rw [hacted.high]
    rfl
  refine ⟨t, w.cp.notify, hexec, by rwa [hback], hacted.leaves, hacted.told, ?_⟩
  simp only [hended]
  rw [hpt, hre, hli, hjc, hcounters, hdue, hpeer]
  refine ⟨hacted.counters, hacted.journal, hacted.entries, hacted.summary, fun recs hpl hheld => ?_,
    fun recs matched hpl hheld hmatched => ?_, hacted.buffer, hacted.high, hsign, fun hpl habsent => ?_, fun hpl hthere => ?_,
    fun h count interval digests hpl => ?_, fun b part quads matched inOrder hpl hmatched hinOrder hsorted => ?_,
    fun work hwork => ?_, ?_⟩
  · have hw := hkind (by simp [hpl])
    rw [State.takeKind_update_held hpl (by show s.sc.station.applies = false; rw [hheld]; rfl)] at hw
    subst hw
    exact ⟨rfl, rfl, rfl, rfl, rfl, rfl⟩
  · have happ : s.sc.station.applies = true := by
      revert hst hheld
      cases s.sc.station <;> simp [Station.applies]
    rw [hstart]
    exact update_taken hpl rest hfrom happ (hkind (by simp [hpl])) hmatched
  · have hw := hleave hpl
    rw [State.peerLeft_eq hfrom.low] at hw
    rw [← hw, if_pos (by exact habsent)]
    exact ⟨rfl, rfl⟩
  · exact leave_departs rest hfrom (hleave hpl) hthere
  · exact summary_taken hpl rest hfrom hst (hkind (by simp [hpl]))
  · exact listing_taken hpl (flagsGood_listing (by rwa [hpl] at hflags)) hsound rest hfrom (hkind (by simp [hpl]))
      hmatched hinOrder hsorted
  · have hreq : requestWork F.payload = some work := by
      rcases hwork with ⟨m, hpl, rfl⟩ | ⟨ids, hpl, rfl⟩ <;> rw [hpl] <;> rfl
    have hw := hkind fun h => by rw [h] at hreq; cases hreq
    rw [State.takeKind_request hreq] at hw
    subst hw
    exact ⟨s.takeRequest F work, rfl, rfl, rfl, s.takeRequest_placed F work⟩
  · rw [← hpt, ← hre, ← hli, ← hjc, ← hcounters, ← hdue]
    exact hwhole

end Sys2Proof.Machine
end

section
/-! PUT: a new version of an entry. -/

namespace Sys2Proof.Machine

/-! ### A PUT that passes every test (R24 to R28, R37) -/

/-- What a local change leaves, by scope: the table, the journal and the UNSAVED event; and for a SHARED entry the list, the
agreements and the judgement. -/
theorem State.localChange_spec (s : State) (id : Nat) (scope : Scope) (value : List Byte) (slot : Option Nat) :
    ∃ t, s.localChange id scope value slot = t
      ∧ t.pt = (s.locallyChanged id scope value slot).pt
      ∧ t = { s with
          pt := t.pt, re := t.re, sc := t.sc, ac := t.ac, jc := (s.jc.enqueue id).touch id false
          cp := { s.cp with notify := t.cp.notify } }
      ∧ (scope = .loc → t.re = s.re ∧ t.sc = s.sc ∧ t.ac = s.ac ∧ t.cp.notify = s.markedNotify id)
      ∧ (scope = .shared → t.re = s.re.afterLocal ((s.entry id).elim .none Entry.mark) id
          ∧ Judged { t with sc := s.sc, ac := s.ac, cp := { t.cp with notify := s.markedNotify id } } t) := by
  cases scope with
  | shared =>
    obtain ⟨sc, ac, q, hchange, hjudged⟩ := s.localChange_shared id value slot
    exact ⟨_, hchange, rfl, rfl, nofun, fun _ => ⟨rfl, hjudged⟩⟩
  | loc => exact ⟨_, s.localChange_eq id .loc value slot, rfl, rfl, fun _ => ⟨rfl, rfl, rfl, rfl⟩, nofun⟩

/-- The entry that a local change leaves keeps the base and the watch of the entry before; one created has neither (Table 1.2.2). -/
theorem State.localEntry_keeps (s : State) (id : Nat) (scope : Scope) (value : List Byte) (slot : Option Nat) :
    (s.localEntry id scope value slot).base = (s.entry id).bind Entry.base
      ∧ (s.localEntry id scope value slot).watch = (s.entry id).elim false Entry.watch := by
  unfold State.localEntry
  cases s.entry id <;> exact ⟨rfl, rfl⟩

/-- A PUT that passes PT's tests is the local change, with the slot that its value needs. -/
theorem State.localPut_passes {s : State} {id : Nat} {scope : Scope} {value : List Byte}
    (hsame : ∀ e, s.entry id = some e → e.scope = scope ∧ (e.isTombstone = true ∨ e.value ≠ value))
    (hh : s.pt.h ≠ 0xFFFFFFFE) (hroom : s.entry id = none → s.pt.entries.length < 512)
    (hslot : 8 < value.length → freeSlot s.pt.entries ≠ none ∨ ∃ e k, s.entry id = some e ∧ e.slot = some k) :
    s.localPut id scope value = (.done, s.localChange id scope value
      (if value.length ≤ 8 then none else (s.entry id).bind Entry.slot <|> freeSlot s.pt.entries)) := by
  have hscope : ¬ (s.entry id).any (fun e => e.scope ≠ scope) = true := by
    rw [Option.any_eq_true]
    rintro ⟨e, he, hne⟩
    exact (of_decide_eq_true hne) (hsame e he).1
  have hnew : ¬ (s.entry id).any (fun e => e.isTombstone = false ∧ e.value = value) = true := by
    rw [Option.any_eq_true]
    rintro ⟨e, he, hboth⟩
    obtain ⟨htomb, hval⟩ := of_decide_eq_true hboth
    rcases (hsame e he).2 with h | h
    · exact absurd (h.symm.trans htomb) (by decide)
    · exact h hval
  have hfree : ¬ (8 < value.length ∧ (s.entry id).bind Entry.slot = none ∧ freeSlot s.pt.entries = none) := by
    rintro ⟨hlong, hold, hnone⟩
    rcases hslot hlong with h | ⟨e, k, he, hk⟩
    · exact h hnone
    · rw [he, Option.bind_some, hk] at hold
      cases hold
  unfold State.localPut
  rw [State.putTests_eq, if_neg hscope, if_neg hnew, if_neg hh, if_neg fun h => Nat.not_lt.mpr h.2 (hroom h.1), if_neg hfree]

/-- The slot of a value that is longer than what an entry holds inline. -/
theorem slot_found {es : List Entry} {old : Option Entry}
    (h : freeSlot es ≠ none ∨ ∃ e k, old = some e ∧ e.slot = some k) : (old.bind Entry.slot <|> freeSlot es).isSome = true := by
  rcases h with h | ⟨e, k, rfl, hk⟩
  · simp [Option.isSome_iff_ne_none, h]
  · simp [hk]

/-- Settles O30: PT's tests passed, the local change, by scope. -/
theorem putGivesANewVersion : Obligations.PutGivesANewVersion := by
  intro b lo hi sc value s id scope hid hv hsc hscope hb h1 h32 hst hsh hsame hh hroom hslot
  have hput := putBody_tests (s := s.carriesOut 0x20 b) hid hv hsc hscope h1 h32 hst hsh
  rw [State.localPut_passes (s := s.carriesOut 0x20 b) hsame hh hroom hslot] at hput
  generalize hk : (if value.length ≤ 8 then none else ((s.carriesOut 0x20 b).entry id).bind Entry.slot
    <|> freeSlot (s.carriesOut 0x20 b).pt.entries) = slot at hput
  obtain ⟨t, ht, hpt, hall, hloc, hshared⟩ := (s.carriesOut 0x20 b).localChange_spec id scope value slot
  rw [ht] at hput
  obtain ⟨hh1, hself, hother⟩ := (s.carriesOut 0x20 b).locallyChanged_entry id scope value slot
  obtain ⟨hbase, hwatch⟩ := (s.carriesOut 0x20 b).localEntry_keeps id scope value slot
  obtain ⟨hid', hmark, hkeeps⟩ := (s.carriesOut 0x20 b).entryBefore id scope
  have hentry : ∀ j, t.entry j = ((s.carriesOut 0x20 b).locallyChanged id scope value slot).entry j := fun j =>
    congrArg (fun p : ParamTable => findEntry p.entries j) hpt
  have hne : value ≠ [] := List.length_pos_iff.mp h1
  refine ⟨t.setSlot (doneSlot 0x20 b .done []), (s.carriesOut 0x20 b).localEntry id scope value slot,
    (s.carriesOut 0x20 b).markedNotify id, sendCommand_answers hb hput, (congrArg ParamTable.h hpt).trans hh1, (hentry id).trans hself, rfl, ?_, rfl, ?_,
    fun h => ?_, fun h => ?_, dirtyAfter_law (s.entry id) value, fun e he => ?_, fun he => ?_, s.jc.markState_eq id,
    fun j hj => (hentry j).trans (hother j hj), ?_, rfl, fun h => ?_, fun h => ?_, ?_, ?_⟩
  · refine hkeeps ?_
    cases he : s.entry id with
    | none => exact .inl he
    | some e => exact .inr ⟨e, he, (hsame e he).1⟩
  · show Version.mk _ _ (valueCheck value) = _
    rw [valueCheck, if_neg (by simpa using hne)]
    rfl
  · exact hk.symm.trans (if_pos h)
  · have hk : slot = ((s.entry id).bind Entry.slot <|> freeSlot s.pt.entries) := hk.symm.trans (if_neg (Nat.not_le.mpr h))
    exact ⟨(congrArg Option.isSome hk).trans (slot_found (hslot h)), hk⟩
  · have he : (s.carriesOut 0x20 b).entry id = some e := he
    rw [hbase, hwatch, he]
    exact ⟨rfl, rfl⟩
  · have he : (s.carriesOut 0x20 b).entry id = none := he
    rw [hbase, hwatch, he]
    exact ⟨rfl, rfl⟩
  · rw [hall]
    exact s.jc.enqueue_marked id
  · obtain ⟨hre, hsc, hac, hq⟩ := hloc h
    exact ⟨hre, hsc, hac, hq, by rw [State.localEntry, if_neg (by simp [h])]; exact hmark⟩
  · obtain ⟨hre, hjudged⟩ := hshared h
    refine ⟨?_, hre, hjudged.setSlot _⟩
    rw [State.localEntry, if_pos h, hmark]
    rfl
  · rw [hall]
    rfl
  · rw [hall]
    rfl

end Sys2Proof.Machine
end

section
/-! The start of an own frame: the demand served, the gap, and the frame built for the demand. -/

namespace Sys2Proof.Machine

/-! ### The demand served (R70 to R73, Table 4.1.1) -/

/-- When the line is free for a start (R72). -/
theorem State.lineFree_iff (s : State) :
    s.lineFree = true ↔ s.li.flight = none ∧ s.li.receiver = .idle ∧ s.straps.sn ≠ 0 := by
  have hn : stationNumber s.straps = 0 ↔ s.straps.sn = 0 :=
    ⟨fun h => BitVec.eq_of_toNat_eq h, fun h => congrArg BitVec.toNat h⟩
  simp [State.lineFree, hn, and_assoc]

/-- The station states that serve UPDATEs of the outbound list (Table 4.1.1). -/
theorem Station.sendsUpdates_iff (st : Station) :
    (st.onLine || decide (st = .closing)) = true ↔ st = .joining ∨ st = .active ∨ st = .closing := by
  rw [Bool.or_eq_true, Station.onLine_iff, decide_eq_true_iff, or_assoc]

/-- The demand served is the first that is present and served, by class and then by R73. -/
theorem State.nextDemand_eq (s : State) : s.nextDemand =
    if (s.sc.station = .joining ∨ s.sc.station = .active) ∧ s.re.replyQueue ≠ [] then some (.a, .reply)
    else if (s.sc.station = .joining ∨ s.sc.station = .active) ∧ s.re.session.state ≠ .idle
        ∧ s.re.session.raised = true then some (.b, .repair)
    else if (s.sc.station = .joining ∨ s.sc.station = .active ∨ s.sc.station = .closing)
        ∧ s.outboundHas .push = true then some (.b, .push)
    else if (s.sc.station = .joining ∨ s.sc.station = .active) ∧ s.ac.summaryDue = true then some (.c, .summary)
    else if (s.sc.station = .joining ∨ s.sc.station = .active ∨ s.sc.station = .closing)
        ∧ s.outboundHas .new = true then some (.c, .newUpdate)
    else if s.sc.station = .closing ∧ s.ac.leaveDue = true ∧ s.re.outbound = [] then some (.c, .leave)
    else none := by
  have hleave : (s.ac.leaveDue = true ∧ s.sc.station = .closing ∧ s.re.outbound = [])
      ↔ s.sc.station = .closing ∧ s.ac.leaveDue = true ∧ s.re.outbound = [] := and_left_comm
  simp only [State.nextDemand, State.wants, State.demands, State.servesDemand, Bool.and_eq_true, Station.sendsUpdates_iff,
    Station.onLine_iff, Bool.not_eq_true', List.isEmpty_eq_false_iff, List.isEmpty_iff, decide_eq_true_iff, hleave,
    and_comm (b := _ ∨ _)]

/-- The demand served is present and served. -/
theorem State.nextDemand_wants {s : State} {cls : GapClass} {d : Demand} (h : s.nextDemand = some (cls, d)) :
    s.wants d = true := by
  unfold State.nextDemand at h
  split_ifs at h <;> cases h <;> assumption

/-- A station that serves a demand is not MUTED. -/
theorem State.wants_not_muted {s : State} {d : Demand} (h : s.wants d = true) : s.sc.station ≠ .muted := by
  intro hm
  cases d <;> simp [State.wants, State.servesDemand, Station.onLine, hm] at h

/-! ### The gap of the class (R49, R71) -/

theorem State.gap_le (s : State) (cls : GapClass) : s.gap cls ≤ 255 := by
  have hn := stationNumber_le s.straps
  cases cls with
  | a => exact (by decide : 12 ≤ 255)
  | b => exact (by decide : 24 ≤ 255)
  | c =>
    simp only [State.gap]
    split <;> omega

/-- On a recessive line the receiver in IDLE comes to a gap, or is past it already. -/
theorem State.passLine_gap {s : State} (hp : s.power = .running) (hfree : s.lineFree = true) (hline : s.li.line = .recessive)
    (hq : s.li.quiet ≤ 255) (cls : GapClass) :
    (s.passLine (s.gap cls - s.li.quiet)).li.quiet = max s.li.quiet (s.gap cls) := by
  obtain ⟨-, hidle, -⟩ := s.lineFree_iff.mp hfree
  have hpass : ∀ n, (s.passLine n).li.quiet = min 255 (s.li.quiet + n) := fun n => by
    simp only [State.passLine, hp, if_true, LineIf.pass, hidle, LineIf.counts, hline]
    rfl
  have := s.gap_le cls
  rw [hpass]
  omega

/-! ### The first bit (R62, R72) -/

/-- FRAME_START defers to a dominant line at the gap of the class, and otherwise serves the demand (R72). -/
theorem exec_frameStart {s : State} {cls : GapClass} {d : Demand} (hp : s.power = .running) (hd : s.nextDemand = some (cls, d))
    (hfree : s.lineFree = true) :
    exec (.frameStart .dominant) s = .next (s.passLine (s.gap cls - s.li.quiet)).deferStart
    ∧ exec (.frameStart .recessive) s = .next ((s.passLine (s.gap cls - s.li.quiet)).startDemand cls d) := by
  have hrun : ∀ line, exec (.frameStart line) s = execFrameStart line s := fun _ => rfl
  constructor
  all_goals
    rw [hrun, execFrameStart, whenRunning_running hp]
    simp only [hd, hfree, if_true]

/-- With no demand to serve, or the line not free, FRAME_START is no event. -/
theorem exec_frameStart_none {s : State} (h : s.nextDemand = none ∨ s.lineFree = false) (line : Level) :
    exec (.frameStart line) s = .next s := by
  show execFrameStart line s = _
  by_cases hp : s.power = .running
  · rw [execFrameStart, whenRunning_running hp]
    cases hd : s.nextDemand with
    | none => rfl
    | some x =>
      have hfree : s.lineFree = false := h.resolve_left (by simp [hd])
      simp only [hfree, Bool.false_eq_true, if_false]
  · exact whenRunning_stopped hp _

/-! ### An UPDATE that starts (R41, R42) -/

/-- The mark of the ids that a demand sends, where it sends an UPDATE of the outbound list (Table 4.1.1). -/
def Demand.Sends (d : Demand) (m : Mark) : Prop := (d = .push ∧ m = .push) ∨ (d = .newUpdate ∧ m = .new)

theorem Demand.Sends.unique {d : Demand} {m m' : Mark} (h : d.Sends m) (h' : d.Sends m') : m' = m := by
  rcases h with ⟨rfl, rfl⟩ | ⟨rfl, rfl⟩
  · simpa [Demand.Sends] using h'
  · simpa [Demand.Sends] using h'

theorem State.startDemand_sends (s : State) (cls : GapClass) {d : Demand} {m : Mark} (h : d.Sends m) :
    s.startDemand cls d = s.launchUpdate cls m := by
  rcases h with ⟨rfl, rfl⟩ | ⟨rfl, rfl⟩ <;> rfl

/-- The entries packed bear the mark, and are those of ids on the list. -/
theorem packOutbound_mem {es : List Entry} {m : Mark} {ids : List Nat} {e : Entry} (h : e ∈ packOutbound es m ids 0 0) :
    e.mark = m ∧ findEntry es e.id = some e ∧ e.id ∈ ids := by
  obtain ⟨left, hpack, -, -, -⟩ := packOutbound_spec es m ids 0 0 (by omega) (by omega)
  have hmem := List.mem_append_left left h
  rw [hpack] at hmem
  obtain ⟨i, hi, hie⟩ := List.mem_filterMap.mp hmem
  obtain ⟨hfind, hmark⟩ := Option.filter_eq_some_iff.mp hie
  obtain rfl := findEntry_id hfind
  exact ⟨of_decide_eq_true hmark, hfind, hi⟩

/-- The packing of an UPDATE from the outbound list: the entries packed, those of the mark that are left, and why packing stopped. -/
theorem State.packOutbound_packs (s : State) (m : Mark) : ∃ es left, packOutbound s.pt.entries m s.re.outbound 0 0 = es
      ∧ es ++ left = s.re.outbound.filterMap (fun i => (s.entry i).filter fun e => e.mark = m)
      ∧ es.length ≤ 4 ∧ (es.map fun e => 8 + e.value.length).sum ≤ 159
      ∧ (left = [] ∨ es.length = 4 ∨ ∃ e tail, left = e :: tail
          ∧ 159 < (es.map fun e => 8 + e.value.length).sum + (8 + e.value.length))
      ∧ ∀ e ∈ es, e.mark = m ∧ s.entry e.id = some e ∧ e.id ∈ s.re.outbound := by
  obtain ⟨left, hpack, hfour, hbytes, hstop⟩ := packOutbound_spec s.pt.entries m s.re.outbound 0 0 (by omega) (by omega)
  simp only [Nat.zero_add] at hfour hbytes hstop
  exact ⟨_, left, rfl, hpack, hfour, hbytes, hstop, fun _ => packOutbound_mem⟩

/-- The first bit of an UPDATE of packed entries, before convergence is judged: their ids leave the list and lose their marks. -/
def State.updateLaunched (s : State) (cls : GapClass) (m : Mark) (es : List Entry) : State :=
  let v := s.useSequence.launch (s.ownFrame .zero 0 (.update (es.map Entry.record))) cls false
    (.update (es.map fun e => { id := e.id, mark := m, ver := e.ver }))
  { v with
    re := { v.re with outbound := s.re.outbound.filter fun i => i ∉ es.map Entry.id }
    pt := s.pt.mapEntries fun e => if e.id ∈ es.map Entry.id then { e with mark := .none } else e }

theorem State.launchUpdate_eq (s : State) (cls : GapClass) (m : Mark) :
    s.launchUpdate cls m = (s.updateLaunched cls m (packOutbound s.pt.entries m s.re.outbound 0 0)).judge := by
  have hcargo : (packOutbound s.pt.entries m s.re.outbound 0 0).map (fun e => ({ id := e.id, mark := e.mark, ver := e.ver } : Packed))
      = (packOutbound s.pt.entries m s.re.outbound 0 0).map fun e => { id := e.id, mark := m, ver := e.ver } :=
    List.map_congr_left fun e he => by rw [(packOutbound_mem he).1]
  unfold State.launchUpdate State.updateLaunched
  dsimp only
  rw [hcargo]
  simp only [List.contains_eq_mem, decide_eq_true_eq, decide_not]
  rfl

/-- The entries after an UPDATE has started: those packed have lost their marks. -/
theorem State.updateLaunched_entry (s : State) (cls : GapClass) (m : Mark) (es : List Entry) (i : Nat) :
    (s.updateLaunched cls m es).entry i
      = (s.entry i).map fun e => if i ∈ es.map Entry.id then { e with mark := .none } else e := by
  have hid : ∀ e : Entry, (if e.id ∈ es.map Entry.id then { e with mark := .none } else e : Entry).id = e.id := fun e => by
    split <;> rfl
  refine (findEntry_map hid s.pt.entries i).trans (Option.map_congr fun e he => ?_)
  rw [findEntry_id he]

/-- A judgement of a station that is not MUTED touches the station controller and the notify queue alone. -/
theorem Judged.not_muted {s t : State} (h : Judged s t) (hst : s.sc.station ≠ .muted) : t = { s with sc := t.sc, cp := t.cp } := by
  obtain ⟨conv, joined, _, _, rfl⟩ := h
  simp [hst]

/-- Settles O36: the demand, the gap, and the first bit of the frame that each demand sends. -/
theorem frameStartServesADemand : Obligations.FrameStartServesADemand := by
  refine ⟨fun line s _ => ⟨s.lineFree_iff, fun h => exec_frameStart_none h line⟩, State.nextDemand_eq,
    fun cls d s hp hd hfree hline hq => ?_⟩
  obtain ⟨hdefer, hexec⟩ := exec_frameStart hp hd hfree
  refine ⟨_, rfl, State.passLine_gap hp hfree hline hq cls, hdefer, ?_⟩
  clear hdefer
  generalize s.gap cls - s.li.quiet = n at hexec ⊢
  obtain ⟨_, hstraps, hpt, _, _, _, _⟩ := s.passLine_frame n
  have hout := s.passLine_outbound n
  have hreplies : (s.passLine n).re.replyQueue = s.re.replyQueue := by rw [s.passLine_re]
  have hstation := s.passLine_station n
  have hsrc : stationNumber (s.passLine n).straps = s.straps.sn.toNat := congrArg stationNumber hstraps
  have hnm := State.wants_not_muted (State.nextDemand_wants hd)
  rw [← hstation] at hnm
  generalize s.passLine n = u at *
  by_cases hsends : ∃ m, d.Sends m
  · obtain ⟨m, hm⟩ := hsends
    obtain ⟨es, left, hes, hpack, hfour, hbytes, hstop, hmem⟩ := s.packOutbound_packs m
    rw [u.startDemand_sends cls hm, State.launchUpdate_eq, hpt, hout, hes] at hexec
    have hjudged := State.judge_judged (u.updateLaunched cls m es)
    generalize (u.updateLaunched cls m es).judge = t at hexec hjudged
    have hall := hjudged.not_muted hnm
    have hli := congrArg State.li hall
    have hac := congrArg State.ac hall
    have hre := congrArg State.re hall
    have hpt' := congrArg State.pt hall
    have hno : d ≠ .reply ∧ d ≠ .repair ∧ d ≠ .summary ∧ d ≠ .leave := by
      rcases hm with ⟨rfl, -⟩ | ⟨rfl, -⟩ <;> decide
    obtain ⟨hnr, hnp, hns, hnl⟩ := hno
    refine ⟨t, _, u.ownFrame .zero 0 (.update (es.map Entry.record)), hexec, hli, rfl, rfl, rfl, rfl, hsrc, hac,
      fun h => absurd h hnr, fun _ => ⟨rfl, rfl, rfl, rfl, ?_⟩, fun h => absurd h hnp, fun h => absurd h hns, fun h => absurd h hnl,
      fun m' hm' => ?_⟩
    · rw [hre]
      rfl
    obtain rfl := hm.unique hm'
    refine ⟨es, left, rfl, rfl, rfl, rfl, hpack, hfour, hbytes, hstop, hmem, ?_, fun i => ?_, ?_⟩
    · rw [hre, ← hout]
      rfl
    · rw [State.entry, hpt']
      refine (u.updateLaunched_entry cls m' es i).trans ?_
      rw [State.entry, hpt]
      rfl
    · rw [hli, hac, hre, hpt']
      exact hjudged
  · cases d with
    | push => exact absurd ⟨.push, .inl ⟨rfl, rfl⟩⟩ hsends
    | newUpdate => exact absurd ⟨.new, .inr ⟨rfl, rfl⟩⟩ hsends
    | reply =>
      have hwaits : u.re.replyQueue ≠ [] := by
        have hwant := State.nextDemand_wants hd
        rw [hreplies]
        rintro h
        simp [State.wants, State.demands, h] at hwant
      obtain ⟨r, q, hqueue⟩ := List.exists_cons_of_ne_nil hwaits
      simp only [State.startDemand, hqueue] at hexec
      exact ⟨_, _, _, hexec, rfl, rfl, rfl, rfl, rfl, hsrc, rfl,
        fun _ => ⟨rfl, r, q, _, hqueue, rfl, rfl, u.replyFrame_built r.work, rfl⟩,
        fun h => absurd rfl h, nofun, nofun, nofun, fun m h => absurd ⟨m, h⟩ hsends⟩
    | repair =>
      exact ⟨_, _, _, hexec, rfl, rfl, rfl, rfl, rfl, hsrc, rfl, nofun, fun _ => ⟨rfl, rfl, rfl, rfl, rfl⟩,
        fun _ => ⟨rfl, rfl, rfl, rfl, rfl⟩, nofun, nofun, fun m h => absurd ⟨m, h⟩ hsends⟩
    | summary =>
      exact ⟨_, _, _, hexec, rfl, rfl, rfl, rfl, rfl, hsrc, rfl, nofun, fun _ => ⟨rfl, rfl, rfl, rfl, rfl⟩, nofun,
        fun _ => ⟨rfl, rfl, decide_eq_true_iff, rfl, rfl⟩, nofun, fun m h => absurd ⟨m, h⟩ hsends⟩
    | leave =>
      exact ⟨_, _, _, hexec, rfl, rfl, rfl, rfl, rfl, hsrc, rfl, nofun, fun _ => ⟨rfl, rfl, rfl, rfl, rfl⟩, nofun, nofun,
        fun _ => ⟨rfl, rfl, rfl, rfl, rfl⟩, fun m h => absurd ⟨m, h⟩ hsends⟩

end Sys2Proof.Machine
end

section
/-! Own frames that end early: the line given up, and the ids of an UPDATE that go back to the list. -/

namespace Sys2Proof.Machine

/-! ### The level on LTXD (R45) -/

/-- Without a frame in flight LTXD is high; with one it carries the present bit, and is high past the last. -/
theorem State.ltxd_eq (s : State) : s.ltxd = match s.li.flight.bind fun f => (frameBits f.chars)[f.elapsed]? with
    | some false => .dominant
    | _ => .recessive := by
  unfold State.ltxd
  cases s.li.flight with
  | none => rfl
  | some f =>
    dsimp only [Option.bind_some]
    rw [List.getD_eq_getElem?_getD]
    rcases (frameBits f.chars)[f.elapsed]? with _ | _ | _ <;> rfl

/-! ### The ids of an UPDATE cut short (R43) -/

/-- The ids that an UPDATE cut short gives back: those not on the list whose entries still have the versions it carried. -/
def State.givenBack (s : State) (c : Cargo) : List Packed :=
  match c with
  | .update packed => packed.filter fun p => p.id ∉ s.re.outbound ∧ ∃ e, s.entry p.id = some e ∧ e.ver = p.ver
  | _ => []

/-- Ids back at the head of the list, their entries with the marks they bore. -/
def State.withBack (s : State) (back : List Packed) : State :=
  { s with
    re := { s.re with outbound := back.map Packed.id ++ s.re.outbound }
    pt := { s.pt with entries := s.pt.entries.map fun e =>
      match back.find? fun p => p.id = e.id with
      | some p => { e with mark := p.mark }
      | none => e } }

/-- With nothing to give back nothing changes. -/
theorem State.withBack_nil (s : State) : s.withBack [] = s := by
  simp [State.withBack]

theorem State.givenBack_other (s : State) {c : Cargo} (h : ∀ packed, c ≠ .update packed) : s.givenBack c = [] := by
  unfold State.givenBack
  split
  · exact absurd rfl (h _)
  · rfl

/-- The ids of an UPDATE go back to the list and the table, which are those of an earlier state. -/
theorem State.restoreIds_eq {s u : State} (packed : List Packed) (hout : u.re.outbound = s.re.outbound) (hpt : u.pt = s.pt) :
    u.restoreIds packed = u.withBack (s.givenBack (.update packed)) := by
  have hback : (packed.filter fun p => !u.re.outbound.contains p.id && (u.entry p.id).any fun e => e.ver = p.ver)
      = s.givenBack (.update packed) := by
    refine List.filter_congr fun p _ => ?_
    rw [Bool.eq_iff_iff, State.entry, hout, hpt, decide_eq_true_iff]
    simp [State.entry, Option.any_eq_true]
  rw [← hback]
  rfl

/-- A frame cut short gives back the ids of its cargo. -/
theorem State.frameUndone_eq {s u : State} (f : Flight) (hout : u.re.outbound = s.re.outbound) (hpt : u.pt = s.pt) :
    u.frameUndone f = u.withBack (s.givenBack f.cargo) := by
  unfold State.frameUndone
  split
  · next packed hc => rw [hc, State.restoreIds_eq packed hout hpt]
  · next hc => rw [s.givenBack_other hc, State.withBack_nil]

/-! ### The two early ends (R76, R77, R83) -/

/-- A bit not yet past is sent with a value. -/
theorem Flight.sends_of_bit {f : Flight} {bit : Nat} {recessive : Bool} (hle : f.elapsed ≤ bit)
    (hbit : (frameBits f.chars)[bit]? = some recessive) : f.sends bit recessive = true := by
  simp [Flight.sends, hle, hbit]

/-- The line left to another station (R62, R76). -/
def State.lineYielded (s : State) : State :=
  { s with
    li := { s.li with
      receiver := s.li.receiver.disown, quiet := 0, stuck := 0, stuckDeclared := false, line := .dominant, flight := none }
    cp := { s.cp with counters := { s.cp.counters with contentionLosses := satInc s.cp.counters.contentionLosses } } }

/-- The line after a frame cut at a bit that was not driven (R77). -/
def State.lineCut (s : State) : State :=
  { s with li := { s.li with
      receiver := .seeking, quiet := 0, stuck := 0, stuckDeclared := false, line := .recessive, flight := none } }

/-- The state after a withdrawal, before convergence is judged. -/
def State.withdrawn (s : State) (f : Flight) (bit : Nat) : State :=
  (s.passLine (bit - f.elapsed)).lineYielded.withBack (s.givenBack f.cargo)

/-- The state after a drive fault, before its cause is taken. -/
def State.driveCut (s : State) (f : Flight) (bit : Nat) : State :=
  (s.passLine (bit - f.elapsed)).lineCut.withBack (s.givenBack f.cargo)

/-- WITHDRAWAL: an UPDATE given up may change the convergence condition, another frame does not. -/
theorem exec_withdrawal {f : Flight} {bit : Nat} {s : State} (hp : s.power = .running) (hf : s.li.flight = some f)
    (hsends : f.sends bit true = true) : ∃ t, exec (.withdrawal bit) s = .next t
      ∧ ((∃ packed, f.cargo = .update packed) → Judged (s.withdrawn f bit) t)
      ∧ ((∀ packed, f.cargo ≠ .update packed) → t = s.withdrawn f bit) := by
  obtain ⟨_, _, hpt, _, _, _, _⟩ := s.passLine_frame (bit - f.elapsed)
  have hout := s.passLine_outbound (bit - f.elapsed)
  have hrun : exec (.withdrawal bit) s = .next (match f.cargo with
      | .update packed => ((s.passLine (bit - f.elapsed)).lineYielded.restoreIds packed).judge
      | _ => (s.passLine (bit - f.elapsed)).lineYielded) := by
    show execWithdrawal bit s = _
    rw [execWithdrawal, whenRunning_running hp]
    simp only [hf, hsends, if_true]
    rfl
  refine ⟨_, hrun, fun ⟨packed, hc⟩ => ?_, fun hc => ?_⟩
  · rw [State.withdrawn, hc, ← State.restoreIds_eq (u := (s.passLine (bit - f.elapsed)).lineYielded) packed hout hpt]
    exact State.judge_judged _
  · rw [State.withdrawn, s.givenBack_other hc, State.withBack_nil]
    split
    · next packed h => exact absurd h (hc packed)
    · rfl

/-- DRIVE_FAULT: a probe of a MUTED station waits longer, and another frame brings the cause DRIVE. -/
theorem exec_driveFault {f : Flight} {bit : Nat} {s : State} (hp : s.power = .running) (hf : s.li.flight = some f)
    (hsends : f.sends bit false = true) : exec (.driveFault bit) s = .next
      (if f.probe = true ∧ s.sc.station = .muted then (s.driveCut f bit).probeCut else (s.driveCut f bit).takeCause .drive) := by
  obtain ⟨_, _, hpt, _, _, _, _⟩ := s.passLine_frame (bit - f.elapsed)
  have hout := s.passLine_outbound (bit - f.elapsed)
  have hundone := State.frameUndone_eq (u := (s.passLine (bit - f.elapsed)).lineCut) f hout hpt
  have hstation : (s.driveCut f bit).sc.station = s.sc.station := s.passLine_station _
  show execDriveFault bit s = _
  rw [execDriveFault, whenRunning_running hp, ← hstation, State.driveCut, ← hundone]
  simp only [hf, hsends, if_true]
  rfl

/-- A judgement with ids on the outbound list leaves the converged flag clear, and no join window ends by it. -/
theorem Judged.of_outbound {s t : State} (h : Judged s t) (hout : s.re.outbound ≠ []) :
    t.sc = { s.sc with converged := false } ∧ t.ac.prior = s.ac.prior := by
  obtain ⟨conv, joined, hconv, hjoined, rfl⟩ := h
  obtain rfl : conv = false := Bool.eq_false_iff.mpr fun h => hout (hconv.mp h).2.1
  obtain rfl : joined = false := Bool.eq_false_iff.mpr fun h => absurd (hjoined.mp h).1 (by decide)
  exact ⟨by simp, by simp⟩

/-- A judgement leaves the line. -/
theorem Judged.line {s t : State} (h : Judged s t) : t.li = s.li := by
  obtain ⟨_, _, _, _, rfl⟩ := h
  rfl

/-- The station controller and the prior state after ids went back to the list: not converged (R106). -/
theorem State.withdrawn_judged {s t : State} {f : Flight} {bit : Nat} (h : Judged (s.withdrawn f bit) t)
    (hback : s.givenBack f.cargo ≠ []) :
    t.sc = { s.sc with
        joinWindow := (s.passLine (bit - f.elapsed)).sc.joinWindow, closeLimit := (s.passLine (bit - f.elapsed)).sc.closeLimit
        converged := false }
      ∧ t.ac.prior = s.ac.prior := by
  have hkept : (s.passLine (bit - f.elapsed)).ac.prior = s.ac.prior := by rw [s.passLine_ac]
  obtain ⟨hsc, hprior⟩ := h.of_outbound (show (s.givenBack f.cargo).map Packed.id ++ _ ≠ [] by simp [hback])
  refine ⟨hsc.trans ?_, hprior.trans hkept⟩
  show { (s.passLine (bit - f.elapsed)).sc with converged := false } = _
  rw [s.passLine_sc (bit - f.elapsed)]

/-- Settles O39: the level on LTXD by the present bit, and the two early ends of a frame. -/
theorem ownFramesEndEarly : Obligations.OwnFramesEndEarly := by
  refine ⟨fun s => ⟨fun hf => ?_, fun f hf => ?_⟩, fun f bit s hp hf hle =>
    ⟨_, _, s.givenBack f.cargo, rfl, rfl, rfl, fun hbit => ?_, fun hbit => ?_⟩⟩
  · rw [State.ltxd_eq, hf]
    rfl
  · have hlevel := s.ltxd_eq
    rw [hf, Option.bind_some] at hlevel
    exact ⟨fun h => by rw [hlevel, h], fun h => by rw [hlevel, h], fun h => by rw [hlevel, h]⟩
  · obtain ⟨t, hexec, hupdate, hother⟩ := exec_withdrawal hp hf (Flight.sends_of_bit hle hbit)
    obtain ⟨_, _, _, _, hcp, _, _⟩ := s.passLine_frame (bit - f.elapsed)
    refine ⟨t, s.withdrawn f bit, hexec, ?_, hupdate, hother, fun hback => ?_, ?_⟩
    · rw [← hcp]
      rfl
    · refine State.withdrawn_judged (hupdate ?_) hback
      by_contra hno
      exact hback (s.givenBack_other (by simpa using hno))
    · have hli : t.li = (s.withdrawn f bit).li := by
        by_cases hc : ∃ packed, f.cargo = .update packed
        · exact (hupdate hc).line
        · rw [hother (by simpa using hc)]
      rw [State.ltxd_eq, hli]
      rfl
  · have hwait : (s.passLine (bit - f.elapsed)).ac.wait = s.ac.wait := by rw [s.passLine_ac]
    refine ⟨s.driveCut f bit, rfl, fun h => ?_, fun h => ?_⟩
    · rw [exec_driveFault hp hf (Flight.sends_of_bit hle hbit), if_pos h, ← hwait]
      rfl
    · rw [exec_driveFault hp hf (Flight.sends_of_bit hle hbit), if_neg h]

end Sys2Proof.Machine
end

section
/-! One bit time on the line, and the receive path: levels, received frames and their errors, the end of an own frame. -/

namespace Sys2Proof.Machine

/-! ### The counts over line time (R49, R67) -/

theorem LineIf.counts_recessive {li : LineIf} (h : li.line = .recessive) (n : Nat) :
    li.counts n = { li with quiet := min 255 (li.quiet + n), stuck := 0 } := by
  rw [LineIf.counts, h]
  rfl

theorem LineIf.counts_dominant {li : LineIf} (h : li.line = .dominant) (n : Nat) :
    li.counts n = { li with quiet := 0, stuck := li.stuck + n } := by
  rw [LineIf.counts, h]

/-- The receiver after `n` whole tB: a frame taken in is as much further. -/
def Receiver.pass : Receiver → Nat → Receiver
  | .receiving own e, n => .receiving own (e + n)
  | .off, _ => .off
  | .seeking, _ => .seeking
  | .idle, _ => .idle

theorem LineIf.pass_off {li : LineIf} (h : li.receiver = .off) (n : Nat) : li.pass n = li := by
  rw [LineIf.pass, h]

/-- Between frames and within another station's frame the counts follow the level last told. -/
theorem LineIf.pass_counts {li : LineIf} (hoff : li.receiver ≠ .off) (hown : ∀ e, li.receiver ≠ .receiving true e) (n : Nat) :
    li.pass n = { li.counts n with receiver := li.receiver.pass n } := by
  have hkept : { li.counts n with receiver := li.receiver } = li.counts n := by rw [← (li.counts_fields n).1]
  unfold LineIf.pass
  split
  · next h => exact absurd h hoff
  · next h => exact absurd h (hown _)
  · next h => rw [h, Receiver.pass]
  · next h => rw [h, Receiver.pass, ← h, hkept]
  · next h => rw [h, Receiver.pass, ← h, hkept]

theorem LineIf.pass_own_none {li : LineIf} {e : Nat} (hr : li.receiver = .receiving true e) (hf : li.flight = none) (n : Nat) :
    li.pass n = { li with receiver := .receiving true (e + n) } := by
  rw [LineIf.pass, hr, hf]

theorem LineIf.pass_own {li : LineIf} {e : Nat} {f : Flight} (hr : li.receiver = .receiving true e) (hf : li.flight = some f)
    (n : Nat) : li.pass n = { li with
      receiver := .receiving true (e + n)
      quiet := quietAfter li.quiet (((frameBits f.chars).drop f.elapsed).take n)
      flight := some { f with elapsed := f.elapsed + n } } := by
  rw [LineIf.pass, hr, hf]

/-- The quiet count after one bit of a frame, and after its last (R49). -/
theorem quietAfter_one (q : Nat) (bits : List Bool) (i : Nat) :
    quietAfter q ((bits.drop i).take 1) = match bits[i]? with
      | some true => min 255 (q + 1)
      | some false => 0
      | none => q := by
  have hbit : (bits.drop i).take 1 = bits[i]?.toList := by
    rw [List.take_one, List.head?_drop]
  rw [hbit]
  rcases bits[i]? with _ | _ | _ <;> rfl

/-! ### The passing of one bit time -/

/-- The reply timer over `n` tB (R112). -/
theorem Session.pass_eq (se : Session) (busy : Bool) (n : Nat) : se.pass busy n = { se with timer :=
    if se.state ≠ .idle ∧ se.raised = false ∧ busy = false then se.timer + n else se.timer } := by
  unfold Session.pass
  by_cases h : se.state = .idle ∨ se.raised = true ∨ busy = true
  · rw [if_pos h, if_neg (by simpa [or_iff_not_imp_left] using h)]
  · rw [if_neg h, if_pos (by simpa [not_or] using h)]

/-- Settles O2: by the receiver's state and, in a frame of this station, its present bit. -/
theorem idleStepPassesOneBitTime : Obligations.IdleStepPassesOneBitTime := by
  intro s hq
  have hstep : step s = .next (s.passLine 1) := by rw [step, hq]
  refine ⟨fun hp => by rw [hstep, State.passLine_stopped hp], fun hp => ⟨_, _, s.li.pass 1, rfl, rfl, ?_, ?_, ?_, ?_, ?_⟩⟩
  · rw [hstep, State.passLine, if_pos hp, Session.pass_eq, Nat.one_mul]
    rfl
  · exact fun h => LineIf.pass_off h 1
  · intro r hr
    obtain ⟨hoff, hown, rfl⟩ : s.li.receiver ≠ .off ∧ (∀ e, s.li.receiver ≠ .receiving true e)
        ∧ r = s.li.receiver.pass 1 := by
      rcases hr with ⟨h | h, rfl⟩ | ⟨e, h, rfl⟩ <;> simp [h, Receiver.pass]
    rw [LineIf.pass_counts hoff hown]
    exact ⟨fun h => by rw [LineIf.counts_recessive h], fun h => by rw [LineIf.counts_dominant h]⟩
  · exact fun e hr hf => LineIf.pass_own_none hr hf 1
  · intro e f hr hf
    rw [LineIf.pass_own hr hf]
    exact congrArg (fun q => { s.li with
      receiver := .receiving true (e + 1), quiet := q, flight := some { f with elapsed := f.elapsed + 1 } })
      (quietAfter_one s.li.quiet (frameBits f.chars) f.elapsed)

/-! ### Changes of the level (R48, R49, R58, R67) -/

/-- A change of the level ends the count of the level before it (R49, R67). -/
theorem LineIf.change_eq (li : LineIf) {c : LineChange} {line : Level} (h : line = .dominant ↔ c = .start) :
    li.change c = { li with
      line := line, stuck := 0, stuckDeclared := false
      quiet := if c = .release ∧ li.line = .recessive then li.quiet else 0 } := by
  obtain rfl : line = if c = .start then .dominant else .recessive := by
    cases line <;> cases c <;> simp_all
  cases c with
  | start => rfl
  | noise => rfl
  | release =>
    unfold LineIf.change
    cases li.line <;> rfl

theorem exec_startBit {s : State} (hp : s.power = .running) (c : LineChange) :
    (s.li.receiver = .off → exec (.startBit c) s = .next { s with li := { s.li with line := (s.li.change c).line } })
    ∧ (s.li.receiver = .idle → exec (.startBit c) s = .next { s with li := { s.li.change c with receiver := idleAfter c } })
    ∧ (s.li.receiver = .seeking ∨ (∃ e, s.li.receiver = .receiving false e) →
        exec (.startBit c) s = .next { s with li := s.li.change c })
    ∧ ((∃ e, s.li.receiver = .receiving true e) → exec (.startBit c) s = .next s) := by
  have hrun : exec (.startBit c) s = execStartBit c s := rfl
  rw [hrun, execStartBit, whenRunning_running hp]
  refine ⟨fun h => by rw [h], fun h => by rw [h], ?_, ?_⟩
  · rintro (h | ⟨e, h⟩) <;> rw [h]
  · rintro ⟨e, h⟩
    rw [h]

/-- Line time in SEEKING and IDLE is counted by the level last told. -/
theorem State.passLine_counts {s : State} (hp : s.power = .running) (hr : s.li.receiver = .seeking ∨ s.li.receiver = .idle)
    (n : Nat) : (s.passLine n).li = s.li.counts n := by
  have hli : (s.passLine n).li = s.li.pass n := by rw [State.passLine, if_pos hp]
  rw [hli, LineIf.pass]
  rcases hr with h | h <;> rw [h]

/-- The state with the line released (R49, R67). -/
def State.released (s : State) : State := { s with li := s.li.change .release }

theorem exec_receiverIdle {s : State} (hp : s.power = .running) (hr : s.li.receiver = .seeking) {u : State}
    (hu : u = s.released.passLine (10 - s.released.li.quiet)) :
    exec .receiverIdle s = .next { u with li := { u.li with receiver := .idle } } := by
  show execReceiverIdle s = _
  rw [execReceiverIdle, whenRunning_running hp, if_pos hr, hu]
  rfl

/-- A released line comes to a quiet count of 10 tB, or is past it already (R49, R58). -/
theorem State.released_idle {s : State} (hp : s.power = .running) (hr : s.li.receiver = .seeking) (hq : s.li.quiet ≤ 255)
    {q : Nat} (h : q = if s.li.line = .recessive then s.li.quiet else 0) :
    s.released.li.quiet = q ∧ (s.released.passLine (10 - q)).li
      = { s.li with quiet := max q 10, stuck := 0, stuckDeclared := false, line := .recessive } := by
  have hli : s.released.li = { s.li with quiet := q, stuck := 0, stuckDeclared := false, line := .recessive } := by
    rw [State.released, s.li.change_eq (c := .release) (line := .recessive) (by simp), h]
    simp
  have hcount : min 255 (q + (10 - q)) = max q 10 := by
    have : q ≤ 255 := by rw [h]; split <;> omega
    omega
  refine ⟨by rw [hli], ?_⟩
  rw [State.passLine_counts (s := s.released) hp (.inl hr), LineIf.counts_recessive (by rw [hli]), hli, ← hcount]

/-- Settles O41: a change of the level, and the two counts brought forward. -/
theorem lineLevelsMoveTheReceiver : Obligations.LineLevelsMoveTheReceiver := by
  intro s hp
  refine ⟨fun c line li hline hli => ?_, fun hr hq => ?_, fun hr hline hd => ?_⟩
  · obtain ⟨hoff, hidle, htold, hown⟩ := exec_startBit hp c
    obtain rfl : li = s.li.change c := hli.trans (s.li.change_eq hline).symm
    refine ⟨fun h => ?_, htold, fun h => ?_, hown⟩
    · rw [hidle h]
      cases c <;> rfl
    · rw [hoff h, s.li.change_eq hline]
  · obtain ⟨hquiet, hpassed⟩ := State.released_idle hp hr hq rfl
    exact ⟨_, _, rfl, ⟨_, rfl⟩, exec_receiverIdle hp hr (by rw [hquiet]; rfl), hpassed⟩
  · have hcount := State.passLine_counts hp (.inl hr) (200 - s.li.stuck)
    rw [LineIf.counts_dominant hline] at hcount
    refine ⟨_, rfl, by rw [hcount]; show s.li.stuck + (200 - s.li.stuck) = _; omega, ?_⟩
    show execStuckDeclaration s = _
    rw [execStuckDeclaration, whenRunning_running hp, if_pos ⟨hr, hline, hd⟩]
    rfl

/-! ### Frames of other stations (R59 to R64) -/

theorem exec_frameReceived {chars : List Byte} {e : Nat} {s : State} (hp : s.power = .running)
    (hr : s.li.receiver = .receiving false e) (hw : wholeFrame chars = true) :
    exec (.frameReceived chars) s = .next
      (((s.passLine (10 * chars.length - 1 - e)).seekQuiet (trailingRecessive (chars.getLastD 0))).testFrame chars) := by
  show execFrameReceived chars s = _
  rw [execFrameReceived, whenRunning_running hp]
  simp only [State.foreign, hr, hw, if_true]

/-- The tests of a frame in their order (R61). -/
theorem State.testFrame_cases (s : State) (chars : List Byte) :
    (frameCheckGood chars = false → s.testFrame chars = s.count fun c => { c with checkErrors := satInc c.checkErrors })
    ∧ (frameCheckGood chars = true → parseFrame chars = none →
        s.testFrame chars = s.count fun c => { c with formatErrors := satInc c.formatErrors })
    ∧ ∀ F, frameCheckGood chars = true → parseFrame chars = some F →
        s.testFrame chars = if F.src = stationNumber s.straps then s.duplicateStation else s.bufferFrame chars := by
  unfold State.testFrame
  refine ⟨fun h => ?_, fun h hF => ?_, fun F h hF => ?_⟩
  · simp [h]
  · simp [h, hF]
  · simp [h, hF]

/-- Settles O42: the line at the last stop bit, then the tests of the frame. -/
theorem frameReceivedIsJudged : Obligations.FrameReceivedIsJudged := by
  intro chars e s hp hr hw
  have hexec := exec_frameReceived hp hr hw
  refine ⟨_, _, rfl, rfl, ?_⟩
  generalize hu : s.passLine (10 * chars.length - 1 - e) = u at hexec ⊢
  obtain ⟨-, hstraps, -, -, hcp, -, -⟩ : _ ∧ u.straps = s.straps ∧ _ ∧ _ ∧ u.cp = s.cp ∧ _ ∧ _ := hu ▸ s.passLine_frame _
  have hstation : u.sc.station = s.sc.station := hu ▸ s.passLine_station _
  have hcause : u.ac.mutedCause = s.ac.mutedCause := by rw [← hu, s.passLine_ac]
  have hbuffer : u.re.rxBuffer = s.re.rxBuffer := by rw [← hu, s.passLine_re]
  obtain ⟨hcheck, hformat, hpass⟩ :=
    (u.seekQuiet (trailingRecessive (chars.getLastD 0))).testFrame_cases chars
  rw [hexec, ← hcp, ← hstation, ← hcause, ← hbuffer, ← hstraps]
  refine ⟨fun h => congrArg _ (hcheck h), fun h hF => congrArg _ (hformat h hF), fun F h hF => ?_⟩
  rw [hpass F h hF]
  refine ⟨fun hsrc => ?_, fun hsrc hfull => ?_, fun hsrc hroom => ?_⟩
  · rw [if_pos (by exact hsrc), State.duplicateStation]
    refine ⟨fun hmuted => ?_, fun hmuted => ?_⟩
    · rw [if_pos (by exact hmuted)]
      simp only [State.takeCause, State.seekQuiet_fields, hmuted.1, State.furtherCause, hmuted.2]
      rfl
    · rw [if_neg (by exact hmuted)]
      rfl
  · rw [if_neg (by exact hsrc), State.bufferFrame, if_pos (by exact hfull)]
    rfl
  · rw [if_neg (by exact hsrc), State.bufferFrame, if_neg (by exact Nat.not_le.mpr hroom)]
    rfl

/-! ### Errors of the receiver (R59, R60, R67) -/

/-- The receiver's errors drop the frame that is taken in, and are counted. -/
theorem exec_framingError {e stop run : Nat} {s : State} (hp : s.power = .running) (hr : s.li.receiver = .receiving false e) :
    (9 ≤ stop ∧ e ≤ stop ∧ run ≤ 9 → ∃ u, u = s.passLine (stop - e)
      ∧ exec (.framingError { bit := stop, run := run }) s = .next (State.countFraming { u with li := { u.li with
          receiver := .seeking, quiet := 0, stuck := u.li.dominantRun run, stuckDeclared := false, line := .dominant } }))
    ∧ (¬ (9 ≤ stop ∧ e ≤ stop ∧ run ≤ 9) → exec (.framingError { bit := stop, run := run }) s = .next s) := by
  have hrun : exec (.framingError { bit := stop, run := run }) s = execFramingError { bit := stop, run := run } s := rfl
  rw [hrun, execFramingError, whenRunning_running hp]
  simp only [State.foreign, hr]
  exact ⟨fun h => ⟨_, rfl, by rw [if_pos h]⟩, fun h => by rw [if_neg h]⟩

theorem exec_formatError {e : Nat} {char4 : Byte} {s : State} (hp : s.power = .running)
    (hr : s.li.receiver = .receiving false e) (h : 160 < char4.toNat) :
    exec (.formatError char4) s = .next (((s.passLine (49 - e)).seekQuiet (trailingRecessive char4)).count
      fun c => { c with formatErrors := satInc c.formatErrors }) := by
  show execFormatError char4 s = _
  rw [execFormatError, whenRunning_running hp]
  simp only [State.foreign, hr, h, if_true]

theorem exec_gapError {e quiet : Nat} {s : State} (hp : s.power = .running) (hr : s.li.receiver = .receiving false e)
    (h : 4 ≤ quiet ∧ quiet ≤ 12) :
    exec (.gapError quiet) s = .next ((s.passLine (13 - e)).seekQuiet quiet).countFraming := by
  show execGapError quiet s = _
  rw [execGapError, whenRunning_running hp]
  simp only [State.foreign, hr, h, and_self, if_true]

/-- The line after a withdrawal: the frame is another station's, and the counts begin at the release of LTXD (R62, R67, R76). -/
theorem withdrawal_line {f : Flight} {bit : Nat} {s t : State} (hp : s.power = .running) (hf : s.li.flight = some f)
    (hr : s.li.receiver = .receiving true f.elapsed) (hle : f.elapsed ≤ bit) (hbit : (frameBits f.chars)[bit]? = some true)
    (h : exec (.withdrawal bit) s = .next t) :
    t.power = .running ∧ t.li.receiver = .receiving false bit ∧ t.li.line = .dominant ∧ t.li.stuck = 0 := by
  obtain ⟨t', hexec, hupdate, hother⟩ := exec_withdrawal hp hf (Flight.sends_of_bit hle hbit)
  obtain rfl : t' = t := Host.Outcome.next.inj (hexec.symm.trans h)
  obtain ⟨hli, hpower⟩ : t'.li = (s.withdrawn f bit).li ∧ t'.power = (s.withdrawn f bit).power := by
    by_cases hc : ∃ packed, f.cargo = .update packed
    · obtain ⟨_, _, _, _, ht⟩ := hupdate hc
      exact ⟨(hupdate hc).line, by rw [ht]⟩
    · rw [hother (by simpa using hc)]
      exact ⟨rfl, rfl⟩
  have hreceiver : (s.passLine (bit - f.elapsed)).li.receiver = .receiving true bit := by
    have hpass : (s.passLine (bit - f.elapsed)).li = s.li.pass (bit - f.elapsed) := by rw [State.passLine, if_pos hp]
    rw [hpass, LineIf.pass_own hr hf, Nat.add_sub_cancel' hle]
  refine ⟨hpower.trans ((s.passLine_frame _).1.trans hp), ?_, by rw [hli]; rfl, by rw [hli]; rfl⟩
  rw [hli]
  show (s.passLine (bit - f.elapsed)).li.receiver.disown = _
  rw [hreceiver]
  rfl

/-- Settles O43: the error of a frame that this station withdrew from, and those of a frame taken in. -/
theorem receiverErrorsAreCounted : Obligations.ReceiverErrorsAreCounted := by
  refine ⟨fun f bit stop run s t hp hf hr hle hbit hexec hstop hbs hrun => ?_, fun e s hp hr => ⟨?_, ?_, ?_, ?_⟩⟩
  · obtain ⟨htp, htr, htl, hts⟩ := withdrawal_line hp hf hr hle hbit hexec
    obtain ⟨u, hu, herror⟩ := (exec_framingError htp htr).1 ⟨hstop, hbs, hrun⟩
    have hpass : u.li = { t.li with receiver := .receiving false (bit + (stop - bit)), quiet := 0, stuck := stop - bit } := by
      rw [hu, State.passLine, if_pos htp]
      show t.li.pass _ = _
      rw [LineIf.pass_counts (by simp [htr]) (by simp [htr]), LineIf.counts_dominant htl, hts, htr, Nat.zero_add]
      rfl
    refine ⟨_, herror, ?_, rfl, rfl⟩
    show u.li.dominantRun run = _
    rw [(u.li.dominantRun_eq run).1 (by rw [hpass]; exact htl), hpass]
  all_goals have hcp : ∀ n, (s.passLine n).cp = s.cp := fun n => let ⟨_, _, _, _, h, _, _⟩ := s.passLine_frame n; h
  · intro stop run hstop he hrun
    obtain ⟨u, hu, herror⟩ := (exec_framingError hp hr).1 ⟨hstop, he, hrun⟩
    refine ⟨u, hu, ?_⟩
    rw [herror, ← hcp (stop - e), ← hu]
    rfl
  · intro stop run h
    exact (exec_framingError hp hr).2 (by omega)
  · intro char4 h
    refine ⟨_, rfl, ?_⟩
    rw [exec_formatError hp hr h, ← hcp (49 - e)]
    rfl
  · intro quiet h1 h2
    refine ⟨_, rfl, ?_⟩
    rw [exec_gapError hp hr ⟨h1, h2⟩, ← hcp (13 - e)]
    rfl

/-! ### The end of an own frame (R62, R74, R75, R79, R95) -/

/-- Where the convergence condition fails, a judgement leaves the flag clear, and a set one clears with DIVERGED (R106). -/
theorem State.judge_unconverged {s : State} (h : s.convergence = false) : s.judge = { s with
    sc := { s.sc with converged := false }
    cp := { s.cp with
      notify := if s.sc.converged then placeEvent s.cp.notify { kind := .diverged, param := 0 } else s.cp.notify } } := by
  rw [State.judge_diverged h]
  by_cases hc : s.sc.converged = true
  · rw [if_pos hc, if_pos hc]
    rfl
  · have hclear : { s.sc with converged := false } = s.sc := by rw [← Bool.eq_false_iff.mpr hc]
    rw [if_neg hc, if_neg hc, hclear]

/-- The end of CLOSING, judged: HELD is never converged (R95, R96, R106). -/
theorem State.endClosing_judged (s : State) (r : Result) :
    ∃ t, (s.endClosing r).judge = t
      ∧ t = { s with
          sc := { s.sc with station := .held, joinWindow := none, closeLimit := none, converged := false }
          re := { s.re with summaryTimer := none }
          ac := { s.ac with leaveDue := false, mutedCause := .none }
          cp := { s.cp with
            slot := t.cp.slot
            notify := if s.sc.converged then placeEvent s.cp.notify { kind := .diverged, param := 0 } else s.cp.notify } }
      ∧ (∀ tag, s.cp.slot = .executing 0x13 tag →
          t.cp.slot = .done { code := 0x13, tag := tag, result := r, data := [] })
      ∧ ((∀ tag, s.cp.slot ≠ .executing 0x13 tag) → t.cp.slot = s.cp.slot) := by
  obtain ⟨hdone, hleft, hlong⟩ := s.enterHeld.completeLong_slot closeCode r
  have hjudge : (s.endClosing r).judge = _ := State.judge_unconverged (by rw [State.endClosing, hlong]; rfl)
  refine ⟨_, hjudge, ?_⟩
  rw [State.endClosing, hlong]
  exact ⟨rfl, hdone, hleft⟩

/-- FRAME_COMPLETE of a frame that is no probe of a MUTED station. -/
theorem exec_frameComplete {f : Flight} {s : State} (hp : s.power = .running) (hf : s.li.flight = some f)
    (hprobe : ¬ (f.probe = true ∧ s.sc.station = .muted)) :
    exec .frameComplete s = .next ((s.frameSent f).demandCompleted f) := by
  show execFrameComplete s = _
  rw [execFrameComplete, whenRunning_running hp]
  simp only [hf, hprobe, if_false]

/-- The completion of a reply frame, for the request at the head of the queue and for one that is over (R125). -/
theorem State.replyCompleted_cases (s : State) (ends : Bool) (moved : Work) :
    s.replyCompleted false ends moved = s
    ∧ ∀ r q, s.re.replyQueue = r :: q → s.replyCompleted true ends moved = { s with re := { s.re with
        replyQueue := if ends = true then q else { r with work := moved, completed := true } :: q } } := by
  refine ⟨rfl, fun r q hq => ?_⟩
  simp only [State.replyCompleted, hq, if_true]
  cases ends <;> rfl

/-- Settles O37: the frame is sent, and its cargo says which demand it served. -/
theorem frameCompletionClearsItsDemand : Obligations.FrameCompletionClearsItsDemand := by
  intro f s hp hf hprobe
  refine ⟨_, s.frameSent f, (s.frameSent f).demandCompleted f, rfl, rfl, exec_frameComplete hp hf hprobe, ?_⟩
  obtain ⟨-, -, -, -, hcp, -, -⟩ := s.passLine_frame (10 * f.chars.length - f.elapsed)
  have hsent : (s.frameSent f).cp = { s.cp with counters := (s.frameSent f).cp.counters } := by
    rw [← hcp]
    rfl
  have hsc : (s.frameSent f).sc = (s.passLine (10 * f.chars.length - f.elapsed)).sc := rfl
  have hstation : (s.frameSent f).sc.station = s.sc.station := s.passLine_station _
  have hconverged : (s.frameSent f).sc.converged = s.sc.converged := by rw [hsc, s.passLine_sc]
  have hnotify : (s.frameSent f).cp.notify = s.cp.notify := by rw [hsent]
  have hslot : (s.frameSent f).cp.slot = s.cp.slot := by rw [hsent]
  have hqueue : (s.frameSent f).re.replyQueue = s.re.replyQueue := by
    show (s.passLine _).re.replyQueue = _
    rw [s.passLine_re]
  generalize s.frameSent f = v at hstation hconverged hnotify hslot hqueue ⊢
  unfold State.demandCompleted
  refine ⟨fun packed h => by rw [h], fun h => by rw [h], fun h => by rw [h]; rfl, fun h => by rw [h]; rfl,
    fun ends moved h => by rw [h]; exact (v.replyCompleted_cases ends moved).1, fun ends moved r q h hq => ?_, fun h hst => ?_,
    fun h hst => ?_⟩
  · rw [h]
    exact (v.replyCompleted_cases ends moved).2 r q (hqueue.trans hq)
  · rw [h]
    exact if_neg (by rwa [hstation])
  · obtain ⟨t, ht, hspec⟩ := v.endClosing_judged .done
    rw [h]
    simp only [hstation, hst, if_true]
    rw [ht, ← hconverged, ← hnotify, ← hslot]
    exact hspec

end Sys2Proof.Machine
end

section
/-! Frames as bytes: each field, record, quad and id is read back as it was written, and so each frame that keeps its law. -/

namespace Sys2Proof.Machine

/-! ### Fields of one, two and four bytes (R1) -/

theorem toNat_byte1 {n : Nat} (h : n < 256) : (byte1 n).toNat = n := Nat.mod_eq_of_lt h

theorem leNat_singleton {n : Nat} (h : n < 256) : leNat [byte1 n] = n := toNat_byte1 h

theorem leNat_le16 {n : Nat} (h : n < 65536) : leNat (le16 n) = n := by
  simp only [le16, leNat, BitVec.toNat_ofNat]
  omega

theorem leNat_le32 {n : Nat} (h : n < 4294967296) : leNat (le32 n) = n := by
  simp only [le32, le16, List.cons_append, List.nil_append, leNat, BitVec.toNat_ofNat]
  omega

/-- A 16-bit check is read back as it was written (R2). -/
theorem ofNat_le16 (c : Half) : BitVec.ofNat 16 (leNat (le16 c.toNat)) = c := by
  rw [leNat_le16 c.isLt, BitVec.ofNat_toNat, BitVec.setWidth_eq]

theorem le16_length (n : Nat) : (le16 n).length = 2 := rfl

/-- A bucket set is read back as it was written (R57). -/
theorem bucketSetOf_bucketBytes (m : BucketSet) : bucketSetOf (bucketBytes m) = m := by
  have hm := m.isLt
  refine BitVec.eq_of_toNat_eq ?_
  simp only [bucketSetOf, bucketBytes, List.range_succ_eq_map, List.range_zero, List.map_cons, List.map_nil, leNat,
    BitVec.toNat_ofNat, BitVec.toNat_setWidth, BitVec.toNat_ushiftRight, Nat.shiftRight_eq_div_pow]
  norm_num
  omega

/-! ### Records, quads, ids and digests (R54 to R56) -/

/-- The fields of a record that Table 3.4.2 asks for. -/
def LineRecord.Law (r : LineRecord) : Prop :=
  validId r.id = true ∧ validGen r.gen = true ∧ validStation r.origin = true ∧ r.value.length ≤ 32

theorem LineRecord.bytes_length (r : LineRecord) : r.bytes.length = 8 + r.value.length := by
  simp [LineRecord.bytes, le16, le32]
  omega

theorem validStation_iff (n : Nat) : validStation n = true ↔ 1 ≤ n ∧ n ≤ 31 := by simp [validStation]

theorem validGen_iff (n : Nat) : validGen n = true ↔ 1 ≤ n ∧ n ≤ 0xFFFFFFFE := by
  rw [validGen, Bool.and_eq_true, decide_eq_true_iff, decide_eq_true_iff, Config.maxGeneration]

theorem parseRecords_bytes {recs : List LineRecord} (h : ∀ r ∈ recs, r.Law) :
    parseRecords recs.length (recs.flatMap LineRecord.bytes) = some recs := by
  induction recs with
  | nil => rfl
  | cons r recs ih =>
    obtain ⟨hid, hgen, horigin, hlen⟩ := h r (by simp)
    have hnid : num (r.bytes ++ recs.flatMap LineRecord.bytes) 0 2 = r.id :=
      leNat_le16 (by have := (validId_iff _).mp hid; omega)
    have hngen : num (r.bytes ++ recs.flatMap LineRecord.bytes) 2 4 = r.gen :=
      leNat_le32 (by have := (validGen_iff _).mp hgen; omega)
    have hnorigin : num (r.bytes ++ recs.flatMap LineRecord.bytes) 6 1 = r.origin :=
      leNat_singleton (by have := (validStation_iff _).mp horigin; omega)
    have hnlen : num (r.bytes ++ recs.flatMap LineRecord.bytes) 7 1 = r.value.length := leNat_singleton (by omega)
    have hvalue : field (r.bytes ++ recs.flatMap LineRecord.bytes) 8 r.value.length = r.value :=
      List.take_left (l₂ := recs.flatMap LineRecord.bytes)
    have hrest : (r.bytes ++ recs.flatMap LineRecord.bytes).drop (8 + r.value.length) = recs.flatMap LineRecord.bytes :=
      List.drop_left' r.bytes_length
    rw [List.length_cons, List.flatMap_cons, parseRecords, hnid, hngen, hnorigin, hnlen, hvalue, hrest,
      ih fun x hx => h x (by simp [hx])]
    refine if_neg ?_
    simp only [List.length_append, r.bytes_length, hid, hgen, horigin]
    simp
    omega

/-- The fields of a quad that Table 3.4.2 asks for. -/
def Quad.Law (bucket : Nat) (q : Quad) : Prop :=
  validId q.id = true ∧ bucketOf q.id = bucket ∧ validGen q.ver.gen = true ∧ validStation q.ver.origin = true

theorem Quad.bytes_length (q : Quad) : q.bytes.length = 9 := rfl

theorem parseQuads_bytes {bucket last : Nat} {quads : List Quad} (h : ∀ q ∈ quads, q.Law bucket)
    (hsorted : quads.Pairwise fun a b => a.id < b.id) (hlast : ∀ q ∈ quads, last < q.id) :
    parseQuads bucket quads.length last (quads.flatMap Quad.bytes) = some quads := by
  induction quads generalizing last with
  | nil => rfl
  | cons q quads ih =>
    obtain ⟨hid, hbucket, hgen, horigin⟩ := h q (by simp)
    obtain ⟨habove, hsorted⟩ := List.pairwise_cons.mp hsorted
    have hnid : num (q.bytes ++ quads.flatMap Quad.bytes) 0 2 = q.id :=
      leNat_le16 (by have := (validId_iff _).mp hid; omega)
    have hngen : num (q.bytes ++ quads.flatMap Quad.bytes) 2 4 = q.ver.gen :=
      leNat_le32 (by have := (validGen_iff _).mp hgen; omega)
    have hnorigin : num (q.bytes ++ quads.flatMap Quad.bytes) 6 1 = q.ver.origin :=
      leNat_singleton (by have := (validStation_iff _).mp horigin; omega)
    have hcheck : BitVec.ofNat 16 (num (q.bytes ++ quads.flatMap Quad.bytes) 7 2) = q.ver.check := ofNat_le16 q.ver.check
    have hrest : (q.bytes ++ quads.flatMap Quad.bytes).drop 9 = quads.flatMap Quad.bytes := rfl
    rw [List.length_cons, List.flatMap_cons, parseQuads, hnid, hngen, hnorigin, hcheck, hrest,
      ih (fun x hx => h x (by simp [hx])) hsorted habove]
    refine if_neg ?_
    simp [q.bytes_length, hid, hbucket, hgen, horigin, hlast q]

theorem parseIds_bytes {ids : List Nat} (h : ∀ i ∈ ids, validId i = true) : parseIds ids.length (ids.flatMap le16) = some ids := by
  induction ids with
  | nil => rfl
  | cons i ids ih =>
    have hi := h i (by simp)
    have hnum : num (le16 i ++ ids.flatMap le16) 0 2 = i := leNat_le16 (by have := (validId_iff _).mp hi; omega)
    have hrest : (le16 i ++ ids.flatMap le16).drop 2 = ids.flatMap le16 := rfl
    rw [List.length_cons, List.flatMap_cons, parseIds, hnum, hrest, ih fun x hx => h x (by simp [hx])]
    refine if_neg ?_
    simp [le16_length, hi]
    omega

theorem parseDigests_bytes (digests : List Half) :
    parseDigests digests.length (digests.flatMap fun d => le16 d.toNat) = digests := by
  induction digests with
  | nil => rfl
  | cons d ds ih => exact congrArg₂ List.cons (ofNat_le16 d) ih

/-! ### Payloads and frames (R50 to R57, R61) -/

theorem digests_length (digests : List Half) : (digests.flatMap fun d => le16 d.toNat).length = 2 * digests.length := by
  simp [le16_length, Nat.mul_comm]

/-- A payload that keeps its law fits a frame (R50). -/
theorem Payload.bytes_length {flags : FrameFlags} {p : Payload} (h : PayloadLaw flags p) : p.bytes.length ≤ 160 := by
  cases p with
  | update recs =>
    obtain ⟨-, hsum, -, -⟩ := h
    simp only [Payload.bytes, List.length_cons, List.length_flatMap, LineRecord.bytes_length]
    omega
  | summary hh count interval digests =>
    obtain ⟨-, -, -, -, hd⟩ := h
    simp [Payload.bytes, hd, le32, le16_length]
  | listingRequest m => simp [Payload.bytes, bucketBytes]
  | listing bucket part quads =>
    obtain ⟨-, -, hk, -, -, -⟩ := h
    simp [Payload.bytes, Quad.bytes_length]
    omega
  | fetch ids =>
    obtain ⟨-, hk, -⟩ := h
    simp [Payload.bytes, le16_length]
    omega
  | leave => simp [Payload.bytes]

/-- A payload that keeps its law is read back from its bytes (Table 3.4.2). -/
theorem parsePayload_bytes {flags : FrameFlags} {p : Payload} (h : PayloadLaw flags p) :
    parsePayload p.code flags p.bytes = some p := by
  cases p with
  | update recs =>
    obtain ⟨hk, -, hempty, hrecs⟩ := h
    have hnum : num (Payload.update recs).bytes 0 1 = recs.length := leNat_singleton (by omega)
    have hdrop : (Payload.update recs).bytes.drop 1 = recs.flatMap LineRecord.bytes := rfl
    rw [Payload.code, parsePayload, hnum, hdrop, parseRecords_bytes hrecs]
    refine if_neg ?_
    rintro (h | h | ⟨h, hflags⟩)
    · simp [Payload.bytes] at h
    · omega
    · simp [hempty (List.length_eq_zero_iff.mp h)] at hflags
  | summary hh count interval digests =>
    obtain ⟨hhigh, hcount, hlow, hinterval, hd⟩ := h
    have hnh : num (Payload.summary hh count interval digests).bytes 0 4 = hh := leNat_le32 (by omega)
    have hncount : num (Payload.summary hh count interval digests).bytes 4 2 = count := leNat_le16 (by omega)
    have hninterval : num (Payload.summary hh count interval digests).bytes 6 1 = interval := leNat_singleton (by omega)
    have hdrop : (Payload.summary hh count interval digests).bytes.drop 7 = digests.flatMap fun d => le16 d.toNat := rfl
    have hlen : (Payload.summary hh count interval digests).bytes.length = 135 := by
      simp only [Payload.bytes, List.length_append, digests_length, hd]
      rfl
    rw [Payload.code, parsePayload, hnh, hncount, hninterval, hdrop, hlen, ← hd, parseDigests_bytes]
    exact if_neg (by omega)
  | listingRequest m =>
    have hm : bucketSetOf (Payload.listingRequest m).bytes = m := bucketSetOf_bucketBytes m
    have hlen : (Payload.listingRequest m).bytes.length = 8 := rfl
    rw [Payload.code, parsePayload, hm, hlen]
    exact if_neg (by rintro (h8 | h0); exacts [h8 rfl, h h0])
  | listing bucket part quads =>
    obtain ⟨hbucket, hpart, hk, hempty, hsorted, hquads⟩ := h
    have hnbucket : num (Payload.listing bucket part quads).bytes 0 1 = bucket := leNat_singleton (by omega)
    have hnpart : num (Payload.listing bucket part quads).bytes 1 1 = part := leNat_singleton (by omega)
    have hnk : num (Payload.listing bucket part quads).bytes 2 1 = quads.length := leNat_singleton (by omega)
    have hdrop : (Payload.listing bucket part quads).bytes.drop 3 = quads.flatMap Quad.bytes := rfl
    have hlen : 3 ≤ (Payload.listing bucket part quads).bytes.length := Nat.le_add_left 3 _
    have habove : ∀ q ∈ quads, 0 < q.id := fun q hq => ((validId_iff _).mp (hquads q hq).1).1
    rw [Payload.code, parsePayload, hnbucket, hnpart, hnk, hdrop, parseQuads_bytes hquads hsorted habove]
    refine if_neg ?_
    rintro (h | h | h | ⟨h, hl⟩)
    · omega
    · omega
    · omega
    · simp [hempty (List.length_eq_zero_iff.mp h)] at hl
  | fetch ids =>
    obtain ⟨hlow, hk, hids⟩ := h
    have hnum : num (Payload.fetch ids).bytes 0 1 = ids.length := leNat_singleton (by omega)
    have hdrop : (Payload.fetch ids).bytes.drop 1 = ids.flatMap le16 := rfl
    rw [Payload.code, parsePayload, hnum, hdrop, parseIds_bytes hids]
    refine if_neg ?_
    rintro (h | h | h)
    · simp [Payload.bytes] at h
    · omega
    · omega
  | leave => rfl

/-- Kind and flags are read back from char 0 (Table 3.2.1). -/
theorem Frame.char0_reads (f : Frame) :
    f.char0.toNat % 16 = f.payload.code ∧ f.char0.getLsbD 4 = f.flags.reply ∧ f.char0.getLsbD 5 = f.flags.end_
      ∧ f.char0.getLsbD 6 = f.flags.joining ∧ f.char0.getLsbD 7 = f.flags.bucketLast := by
  have hreads : ∀ (k : Fin 7) (r e j b : Bool),
      let c := byte1 (k + 16 * boolCode r + 32 * boolCode e + 64 * boolCode j + 128 * boolCode b)
      c.toNat % 16 = k ∧ c.getLsbD 4 = r ∧ c.getLsbD 5 = e ∧ c.getLsbD 6 = j ∧ c.getLsbD 7 = b := by decide
  have hcode : f.payload.code < 7 := by cases f.payload <;> simp [Payload.code]
  exact hreads ⟨f.payload.code, hcode⟩ f.flags.reply f.flags.end_ f.flags.joining f.flags.bucketLast

/-- The characters of a frame before its check (R50). -/
def Frame.head (f : Frame) : List Byte :=
  [f.char0, byte1 f.src, byte1 f.dst, f.seq, byte1 f.payload.bytes.length] ++ f.payload.bytes

theorem Frame.chars_eq (f : Frame) : f.chars = f.head ++ le16 (crc16 f.head).toNat := rfl

theorem Frame.chars_length (f : Frame) : f.chars.length = 7 + f.payload.bytes.length := by
  simp [Frame.chars_eq, Frame.head, le16_length]
  omega

/-- What was sent with its check passes the check (R61, test 1). -/
theorem frameCheckGood_append (head : List Byte) : frameCheckGood (head ++ le16 (crc16 head).toNat) = true := by
  have hlen : (head ++ le16 (crc16 head).toNat).length - 2 = head.length := by simp [le16_length]
  rw [frameCheckGood, hlen, List.take_left, List.drop_left, beq_self_eq_true]

theorem wholeFrame_chars {f : Frame} (h : f.payload.bytes.length ≤ 160) : wholeFrame f.chars = true := by
  have hchar4 : f.chars[4]? = some (byte1 f.payload.bytes.length) := rfl
  simp [wholeFrame, hchar4, toNat_byte1 (show f.payload.bytes.length < 256 by omega), f.chars_length, h]

theorem parseFrame_chars {f : Frame} (h : FrameLaw f) : parseFrame f.chars = some f := by
  obtain ⟨hsrc, hdst, hflags, hpayload⟩ := h
  have hlen := Payload.bytes_length hpayload
  obtain ⟨hkind, hreply, hend, hjoining, hlast⟩ := f.char0_reads
  have hchar0 : f.chars.getD 0 0 = f.char0 := rfl
  have hseq : f.chars.getD 3 0 = f.seq := rfl
  have hnsrc : num f.chars 1 1 = f.src := leNat_singleton (by have := (validStation_iff _).mp hsrc; omega)
  have hndst : num f.chars 2 1 = f.dst := leNat_singleton (by omega)
  have hnlen : num f.chars 4 1 = f.payload.bytes.length := leNat_singleton (by omega)
  have hbody : field f.chars 5 f.payload.bytes.length = f.payload.bytes := List.take_left
  rw [parseFrame]
  simp only [hchar0, hkind, hreply, hend, hjoining, hlast, hnsrc, hndst, hnlen, hbody, hseq, hsrc, hdst, hflags,
    parsePayload_bytes hpayload]
  rfl

/-- Settles O60: the parts of a frame read back one by one. -/
theorem framesReadBackAsBuilt : Obligations.FramesReadBackAsBuilt := by
  intro f h
  have hframe := h
  obtain ⟨-, -, -, hpayload⟩ := h
  exact ⟨wholeFrame_chars (Payload.bytes_length hpayload), frameCheckGood_append f.head, parseFrame_chars hframe⟩

end Sys2Proof.Machine
end

section
/-! The bounds of the counts and the collections: what each shared operation of the line and of repair does to them. -/

namespace Sys2Proof.Machine

/-! ### The bounds one by one -/

/-- Each counter is what it was, or within its limit. -/
def CountsWithin (c d : Counters) : Prop := List.Forall₂ (fun m n => n = m ∨ n ≤ Config.countLimit) c.all d.all

theorem CountsWithin.bounded {c d : Counters} (h : CountsWithin c d) (hc : ∀ n ∈ c.all, n ≤ Config.countLimit) :
    ∀ n ∈ d.all, n ≤ Config.countLimit := by
  unfold CountsWithin at h
  generalize c.all = before at h hc
  generalize d.all = after at h
  induction h with
  | nil => simp
  | cons hmn _ ih =>
    rw [List.forall_mem_cons] at hc ⊢
    obtain ⟨hm, hc⟩ := hc
    refine ⟨?_, ih hc⟩
    rcases hmn with rfl | hle
    · exact hm
    · exact hle

/-- A counter that rises where a condition holds. -/
theorem satInc_if_within (p : Prop) [Decidable p] (n : Nat) :
    (if p then satInc n else n) = n ∨ (if p then satInc n else n) ≤ Config.countLimit := by
  split
  · exact .inr (satInc_le n)
  · exact .inl rfl

theorem BoundLaw.count {s : State} (h : BoundLaw s) {f : Counters → Counters} (hf : ∀ c, CountsWithin c (f c)) :
    BoundLaw (s.count f) := by
  obtain ⟨hcounters, hrest⟩ := h
  exact ⟨(hf _).bounded hcounters, hrest⟩

theorem BoundLaw.port {s : State} (h : BoundLaw s) {f : StoragePort → StoragePort}
    (hf : (f s.sp).lendCount ≤ Config.countLimit) : BoundLaw (s.mapPort f) := by
  obtain ⟨hcounters, -, hrest⟩ := h
  exact ⟨hcounters, hf, hrest⟩

theorem BoundLaw.journal {s : State} (h : BoundLaw s) {f : Journal → Journal}
    (hstranded : (f s.jc).stranded ≤ Config.countLimit) (hanomalies : (f s.jc).anomalies ≤ Config.countLimit) :
    BoundLaw (s.mapJournal f) := by
  obtain ⟨hcounters, hlend, -, -, hrest⟩ := h
  exact ⟨hcounters, hlend, hstranded, hanomalies, hrest⟩

theorem BoundLaw.line {s : State} (h : BoundLaw s) {li : LineIf} (hq : li.quiet ≤ Config.quietLimit) :
    BoundLaw { s with li := li } := by
  obtain ⟨hcounters, hlend, hstranded, hanomalies, -, hrest⟩ := h
  exact ⟨hcounters, hlend, hstranded, hanomalies, hq, hrest⟩

theorem BoundLaw.replication {s : State} (h : BoundLaw s) {re : Replication} (hroster : re.roster.length = 31)
    (hbuffer : re.rxBuffer.length ≤ Config.maxFrames) (hqueue : re.replyQueue.length ≤ Config.maxRequests)
    (hwant : re.session.want.length ≤ Config.maxWant) : BoundLaw { s with re := re } := by
  obtain ⟨hcounters, hlend, hstranded, hanomalies, hquiet, -, -, -, -, hwait⟩ := h
  exact ⟨hcounters, hlend, hstranded, hanomalies, hquiet, hroster, hbuffer, hqueue, hwant, hwait⟩

theorem BoundLaw.access {s : State} (h : BoundLaw s) {ac : AccessCtl} (hw : ac.wait ∈ [1, 2, 4, 8, 16]) :
    BoundLaw { s with ac := ac } := by
  obtain ⟨hcounters, hlend, hstranded, hanomalies, hquiet, hroster, hbuffer, hqueue, hwant, -⟩ := h
  exact ⟨hcounters, hlend, hstranded, hanomalies, hquiet, hroster, hbuffer, hqueue, hwant, hw⟩

theorem BoundLaw.stranded_le {s : State} (h : BoundLaw s) : s.jc.stranded ≤ Config.countLimit := by
  obtain ⟨-, -, h, -⟩ := h
  exact h

theorem BoundLaw.anomalies_le {s : State} (h : BoundLaw s) : s.jc.anomalies ≤ Config.countLimit := by
  obtain ⟨-, -, -, h, -⟩ := h
  exact h

theorem BoundLaw.quiet_le {s : State} (h : BoundLaw s) : s.li.quiet ≤ Config.quietLimit := by
  obtain ⟨-, -, -, -, h, -⟩ := h
  exact h

theorem BoundLaw.replication_bounds {s : State} (h : BoundLaw s) : s.re.roster.length = 31
    ∧ s.re.rxBuffer.length ≤ Config.maxFrames ∧ s.re.replyQueue.length ≤ Config.maxRequests
    ∧ s.re.session.want.length ≤ Config.maxWant := by
  obtain ⟨-, -, -, -, -, hroster, hbuffer, hqueue, hwant, -⟩ := h
  exact ⟨hroster, hbuffer, hqueue, hwant⟩

theorem BoundLaw.wait_mem {s : State} (h : BoundLaw s) : s.ac.wait ∈ [1, 2, 4, 8, 16] := by
  obtain ⟨-, -, -, -, -, -, -, -, -, h⟩ := h
  exact h

theorem BoundLaw.session {s : State} (h : BoundLaw s) {se : Session} (hw : se.want.length ≤ Config.maxWant) :
    BoundLaw (s.setSession se) :=
  let ⟨hroster, hbuffer, hqueue, _⟩ := h.replication_bounds
  h.replication hroster hbuffer hqueue hw

theorem BoundLaw.replies {s : State} (h : BoundLaw s) {q : List Request} (hq : q.length ≤ Config.maxRequests) :
    BoundLaw (s.setReplies q) :=
  let ⟨hroster, hbuffer, _, hwant⟩ := h.replication_bounds
  h.replication hroster hbuffer hq hwant

theorem BoundLaw.roster {s : State} (h : BoundLaw s) {l : List Peer} (hl : l.length = s.re.roster.length) :
    BoundLaw { s with re := { s.re with roster := l } } :=
  let ⟨hroster, hbuffer, hqueue, hwant⟩ := h.replication_bounds
  h.replication (hl.trans hroster) hbuffer hqueue hwant

/-! ### Line time -/

theorem LineIf.pass_quiet_le {li : LineIf} (h : li.quiet ≤ Config.quietLimit) (n : Nat) :
    (li.pass n).quiet ≤ Config.quietLimit := by
  have hcounts : (li.counts n).quiet ≤ Config.quietLimit := by
    unfold LineIf.counts
    split
    · exact satAdd_le _ _ _
    · exact Nat.zero_le _
  unfold LineIf.pass
  split
  · exact h
  · split
    · exact quietAfter_le _ h
    · exact h
  all_goals exact hcounts

theorem State.passLine_bounded {s : State} (h : BoundLaw s) (n : Nat) : BoundLaw (s.passLine n) := by
  obtain ⟨-, -, -, hwant⟩ := h.replication_bounds
  have hkept : (s.re.session.pass s.li.receiver.busy n).want = s.re.session.want := by rw [Session.pass_eq]
  rw [← hkept] at hwant
  unfold State.passLine
  split
  · exact (h.session hwant).line (LineIf.pass_quiet_le h.quiet_le n)
  · exact h

theorem State.passUntil_bounded {s : State} (h : BoundLaw s) (t l : Nat) : BoundLaw (s.passUntil t l) := by
  rcases s.passUntil_eq t l with hu | ⟨n, hu⟩ <;> rw [hu]
  · exact h
  · exact State.passLine_bounded h n

/-! ### The judgement of convergence and sessions -/

theorem State.judge_bounded {s : State} (h : BoundLaw s) : BoundLaw s.judge := by
  rw [s.judge_frame]
  exact h

theorem State.endJoinWindow_bounded {s : State} (h : BoundLaw s) : BoundLaw s.endJoinWindow := by
  rw [s.endJoinWindow_frame]
  exact h

theorem State.completeLong_bounded {s : State} (h : BoundLaw s) (code : Byte) (r : Result) : BoundLaw (s.completeLong code r) := by
  obtain ⟨-, -, hlong⟩ := s.completeLong_slot code r
  rw [hlong]
  exact h

theorem State.updatePeer_bounded {s : State} (h : BoundLaw s) (n : Nat) (f : Peer → Peer) : BoundLaw (s.updatePeer n f) := by
  unfold State.updatePeer
  split
  · exact h
  · exact h.roster (List.length_modify ..)

theorem State.openSession_bounded {s : State} (h : BoundLaw s) (n : Nat) : BoundLaw (s.openSession n) :=
  (State.updatePeer_bounded h _ _).session (Nat.zero_le _)

theorem State.searchSession_bounded {s : State} (h : BoundLaw s) : BoundLaw s.searchSession := by
  unfold State.searchSession
  split
  · split
    · exact State.openSession_bounded h _
    · exact h
  · exact h

theorem State.testSession_bounded {s : State} (h : BoundLaw s) (n : Nat) : BoundLaw (s.testSession n) := by
  unfold State.testSession
  split
  · exact State.openSession_bounded h n
  · exact h

theorem State.closeSession_bounded {s : State} (h : BoundLaw s) : BoundLaw s.closeSession := by
  have hcleared : BoundLaw (s.setSession .cleared) := h.session (Nat.zero_le _)
  rw [s.closeSession_eq]
  exact hcleared

theorem State.abandonSession_bounded {s : State} (h : BoundLaw s) : BoundLaw s.abandonSession := by
  unfold State.abandonSession
  split
  · exact h
  · exact State.closeSession_bounded (State.updatePeer_bounded h _ _)

theorem State.sessionSuccess_bounded {s : State} (h : BoundLaw s) : BoundLaw s.sessionSuccess :=
  State.searchSession_bounded (State.closeSession_bounded (State.updatePeer_bounded h _ _))

theorem State.sessionTimeout_bounded {s : State} (h : BoundLaw s) : BoundLaw s.sessionTimeout := by
  obtain ⟨-, -, -, hwant⟩ := h.replication_bounds
  unfold State.sessionTimeout
  dsimp only
  split
  · split
    · exact h.session (Nat.zero_le _)
    · exact h.session hwant
  · exact State.searchSession_bounded (State.closeSession_bounded
      (State.updatePeer_bounded (State.updatePeer_bounded h _ _) _ _))

/-! ### Listings (R114 to R118) -/

theorem Session.addWant_le {se : Session} (h : se.want.length ≤ Config.maxWant) (id : Nat) :
    (se.addWant id).want.length ≤ Config.maxWant := by
  unfold Session.addWant
  split
  · exact h
  · split
    · next hroom => simpa using hroom
    · exact h

theorem State.pushRequest_bounded {s : State} (h : BoundLaw s) (id : Nat) : BoundLaw (s.pushRequest id) := by
  unfold State.pushRequest
  split <;> exact h

theorem State.pushBetween_bounded {s : State} (h : BoundLaw s) (b : Nat) (lo hi : Option Nat) :
    BoundLaw (s.pushBetween b lo hi) :=
  List.foldlRecOn _ _ h fun _ hu _ _ => State.pushRequest_bounded hu _

theorem State.compareQuad_bounded {sc : State × Option Nat} (h : BoundLaw sc.1) (b : Nat) (q : Quad) :
    BoundLaw (State.compareQuad b sc q).1 := by
  have hpushed := State.pushBetween_bounded h b sc.2 (some q.id)
  unfold State.compareQuad
  dsimp only
  generalize sc.1.pushBetween b sc.2 (some q.id) = u at hpushed
  obtain ⟨-, -, -, hwant⟩ := hpushed.replication_bounds
  have hadded : BoundLaw (u.setSession (u.re.session.addWant q.id)) := hpushed.session (Session.addWant_le hwant _)
  split
  · exact hadded
  · split
    · exact hpushed
    · split
      · exact hadded
      · split
        · exact State.pushRequest_bounded hpushed _
        · exact hpushed

theorem State.compareListing_bounded {s : State} (h : BoundLaw s) (b : Nat) (quads : List Quad) (bucketLast : Bool) :
    BoundLaw (s.compareListing b quads bucketLast) := by
  have hmerged : BoundLaw (quads.foldl (State.compareQuad b) (s, s.re.session.cursor)).1 :=
    List.foldlRecOn (motive := fun sc : State × Option Nat => BoundLaw sc.1) quads _ h
      fun _ hu _ _ => State.compareQuad_bounded hu b _
  unfold State.compareListing
  dsimp only
  split
  · exact State.pushBetween_bounded hmerged _ _ _
  · exact hmerged

theorem State.takeListing_bounded {s : State} (h : BoundLaw s) (b part : Nat) (quads : List Quad) (fl : FrameFlags) :
    BoundLaw (s.takeListing b part quads fl) := by
  obtain ⟨-, -, -, hwant⟩ := h.replication_bounds
  have hrestarted : BoundLaw (s.setSession { s.re.session with timer := 0 }) := h.session hwant
  have hmerged := State.compareListing_bounded hrestarted b quads fl.bucketLast
  unfold State.takeListing
  dsimp only
  generalize (s.setSession { s.re.session with timer := 0 }).compareListing b quads fl.bucketLast = u at hmerged ⊢
  obtain ⟨-, -, -, hwant⟩ := hmerged.replication_bounds
  split
  · split
    · exact hmerged.session hwant
    · split
      · exact hmerged.session hwant
      · unfold State.listingComplete
        split
        · exact State.sessionSuccess_bounded hmerged
        · exact hmerged.session hwant
  · exact State.sessionTimeout_bounded h

/-! ### The reply queue (R123 to R128) -/

theorem State.emptyReplies_bounded {s : State} (h : BoundLaw s) : BoundLaw s.emptyReplies :=
  BoundLaw.replies (s := s.orphanReply) h (Nat.zero_le _)

theorem State.dropRequest_bounded {s : State} (h : BoundLaw s) (n : Nat) : BoundLaw (s.dropRequest n) := by
  obtain ⟨-, -, hqueue, -⟩ := h.replication_bounds
  have hdropped : BoundLaw (s.setReplies (s.re.replyQueue.filter fun r => r.requester ≠ n)) :=
    h.replies ((List.length_filter_le ..).trans hqueue)
  rw [s.dropRequest_eq]
  exact hdropped

/-- A served request's place goes to the new one at the tail (R124). -/
theorem State.replaceRequest_bounded {s : State} (h : BoundLaw s) {r old : Request} (hold : old ∈ s.re.replyQueue)
    (hr : old.requester = r.requester) :
    BoundLaw ((s.dropRequest r.requester).setReplies ((s.dropRequest r.requester).re.replyQueue ++ [r])) := by
  obtain ⟨-, -, hqueue, -⟩ := h.replication_bounds
  refine (State.dropRequest_bounded h _).replies ?_
  have hless : (s.re.replyQueue.filter fun x => x.requester ≠ r.requester).length < s.re.replyQueue.length :=
    List.length_filter_lt_length_iff_exists.mpr ⟨old, hold, by simp [hr]⟩
  rw [s.dropRequest_eq, List.length_append, List.length_singleton]
  exact hless.trans_le hqueue

theorem State.placeRequest_bounded {s : State} (h : BoundLaw s) (r : Request) : BoundLaw (s.placeRequest r) := by
  obtain ⟨-, -, hqueue, -⟩ := h.replication_bounds
  unfold State.placeRequest
  split
  · next old hfind =>
    split
    · exact State.replaceRequest_bounded h (List.mem_of_find?_eq_some hfind) (by simpa using List.find?_some hfind)
    · exact h.replies (by rwa [List.length_map])
  · split
    · exact h.count fun c => by simp [CountsWithin, Counters.all, satInc_le]
    · next hroom =>
      refine h.replies ?_
      rw [List.length_append, List.length_singleton]
      omega

theorem State.replyCompleted_bounded {s : State} (h : BoundLaw s) (forHead ends : Bool) (moved : Work) :
    BoundLaw (s.replyCompleted forHead ends moved) := by
  obtain ⟨-, -, hqueue, -⟩ := h.replication_bounds
  unfold State.replyCompleted
  split
  · split
    · exact h
    · next r q hq =>
      rw [hq, List.length_cons] at hqueue
      split
      · exact h.replies (by omega)
      · exact h.replies hqueue
  · exact h

/-! ### Station states and line health -/

theorem State.endClosing_bounded {s : State} (h : BoundLaw s) (r : Result) : BoundLaw (s.endClosing r) :=
  State.completeLong_bounded (s := s.enterHeld) h _ _

theorem State.enterMuted_bounded {s : State} (h : BoundLaw s) (c : Cause) : BoundLaw (s.enterMuted c) := by
  have hleft := State.emptyReplies_bounded (State.abandonSession_bounded h)
  unfold State.enterMuted
  generalize s.abandonSession.emptyReplies = u at hleft
  exact hleft.access (ac := { u.ac with wait := 1 }) List.mem_cons_self

theorem State.furtherCause_bounded {s : State} (h : BoundLaw s) (c : Cause) : BoundLaw (s.furtherCause c) := by
  unfold State.furtherCause
  split <;> exact h

theorem State.takeCause_bounded {s : State} (h : BoundLaw s) (c : Cause) : BoundLaw (s.takeCause c) := by
  unfold State.takeCause
  split
  · exact h
  · exact h
  · exact State.judge_bounded (State.enterMuted_bounded h c)
  · exact State.judge_bounded (State.enterMuted_bounded h c)
  · exact State.furtherCause_bounded h c
  · exact State.judge_bounded (State.endClosing_bounded h _)

/-- Twice a recovery wait, at most 16 s, is one of its five lengths (R69, R83). -/
theorem wait_doubled {w : Nat} (h : w ∈ [1, 2, 4, 8, 16]) : min Config.maxWait (2 * w) ∈ [1, 2, 4, 8, 16] := by
  simp only [List.mem_cons, List.not_mem_nil, or_false] at h
  rcases h with rfl | rfl | rfl | rfl | rfl <;> decide

/-! ### Own frames (R62, R72 to R77) -/

theorem State.launch_bounded {s : State} (h : BoundLaw s) (f : Frame) (cls : GapClass) (probe : Bool) (cargo : Cargo) :
    BoundLaw (s.launch f cls probe cargo) := h.line (Nat.zero_le _)

theorem State.startDemand_bounded {s : State} (h : BoundLaw s) (cls : GapClass) (d : Demand) :
    BoundLaw (s.startDemand cls d) := by
  have hupdate : ∀ m, BoundLaw (s.launchUpdate cls m) := fun m =>
    State.judge_bounded (State.launch_bounded (s := s.useSequence) h _ cls false _)
  cases d with
  | reply =>
    unfold State.startDemand
    dsimp only
    split
    · exact h
    · exact State.launch_bounded h _ _ _ _
  | repair => exact State.launch_bounded (s := s.useSequence) h _ _ _ _
  | push => exact hupdate .push
  | summary => exact State.launch_bounded (s := s.useSequence) h _ _ _ _
  | newUpdate => exact hupdate .new
  | leave => exact State.launch_bounded (s := s.useSequence) h _ _ _ _

theorem State.deferStart_bounded {s : State} (h : BoundLaw s) : BoundLaw s.deferStart := h.line (Nat.zero_le _)

theorem State.frameSent_bounded {s : State} (h : BoundLaw s) (f : Flight) : BoundLaw (s.frameSent f) := by
  have hpassed := State.passLine_bounded h (10 * f.chars.length - f.elapsed)
  unfold State.frameSent
  generalize s.passLine (10 * f.chars.length - f.elapsed) = u at hpassed
  refine BoundLaw.count ?_ fun c => by simp [CountsWithin, Counters.all, satInc_le]
  exact hpassed

theorem State.demandCompleted_bounded {s : State} (h : BoundLaw s) (f : Flight) : BoundLaw (s.demandCompleted f) := by
  obtain ⟨-, -, -, hwant⟩ := h.replication_bounds
  unfold State.demandCompleted
  split
  · exact h
  · exact h
  · split
    · exact h.session hwant
    · exact h
  · exact State.replyCompleted_bounded h _ _ _
  · split
    · exact State.judge_bounded (State.endClosing_bounded h _)
    · exact h

theorem State.frameUndone_bounded {s : State} (h : BoundLaw s) (f : Flight) : BoundLaw (s.frameUndone f) := by
  unfold State.frameUndone
  split <;> exact h

theorem State.probeCut_bounded {s : State} (h : BoundLaw s) : BoundLaw s.probeCut := h.access (wait_doubled h.wait_mem)

theorem State.recover_bounded {s : State} (h : BoundLaw s) : BoundLaw s.recover :=
  State.searchSession_bounded (h.access (ac := { s.ac with wait := 1 }) List.mem_cons_self)

/-! ### Frames of other stations (R59 to R64) -/

theorem trailingRecessive_le (c : Byte) : trailingRecessive c ≤ 8 := (List.takeWhile_sublist _).length_le

theorem LineIf.change_quiet_le {li : LineIf} (h : li.quiet ≤ Config.quietLimit) (c : LineChange) :
    (li.change c).quiet ≤ Config.quietLimit := by
  cases c with
  | start => exact Nat.zero_le _
  | noise => exact Nat.zero_le _
  | release =>
    unfold LineIf.change
    dsimp only
    split
    · exact h
    · exact Nat.zero_le _

theorem State.seekQuiet_bounded {s : State} (h : BoundLaw s) {q : Nat} (hq : q ≤ 12) : BoundLaw (s.seekQuiet q) :=
  h.line (hq.trans (by decide))

theorem State.bufferFrame_bounded {s : State} (h : BoundLaw s) (chars : List Byte) : BoundLaw (s.bufferFrame chars) := by
  obtain ⟨hroster, -, hqueue, hwant⟩ := h.replication_bounds
  unfold State.bufferFrame
  split
  · exact h.count fun c => by simp [CountsWithin, Counters.all, satInc_le]
  · next hroom =>
    have hbuffer : (s.re.rxBuffer ++ [chars]).length ≤ Config.maxFrames := by
      rw [List.length_append, List.length_singleton]
      omega
    refine BoundLaw.count ?_ fun c => by simp [CountsWithin, Counters.all, satInc_le]
    exact h.replication hroster hbuffer hqueue hwant

theorem State.testFrame_bounded {s : State} (h : BoundLaw s) (chars : List Byte) : BoundLaw (s.testFrame chars) := by
  unfold State.testFrame
  split
  · exact h.count fun c => by simp [CountsWithin, Counters.all, satInc_le]
  · split
    · exact h.count fun c => by simp [CountsWithin, Counters.all, satInc_le]
    · split
      · unfold State.duplicateStation
        split
        · exact State.takeCause_bounded h _
        · exact State.takeCause_bounded (s := s.notify .duplicateStation 0) h _
      · exact State.bufferFrame_bounded h chars

theorem State.countFraming_bounded {s : State} (h : BoundLaw s) : BoundLaw s.countFraming :=
  h.count fun c => by simp [CountsWithin, Counters.all, satInc_le]

end Sys2Proof.Machine
end

section
/-! The bounds over the changes of entries, the frames taken, the journal and replay. -/

namespace Sys2Proof.Machine

/-! ### Changes of entries (chapter 2) -/

/-- The marking of an id leaves the journal's counts. -/
theorem State.marked_bounded {s : State} (h : BoundLaw s) (id : Nat) :
    BoundLaw (s.mapJournal fun jc => (jc.enqueue id).touch id false) := by
  refine h.journal ?_ ?_ <;> rw [Journal.touch_eq, Journal.enqueue_eq]
  · exact h.stranded_le
  · exact h.anomalies_le

theorem State.localChange_bounded {s : State} (h : BoundLaw s) (id : Nat) (scope : Scope) (value : List Byte)
    (slot : Option Nat) : BoundLaw (s.localChange id scope value slot) := by
  have hmarked := State.marked_bounded h id
  rw [State.localChange_eq]
  split
  · exact State.judge_bounded (hmarked.roster (List.length_map ..))
  · exact hmarked

theorem State.localPut_bounded {s : State} (h : BoundLaw s) (id : Nat) (scope : Scope) (value : List Byte) :
    BoundLaw (s.localPut id scope value).2 := by
  unfold State.localPut
  split
  · exact h
  · exact State.localChange_bounded h _ _ _ _

theorem State.deleteLocal_bounded {s : State} (h : BoundLaw s) (e : Entry) : BoundLaw (s.deleteLocal e) := by
  have hmarked : BoundLaw (s.mapJournal fun jc => (jc.enqueueDelete e.id).touch e.id true) := by
    refine h.journal ?_ ?_ <;> rw [Journal.touch_eq, Journal.enqueueDelete_eq]
    · exact h.stranded_le
    · exact h.anomalies_le
  exact hmarked

theorem State.localRemove_bounded {s : State} (h : BoundLaw s) (id : Nat) : BoundLaw (s.localRemove id).2 := by
  unfold State.localRemove
  split
  · exact h
  · split
    · exact h
    · split
      · exact h
      · split
        · exact State.localChange_bounded h _ _ _ _
        · exact State.deleteLocal_bounded h _

theorem State.remoteChange_bounded {s : State} (h : BoundLaw s) (old : Option Entry) (id : Nat) :
    BoundLaw (s.remoteChange old id) := by
  unfold State.remoteChange
  split <;> exact h

/-- A record applied, which may be a conflict of versions too (R36). -/
theorem CountsWithin.applied (p : Prop) [Decidable p] (c : Counters) :
    CountsWithin c { c with
      updatesApplied := satInc c.updatesApplied
      versionConflicts := if p then satInc c.versionConflicts else c.versionConflicts } := by
  have hconflicts := satInc_if_within p c.versionConflicts
  generalize (if p then satInc c.versionConflicts else c.versionConflicts) = n at hconflicts ⊢
  simp [CountsWithin, Counters.all, satInc_le, hconflicts]

/-- A record not applied, which may be a conflict of versions too (R36). -/
theorem CountsWithin.stale (p : Prop) [Decidable p] (c : Counters) :
    CountsWithin c { c with
      updatesStale := satInc c.updatesStale
      versionConflicts := if p then satInc c.versionConflicts else c.versionConflicts } := by
  have hconflicts := satInc_if_within p c.versionConflicts
  generalize (if p then satInc c.versionConflicts else c.versionConflicts) = n at hconflicts ⊢
  simp [CountsWithin, Counters.all, satInc_le, hconflicts]

theorem State.takeRecord_bounded {s : State} (h : BoundLaw s) (old : Option Entry) (r : LineRecord) (slot : Option Nat) :
    BoundLaw (s.takeRecord old r slot) := by
  have hmarked := State.marked_bounded h (old.getD (Entry.fresh r.id .shared)).id
  unfold State.takeRecord
  dsimp only
  rw [State.commitEntry_eq]
  dsimp only
  refine BoundLaw.count ?_ (CountsWithin.applied _)
  refine State.remoteChange_bounded ?_ _ _
  exact BoundLaw.roster hmarked (l := s.re.roster.map fun p => { p with agreement := .unknown }) (List.length_map ..)

theorem State.takeIfRoom_bounded {s : State} (h : BoundLaw s) (old : Option Entry) (r : LineRecord) :
    BoundLaw (s.takeIfRoom old r) := by
  have hdrop : BoundLaw s.capacityDrop :=
    BoundLaw.count h (f := fun c => { c with capacityDrops := satInc c.capacityDrops })
      fun c => by simp [CountsWithin, Counters.all, satInc_le]
  unfold State.takeIfRoom
  split
  · exact hdrop
  · split
    · exact hdrop
    · exact State.takeRecord_bounded h _ _ _

theorem State.applyRecord_bounded {s : State} (h : BoundLaw s) (r : LineRecord) : BoundLaw (s.applyRecord r) := by
  unfold State.applyRecord
  split
  · exact State.takeIfRoom_bounded h _ _
  · split
    · exact h.count fun c => by simp [CountsWithin, Counters.all, satInc_le]
    · split
      · exact State.takeIfRoom_bounded h _ _
      · split
        · exact h
        · exact h.count (CountsWithin.stale _)

/-! ### Frames taken (R65, R66) -/

theorem State.refresh_bounded {s : State} (h : BoundLaw s) (n : Nat) : BoundLaw (s.refresh n) := by
  unfold State.refresh
  split <;> exact State.updatePeer_bounded h _ _

theorem State.earlySummary_bounded {s : State} (h : BoundLaw s) : BoundLaw s.earlySummary := by
  unfold State.earlySummary
  split <;> exact h

theorem State.takeSummary_bounded {s : State} (h : BoundLaw s) (n hh count interval : Nat) (digests : List Half)
    (joining : Bool) : BoundLaw (s.takeSummary n hh count interval digests joining) := by
  have hheard := State.updatePeer_bounded h n fun p =>
    { p with h := hh, count := count, interval := some interval, joining := joining }
  unfold State.takeSummary
  dsimp only
  generalize s.updatePeer n _ = u at hheard
  split
  · generalize differing u.pt.digests digests = diff
    have hcompared := State.updatePeer_bounded hheard n fun p => p.compare diff
    generalize u.updatePeer n _ = v at hcompared
    have htested : BoundLaw (if diff = 0 then v else v.testSession n) := by
      split
      · exact hcompared
      · exact State.testSession_bounded hcompared n
    split
    · exact State.earlySummary_bounded htested
    · exact htested
  · exact hheard

theorem State.peerLeft_bounded {s : State} (h : BoundLaw s) (n : Nat) : BoundLaw (s.peerLeft n) := by
  unfold State.peerLeft
  split
  · exact h
  · have hleft : BoundLaw (((s.updatePeer n fun _ => .cleared).notify .peerLeft n).dropRequest n) :=
      State.dropRequest_bounded (s := (s.updatePeer n fun _ => .cleared).notify .peerLeft n)
        (State.updatePeer_bounded h _ _) n
    dsimp only
    split
    · exact State.searchSession_bounded (State.closeSession_bounded hleft)
    · exact hleft

theorem State.takeRequest_bounded {s : State} (h : BoundLaw s) (f : Frame) (w : Work) : BoundLaw (s.takeRequest f w) := by
  unfold State.takeRequest
  split
  · exact State.placeRequest_bounded h _
  · exact h

theorem State.takeReplyUpdate_bounded {s : State} (h : BoundLaw s) (e : Bool) : BoundLaw (s.takeReplyUpdate e) := by
  obtain ⟨-, -, -, hwant⟩ := h.replication_bounds
  unfold State.takeReplyUpdate
  split
  · exact State.sessionSuccess_bounded h
  · exact h.session hwant

theorem State.takeKind_bounded {s : State} (h : BoundLaw s) (f : Frame) : BoundLaw (s.takeKind f) := by
  unfold State.takeKind
  split
  · next recs _ =>
    have hrecs : BoundLaw (recs.foldl State.applyRecord s) :=
      List.foldlRecOn _ _ h fun _ hu _ _ => State.applyRecord_bounded hu _
    split
    · dsimp only
      split
      · exact State.takeReplyUpdate_bounded hrecs _
      · exact hrecs
    · exact h
  · exact State.takeSummary_bounded h _ _ _ _ _ _
  · exact State.takeRequest_bounded h _ _
  · split
    · exact State.takeListing_bounded h _ _ _ _
    · exact h
  · exact State.takeRequest_bounded h _ _
  · exact State.peerLeft_bounded h _

theorem State.actOn_bounded {s : State} (h : BoundLaw s) (f : Frame) : BoundLaw (s.actOn f) := by
  have hraised : BoundLaw (s.raiseH f.payload) := h
  unfold State.actOn
  dsimp only
  split
  · exact State.takeKind_bounded hraised f
  · exact State.takeKind_bounded (State.refresh_bounded hraised _) f

/-! ### The journal (chapter 8) -/

theorem State.grantWaiting_bounded {s : State} (h : BoundLaw s) : BoundLaw s.grantWaiting := by
  unfold State.grantWaiting
  split
  · exact h.port (satInc_le _)
  · exact h

theorem State.enterFault_bounded {s : State} (h : BoundLaw s) : BoundLaw s.enterFault := by
  unfold State.enterFault
  dsimp only
  refine State.grantWaiting_bounded ?_
  split <;> exact State.completeLong_bounded (s := { s with
    pt := s.pt.mapEntries Entry.unqueue, jc := s.jc.toFault, sp := { s.sp with cmd := .none, poll := none } }) h _ _

theorem State.judgeTrigger_bounded {s : State} (h : BoundLaw s) : BoundLaw s.judgeTrigger := by
  unfold State.judgeTrigger
  dsimp only
  split
  · split <;> exact h
  · exact h

theorem State.judgeUsable_bounded {s : State} (h : BoundLaw s) : BoundLaw s.judgeUsable := by
  unfold State.judgeUsable
  split
  · exact State.enterFault_bounded h
  · exact State.judgeTrigger_bounded h

theorem State.issue_bounded {s : State} (h : BoundLaw s) (p : Prog) : BoundLaw (s.issue p) := by
  unfold State.issue
  split <;> exact h

theorem State.openBand_bounded {s : State} (h : BoundLaw s) (w : WriteJob) : BoundLaw (s.openBand w) := by
  unfold State.openBand
  split
  · exact h
  · split
    · exact State.enterFault_bounded h
    · split
      · exact State.enterFault_bounded h
      · exact State.issue_bounded (s := s.mapJournal fun jc => { jc with lastSeq := jc.lastSeq + 1 }) h _

theorem State.beginWrite_bounded {s : State} (h : BoundLaw s) (w : WriteJob) : BoundLaw (s.beginWrite w) := by
  have hstarted : BoundLaw (s.mapJournal fun jc => jc.startWrite w) := h
  unfold State.beginWrite
  dsimp only
  split
  · exact State.openBand_bounded hstarted w
  · split <;> exact State.issue_bounded hstarted _

theorem State.sweep_bounded {s : State} (h : BoundLaw s) : BoundLaw s.sweep := by
  unfold State.sweep
  split <;> exact h

theorem State.settleBase_bounded {s : State} (h : BoundLaw s) (w : WriteJob) (hd : Head) : BoundLaw (s.settleBase w hd) := by
  unfold State.settleBase
  split
  · split
    · unfold State.moveBase
      split
      · split <;> exact h
      · exact h
    · exact h
  · exact h

theorem State.settleId_bounded {s : State} (h : BoundLaw s) (w : WriteJob) : BoundLaw (s.settleId w) := by
  unfold State.settleId
  split <;> split <;> exact h

theorem State.settleFlush_bounded {s : State} (h : BoundLaw s) : BoundLaw s.settleFlush := by
  unfold State.settleFlush
  split
  · exact State.completeLong_bounded h _ _
  · exact h

theorem State.writeDone_bounded {s : State} (h : BoundLaw s) (w : WriteJob) (hd : Head) : BoundLaw (s.writeDone w hd) := by
  have hwritten : BoundLaw (s.count fun c => { c with recordsWritten := satInc c.recordsWritten }) :=
    h.count fun c => by simp [CountsWithin, Counters.all, satInc_le]
  unfold State.writeDone
  dsimp only
  generalize s.count _ = u at hwritten
  have hswept := State.sweep_bounded (s := ((State.settleId (State.settleBase (u.mapJournal fun jc =>
    { jc with
      failCount := 0, head := some { hd with pos := hd.pos + w.bytes.length }
      compaction := jc.compaction.moveCursor w }) w hd) w).mapJournal fun jc => jc.endJob w.side))
    (State.settleId_bounded (State.settleBase_bounded (by exact hwritten) w hd) w)
  refine State.settleFlush_bounded ?_
  split
  · exact State.judgeTrigger_bounded hswept
  · exact hswept

theorem State.rewrite_bounded {s : State} (h : BoundLaw s) (w : WriteJob) : BoundLaw (s.rewrite w) := by
  unfold State.rewrite
  split
  · next w' _ => exact State.openBand_bounded (s := s.mapJournal fun jc => { jc with job := some (.write w') }) h w'
  · exact h

/-! ### The end of replay (R168 to R170) -/

theorem State.settleTable_bounded {s : State} (h : BoundLaw s) : BoundLaw s.settleTable := by
  unfold State.settleTable
  dsimp only
  split <;> exact h

theorem State.leaveReplay_bounded {s : State} (h : BoundLaw s) : BoundLaw s.leaveReplay :=
  h.line (li := { s.li with receiver := .seeking, quiet := 0, stuck := 0, stuckDeclared := false }) (Nat.zero_le _)

theorem State.nextClose_bounded {s : State} (h : BoundLaw s) (todo : List (Nat × Nat)) : BoundLaw (s.nextClose todo) := by
  cases todo with
  | nil => exact State.judgeTrigger_bounded (State.leaveReplay_bounded h)
  | cons c todo => exact State.issue_bounded (s := s.setPhase (.closing (c :: todo))) h _

theorem State.finishWalk_bounded {s : State} (h : BoundLaw s) : BoundLaw s.finishWalk := by
  have hsettled := State.settleTable_bounded h
  unfold State.finishWalk
  split
  · unfold State.settleHead
    exact State.nextClose_bounded (by exact hsettled) _
  · exact h

theorem State.replayFault_bounded {s : State} (h : BoundLaw s) : BoundLaw s.replayFault := by
  unfold State.replayFault
  dsimp only
  refine State.enterFault_bounded (State.leaveReplay_bounded ?_)
  split
  · exact h
  · exact State.settleTable_bounded (by exact h)

theorem State.fail_bounded {s : State} (h : BoundLaw s) : BoundLaw s.fail := by
  unfold State.fail
  split
  · exact State.replayFault_bounded h
  · exact State.enterFault_bounded h

theorem State.resume_bounded {s : State} (h : BoundLaw s) : BoundLaw s.resume := by
  have hnext : BoundLaw (match s.jc.next with | some p => s.issue p | none => s) := by
    split
    · exact State.issue_bounded h _
    · exact h
  unfold State.resume
  split
  · split
    · unfold State.resumeReplay
      split
      · exact h
      · exact h
      · exact h
      · exact hnext
    · split
      · exact h
      · exact h
      · exact hnext
  · exact h

/-! ### Programs and erases (chapter 10) -/

theorem State.withWrite_bounded {s : State} (h : BoundLaw s) {k : WriteJob → State} (hk : ∀ w, BoundLaw (k w)) :
    BoundLaw (s.withWrite k) := by
  unfold State.withWrite
  split
  · exact hk _
  · exact h

theorem State.withHead_bounded {s : State} (h : BoundLaw s) {k : Head → State} (hk : ∀ x, BoundLaw (k x)) :
    BoundLaw (s.withHead k) := by
  unfold State.withHead
  split
  · exact hk _
  · exact h

/-- The unused bytes of a band are stranded (R132). -/
theorem State.strand_bounded {s : State} (h : BoundLaw s) (len : Nat) : BoundLaw (s.mapJournal fun jc => jc.strand len) :=
  h.journal (satAdd_le _ _ _) h.anomalies_le

theorem State.replayClosed_bounded {s : State} (h : BoundLaw s) (written : Bool) : BoundLaw (s.replayClosed written) := by
  unfold State.replayClosed
  split
  · refine State.nextClose_bounded ?_ _
    cases written with
    | false => exact h
    | true => exact State.strand_bounded h _
  · exact h

theorem State.programDone_bounded {s : State} (h : BoundLaw s) (p : Prog) : BoundLaw (s.programDone p) := by
  unfold State.programDone
  split
  · exact State.issue_bounded h _
  · exact State.withWrite_bounded h fun w => State.withHead_bounded h fun x =>
      State.openBand_bounded (by exact State.strand_bounded h _) w
  · exact State.withWrite_bounded h fun w => State.issue_bounded (State.judgeTrigger_bounded (by exact h)) _
  · refine State.withWrite_bounded h fun w => State.withHead_bounded h fun x => ?_
    split
    · exact State.writeDone_bounded h w x
    · exact State.issue_bounded h _
  · exact State.withWrite_bounded h fun w => State.withHead_bounded h fun x => State.writeDone_bounded h w x
  · exact State.withWrite_bounded h fun w => State.withHead_bounded h fun x => State.issue_bounded h _
  · exact State.issue_bounded h _
  · exact State.withWrite_bounded h fun w => State.withHead_bounded h fun x =>
      State.rewrite_bounded (by exact State.strand_bounded h _) w
  · unfold State.issueInReplay
    split <;> exact h
  · exact State.replayClosed_bounded h true

theorem State.headerFailed_bounded {s : State} (h : BoundLaw s) (band : Nat) : BoundLaw (s.headerFailed band) := by
  have hjudged : BoundLaw (s.mapJournal fun jc => jc.mapRow band (.bare .bad)).judgeUsable :=
    State.judgeUsable_bounded (by exact h)
  unfold State.headerFailed
  dsimp only
  split
  · exact hjudged
  · exact State.withWrite_bounded hjudged fun w => State.openBand_bounded hjudged w

theorem State.programFailed_bounded {s : State} (h : BoundLaw s) (p : Prog) : BoundLaw (s.programFailed p) := by
  have hcounted : BoundLaw s.countFailure :=
    BoundLaw.count h (f := fun c => { c with programFailures := satInc c.programFailures })
      fun c => by simp [CountsWithin, Counters.all, satInc_le]
  have hleft : ∀ w, BoundLaw ((s.countFailure.mapJournal fun jc => jc.leaveHead p.band).openBand w) :=
    State.openBand_bounded (by exact hcounted)
  unfold State.programFailed
  dsimp only
  split
  · exact State.fail_bounded hcounted
  · split
    · exact State.withHead_bounded hcounted fun x => State.issue_bounded hcounted _
    · exact State.withHead_bounded hcounted fun x => State.issue_bounded hcounted _
    · exact State.withWrite_bounded hcounted hleft
    · exact State.withWrite_bounded hcounted hleft
    · exact State.headerFailed_bounded hcounted _
    · exact State.fail_bounded hcounted
    · exact State.fail_bounded hcounted
    · exact State.fail_bounded hcounted
    · exact State.replayClosed_bounded hcounted _
    · exact State.replayClosed_bounded hcounted _

theorem State.land_bounded {s : State} (h : BoundLaw s) (left : DeviceLeft) : BoundLaw (s.land left) := by
  unfold State.land
  split <;> exact h

/-- The end of an erase job leaves the journal's counts. -/
theorem State.eraseOver_bounded {s : State} (h : BoundLaw s) (band : Nat) :
    BoundLaw (s.mapJournal fun jc => jc.eraseOver band) := by
  refine h.journal ?_ ?_ <;> unfold Journal.eraseOver <;> dsimp only <;> split
  · exact h.stranded_le
  · exact h.stranded_le
  · exact h.anomalies_le
  · exact h.anomalies_le

theorem State.eraseDone_bounded {s : State} (h : BoundLaw s) (band : Nat) : BoundLaw (s.eraseDone band) := by
  have hcounted : BoundLaw (s.count fun c => { c with bandsErased := satInc c.bandsErased }) :=
    h.count fun c => by simp [CountsWithin, Counters.all, satInc_le]
  exact State.judgeTrigger_bounded (by exact State.eraseOver_bounded hcounted band)

theorem State.eraseFailed_bounded {s : State} (h : BoundLaw s) (band : Nat) : BoundLaw (s.eraseFailed band) :=
  State.judgeUsable_bounded (by exact State.eraseOver_bounded h band)

/-! ### The records of replay (R164 to R167) -/

theorem State.addAnomalies_bounded {s : State} (h : BoundLaw s) (k : Nat) : BoundLaw (s.addAnomalies k) :=
  h.journal h.stranded_le (satAdd_le _ _ _)

theorem State.replayEntry_bounded {s : State} (h : BoundLaw s) (seq : Nat) (r : JRecord) (old : Option Entry) :
    BoundLaw (s.replayEntry seq r old) := by
  unfold State.replayEntry
  split
  · exact State.addAnomalies_bounded h 1
  · split
    · exact State.addAnomalies_bounded h 1
    · exact h

theorem State.replayWhole_bounded {s : State} (h : BoundLaw s) (seq : Nat) (r : JRecord) : BoundLaw (s.replayWhole seq r) := by
  unfold State.replayWhole
  split
  · exact State.replayEntry_bounded h _ _ _
  · split
    · exact State.replayEntry_bounded h _ _ _
    · exact h

theorem State.replayDelete_bounded {s : State} (h : BoundLaw s) (r : JRecord) : BoundLaw (s.replayDelete r) := by
  unfold State.replayDelete
  split
  · split <;> exact h
  · exact h

theorem State.replayTail_bounded {s : State} (h : BoundLaw s) (r : JRecord) : BoundLaw (s.replayTail r) := by
  unfold State.replayTail
  split
  · exact h
  · dsimp only
    generalize (if r.loc = true then Scope.loc else Scope.shared) = scope
    split
    · exact h
    · exact State.addAnomalies_bounded h 1

theorem State.replayRecord_bounded {s : State} (h : BoundLaw s) (seq : Nat) (r : JRecord) : BoundLaw (s.replayRecord seq r) := by
  have hraised : BoundLaw { s with pt := s.pt.raiseH r.gen } := h
  unfold State.replayRecord
  split
  · exact State.addAnomalies_bounded h 1
  · dsimp only
    split
    · exact State.replayTail_bounded hraised r
    · split
      · exact State.replayDelete_bounded hraised r
      · exact State.replayWhole_bounded hraised seq r

theorem walkBand_bounded (fuel : Nat) {s : State} (h : BoundLaw s) (band seq : Nat) (closeEnd : Option Nat) (off : Nat) :
    BoundLaw (walkBand fuel s band seq closeEnd off).1 := by
  induction fuel generalizing s off with
  | zero => exact h
  | succ fuel ih =>
    unfold walkBand
    split
    · exact h
    · split
      · exact h
      · split
        · exact h
        · exact h
        · exact h
        · exact ih (State.replayRecord_bounded h _ _) _

theorem State.walkOne_bounded {s : State} (h : BoundLaw s) (r : Replay) (band : Nat) (todo : List Nat) :
    BoundLaw (s.walkOne r band todo) := by
  unfold State.walkOne
  dsimp only
  generalize (s.jc.seqOf band).getD 0 = seq
  generalize ((r.lens.find? fun l => l.1 = band).map fun l => Config.headerBytes + l.2) = closeEnd
  have hwalked := walkBand_bounded 320 h band seq closeEnd Config.headerBytes
  generalize walkBand 320 s band seq closeEnd Config.headerBytes = w at hwalked
  have hcounted := State.addAnomalies_bounded hwalked
    (endAnomalies (s.jc.newestOpen.map Prod.snd == some band) ((s.jc.bands[band]?).any fun x => x.state = .full) w.2.2)
  generalize w.1.addAnomalies _ = u at hcounted ⊢
  split
  · exact State.finishWalk_bounded (by exact hcounted)
  · exact hcounted

theorem State.endSurvey_bounded {s : State} (h : BoundLaw s) : BoundLaw s.endSurvey := by
  have hcounted := State.addAnomalies_bounded h (duplicates s.jc.walkOrder)
  unfold State.endSurvey
  dsimp only
  generalize s.addAnomalies (duplicates s.jc.walkOrder) = u at hcounted ⊢
  split
  · exact State.finishWalk_bounded (by exact hcounted)
  · exact hcounted

theorem State.surveyHeader_bounded {s : State} (h : BoundLaw s) (r : Replay) (i : Nat) : BoundLaw (s.surveyHeader r i) := by
  have hnext : ∀ u : State, BoundLaw u →
      BoundLaw (if i + 1 < bandCount u.straps then (u.setPhase (.survey (i + 1))).readOn else u.endSurvey) := by
    intro u hu
    split
    · exact hu
    · exact State.endSurvey_bounded hu
  unfold State.surveyHeader
  refine hnext _ (State.addAnomalies_bounded ?_ _)
  exact h

end Sys2Proof.Machine
end

section
/-! Every command, and so every step, keeps the bounds of the counts and the collections. -/

namespace Sys2Proof.Machine

/-- A command that goes on leaves the bounds holding. -/
def Bounds (o : Host.Outcome State Fault Refusal) : Prop := ∀ t, o = .next t → BoundLaw t

theorem Bounds.next {t : State} (h : BoundLaw t) : Bounds (.next t) := fun _ ht => Host.Outcome.next.inj ht ▸ h

theorem Bounds.running {s : State} (h : BoundLaw s) {k : State → State} (hk : BoundLaw (k s)) : Bounds (whenRunning s k) := by
  rcases whenRunning_cases s k with hw | hw <;> rw [hw]
  · exact .next hk
  · exact .next h

/-! ### The commands of the host (chapter 11) -/

theorem Reply.settle_bounded {k : Reply} (h : BoundLaw k.after) (code tag : Byte) : BoundLaw (k.settle code tag) := by
  cases k <;> exact h

/-- What the body of a command keeps, the command keeps: its slot and its transaction have no bound. -/
theorem Bounds.command {s : State} (h : BoundLaw s) {code : Byte} {b : Block} {body : List Byte → State → Reply}
    (hbody : ∀ p u, BoundLaw u → BoundLaw (body p u).after) : Bounds (sendCommand code b body s) := by
  refine .running h ?_
  unfold State.judgeBlock
  dsimp only
  split
  · exact h
  · split
    · exact h
    · exact Reply.settle_bounded (hbody _ _ (by exact h)) _ _

/-- A command that fails the tests 1 and 2 of R186 changes no state. -/
theorem tested_bounded {inReplay fits : Bool} {s : State} (h : BoundLaw s) {k : Reply} (hk : BoundLaw k.after) :
    BoundLaw (tested inReplay fits s k).after := by
  unfold tested
  split
  · exact h
  · split
    · exact h
    · exact hk

theorem setupBody_bounded (p : List Byte) {s : State} (h : BoundLaw s) : BoundLaw (setupBody p s).after := by
  refine tested_bounded h ?_
  split <;> exact h

theorem State.openStation_bounded {s : State} (h : BoundLaw s) : BoundLaw s.openStation := by
  have hopened : BoundLaw { s with re := { s.re with roster := s.re.roster.map Peer.opened } } :=
    h.roster (List.length_map ..)
  unfold State.openStation
  exact State.judge_bounded (by exact hopened)

theorem openBody_bounded (p : List Byte) {s : State} (h : BoundLaw s) : BoundLaw (openBody p s).after := by
  refine tested_bounded h ?_
  split
  · exact h
  · split
    · exact h
    · exact State.openStation_bounded h

theorem State.startClosing_bounded {s : State} (h : BoundLaw s) : BoundLaw s.startClosing := by
  have hleft := State.emptyReplies_bounded (State.abandonSession_bounded h)
  unfold State.startClosing
  dsimp only
  generalize s.abandonSession.emptyReplies = u at hleft ⊢
  exact State.judge_bounded (by exact hleft)

theorem State.closeMuted_bounded {s : State} (h : BoundLaw s) : BoundLaw s.closeMuted := by
  unfold State.closeMuted
  exact State.judge_bounded (by exact h)

theorem closeBody_bounded (p : List Byte) {s : State} (h : BoundLaw s) : BoundLaw (closeBody p s).after := by
  refine tested_bounded h ?_
  split
  · exact State.startClosing_bounded h
  · exact State.startClosing_bounded h
  · exact State.closeMuted_bounded h
  · exact h
  · exact h
  · exact h

theorem putBody_bounded (p : List Byte) {s : State} (h : BoundLaw s) : BoundLaw (putBody p s).after := by
  refine tested_bounded h ?_
  split
  · exact h
  · split
    · exact h
    · exact State.localPut_bounded h _ _ _

theorem removeBody_bounded (p : List Byte) {s : State} (h : BoundLaw s) : BoundLaw (removeBody p s).after := by
  refine tested_bounded h ?_
  split
  · exact h
  · split
    · exact h
    · exact State.localRemove_bounded h _

theorem getBody_bounded (p : List Byte) {s : State} (h : BoundLaw s) : BoundLaw (getBody p s).after := by
  refine tested_bounded h ?_
  split
  · exact h
  · split <;> exact h

theorem listBody_bounded (p : List Byte) {s : State} (h : BoundLaw s) : BoundLaw (listBody p s).after := by
  refine tested_bounded h ?_
  split <;> exact h

theorem watchBody_bounded (p : List Byte) {s : State} (h : BoundLaw s) : BoundLaw (watchBody p s).after := by
  refine tested_bounded h ?_
  split
  · exact h
  · split
    · exact h
    · split <;> exact h

theorem flushBody_bounded (p : List Byte) {s : State} (h : BoundLaw s) : BoundLaw (flushBody p s).after := by
  refine tested_bounded h ?_
  split
  · exact h
  · split <;> exact h

theorem countersBody_bounded (p : List Byte) {s : State} (h : BoundLaw s) : BoundLaw (countersBody p s).after := by
  refine tested_bounded h ?_
  show BoundLaw (if num p 0 1 = 1 then s.count fun _ => .zero else s)
  split
  · exact h.count fun c => by simp [CountsWithin, Counters.all, Counters.zero]
  · exact h

/-! ### The Command Port (chapter 11) -/

theorem State.restRead_bounded {s : State} (h : BoundLaw s) (n : Nat) : BoundLaw (s.restRead n) := by
  unfold State.restRead
  split
  · dsimp only
    split <;> exact h
  · exact h

theorem State.restPop_bounded {s : State} (h : BoundLaw s) (n : Nat) : BoundLaw (s.restPop n) := by
  unfold State.restPop
  split <;> exact h

theorem execReadStatus_bounds (r : StatusRead) {s : State} (h : BoundLaw s) : Bounds (execReadStatus r s) := by
  refine .running h ?_
  split
  · exact h
  · split <;> exact h

theorem execOtherTransactionCode_bounds (c : OtherCode) {s : State} (h : BoundLaw s) : Bounds (execOtherTransactionCode c s) := by
  refine .running h ?_
  split <;> exact h

theorem execRestart_bounds (n : Nat) {s : State} (h : BoundLaw s) : Bounds (execRestart n s) := by
  refine .running h ?_
  dsimp only
  split <;> exact h

theorem execReadResponse_bounds (p : Portion) {s : State} (h : BoundLaw s) : Bounds (execReadResponse p s) := by
  refine .running h ?_
  split
  · exact State.restRead_bounded (s := s.startRead) h _
  · exact h
  · exact State.restRead_bounded h _

theorem execPopEvent_bounds (p : Portion) {s : State} (h : BoundLaw s) : Bounds (execPopEvent p s) := by
  refine .running h ?_
  split
  · exact State.restPop_bounded (s := s.startPop) h _
  · exact h
  · exact State.restPop_bounded h _

theorem execFlushComplete_bounds {s : State} (h : BoundLaw s) : Bounds (execFlushComplete s) := by
  refine .running h ?_
  split
  · exact State.completeLong_bounded h _ _
  · exact State.settleFlush_bounded h

/-! ### Own frames (chapter 4) -/

theorem execFrameStart_bounds (line : Level) {s : State} (h : BoundLaw s) : Bounds (execFrameStart line s) := by
  refine .running h ?_
  split
  · next cls d _ =>
    split
    · have hpassed := State.passLine_bounded h (s.gap cls - s.li.quiet)
      cases line with
      | dominant => exact State.deferStart_bounded hpassed
      | recessive => exact State.startDemand_bounded hpassed cls d
    · exact h
  · exact h

theorem execFrameComplete_bounds {s : State} (h : BoundLaw s) : Bounds (execFrameComplete s) := by
  refine .running h ?_
  split
  · split
    · exact h
    · exact State.demandCompleted_bounded (State.frameSent_bounded h _) _
  · exact h

theorem execWithdrawal_bounds (bit : Nat) {s : State} (h : BoundLaw s) : Bounds (execWithdrawal bit s) := by
  refine .running h ?_
  split
  · next f _ =>
    split
    · have hpassed := State.passLine_bounded h (bit - f.elapsed)
      dsimp only
      generalize s.passLine (bit - f.elapsed) = u at hpassed ⊢
      have hlost : BoundLaw (State.count { u with
          li := { u.li with
            receiver := u.li.receiver.disown, quiet := 0, stuck := 0, stuckDeclared := false, line := .dominant
            flight := none } } fun c => { c with contentionLosses := satInc c.contentionLosses }) :=
        (hpassed.line (Nat.zero_le _)).count fun c => by simp [CountsWithin, Counters.all, satInc_le]
      split
      · exact State.judge_bounded (by exact hlost)
      · exact hlost
    · exact h
  · exact h

theorem execDriveFault_bounds (bit : Nat) {s : State} (h : BoundLaw s) : Bounds (execDriveFault bit s) := by
  refine .running h ?_
  split
  · next f _ =>
    split
    · have hpassed := State.passLine_bounded h (bit - f.elapsed)
      dsimp only
      generalize s.passLine (bit - f.elapsed) = u at hpassed ⊢
      have hcut := State.frameUndone_bounded (hpassed.line (li := { u.li with
        receiver := .seeking, quiet := 0, stuck := 0, stuckDeclared := false, line := .recessive, flight := none })
        (Nat.zero_le _)) f
      split
      · exact State.probeCut_bounded hcut
      · exact State.takeCause_bounded hcut _
    · exact h
  · exact h

/-! ### Recovery (R69, R82 to R84) -/

theorem execProbeDue_bounds {s : State} (h : BoundLaw s) : Bounds (execProbeDue s) := by
  refine .running h ?_
  split
  · next t _ _ =>
    split
    · exact h
    · have hpassed := State.passUntil_bounded h t (1000 * s.ac.wait)
      exact hpassed.access hpassed.wait_mem
  · exact h

theorem execProbeStart_bounds (line : Level) {s : State} (h : BoundLaw s) : Bounds (execProbeStart line s) := by
  have hpassed := State.passLine_bounded h (Config.probeGap - s.li.quiet)
  refine .running h ?_
  split
  · cases line with
    | dominant => exact State.deferStart_bounded hpassed
    | recessive => exact State.launch_bounded (s := State.useSequence _) hpassed _ _ _ _
  · exact h

theorem execProbeComplete_bounds {s : State} (h : BoundLaw s) : Bounds (execProbeComplete s) := by
  refine .running h ?_
  split
  · split
    · exact State.judge_bounded (State.recover_bounded (State.demandCompleted_bounded (State.frameSent_bounded h _) _))
    · exact h
  · exact h

/-! ### The receiver (chapter 3) -/

theorem execStartBit_bounds (c : LineChange) {s : State} (h : BoundLaw s) : Bounds (execStartBit c s) := by
  have hchanged := LineIf.change_quiet_le h.quiet_le c
  refine .running h ?_
  split
  · exact h
  · exact h.line (li := { s.li.change c with receiver := idleAfter c }) hchanged
  · exact h.line hchanged
  · exact h.line hchanged
  · exact h

theorem execFrameReceived_bounds (chars : List Byte) {s : State} (h : BoundLaw s) : Bounds (execFrameReceived chars s) := by
  refine .running h ?_
  split
  · next e _ =>
    split
    · exact State.testFrame_bounded (State.seekQuiet_bounded (State.passLine_bounded h (10 * chars.length - 1 - e))
        ((trailingRecessive_le _).trans (by decide))) chars
    · exact h
  · exact h

theorem execFramingError_bounds (d : DominantStop) {s : State} (h : BoundLaw s) : Bounds (execFramingError d s) := by
  refine .running h ?_
  split
  · next e _ =>
    split
    · exact State.countFraming_bounded ((State.passLine_bounded h (d.bit - e)).line (Nat.zero_le _))
    · exact h
  · exact h

theorem execFormatError_bounds (char4 : Byte) {s : State} (h : BoundLaw s) : Bounds (execFormatError char4 s) := by
  refine .running h ?_
  split
  · next e _ =>
    split
    · refine BoundLaw.count ?_ fun c => by simp [CountsWithin, Counters.all, satInc_le]
      exact State.seekQuiet_bounded (State.passLine_bounded h (49 - e)) ((trailingRecessive_le _).trans (by decide))
    · exact h
  · exact h

theorem execGapError_bounds (quiet : Nat) {s : State} (h : BoundLaw s) : Bounds (execGapError quiet s) := by
  refine .running h ?_
  split
  · next e _ =>
    split
    · next hq =>
      obtain ⟨-, hq⟩ := hq
      exact State.countFraming_bounded (State.seekQuiet_bounded (State.passLine_bounded h (13 - e)) hq)
    · exact h
  · exact h

theorem execReceiverIdle_bounds {s : State} (h : BoundLaw s) : Bounds (execReceiverIdle s) := by
  refine .running h ?_
  split
  · have hreleased : BoundLaw { s with li := s.li.change .release } := h.line (LineIf.change_quiet_le h.quiet_le _)
    have hpassed := State.passLine_bounded hreleased (Config.idleQuiet - (s.li.change .release).quiet)
    dsimp only
    generalize State.passLine _ _ = u at hpassed ⊢
    exact hpassed.line hpassed.quiet_le
  · exact h

theorem execStuckDeclaration_bounds {s : State} (h : BoundLaw s) : Bounds (execStuckDeclaration s) := by
  refine .running h ?_
  split
  · have hpassed := State.passLine_bounded h (Config.stuckLimit - s.li.stuck)
    dsimp only
    generalize s.passLine (Config.stuckLimit - s.li.stuck) = u at hpassed ⊢
    exact State.takeCause_bounded (by exact hpassed) _
  · exact h

/-! ### Frames taken and the timers (chapter 5) -/

theorem execTakeFrame_bounds {s : State} (h : BoundLaw s) : Bounds (execTakeFrame s) := by
  refine .running h ?_
  split
  · next chars rest hbuf =>
    split
    · exact h
    · have hleft : BoundLaw { s with re := { s.re with rxBuffer := rest } } := by
        obtain ⟨hroster, hbuffer, hqueue, hwant⟩ := h.replication_bounds
        rw [hbuf, List.length_cons] at hbuffer
        exact h.replication (re := { s.re with rxBuffer := rest }) hroster (Nat.le_of_succ_le hbuffer) hqueue hwant
      dsimp only
      split
      · exact State.judge_bounded (State.actOn_bounded hleft _)
      · exact hleft
  · exact h

theorem execReplyTimeout_bounds {s : State} (h : BoundLaw s) : Bounds (execReplyTimeout s) := by
  refine .running h ?_
  dsimp only
  split
  · exact State.sessionTimeout_bounded (State.passLine_bounded h _)
  · exact h

theorem execSummaryTimerExpiry_bounds {s : State} (h : BoundLaw s) : Bounds (execSummaryTimerExpiry s) := by
  refine .running h ?_
  split
  · next t _ =>
    have hpassed := State.passUntil_bounded h t (100 * s.cp.setup.interval)
    exact hpassed
  · exact h

theorem execJoinWindowExpiry_bounds {s : State} (h : BoundLaw s) : Bounds (execJoinWindowExpiry s) := by
  refine .running h ?_
  split
  · exact State.judge_bounded (State.endJoinWindow_bounded (State.passUntil_bounded h _ _))
  · exact h

theorem execCloseLimitExpiry_bounds {s : State} (h : BoundLaw s) : Bounds (execCloseLimitExpiry s) := by
  refine .running h ?_
  split
  · exact State.judge_bounded (State.endClosing_bounded (State.passUntil_bounded h _ _) _)
  · exact h

theorem State.passSilence_bounded {s : State} (h : BoundLaw s) (p : Peer) (ms : Nat) : BoundLaw (s.passSilence p ms) := by
  unfold State.passSilence
  split
  · exact State.passUntil_bounded h _ _
  · exact h

theorem execPeerLost_bounds (n : Nat) {s : State} (h : BoundLaw s) : Bounds (execPeerLost n s) := by
  refine .running h ?_
  dsimp only
  split
  · have hsilent := State.updatePeer_bounded (State.passSilence_bounded h (s.peer n) (400 * s.intervalOf (s.peer n))) n
      fun p => { p with presence := .silent }
    have hdropped := State.dropRequest_bounded (s := State.notify _ .peerLost n) hsilent n
    refine State.judge_bounded ?_
    split
    · exact State.searchSession_bounded (State.abandonSession_bounded hdropped)
    · exact hdropped
  · exact h

theorem execPeerAbsent_bounds (n : Nat) {s : State} (h : BoundLaw s) : Bounds (execPeerAbsent n s) := by
  refine .running h ?_
  dsimp only
  split
  · exact State.judge_bounded (State.updatePeer_bounded (State.passSilence_bounded h _ _) _ _)
  · exact h

/-! ### The journal and the Storage Port (chapters 8 to 10) -/

theorem execAppend_bounds {s : State} (h : BoundLaw s) : Bounds (execAppend s) := by
  refine .running h ?_
  split
  · split
    · exact State.beginWrite_bounded h _
    · exact h
  · exact h

theorem execCopy_bounds {s : State} (h : BoundLaw s) : Bounds (execCopy s) := by
  refine .running h ?_
  split
  · split
    · split
      · dsimp only
        split
        · exact State.enterFault_bounded h
        · exact State.beginWrite_bounded h _
      · exact h
    · exact h
  · exact h

theorem execErase_bounds {s : State} (h : BoundLaw s) : Bounds (execErase s) := by
  refine .running h ?_
  split
  · split <;> exact h
  · exact h

theorem execHeaderSurvey_bounds {s : State} (h : BoundLaw s) : Bounds (execHeaderSurvey s) := by
  refine .running h ?_
  split
  · split
    · split
      · exact State.surveyHeader_bounded h _ _
      · exact h
    · exact h
  · exact h

theorem execBandWalk_bounds {s : State} (h : BoundLaw s) : Bounds (execBandWalk s) := by
  refine .running h ?_
  split
  · split
    · split
      · exact State.walkOne_bounded h _ _ _
      · exact h
    · exact h
  · exact h

theorem execProgramNotBusy_bounds (left : DeviceLeft) {s : State} (h : BoundLaw s) : Bounds (execProgramNotBusy left s) := by
  have hlanded := State.land_bounded h left
  refine .running h ?_
  split
  · split
    · exact hlanded
    · exact h
  · split
    · exact hlanded
    · exact h
  · exact h

theorem execProgramVerify_bounds {s : State} (h : BoundLaw s) : Bounds (execProgramVerify s) := by
  have hended : BoundLaw s.endCommand := h
  refine .running h ?_
  split
  · split
    · exact State.programDone_bounded hended _
    · exact State.programFailed_bounded hended _
  · exact h

/-- A program or an erase that has not ended in its time. -/
theorem State.timedOut_bounded {s : State} (h : BoundLaw s) (t limit : Nat) (left : DeviceLeft) :
    BoundLaw ((s.passUntil t limit).land left).endCommand := by
  have hlanded := State.land_bounded (State.passUntil_bounded h t limit) left
  exact hlanded

theorem execProgramTimeout_bounds (left : DeviceLeft) {s : State} (h : BoundLaw s) : Bounds (execProgramTimeout left s) := by
  refine .running h ?_
  split
  · exact State.programFailed_bounded (State.timedOut_bounded h _ _ _) _
  · exact h

theorem execEraseCheck_bounds {s : State} (h : BoundLaw s) : Bounds (execEraseCheck s) := by
  have hended : BoundLaw s.endCommand := h
  refine .running h ?_
  split
  · split
    · exact State.eraseDone_bounded hended _
    · exact State.eraseFailed_bounded hended _
  · exact h

theorem execEraseTimeout_bounds (left : DeviceLeft) {s : State} (h : BoundLaw s) : Bounds (execEraseTimeout left s) := by
  refine .running h ?_
  split
  · exact State.eraseFailed_bounded (State.timedOut_bounded h _ _ _) _
  · exact h

theorem execLreqAsserted_bounds {s : State} (h : BoundLaw s) : Bounds (execLreqAsserted s) := by
  unfold execLreqAsserted
  split
  · exact .next h
  · dsimp only
    split
    · refine .next ?_
      split
      · exact State.grantWaiting_bounded (by exact h)
      · exact h
    · exact .next h

theorem execLendGrant_bounds {s : State} (h : BoundLaw s) : Bounds (execLendGrant s) := by
  refine .running h ?_
  split
  · exact State.grantWaiting_bounded h
  · exact h

theorem execLreqDeasserted_bounds (host : List Host.Cell) {s : State} (h : BoundLaw s) : Bounds (execLreqDeasserted host s) := by
  unfold execLreqDeasserted
  split
  · dsimp only
    split
    · refine .next ?_
      split
      · exact State.resume_bounded (by exact h)
      · exact h
    · exact .next h
    · exact .next h
  · exact .next h

/-- A lend granted is counted up to the limit of the counts (R177). -/
theorem State.grantHeld_bounded {s : State} (h : BoundLaw s) : BoundLaw s.grantHeld := h.port (satInc_le _)

theorem execBusyCheckEnd_bounds {s : State} (h : BoundLaw s) : Bounds (execBusyCheckEnd s) := by
  have hover : BoundLaw s.checkOver := h
  refine .running h ?_
  split
  · exact h
  · split
    · split
      · exact State.grantHeld_bounded hover
      · exact State.resume_bounded hover
    · exact h
  · exact h

theorem execBusyCheckTimeout_bounds {s : State} (h : BoundLaw s) : Bounds (execBusyCheckTimeout s) := by
  refine .running h ?_
  split
  · exact h
  · next t _ _ =>
    have hpassed := State.passUntil_bounded h t Config.eraseLimit
    have hover : BoundLaw (s.passUntil t Config.eraseLimit).checkOver := hpassed
    dsimp only
    generalize (s.passUntil t Config.eraseLimit).checkOver = u at hover ⊢
    have hfault : BoundLaw (if u.jc.fault then u else u.fail) := by
      split
      · exact hover
      · exact State.fail_bounded hover
    generalize (if u.jc.fault then u else u.fail) = v at hfault ⊢
    split
    · exact State.grantHeld_bounded hfault
    · exact hfault
  · exact h

/-! ### Resets (chapter 9) -/

theorem State.reset_bounded : BoundLaw .reset := by
  unfold BoundLaw
  decide

theorem State.cleared_bounded (s : State) (p : Power) (flash : List Host.Cell) : BoundLaw (s.cleared p flash) :=
  State.reset_bounded

theorem State.startUp_bounded {s : State} (h : BoundLaw s) (straps : Straps) : BoundLaw (s.startUp straps) := by
  unfold State.startUp
  dsimp only
  split
  · exact BoundLaw.port (s := { s with power := .running, straps := straps }) h (satInc_le _)
  · exact h

theorem execPinReset_bounds (left : DeviceLeft) (host : List Host.Cell) {s : State} (h : BoundLaw s) :
    Bounds (execPinReset left host s) := by
  unfold execPinReset
  split
  · exact .next h
  · exact .next (s.cleared_bounded _ _)

theorem execResetRelease_bounds (straps : Straps) {s : State} (h : BoundLaw s) : Bounds (execResetRelease straps s) := by
  unfold execResetRelease
  split
  · exact .next h
  · exact .next (State.startUp_bounded (s.cleared_bounded _ _) _)

theorem execRestartTakesEffect_bounds (straps : Straps) (host : List Host.Cell) {s : State} (h : BoundLaw s) :
    Bounds (execRestartTakesEffect straps host s) := by
  refine .running h ?_
  split
  · exact State.startUp_bounded (s.cleared_bounded _ _) _
  · exact h

theorem execLossOfSupply_bounds (left : DeviceLeft) (host : List Host.Cell) {s : State} (h : BoundLaw s) :
    Bounds (execLossOfSupply left host s) := by
  unfold execLossOfSupply
  split
  · exact .next h
  · exact .next (s.cleared_bounded _ _)

/-! ### Every step -/

theorem exec_bounds (i : Instr) {s : State} (h : BoundLaw s) : Bounds (exec i s) := by
  cases i with
  | pinReset left host => exact execPinReset_bounds left host h
  | resetRelease straps => exact execResetRelease_bounds straps h
  | restart n => exact execRestart_bounds n h
  | restartTakesEffect straps host => exact execRestartTakesEffect_bounds straps host h
  | readStatus r => exact execReadStatus_bounds r h
  | otherTransactionCode c => exact execOtherTransactionCode_bounds c h
  | commandBlockAborted bytes => exact .running h (k := fun s => s.statusOnly bytes.length) h
  | unknownCommand code b => exact .command h fun _ _ hu => hu
  | readResponse p => exact execReadResponse_bounds p h
  | popEvent p => exact execPopEvent_bounds p h
  | cmdStatus b => exact .command h fun _ _ hu => tested_bounded hu hu
  | cmdSetup b => exact .command h fun p _ => setupBody_bounded p
  | cmdOpen b => exact .command h fun p _ => openBody_bounded p
  | cmdClose b => exact .command h fun p _ => closeBody_bounded p
  | cmdPut b => exact .command h fun p _ => putBody_bounded p
  | cmdRemove b => exact .command h fun p _ => removeBody_bounded p
  | cmdGet b => exact .command h fun p _ => getBody_bounded p
  | cmdList b => exact .command h fun p _ => listBody_bounded p
  | cmdWatch b => exact .command h fun p _ => watchBody_bounded p
  | cmdFlush b => exact .command h fun p _ => flushBody_bounded p
  | flushComplete => exact execFlushComplete_bounds h
  | cmdJournalInfo b => exact .command h fun _ _ hu => tested_bounded hu hu
  | cmdRoster b => exact .command h fun _ _ hu => tested_bounded hu hu
  | cmdCounters b => exact .command h fun p _ => countersBody_bounded p
  | frameStart line => exact execFrameStart_bounds line h
  | frameComplete => exact execFrameComplete_bounds h
  | withdrawal bit => exact execWithdrawal_bounds bit h
  | driveFault bit => exact execDriveFault_bounds bit h
  | probeDue => exact execProbeDue_bounds h
  | probeStart line => exact execProbeStart_bounds line h
  | probeComplete => exact execProbeComplete_bounds h
  | frameReceived chars => exact execFrameReceived_bounds chars h
  | framingError d => exact execFramingError_bounds d h
  | formatError char4 => exact execFormatError_bounds char4 h
  | gapError quiet => exact execGapError_bounds quiet h
  | receiverIdle => exact execReceiverIdle_bounds h
  | stuckDeclaration => exact execStuckDeclaration_bounds h
  | takeFrame => exact execTakeFrame_bounds h
  | replyTimeout => exact execReplyTimeout_bounds h
  | summaryTimerExpiry => exact execSummaryTimerExpiry_bounds h
  | joinWindowExpiry => exact execJoinWindowExpiry_bounds h
  | closeLimitExpiry => exact execCloseLimitExpiry_bounds h
  | peerLost n => exact execPeerLost_bounds n h
  | peerAbsent n => exact execPeerAbsent_bounds n h
  | append => exact execAppend_bounds h
  | copy => exact execCopy_bounds h
  | erase => exact execErase_bounds h
  | programNotBusy left => exact execProgramNotBusy_bounds left h
  | programVerify => exact execProgramVerify_bounds h
  | programTimeout left => exact execProgramTimeout_bounds left h
  | eraseCheck => exact execEraseCheck_bounds h
  | eraseTimeout left => exact execEraseTimeout_bounds left h
  | lreqAsserted => exact execLreqAsserted_bounds h
  | lendGrant => exact execLendGrant_bounds h
  | lreqDeasserted host => exact execLreqDeasserted_bounds host h
  | busyCheckEnd => exact execBusyCheckEnd_bounds h
  | busyCheckTimeout => exact execBusyCheckTimeout_bounds h
  | headerSurvey => exact execHeaderSurvey_bounds h
  | bandWalk => exact execBandWalk_bounds h
  | startBit c => exact execStartBit_bounds c h
  | lossOfSupply left host => exact execLossOfSupply_bounds left host h

theorem step_bounds {s : State} (h : BoundLaw s) : Bounds (step s) := by
  unfold step
  split
  · exact .next (State.passLine_bounded h 1)
  · exact exec_bounds _ (by exact h)

/-- Settles O10, command by command: a count saturates at its limit, and what enters a list of limited length enters where there
is room. -/
theorem boundLawKept : Obligations.BoundLawKept := fun _ t ht h => step_bounds h t ht

end Sys2Proof.Machine
end

section
/-! The gaps of the classes, and the instant at which a frame of a class goes out. -/

namespace Sys2Proof.Machine

/-! ### The gaps (R71) -/

/-- Straps that are not all low give a station number of at least 1. -/
theorem stationNumber_pos {st : Straps} (h : st.sn ≠ 0) : 1 ≤ st.sn.toNat :=
  Nat.one_le_iff_ne_zero.mpr fun h0 => h (BitVec.eq_of_toNat_eq h0)

/-- The gap of class C, with and without the post-send rest (R71, R79). -/
theorem State.gap_c_cases (s : State) :
    (s.ac.rest = true → s.gap .c = 100 + 2 * s.straps.sn.toNat)
    ∧ (s.ac.rest = false → s.gap .c = 36 + 2 * s.straps.sn.toNat) := by
  have hgap : s.gap .c = 36 + 2 * s.straps.sn.toNat + if s.ac.rest then 64 else 0 := rfl
  refine ⟨fun h => ?_, fun h => ?_⟩
  · rw [hgap, h, if_pos rfl]
    omega
  · rw [hgap, h]
    rfl

/-- Line time adds to the clock as many bit times (0.6). -/
theorem State.passLine_clock {s : State} (hp : s.power = .running) (n : Nat) :
    1000 * (s.passLine n).clk.now + (s.passLine n).clk.us
      = 1000 * s.clk.now + s.clk.us + n * (16 / 2 ^ s.straps.lr.toNat) := by
  have hclk : (s.passLine n).clk = { now := s.clk.now + msIn s n, us := (s.clk.us + n * bitTime s.straps) % 1000 } := by
    rw [State.passLine, if_pos hp]
    rfl
  have hsplit := Nat.div_add_mod (s.clk.us + n * bitTime s.straps) 1000
  rw [hclk]
  show 1000 * (s.clk.now + (s.clk.us + n * bitTime s.straps) / 1000) + (s.clk.us + n * bitTime s.straps) % 1000
    = _ + n * bitTime s.straps
  omega

/-! ### The first bit of any frame (R62, R72) -/

/-- `t` is `s` at the first bit of the frame `f`, as far as the line and the clock go. -/
def Launched (s t : State) (f : Flight) : Prop :=
  f.elapsed = 0 ∧ t.clk = s.clk
    ∧ t.li = { receiver := .receiving true 0, quiet := 0, stuck := 0, stuckDeclared := false, line := .dominant
               flight := some f }

/-- The first bit of a frame, whatever the frame. -/
theorem State.launch_launched (s : State) (F : Frame) (cls : GapClass) (probe : Bool) (cargo : Cargo) :
    Launched s (s.launch F cls probe cargo) { chars := F.chars, elapsed := 0, cls := cls, probe := probe, cargo := cargo } :=
  ⟨rfl, rfl, rfl⟩

/-- An UPDATE of the outbound list that starts is a frame of its class. -/
theorem State.launchUpdate_launched (s : State) (cls : GapClass) (m : Mark) :
    ∃ f, f.cls = cls ∧ Launched s (s.launchUpdate cls m) f := by
  rw [State.launchUpdate_eq]
  generalize hw : s.updateLaunched cls m _ = w
  have hline := (State.judge_judged w).line
  have hclk : w.judge.clk = w.clk := by rw [w.judge_frame]
  subst hw
  exact ⟨_, rfl, rfl, hclk, hline⟩

/-- The start of a demand sends a frame of the demand's class; a reply with none waiting, nothing. -/
theorem State.startDemand_launched (s : State) (cls : GapClass) (d : Demand) :
    s.startDemand cls d = s ∨ ∃ f, f.cls = cls ∧ Launched s (s.startDemand cls d) f := by
  cases d with
  | reply =>
    simp only [State.startDemand]
    split
    · exact .inl rfl
    · exact .inr ⟨_, rfl, s.launch_launched _ cls false _⟩
  | push => exact .inr (s.launchUpdate_launched cls .push)
  | newUpdate => exact .inr (s.launchUpdate_launched cls .new)
  | repair => exact .inr ⟨_, rfl, s.useSequence.launch_launched _ cls false _⟩
  | summary => exact .inr ⟨_, rfl, s.useSequence.launch_launched _ cls false _⟩
  | leave => exact .inr ⟨_, rfl, s.useSequence.launch_launched _ cls false _⟩

/-- A frame that FRAME_START puts on the line goes out at the gap of its class, from a free line. -/
theorem exec_frameStart_launched {s t : State} {f : Flight} (hnone : s.li.flight = none)
    (hexec : exec (.frameStart .recessive) s = .next t) (hf : t.li.flight = some f) :
    s.power = .running ∧ s.lineFree = true ∧ Launched (s.passLine (s.gap f.cls - s.li.quiet)) t f := by
  have hmoved : t ≠ s := by
    rintro rfl
    simp [hnone] at hf
  have hp : s.power = .running := by
    by_contra hp
    have hstop : execFrameStart .recessive s = .next s := whenRunning_stopped hp _
    exact hmoved (Host.Outcome.next.inj (hexec.symm.trans hstop))
  have hdemand : ¬ (s.nextDemand = none ∨ s.lineFree = false) := fun h =>
    hmoved (Host.Outcome.next.inj (hexec.symm.trans (exec_frameStart_none h .recessive)))
  rw [not_or, Bool.not_eq_false] at hdemand
  obtain ⟨hdemand, hfree⟩ := hdemand
  obtain ⟨⟨cls, d⟩, hd⟩ := Option.ne_none_iff_exists'.mp hdemand
  obtain rfl := Host.Outcome.next.inj (hexec.symm.trans (exec_frameStart hp hd hfree).2)
  have hidle := (s.lineFree_iff.mp hfree).2.1
  rcases (s.passLine (s.gap cls - s.li.quiet)).startDemand_launched cls d with hstill | ⟨g, rfl, hg⟩
  · rw [hstill, State.passLine_counts hp (.inr hidle)] at hf
    simp [hnone] at hf
  · obtain ⟨-, -, hli⟩ := id hg
    obtain rfl : g = f := by simpa [hli] using hf
    exact ⟨hp, hfree, hg⟩

/-- Settles O35: the gaps by their definition, and a frame that started is one launched at its gap. -/
theorem gapsOfTheClasses : Obligations.GapsOfTheClasses := by
  intro s
  have hle : s.straps.sn.toNat ≤ 31 := stationNumber_le s.straps
  obtain ⟨hrest, hclear⟩ := s.gap_c_cases
  have hab : s.gap .a = 12 ∧ s.gap .b = 24 := ⟨rfl, rfl⟩
  have hc : 36 ≤ s.gap .c ∧ s.gap .c ≤ 162 := by
    cases h : s.ac.rest with
    | true => rw [hrest h]; omega
    | false => rw [hclear h]; omega
  refine ⟨rfl, rfl, rfl, by omega, by omega, by omega, by omega, fun hsn h => ?_, fun h => ?_,
    fun f t hnone hline hq hexec hf => ?_⟩
  · have := stationNumber_pos hsn
    rw [hrest h]
    omega
  · rw [hclear h]
    omega
  · obtain ⟨hp, hfree, helapsed, hclk, hli⟩ := exec_frameStart_launched hnone hexec hf
    refine ⟨State.passLine_gap hp hfree hline hq f.cls, ?_, helapsed, hli⟩
    rw [hclk]
    exact State.passLine_clock hp _

end Sys2Proof.Machine
end

section
/-! The ends of a station's part in repair: what MUTED and CLOSE leave of the session, the replies and the frame in flight. -/

namespace Sys2Proof.Machine

/-! ### The session abandoned and the replies dropped (R80, R93, R121, R128) -/

/-- The state with the session abandoned, this roster in place, and no reply queued; a frame in flight runs on for neither. -/
def State.repairLeft (s : State) (roster : List Peer) : State :=
  { s with
    re := { s.re with
      session := if s.re.session.state = .idle then s.re.session else .cleared, roster := roster, replyQueue := [] }
    li := { s.li with flight := s.li.flight.map (Flight.left (!decide (s.re.session.state = .idle)) true) } }

/-- A frame in flight of neither session nor queue: its request is awaited only where no session was open, and its reply serves
nothing. -/
theorem Flight.left_repair (f : Flight) (idle : Bool) : f.left (!idle) true = { f with cargo := match f.cargo with
    | .request awaited => .request (awaited && idle)
    | .reply _ ends moved => .reply false ends moved
    | cargo => cargo } := by
  obtain ⟨chars, elapsed, cls, probe, cargo⟩ := f
  cases cargo <;> simp [Flight.left]

/-- The roster after a session is abandoned: its buckets are back with its peer. -/
def RosterGivenBack (s : State) (roster : List Peer) : Prop :=
  (s.re.session.state = .idle → roster = s.re.roster)
  ∧ (s.re.session.state ≠ .idle → 1 ≤ s.re.session.peer →
      roster = s.re.roster.modify (s.re.session.peer - 1) fun p =>
        { p with mask := p.mask ||| bucketSet s.re.session.buckets, wanted := true })

/-- The presence and the agreement of a roster entry, which the convergence condition reads (R106). -/
def Peer.standing (p : Peer) : Presence × Agreement := (p.presence, p.agreement)

/-- The emptying of the reply queue leaves the frame in flight without a request to serve. -/
theorem State.emptyReplies_eq (s : State) : s.emptyReplies = { s with
    re := { s.re with replyQueue := [] }, li := { s.li with flight := s.li.flight.map (Flight.left false true) } } := by
  unfold State.emptyReplies State.orphanReply State.setReplies
  rw [funext Flight.orphan_left]

/-- All that MUTED and CLOSE do to the station's part in repair. -/
theorem State.abandon_emptyReplies (s : State) : ∃ roster, s.abandonSession.emptyReplies = s.repairLeft roster
      ∧ RosterGivenBack s roster ∧ roster.map Peer.standing = s.re.roster.map Peer.standing := by
  by_cases hidle : s.re.session.state = .idle
  · refine ⟨s.re.roster, ?_, ⟨fun _ => rfl, fun h => absurd hidle h⟩, rfl⟩
    rw [State.abandonSession, if_pos hidle, State.emptyReplies_eq, State.repairLeft, if_pos hidle]
    simp [hidle]
  · refine ⟨s.giveBack.re.roster, ?_, ⟨fun h => absurd h hidle, fun _ hpeer => ?_⟩, ?_⟩
    · have hback : s.giveBack = { s with re := { s.re with roster := s.giveBack.re.roster } } := s.updatePeer_eq _ _
      rw [State.abandonSession, if_neg hidle, State.emptyReplies_eq, State.closeSession_eq, State.repairLeft, if_neg hidle, hback]
      simp [hidle, Function.comp_def, Flight.left_left]
    · have hpeer0 : s.re.session.peer ≠ 0 := by omega
      rw [State.giveBack, State.updatePeer, if_neg hpeer0]
    · rw [State.giveBack, State.updatePeer_map]
      exact fun _ => rfl

/-! ### A cause in JOINING and ACTIVE (R80, R106, R107) -/

/-- The state MUTED that a cause brings, before convergence is judged. -/
def State.mutedBy (s : State) (c : Cause) (roster : List Peer) : State :=
  let v := s.repairLeft roster
  { v with
    sc := { s.sc with station := .muted }
    re := { v.re with summaryTimer := none }
    ac := { s.ac with
      prior := if s.sc.station = .joining then .joining else .active
      mutedCause := c, wait := 1, recovery := if c = .duplicate then none else some 0, probeDue := false }
    cp := { s.cp with notify := placeEvent s.cp.notify { kind := .lineMuted, param := c.code } } }

theorem State.enterMuted_eq {s : State} {roster : List Peer} (h : s.abandonSession.emptyReplies = s.repairLeft roster) (c : Cause) :
    s.enterMuted c = s.mutedBy c roster := by
  rw [State.enterMuted, h]
  rfl

/-- A roster of the same presences and agreements has the same members that meet a condition on those. -/
theorem standing_all_any {l roster : List Peer} (h : roster.map Peer.standing = l.map Peer.standing)
    (g : Presence × Agreement → Bool) :
    (roster.all fun p => g p.standing) = (l.all fun p => g p.standing)
      ∧ (roster.any fun p => g p.standing) = l.any fun p => g p.standing := by
  have hall := congrArg (List.all · g) h
  have hany := congrArg (List.any · g) h
  rw [List.all_map, List.all_map] at hall
  rw [List.any_map, List.any_map] at hany
  exact ⟨hall, hany⟩

/-- The judgement of a station in MUTED (R106, R107): it stays there, and a join window held in it may end. -/
theorem Judged.of_muted {w t : State} (h : Judged w t) (hst : w.sc.station = .muted) :
    ∃ joined : Bool, joined = (w.convergence && w.anyPresent && decide (w.ac.prior = .joining))
      ∧ t = { w with
          sc := { w.sc with joinWindow := if joined then none else w.sc.joinWindow, converged := w.convergence }
          ac := { w.ac with prior := if joined then .active else w.ac.prior }
          cp := { w.cp with notify := judgedNotify w.sc.converged w.convergence w.cp.notify } } := by
  obtain ⟨conv, joined, hconv, hjoined, ht⟩ := h
  obtain rfl : conv = w.convergence := Bool.eq_iff_iff.mpr (hconv.trans w.convergence_iff.symm)
  refine ⟨joined, ?_, ?_⟩
  · rw [Bool.eq_iff_iff, hjoined]
    simp [hst, State.anyPresent, and_assoc]
  · rw [ht]
    simp [hst]

/-- The convergence condition of the state MUTED that a cause brings, by the state before the cause. -/
theorem State.mutedBy_conditions {s : State} {roster : List Peer} (h : roster.map Peer.standing = s.re.roster.map Peer.standing)
    (c : Cause) :
    (s.mutedBy c roster).convergence
        = (s.re.outbound.isEmpty && s.re.roster.all fun p => p.presence ≠ .present || p.agreement = .agree)
      ∧ (s.mutedBy c roster).anyPresent = s.re.roster.any fun p => p.presence = .present := by
  obtain ⟨hall, -⟩ := standing_all_any h fun x => x.1 ≠ .present || x.2 = .agree
  obtain ⟨-, hany⟩ := standing_all_any h fun x => x.1 = .present
  exact ⟨congrArg (s.re.outbound.isEmpty && ·) hall, hany⟩

/-- Access Control takes a cause by the station state (Table 4.4.1). -/
theorem State.takeCause_cases (s : State) (c : Cause) :
    (s.sc.station = .replay ∨ s.sc.station = .held → s.takeCause c = s)
    ∧ (s.sc.station = .joining ∨ s.sc.station = .active → s.takeCause c = (s.enterMuted c).judge)
    ∧ (s.sc.station = .muted → s.takeCause c = s.furtherCause c)
    ∧ (s.sc.station = .closing → s.takeCause c = (s.endClosing .part).judge) := by
  unfold State.takeCause
  cases s.sc.station <;> simp

/-- Settles O38: the station mutes with its part in repair left, and is judged in MUTED; a further cause by Table 4.4.1; CLOSING
ends. -/
theorem causesMuteTheStation : Obligations.CausesMuteTheStation := by
  intro c s _
  obtain ⟨hoff, hon, hmuted, hclosing⟩ := s.takeCause_cases c
  refine ⟨hoff, fun hst => ?_, fun hst => ?_, fun hst => ?_⟩
  · obtain ⟨roster, hleft, ⟨hidle, hgiven⟩, hstanding⟩ := s.abandon_emptyReplies
    obtain ⟨hconv, hany⟩ := State.mutedBy_conditions hstanding c
    rw [hon hst, State.enterMuted_eq hleft]
    obtain ⟨joined, hjoined, ht⟩ := (State.judge_judged (s.mutedBy c roster)).of_muted rfl
    generalize (s.mutedBy c roster).judge = t at ht ⊢
    have hprior : (s.mutedBy c roster).ac.prior = if s.sc.station = .joining then .joining else .active := rfl
    rw [hconv, hany, hprior] at hjoined
    rw [hconv, hprior] at ht
    subst ht
    refine ⟨_, _, joined, rfl, rfl, ?_, rfl, ?_, rfl, hidle, hgiven, ?_, rfl, rfl⟩
    · rw [hjoined]
      cases hst with
      | inl h => simp [h]
      | inr h => simp [h]
    · cases hst with
      | inl h => cases joined <;> simp [h, State.mutedBy, State.repairLeft]
      | inr h => simp [h, State.mutedBy, State.repairLeft]
    · exact congrArg (fun g => { s.li with flight := s.li.flight.map g }) (funext fun f => f.left_repair _)
  · rw [hmuted hst]
    refine ⟨fun hc h => ?_, fun hc h => ?_, fun hc h => ?_, fun h => ?_⟩
    · simp only [State.furtherCause, hc, h]
      rfl
    · simp only [State.furtherCause, hc, h]
    · rcases h with h | h
      all_goals
        simp only [State.furtherCause, hc, h]
        rfl
    · cases c <;> simp only [State.furtherCause, h]
  · obtain ⟨t, ht, hspec⟩ := s.endClosing_judged .part
    exact ⟨t, by rw [hclosing hst, ht], hspec⟩

end Sys2Proof.Machine
end

section
/-! CLOSE, by the station state it finds. -/

namespace Sys2Proof.Machine

/-! ### CLOSE in JOINING and ACTIVE, and in MUTED (R84, R92, R93) -/

/-- The state CLOSING that a CLOSE brings, before convergence is judged. -/
def State.closingWith (s : State) (roster : List Peer) : State :=
  let v := s.repairLeft roster
  { v with
    sc := { s.sc with station := .closing, joinWindow := none, closeLimit := some 0 }
    re := { v.re with summaryTimer := none }
    ac := { s.ac with summaryDue := false, leaveDue := true } }

theorem State.startClosing_eq {s : State} {roster : List Peer} (h : s.abandonSession.emptyReplies = s.repairLeft roster) :
    s.startClosing = (s.closingWith roster).judge := by
  rw [State.startClosing, h]
  rfl

/-- A command that does not complete at once holds the slot EXECUTING (R190). -/
theorem sendCommand_waits {code : Byte} {b : Block} {p : List Byte} {s : State} (h : blockTaken s code b p)
    {body : List Byte → State → Reply} {t : State} (hb : body p (s.carriesOut code b) = .wait t) :
    sendCommand code b body s = .next (t.setSlot (.executing code b.tag)) := by
  rw [sendCommand_taken h]
  exact congrArg (fun k : Reply => Host.Outcome.next (k.settle code b.tag)) hb

/-- What CLOSE without parameters comes to, by the station state. -/
theorem closeBody_cases (s : State) :
    (s.sc.station = .joining ∨ s.sc.station = .active → closeBody [] s = .wait s.startClosing)
    ∧ (s.sc.station = .muted → closeBody [] s = .answer .done [] s.closeMuted)
    ∧ (s.sc.station = .replay ∨ s.sc.station = .held ∨ s.sc.station = .closing →
        closeBody [] s = refuse .refusedState s) := by
  unfold closeBody tested
  cases s.sc.station <;> simp

/-- Settles O29: CLOSING and HELD are judged not converged, with the part in repair left; elsewhere CLOSE is refused. -/
theorem closeLeaves : Obligations.CloseLeaves := by
  intro b s hb
  obtain ⟨hon, hmuted, hoff⟩ := closeBody_cases (s.carriesOut 0x13 b)
  refine ⟨fun hst => ?_, fun hst => ?_, fun hst => ?_⟩
  · obtain ⟨roster, hleft, ⟨hidle, hgiven⟩, -⟩ := (s.carriesOut 0x13 b).abandon_emptyReplies
    have hexec : exec (.cmdClose b) s = _ := sendCommand_waits hb (hon hst)
    rw [State.startClosing_eq hleft, State.judge_unconverged rfl] at hexec
    exact ⟨_, hexec, rfl, rfl, rfl, hidle, hgiven,
      congrArg (fun g => { s.li with flight := s.li.flight.map g }) (funext fun f => f.left_repair _), rfl, rfl⟩
  · have hexec : exec (.cmdClose b) s = _ := sendCommand_answers hb (hmuted hst)
    rw [State.closeMuted, State.judge_unconverged rfl] at hexec
    exact ⟨_, hexec, rfl, rfl, rfl, rfl, rfl⟩
  · exact sendCommand_refuses hb (hoff hst)

end Sys2Proof.Machine
end

section
/-! The recovery of a MUTED station: the probe that falls due, its start and its completion. -/

namespace Sys2Proof.Machine

/-! ### PROBE_DUE (R82) -/

/-- The recovery wait timer of the running part counts the milliseconds that end in line time. -/
theorem State.passLine_recovery {s : State} (hp : s.power = .running) (n : Nat) :
    (s.passLine n).ac.recovery = s.ac.recovery.map (· + msIn s n) := by
  rw [State.passLine, if_pos hp]
  show tickTimer s.ac.recovery (msIn s n) = _
  cases s.ac.recovery <;> rfl

/-- The recovery wait of a MUTED station runs to W. -/
theorem exec_probeDue {s : State} {t : Nat} (hp : s.power = .running) (hst : s.sc.station = .muted)
    (ht : s.ac.recovery = some t) (hdue : s.ac.probeDue = false) {u : State} (hu : u = s.passUntil t (1000 * s.ac.wait)) :
    exec .probeDue s = .next { u with ac := { u.ac with probeDue := true } } := by
  show execProbeDue s = _
  rw [execProbeDue, whenRunning_running hp, hu]
  simp only [hst, ht, hdue, Bool.false_eq_true, if_false]

/-! ### PROBE_START (R79, R82) -/

/-- On a recessive line the receiver in IDLE comes to a quiet count, or is past it already. -/
theorem State.passLine_quiet {s : State} (hp : s.power = .running) (hidle : s.li.receiver = .idle)
    (hline : s.li.line = .recessive) (hq : s.li.quiet ≤ 255) {k : Nat} (hk : k ≤ 255) :
    (s.passLine (k - s.li.quiet)).li.quiet = max s.li.quiet k := by
  rw [State.passLine_counts hp (.inr hidle), LineIf.counts_recessive hline]
  show min 255 (s.li.quiet + (k - s.li.quiet)) = _
  omega

/-- A due probe defers to a dominant line at 36 tB of quiet, and otherwise is a SUMMARY of class C. -/
theorem exec_probeStart {s : State} (hp : s.power = .running) (hst : s.sc.station = .muted) (hdue : s.ac.probeDue = true)
    (hfree : s.lineFree = true) {u : State} (hu : u = s.passLine (36 - s.li.quiet)) :
    exec (.probeStart .dominant) s = .next u.deferStart
    ∧ exec (.probeStart .recessive) s
        = .next (u.useSequence.launch (u.summaryFrame (u.ac.prior = .joining)) .c true .summary) := by
  have hrun : ∀ line, exec (.probeStart line) s = execProbeStart line s := fun _ => rfl
  constructor
  all_goals
    rw [hrun, execProbeStart, whenRunning_running hp, if_pos ⟨hst, hdue, hfree⟩, hu]
    rfl

/-- The SUMMARY of a state whose line time has passed is that of the state before. -/
theorem State.passLine_summaryFrame (s : State) (n : Nat) (joining : Bool) :
    (s.passLine n).summaryFrame joining = s.summaryFrame joining := by
  obtain ⟨-, hstraps, hpt, -, hcp, -, -⟩ := s.passLine_frame n
  have hseq : (s.passLine n).re.seq = s.re.seq := by rw [s.passLine_re]
  simp only [State.summaryFrame, State.ownFrame, hstraps, hpt, hcp, hseq]

/-! ### PROBE_COMPLETE (R83, R109) -/

/-- The state in which a probe's last bit has gone out (R62, R74, R79). -/
def State.probeSent (s : State) : State :=
  { s with
    li := { s.li with receiver := .seeking, line := .recessive, stuck := 0, stuckDeclared := false, flight := none }
    ac := { s.ac with summaryDue := false, rest := true }
    cp := { s.cp with counters := { s.cp.counters with framesSent := satInc s.cp.counters.framesSent } } }

/-- A SUMMARY of class C that completes meets its demand and sets the post-send rest. -/
theorem State.frameSent_summary (s : State) {f : Flight} (hcargo : f.cargo = .summary) (hcls : f.cls = .c) :
    (s.frameSent f).demandCompleted f = (s.passLine (10 * f.chars.length - f.elapsed)).probeSent := by
  have hrest : ((s.passLine (10 * f.chars.length - f.elapsed)).ac.rest || decide (f.cls = .c)) = true := by simp [hcls]
  rw [State.demandCompleted, hcargo, State.frameSent, hrest]
  rfl

/-- The state back from MUTED, before the search for a session. -/
def State.restored (s : State) : State :=
  { s with
    sc := { s.sc with station := match s.ac.prior with | .joining => .joining | .active => .active }
    re := { s.re with summaryTimer := some 0 }
    ac := { s.ac with mutedCause := .none, wait := 1, recovery := none, probeDue := false }
    cp := { s.cp with notify := placeEvent s.cp.notify { kind := .lineRestored, param := 0 } } }

/-- The completion of a probe ends MUTED. -/
theorem exec_probeComplete {s : State} {f : Flight} (hp : s.power = .running) (hst : s.sc.station = .muted)
    (hf : s.li.flight = some f) (hprobe : f.probe = true) :
    exec .probeComplete s = .next ((s.frameSent f).demandCompleted f).restored.searchSession.judge := by
  show execProbeComplete s = _
  rw [execProbeComplete, whenRunning_running hp]
  simp only [hf, hprobe, hst, and_self, if_true]
  rfl

/-- Settles O40: the timer comes to W, the quiet count to 36, and the probe ends MUTED. -/
theorem probesRecoverTheLine : Obligations.ProbesRecoverTheLine := by
  intro s hp hst
  refine ⟨fun hrec hdue => ?_, fun hdue hfree hline hq => ?_, fun f hf hprobe hcargo hcls => ?_⟩
  · obtain ⟨t, ht⟩ := Option.ne_none_iff_exists'.mp hrec
    exact ⟨_, timerReaches_passUntil _ ht (State.passLine_recovery hp), exec_probeDue hp hst ht hdue rfl⟩
  · obtain ⟨hdominant, hrecessive⟩ := exec_probeStart hp hst hdue hfree rfl
    have hprior : (s.passLine (36 - s.li.quiet)).ac.prior = s.ac.prior := by rw [s.passLine_ac]
    rw [s.passLine_summaryFrame, hprior] at hrecessive
    exact ⟨_, rfl, State.passLine_quiet hp (s.lineFree_iff.mp hfree).2.1 hline hq (by decide), hdominant, hrecessive⟩
  · have hexec := exec_probeComplete hp hst hf hprobe
    rw [s.frameSent_summary hcargo hcls] at hexec
    obtain ⟨-, -, -, -, hcp, -, -⟩ := s.passLine_frame (10 * f.chars.length - f.elapsed)
    have hprior : (s.passLine (10 * f.chars.length - f.elapsed)).ac.prior = s.ac.prior := by rw [s.passLine_ac]
    refine ⟨_, _, _, rfl, hexec, ?_, State.judge_judged _⟩
    rw [← hcp, ← hprior]
    exact State.searchSession_searched _

end Sys2Proof.Machine
end

section
/-! OPEN, and the timers of the station's life: what passing time leaves, and the judgements that follow. -/

namespace Sys2Proof.Machine

/-! ### OPEN (R89, R90, R97, R106) -/

/-- A judgement that finds the condition met by no PRESENT peer ends no join window (R106, R107). -/
theorem State.judge_alone {s : State} (h : s.convergence = true → s.anyPresent = false) : s.judge = { s with
    sc := { s.sc with converged := s.convergence }
    cp := { s.cp with notify := judgedNotify s.sc.converged s.convergence s.cp.notify } } := by
  obtain ⟨conv, joined, hconv, hjoined, ht⟩ := s.judge_judged
  obtain rfl : conv = s.convergence := Bool.eq_iff_iff.mpr (hconv.trans s.convergence_iff.symm)
  obtain rfl : joined = false := by
    rw [Bool.eq_false_iff]
    intro hj
    obtain ⟨hc, ⟨p, hp, hpresent⟩, -⟩ := hjoined.mp hj
    have hany : s.anyPresent = true := List.any_eq_true.mpr ⟨p, hp, by simpa using hpresent⟩
    rw [h hc] at hany
    cases hany
  simpa using ht

/-- The state JOINING that an OPEN brings, before convergence is judged. -/
def State.opened (s : State) : State :=
  { s with
    sc := { s.sc with station := .joining, joinWindow := some 0 }
    re := { s.re with roster := s.re.roster.map Peer.opened, summaryTimer := some 0 }
    ac := { s.ac with summaryDue := true }
    cp := { s.cp with setupAllowed := false } }

/-- With every agreement forgotten, the convergence condition is that nothing waits to be sent and no peer is PRESENT. -/
theorem State.opened_convergence (s : State) : s.opened.convergence
    = (s.re.outbound.isEmpty && s.re.roster.all fun p => p.presence ≠ .present) := by
  show (s.re.outbound.isEmpty && (s.re.roster.map Peer.opened).all fun p => p.presence ≠ .present || p.agreement = .agree) = _
  rw [List.all_map]
  refine congrArg (s.re.outbound.isEmpty && ·) (congrArg s.re.roster.all (funext fun p => ?_))
  by_cases hpresent : p.presence = .present
  · simp [Peer.opened, hpresent]
  · simp [Peer.opened, hpresent]

/-- An OPEN meets the convergence condition only where no peer is PRESENT. -/
theorem State.opened_alone (s : State) (h : s.opened.convergence = true) : s.opened.anyPresent = false := by
  rw [s.opened_convergence, Bool.and_eq_true] at h
  show ((s.re.roster.map Peer.opened).any fun p => p.presence = .present) = false
  rw [List.any_map, List.any_eq_false]
  exact fun p hp hpresent => of_decide_eq_true (List.all_eq_true.mp h.2 p hp) (of_decide_eq_true hpresent)

/-- What OPEN without parameters comes to, by the station state and number. -/
theorem openBody_cases (s : State) :
    (s.sc.station = .held → stationNumber s.straps ≠ 0 → openBody [] s = .answer .done [] s.opened.judge)
    ∧ (s.sc.station = .held → stationNumber s.straps = 0 → openBody [] s = refuse .refusedNoStation s)
    ∧ (s.sc.station ≠ .held → openBody [] s = refuse .refusedState s) := by
  have htest : s.sc.station ≠ .replay → openBody [] s = if s.sc.station ≠ .held then refuse .refusedState s
      else if stationNumber s.straps = 0 then refuse .refusedNoStation s else .answer .done [] s.opened.judge := fun hst =>
    tested_passes _ hst rfl
  refine ⟨fun hst hn => ?_, fun hst hn => ?_, fun hst => ?_⟩
  · rw [htest (by simp [hst]), if_neg (by simp [hst]), if_neg hn]
  · rw [htest (by simp [hst]), if_neg (by simp [hst]), if_pos hn]
  · by_cases hreplay : s.sc.station = .replay
    · simp [openBody, tested, hreplay]
    · rw [htest hreplay, if_pos hst]

/-- Settles O28: JOINING is judged with every agreement forgotten, so that no join window ends by it; elsewhere OPEN is refused. -/
theorem openJoins : Obligations.OpenJoins := by
  intro b s hb
  obtain ⟨hjoin, hnone, hoff⟩ := openBody_cases (s.carriesOut 0x12 b)
  refine ⟨fun hst hn => ?_, fun hst hn => ?_, fun hst => ?_⟩
  · have hexec : exec (.cmdOpen b) s = _ := sendCommand_answers hb (hjoin hst hn)
    rw [State.judge_alone (State.opened_alone _), State.opened_convergence] at hexec
    exact ⟨_, hexec, rfl, rfl, rfl, rfl, rfl⟩
  · exact sendCommand_refuses hb (hnone hst hn)
  · exact sendCommand_refuses hb (hoff hst)

/-! ### The passing of time (0.6) -/

/-- What time that passes leaves of the command port, the station and its part in repair. -/
theorem later.keeps {s u : State} (h : later s u) :
    u.straps = s.straps ∧ u.cp = s.cp ∧ u.sc.station = s.sc.station ∧ u.sc.converged = s.sc.converged
      ∧ u.ac.prior = s.ac.prior := by
  obtain rfl | ⟨n, rfl⟩ := h
  · exact ⟨rfl, rfl, rfl, rfl, rfl⟩
  · obtain ⟨-, hstraps, -, -, hcp, -, -⟩ := s.passLine_frame n
    exact ⟨hstraps, hcp, s.passLine_station n, by rw [s.passLine_sc], by rw [s.passLine_ac]⟩

/-! The timers of the station's life in the running part count the milliseconds that end in line time. -/

theorem State.passLine_summaryTimer {s : State} (hp : s.power = .running) (n : Nat) :
    (s.passLine n).re.summaryTimer = s.re.summaryTimer.map (· + msIn s n) := by
  rw [State.passLine, if_pos hp]
  rfl

theorem State.passLine_joinWindow {s : State} (hp : s.power = .running) (n : Nat) :
    (s.passLine n).sc.joinWindow = s.sc.joinWindow.map (· + msIn s n) := by
  rw [State.passLine, if_pos hp]
  rfl

theorem State.passLine_closeLimit {s : State} (hp : s.power = .running) (n : Nat) :
    (s.passLine n).sc.closeLimit = s.sc.closeLimit.map (· + msIn s n) := by
  rw [State.passLine, if_pos hp]
  rfl

/-! ### The timers of the station's life (R91, R93, R95, R97) -/

/-- Each timer of the station's life runs to its limit, and acts. -/
theorem exec_lifeTimers {s : State} (hp : s.power = .running) (t : Nat) :
    (s.re.summaryTimer = some t → ∀ u, u = s.passUntil t (100 * s.cp.setup.interval) →
      exec .summaryTimerExpiry s = .next { u with
        re := { u.re with summaryTimer := some 0 }, ac := { u.ac with summaryDue := true } })
    ∧ (s.sc.joinWindow = some t →
        exec .joinWindowExpiry s = .next (s.passUntil t (300 * s.cp.setup.interval)).endJoinWindow.judge)
    ∧ (s.sc.station = .closing → s.sc.closeLimit = some t →
        exec .closeLimitExpiry s = .next ((s.passUntil t (400 * s.cp.setup.interval)).endClosing .part).judge) := by
  refine ⟨fun ht u hu => ?_, fun ht => ?_, fun hst ht => ?_⟩
  · show execSummaryTimerExpiry s = _
    rw [execSummaryTimerExpiry, whenRunning_running hp, hu]
    simp only [ht]
  · show execJoinWindowExpiry s = _
    rw [execJoinWindowExpiry, whenRunning_running hp]
    simp only [ht]
  · show execCloseLimitExpiry s = _
    rw [execCloseLimitExpiry, whenRunning_running hp]
    simp only [hst, ht]

/-- What the end of the join window comes to, by the station state (R91). -/
theorem State.endJoinWindow_cases (s : State) :
    (s.sc.station = .joining → s.endJoinWindow = { s with sc := { s.sc with station := .active, joinWindow := none } })
    ∧ (s.sc.station = .muted → s.ac.prior = .joining → s.endJoinWindow = { s with
        sc := { s.sc with joinWindow := none }, ac := { s.ac with prior := .active } })
    ∧ (s.sc.station ≠ .joining → ¬ (s.sc.station = .muted ∧ s.ac.prior = .joining) → s.endJoinWindow = s) := by
  unfold State.endJoinWindow
  refine ⟨fun hst => if_pos hst, fun hst hprior => ?_, fun hst hmuted => ?_⟩
  · rw [if_neg (by simp [hst]), if_pos ⟨hst, hprior⟩]
  · rw [if_neg hst, if_neg hmuted]

/-- Settles O47: each timer comes to its limit; the join window ends by the station state, CLOSING in HELD, both judged. -/
theorem lifeTimersExpire : Obligations.LifeTimersExpire := by
  intro s hp
  refine ⟨fun hsummary => ?_, fun hwindow => ?_, fun hst hlimit => ?_⟩
  · obtain ⟨t, ht⟩ := Option.ne_none_iff_exists'.mp hsummary
    obtain ⟨hexec, -, -⟩ := exec_lifeTimers hp t
    exact ⟨_, timerReaches_passUntil _ ht (State.passLine_summaryTimer hp), hexec ht _ rfl⟩
  · obtain ⟨t, ht⟩ := Option.ne_none_iff_exists'.mp hwindow
    obtain ⟨-, hexec, -⟩ := exec_lifeTimers hp t
    have hu := timerReaches_passUntil (timer := fun x => x.sc.joinWindow) (300 * s.cp.setup.interval) ht
      (State.passLine_joinWindow hp)
    obtain ⟨-, -, hstation, -, hprior⟩ := hu.1.keeps
    have hcases := (s.passUntil t (300 * s.cp.setup.interval)).endJoinWindow_cases
    rw [hstation, hprior] at hcases
    exact ⟨_, _, _, hu, hexec ht, State.judge_judged _, hcases⟩
  · obtain ⟨t, ht⟩ := Option.ne_none_iff_exists'.mp hlimit
    obtain ⟨-, -, hexec⟩ := exec_lifeTimers hp t
    have hu := timerReaches_passUntil (timer := fun x => x.sc.closeLimit) (400 * s.cp.setup.interval) ht
      (State.passLine_closeLimit hp)
    obtain ⟨-, hcp, -, hconverged, -⟩ := hu.1.keeps
    obtain ⟨v, hv, hclosed, hdone, hleft⟩ := (s.passUntil t (400 * s.cp.setup.interval)).endClosing_judged .part
    have hexec := hexec hst ht
    rw [hv] at hexec
    rw [hcp] at hdone hleft
    rw [hconverged, hcp] at hclosed
    refine ⟨_, v, hu, hexec, hdone, hleft, ?_⟩
    rw [hcp]
    exact hclosed

end Sys2Proof.Machine
end

section
/-! Peers that fall silent: what PEER_LOST and PEER_ABSENT leave of the roster, the session and the replies. -/

namespace Sys2Proof.Machine

/-! ### The instant (R104) -/

/-- What time that passes leaves of the Replication Engine: all but its two timers. -/
theorem later.re {s u : State} (h : later s u) : u.re = { s.re with
    session := { s.re.session with timer := u.re.session.timer }, summaryTimer := u.re.summaryTimer } := by
  obtain rfl | ⟨n, rfl⟩ := h
  · rfl
  · exact s.passLine_re n

/-- So it leaves the roster, the replies and what a session asks for. -/
theorem later.repair {s u : State} (h : later s u) :
    u.re.roster = s.re.roster ∧ u.re.replyQueue = s.re.replyQueue ∧ u.re.session.peer = s.re.session.peer
      ∧ u.re.session.state = s.re.session.state ∧ u.re.session.buckets = s.re.session.buckets := by
  rw [h.re]
  exact ⟨rfl, rfl, rfl, rfl, rfl⟩

theorem later.peer {s u : State} (h : later s u) (n : Nat) : u.peer n = s.peer n := by
  obtain ⟨hstraps, -⟩ := h.keeps
  obtain ⟨hroster, -⟩ := h.repair
  rw [State.peer, hstraps, hroster]
  rfl

/-- The clock of the running part counts the milliseconds that end in line time. -/
theorem State.passLine_now {s : State} (hp : s.power = .running) (n : Nat) : (s.passLine n).clk.now = s.clk.now + msIn s n := by
  rw [State.passLine, if_pos hp]
  rfl

/-- The wait for a peer's silence is line time. -/
theorem State.passSilence_later (s : State) (p : Peer) (ms : Nat) : later s (s.passSilence p ms) := by
  unfold State.passSilence
  split
  · exact s.passUntil_eq _ _
  · exact .inl rfl

/-- The wait for a peer's silence ends at the millisecond past the limit; a peer never heard is waited for no time. -/
theorem State.passSilence_reaches {s : State} (hp : s.power = .running) (p : Peer) (ms : Nat) :
    (∀ h, p.lastHeard = some h → timerReaches s (s.passSilence p ms) (fun x => some x.clk.now) (h + ms + 1))
      ∧ (p.lastHeard = none → s.passSilence p ms = s) := by
  unfold State.passSilence
  refine ⟨fun h hh => ?_, fun hnone => by rw [hnone]⟩
  rw [hh]
  exact timerReaches_passUntil (timer := fun x => some x.clk.now) _ rfl fun n => congrArg some (State.passLine_now hp n)

/-! ### A session abandoned for the next (R109, R121) -/

/-- The entry of a peer to which the buckets of a session have gone back (R121). -/
def Peer.givenBack (se : Session) (p : Peer) : Peer := { p with mask := p.mask ||| bucketSet se.buckets, wanted := true }

theorem State.abandonSession_search {s : State} (hse : s.re.session.state ≠ .idle) :
    s.abandonSession.searchSession = (s.updatePeer s.re.session.peer (Peer.givenBack s.re.session)).closeSession.searchSession := by
  rw [State.abandonSession, if_neg hse]
  rfl

/-- The abandoning of a session and the search after it change the session, the roster and the frame in flight alone. -/
theorem State.abandonSession_search_eq {s : State} (hse : s.re.session.state ≠ .idle) : s.abandonSession.searchSession = { s with
    re := { s.re with
      session := s.abandonSession.searchSession.re.session, roster := s.abandonSession.searchSession.re.roster }
    li := { s.li with flight := s.li.flight.map (Flight.left true false) } } := by
  rw [State.abandonSession_search hse]
  exact s.sessionOver_eq _ _

/-- They leave every field of a roster entry that repair leaves. -/
theorem State.abandonSession_search_map {α : Type} {g : Peer → α} (hg : KeptByRepair g) {s : State}
    (hse : s.re.session.state ≠ .idle) : s.abandonSession.searchSession.re.roster.map g = s.re.roster.map g := by
  rw [State.abandonSession_search hse, State.searchSession_map hg, State.closeSession_eq]
  exact State.updatePeer_map (fun p => hg p _ _ p.failures) s _

/-- The roster with the buckets of the session back at its peer, after the search of R109. -/
theorem State.abandonSession_ended {s : State} (hse : s.re.session.state ≠ .idle) (hpeer : 1 ≤ s.re.session.peer) :
    SessionEnded s (s.re.roster.modify (s.re.session.peer - 1) (Peer.givenBack s.re.session)) s.abandonSession.searchSession := by
  have hroster : (s.updatePeer s.re.session.peer (Peer.givenBack s.re.session)).re.roster
      = s.re.roster.modify (s.re.session.peer - 1) (Peer.givenBack s.re.session) := by
    rw [State.updatePeer, if_neg (by omega)]
  rw [State.abandonSession_search hse]
  have hended := (s.updatePeer s.re.session.peer (Peer.givenBack s.re.session)).closeSession_search
  rw [hroster] at hended
  obtain ⟨-, hstraps, -, -, hsc, -⟩ := s.updatePeer_frame s.re.session.peer (Peer.givenBack s.re.session)
  exact hended.congr (by rw [hsc]) hstraps.symm rfl rfl

/-! ### PEER_LOST (R104, R121, R128) -/

/-- The state after a peer has become SILENT, before a session with it ends. -/
def State.silenced (s : State) (n : Nat) : State :=
  { s with
    re := { s.re with
      roster := s.re.roster.modify (n - 1) fun p => { p with presence := .silent }
      replyQueue := s.re.replyQueue.filter fun r => r.requester ≠ n }
    li := { s.li with flight := s.li.flight.map (Flight.left false (s.re.replyQueue.head?.any fun r => r.requester = n)) }
    cp := { s.cp with notify := placeEvent s.cp.notify { kind := .peerLost, param := n } } }

/-- The state after a peer has been lost, before convergence is judged. -/
def State.lost (s : State) (n : Nat) : State :=
  if s.re.session.state ≠ .idle ∧ s.re.session.peer = n then (s.silenced n).abandonSession.searchSession else s.silenced n

theorem exec_peerLost {s : State} {n : Nat} (hp : s.power = .running) (hst : s.sc.station ≠ .replay) (hn : 1 ≤ n)
    (hpresent : (s.peer n).presence = .present) :
    exec (.peerLost n) s = .next ((s.passSilence (s.peer n) (400 * s.intervalOf (s.peer n))).lost n).judge := by
  have hsilenced : ∀ u : State, ((u.updatePeer n fun p => { p with presence := .silent }).notify .peerLost n).dropRequest n
      = u.silenced n := fun u => by
    rw [State.dropRequest_eq, State.updatePeer, if_neg (by omega)]
    rfl
  show execPeerLost n s = _
  rw [execPeerLost, whenRunning_running hp]
  dsimp only
  rw [if_pos ⟨hst, hpresent⟩, hsilenced]
  rfl

/-- The loss of a peer leaves all but the session, the roster, the replies and the events; a frame in flight runs on for what
stands. -/
theorem State.lost_eq (s : State) (n : Nat) : s.lost n = { s with
    re := { s.re with
      session := (s.lost n).re.session, roster := (s.lost n).re.roster
      replyQueue := s.re.replyQueue.filter fun r => r.requester ≠ n }
    li := { s.li with flight := s.li.flight.map (Flight.left
      (s.re.session.peer = n && s.re.session.state ≠ .idle) (s.re.replyQueue.head?.any fun r => r.requester = n)) }
    cp := { s.cp with notify := placeEvent s.cp.notify { kind := .peerLost, param := n } } } := by
  by_cases hse : s.re.session.state ≠ .idle ∧ s.re.session.peer = n
  · have hlost : s.lost n = (s.silenced n).abandonSession.searchSession := if_pos hse
    have hover := State.abandonSession_search_eq (s := s.silenced n) hse.1
    have hleft : Flight.left true false ∘ Flight.left false (s.re.replyQueue.head?.any fun r => r.requester = n)
        = Flight.left true (s.re.replyQueue.head?.any fun r => r.requester = n) := by
      funext f
      simp [Flight.left_left]
    rw [show (s.re.session.peer = n && s.re.session.state ≠ .idle : Bool) = true by simp [hse], ← hleft, ← Option.map_map]
    rw [← hlost] at hover
    exact hover
  · have hlost : s.lost n = s.silenced n := if_neg hse
    have hno : (s.re.session.peer = n && s.re.session.state ≠ .idle : Bool) = false := by
      rw [Bool.eq_false_iff]
      simpa [and_comm] using hse
    rw [hno, hlost]
    rfl

/-- A session with the peer lost is abandoned, and any other goes on (R121). -/
theorem State.lost_session (s : State) {n : Nat} (hn : 1 ≤ n) :
    (s.re.session.peer = n → s.re.session.state ≠ .idle →
        SessionEnded s (s.re.roster.modify (n - 1) fun p =>
          { p with presence := .silent, mask := p.mask ||| bucketSet s.re.session.buckets, wanted := true }) (s.lost n))
      ∧ (s.re.session.peer ≠ n ∨ s.re.session.state = .idle → (s.lost n).re.session = s.re.session
          ∧ (s.lost n).re.roster = s.re.roster.modify (n - 1) fun p => { p with presence := .silent }) := by
  refine ⟨fun hpeer hse => ?_, fun hother => ?_⟩
  · have hended := State.abandonSession_ended (s := s.silenced n) hse (hpeer ▸ hn)
    have hroster : (s.silenced n).re.roster.modify (s.re.session.peer - 1) (Peer.givenBack s.re.session)
        = s.re.roster.modify (n - 1) fun p =>
          { p with presence := .silent, mask := p.mask ||| bucketSet s.re.session.buckets, wanted := true } := by
      rw [hpeer]
      exact List.modify_modify_eq ..
    rw [show s.lost n = (s.silenced n).abandonSession.searchSession from if_pos ⟨hse, hpeer⟩, ← hroster]
    exact hended.congr rfl rfl rfl rfl
  · rw [show s.lost n = s.silenced n from if_neg (by tauto)]
    exact ⟨rfl, rfl⟩

/-- The entry of the peer lost is SILENT and keeps when it was heard, whatever session ends or begins. -/
theorem State.lost_peer {s : State} {n : Nat} (hn : 1 ≤ n) (hown : n ≠ stationNumber s.straps) (hlen : n - 1 < s.re.roster.length) :
    ((s.lost n).peer n).sign = (.silent, (s.peer n).lastHeard) := by
  have hsilent : ((s.silenced n).peer n).sign = (.silent, (s.peer n).lastHeard) := by
    rw [State.peer_modified (s := s) (t := s.silenced n) rfl hn hown hlen rfl]
    rfl
  have hsign : (s.lost n).re.roster.map Peer.sign = (s.silenced n).re.roster.map Peer.sign := by
    unfold State.lost
    split
    · next hse => exact State.abandonSession_search_map peerSign_kept (s := s.silenced n) hse.1
    · rfl
  rw [State.peer_map (s := s.silenced n) (by rw [s.lost_eq]; rfl) hsign, hsilent]

/-! ### PEER_ABSENT (R104) -/

theorem exec_peerAbsent {s : State} {n : Nat} (hp : s.power = .running) (hst : s.sc.station ≠ .replay) (hn : 1 ≤ n)
    (hsilent : (s.peer n).presence = .silent) {u : State} (hu : u = s.passSilence (s.peer n) (1600 * s.intervalOf (s.peer n))) :
    exec (.peerAbsent n) s = .next (u.withPeer n .cleared).judge := by
  show execPeerAbsent n s = _
  rw [execPeerAbsent, whenRunning_running hp]
  dsimp only
  rw [if_pos ⟨hst, hsilent⟩, State.updatePeer, if_neg (by omega), hu]
  rfl

/-- Settles O48: the peer is SILENT with its session and requests left, or ABSENT and cleared; convergence is judged. -/
theorem silentPeersAreLost : Obligations.SilentPeersAreLost := by
  intro n s hp hst hn _ hown hlen
  have hinside : n - 1 < s.re.roster.length := by omega
  refine ⟨fun hpresent => ?_, fun hsilent => ?_⟩
  · obtain ⟨hreach, hnever⟩ := State.passSilence_reaches hp (s.peer n) (400 * s.intervalOf (s.peer n))
    have hlater := s.passSilence_later (s.peer n) (400 * s.intervalOf (s.peer n))
    have hexec := exec_peerLost hp hst hn hpresent
    generalize s.passSilence (s.peer n) (400 * s.intervalOf (s.peer n)) = u at hreach hnever hlater hexec
    obtain ⟨hstraps, hcp, hstation, -, -⟩ := hlater.keeps
    obtain ⟨hroster, hqueue, hpeer, hstate, hbuckets⟩ := hlater.repair
    have hsign := State.lost_peer (s := u) hn (by rwa [hstraps]) (by rwa [hroster])
    obtain ⟨hended, hkept⟩ := u.lost_session hn
    have hlost := u.lost_eq n
    rw [hlater.peer] at hsign
    rw [hroster, hpeer, hstate, hbuckets] at hended
    rw [hroster, hpeer, hstate] at hkept
    rw [hcp, hqueue, hpeer, hstate] at hlost
    obtain ⟨t, ht, hjudged, hframe, -⟩ := (u.lost n).judge_spec
    rw [ht] at hexec
    generalize u.lost n = w at hsign hended hkept hlost hjudged hframe
    have htw : t.re = w.re := by rw [hframe]
    have htpeer : t.peer n = w.peer n := by rw [hframe]; rfl
    refine ⟨u, t, hexec, hreach, hnever, ?_, ?_, ?_, fun h1 h2 => ?_, fun h => ?_, ?_, ?_⟩
    · rw [htpeer]
      exact congrArg Prod.fst hsign
    · rw [htpeer]
      exact congrArg Prod.snd hsign
    · rw [htw, hlost]
    · exact (hended h1 h2).congr hstation.symm hstraps.symm (by rw [htw]) (by rw [htw])
    · rw [htw]
      exact hkept h
    · have hbefore : ({ t with sc := u.sc, ac := u.ac, cp := { u.cp with
          notify := placeEvent s.cp.notify { kind := .peerLost, param := n } } } : State) = w := by
        rw [hframe, hlost, hcp]
      rw [hbefore]
      exact hjudged
    · rw [hframe, hlost, hcp]
  · obtain ⟨hreach, hnever⟩ := State.passSilence_reaches hp (s.peer n) (1600 * s.intervalOf (s.peer n))
    have hlater := s.passSilence_later (s.peer n) (1600 * s.intervalOf (s.peer n))
    have hexec := exec_peerAbsent hp hst hn hsilent rfl
    generalize s.passSilence (s.peer n) (1600 * s.intervalOf (s.peer n)) = u at hreach hnever hlater hexec
    obtain ⟨hstraps, -, -, -, -⟩ := hlater.keeps
    obtain ⟨hroster, -, -, -, -⟩ := hlater.repair
    have hin : InRoster u n := ⟨hn, by rwa [hstraps], by rwa [hroster]⟩
    refine ⟨u, _, hexec, hreach, hnever, ?_, ?_⟩
    · rw [← hroster]
      exact State.judge_judged _
    · rw [State.judge_frame]
      exact hin.withPeer_peer .cleared

end Sys2Proof.Machine
end

section
/-! Replay's readings: the row of a surveyed header, the order of the walk, and the walk of a band. -/

namespace Sys2Proof.Machine

/-! ### Going on with a reading (R161, R170, R175) -/

theorem State.readOn_eq (s : State) : s.readOn = { s with
    sp := { s.sp with cmd := if s.sp.lend = .idle ∧ s.cp.restarting = false then .read else .none } } := by
  have hbegin : s.canBegin = true ↔ s.sp.lend = .idle ∧ s.cp.restarting = false := by simp [State.canBegin]
  unfold State.readOn State.mapPort
  by_cases h : s.canBegin = true
  · rw [if_pos h, if_pos (hbegin.mp h)]
  · rw [if_neg h, if_neg (mt hbegin.mpr h)]

/-- A reading of replay at a phase goes on. -/
theorem State.setPhase_readOn {s : State} {r : Replay} (hr : s.jc.replay = some r) (p : ReplayPhase) :
    (s.setPhase p).readOn = { s with
      jc := { s.jc with replay := some { r with phase := p } }
      sp := { s.sp with cmd := if s.sp.lend = .idle ∧ s.cp.restarting = false then .read else .none } } := by
  have hphase : s.setPhase p = { s with jc := { s.jc with replay := some { r with phase := p } } } := by
    rw [State.setPhase, State.mapJournal, hr]
    rfl
  rw [State.readOn_eq, hphase]

/-! ### The survey of a header (R133, R164) -/

/-- The band is to be erased in replay: its header is garbled. -/
def surveyErase (i : Nat) : HeaderRead → List Nat
  | .garbled => [i]
  | _ => []

/-- The close length that a header gives its band. -/
def surveyLens (i : Nat) : HeaderRead → List (Nat × Nat)
  | .full _ n => [(i, n)]
  | _ => []

/-- The anomaly of a valid header of another band count. -/
def surveyAnomalies (bandCode strap : Nat) : HeaderRead → Nat
  | .full _ _ | .opened _ => if bandCode = strap then 0 else 1
  | _ => 0

/-- What a header read gives its band, by its condition. -/
theorem headerRead_gives (i bandCode strap : Nat) (c : HeaderRead) :
    (c = .erased → surveyRow c = { state := .erased, seq := none, live := 0 } ∧ surveyErase i c = [] ∧ surveyLens i c = []
      ∧ surveyAnomalies bandCode strap c = 0)
    ∧ (c = .garbled → surveyRow c = { state := .retiring, seq := none, live := 0 } ∧ surveyErase i c = [i]
      ∧ surveyLens i c = [] ∧ surveyAnomalies bandCode strap c = 0)
    ∧ (∀ q, c = .opened q → surveyRow c = { state := .open_, seq := some q, live := 0 } ∧ surveyErase i c = []
      ∧ surveyLens i c = [] ∧ surveyAnomalies bandCode strap c = if bandCode = strap then 0 else 1)
    ∧ (∀ q n, c = .full q n → surveyRow c = { state := .full, seq := some q, live := 0 } ∧ surveyErase i c = []
      ∧ surveyLens i c = [(i, n)] ∧ surveyAnomalies bandCode strap c = if bandCode = strap then 0 else 1) := by
  refine ⟨?_, ?_, ?_, ?_⟩
  all_goals
    intros
    subst c
    exact ⟨rfl, rfl, rfl, rfl⟩

/-- What stands in the header of a band. -/
def State.headerOf (s : State) (i : Nat) : HeaderRead := readHeader (Flash.read s.flash (i * 4096) 16)

/-- The state after a header was surveyed, before replay goes on. -/
def State.surveyed (s : State) (r : Replay) (i : Nat) : State :=
  { s with jc := { s.jc with
    bands := s.jc.bands ++ [surveyRow (s.headerOf i)]
    toErase := s.jc.toErase ++ surveyErase i (s.headerOf i)
    anomalies := min 0xFFFFFFFF (s.jc.anomalies
      + surveyAnomalies (Flash.byte s.flash (i * 4096 + 3)).toNat s.straps.bc.toNat (s.headerOf i))
    replay := some { r with lens := r.lens ++ surveyLens i (s.headerOf i) } } }

/-- A one-byte field of what is read of the device. -/
theorem num_read {f : List Host.Cell} {a n j : Nat} (h : j < n) : num (Flash.read f a n) j 1 = (Flash.byte f (a + j)).toNat := by
  rw [num_one, Flash.read, List.getD_eq_getElem?_getD, List.getElem?_map, List.getElem?_range h]
  rfl

/-- A surveyed header: the next one is read, or the survey ends. -/
theorem State.surveyHeader_eq (s : State) (r : Replay) (i : Nat) : s.surveyHeader r i =
    if i + 1 < bandCount s.straps then ((s.surveyed r i).setPhase (.survey (i + 1))).readOn else (s.surveyed r i).endSurvey := by
  have hbase : bandAddress i 0 = i * 4096 := by simp [bandAddress, Config.bandBytes]
  have hcode : num (Flash.read s.flash (i * 4096) Config.headerBytes) 3 1 = (Flash.byte s.flash (i * 4096 + 3)).toNat :=
    num_read (by decide)
  have hread : readHeader (Flash.read s.flash (i * 4096) Config.headerBytes) = s.headerOf i := rfl
  unfold State.surveyHeader State.surveyed
  rw [hbase]
  dsimp only
  rw [hcode, hread]
  cases s.headerOf i
  all_goals
    simp [surveyErase, surveyLens, surveyAnomalies, State.mapJournal, State.addAnomalies, satAdd]
    rfl

theorem exec_headerSurvey {i : Nat} {r : Replay} {s : State} (hp : s.power = .running) (hr : s.jc.replay = some r)
    (hphase : r.phase = .survey i) (hcmd : s.sp.cmd = .read) : exec .headerSurvey s = .next (s.surveyHeader r i) := by
  show execHeaderSurvey s = _
  rw [execHeaderSurvey, whenRunning_running hp]
  simp only [hr, hphase, hcmd, if_true]

/-! ### The end of the survey (R164) -/

/-- The valid bands in the order of the walk. -/
def Journal.walkBands (jc : Journal) : List Nat := jc.walkOrder.map Prod.snd

theorem Journal.seqOf_of_walkOrder {jc : Journal} {b : Nat × Nat} (h : b ∈ jc.walkOrder) : jc.seqOf b.2 = some b.1 :=
  (jc.walkOrder_spec.2 b.1 b.2).mp h

/-- The valid bands, each once, in ascending sequence and then index. -/
theorem Journal.walkBands_spec (jc : Journal) :
    jc.walkBands.Pairwise (fun a b => ∃ p q, jc.seqOf a = some p ∧ jc.seqOf b = some q ∧ (p < q ∨ (p = q ∧ a < b)))
      ∧ ∀ b, b ∈ jc.walkBands ↔ jc.seqOf b ≠ none := by
  obtain ⟨hsort, hmem⟩ := jc.walkOrder_spec
  refine ⟨List.pairwise_map.mpr (hsort.imp_of_mem fun {a b} ha hb hab => ?_), fun b => ?_⟩
  · exact ⟨a.1, b.1, Journal.seqOf_of_walkOrder ha, Journal.seqOf_of_walkOrder hb, hab⟩
  · rw [Journal.walkBands, List.mem_map, Option.ne_none_iff_exists']
    exact ⟨fun ⟨x, hx, hxb⟩ => ⟨x.1, hxb ▸ Journal.seqOf_of_walkOrder hx⟩, fun ⟨q, hq⟩ => ⟨(q, b), (hmem q b).mpr hq, rfl⟩⟩

/-- The last sequence is the highest of the valid bands (R164). -/
theorem Journal.walkBands_lastSeq (jc : Journal) :
    jc.walkOrder.foldl (fun m b => max m b.1) 0 = jc.walkBands.foldl (fun m b => max m ((jc.seqOf b).getD 0)) 0 := by
  rw [Journal.walkBands, List.foldl_map]
  refine List.foldl_ext _ _ _ fun m b hb => ?_
  rw [Journal.seqOf_of_walkOrder hb]
  rfl

/-- The bands counted as anomalies are those after another of their sequence (R164). -/
theorem Journal.walkBands_duplicates (jc : Journal) : duplicates jc.walkOrder
    = jc.walkBands.countP fun b => jc.walkBands.any fun a => a < b && jc.seqOf a = jc.seqOf b := by
  rw [duplicates_eq jc.walkOrder_spec.1, Journal.walkBands, List.countP_map]
  refine List.countP_congr fun x hx => ?_
  rw [Function.comp_apply, List.any_map, List.any_eq_true, List.any_eq_true]
  refine exists_congr fun y => and_congr_right fun hy => ?_
  simp [Journal.seqOf_of_walkOrder hx, Journal.seqOf_of_walkOrder hy]

/-- The state after the last header, before the first band is walked. -/
def State.surveyOver (s : State) : State :=
  { s with jc := { s.jc with
    lastSeq := s.jc.walkBands.foldl (fun m b => max m ((s.jc.seqOf b).getD 0)) 0
    anomalies := min 0xFFFFFFFF (s.jc.anomalies
      + s.jc.walkBands.countP fun b => s.jc.walkBands.any fun a => a < b && s.jc.seqOf a = s.jc.seqOf b) } }

/-- The end of the survey: the first band is read, or, with none valid, replay is settled. -/
theorem State.endSurvey_eq (s : State) : s.endSurvey =
    if s.jc.walkBands = [] then s.surveyOver.finishWalk else (s.surveyOver.setPhase (.walk s.jc.walkBands)).readOn := by
  have hover : (s.addAnomalies (duplicates s.jc.walkOrder)).mapJournal (fun jc =>
      { jc with lastSeq := s.jc.walkOrder.foldl (fun m b => max m b.1) 0 }) = s.surveyOver := by
    rw [s.jc.walkBands_duplicates, s.jc.walkBands_lastSeq]
    rfl
  unfold State.endSurvey
  dsimp only
  rw [hover, Journal.walkBands]
  cases s.jc.walkOrder <;> rfl

/-- The end of the survey is R164's, and where no band is valid that of replay's walks. -/
theorem State.endSurvey_spec {x : State} {r : Replay} (hr : x.jc.replay = some r) :
    (x.jc.walkBands ≠ [] → x.endSurvey = { x.surveyOver with
        jc := { x.surveyOver.jc with replay := some { r with phase := .walk x.jc.walkBands } }
        sp := { x.sp with cmd := if x.sp.lend = .idle ∧ x.cp.restarting = false then .read else .none } })
      ∧ (x.jc.walkBands = [] → ReplaySettled x.surveyOver x.endSurvey r) := by
  rw [x.endSurvey_eq]
  refine ⟨fun h => ?_, fun h => ?_⟩
  · rw [if_neg h]
    exact State.setPhase_readOn (s := x.surveyOver) hr _
  · rw [if_pos h]
    exact x.surveyOver.finishWalk_settled hr

end Sys2Proof.Machine
end

section
/-! The walk of a band, and the two steps of replay that read the device. -/

namespace Sys2Proof.Machine

/-! ### The walk of a band (R140, R165, Table 9.4.1) -/

/-- How a band is walked: the state, the offset and the end it comes to. -/
def State.walkOf (s : State) (r : Replay) (band : Nat) : State × Nat × WalkEnd :=
  walkBand 320 s band ((s.jc.seqOf band).getD 0) ((r.lens.find? fun l => l.1 = band).map fun l => 16 + l.2) 16

theorem State.walkOf_walked {s w : State} {r : Replay} {band off : Nat} {how : WalkEnd} (hw : s.walkOf r band = (w, off, how)) :
    Walked band ((s.jc.seqOf band).getD 0) ((r.lens.find? fun l => l.1 = band).map fun l => 16 + l.2) s 16 w off how := by
  have hwalked := walkBand_walked 320 s band ((s.jc.seqOf band).getD 0)
    ((r.lens.find? fun l => l.1 = band).map fun l => 16 + l.2) 16 (by decide) (by decide)
  rw [← State.walkOf, hw] at hwalked
  exact hwalked

/-- The anomalies that the end of a band's walk counts. -/
def Journal.walkAnomalies (jc : Journal) (band : Nat) (how : WalkEnd) : Nat :=
  endAnomalies (jc.newestOpen.map Prod.snd == some band) ((jc.bands[band]?).any fun x => x.state = .full) how

/-- They are those of Table 9.4.1. -/
theorem Journal.walkAnomalies_spec (jc : Journal) (band : Nat) :
    (((jc.bands[band]?).map BandRow.state = some .full → jc.walkAnomalies band .noRecord = 1)
      ∧ ((jc.bands[band]?).map BandRow.state ≠ some .full → jc.walkAnomalies band .noRecord = 0))
    ∧ ((NewestOpen jc.bands band → jc.walkAnomalies band .unreadable = 0)
      ∧ (¬ NewestOpen jc.bands band → jc.walkAnomalies band .unreadable = 1)) := by
  have hfull : ((jc.bands[band]?).any fun x => x.state = .full) = true ↔ (jc.bands[band]?).map BandRow.state = some .full := by
    cases jc.bands[band]? <;> simp
  have hnewest : (jc.newestOpen.map Prod.snd == some band) = true ↔ NewestOpen jc.bands band := by
    rw [← jc.newestOpen_iff band, beq_iff_eq, Option.map_eq_some_iff]
    exact ⟨fun ⟨x, hx, hb⟩ => ⟨x.1, hb ▸ hx⟩, fun ⟨q, hq⟩ => ⟨(q, band), hq, rfl⟩⟩
  unfold Journal.walkAnomalies endAnomalies
  exact ⟨⟨fun h => if_pos (hfull.mpr h), fun h => if_neg (mt hfull.mp h)⟩,
    ⟨fun h => if_pos (hnewest.mpr h), fun h => if_neg (mt hnewest.mp h)⟩⟩

/-- Replay with one more band walked. -/
def Replay.walked (r : Replay) (band : Nat) (todo : List Nat) (off : Nat) (how : WalkEnd) : Replay :=
  { r with phase := .walk todo, ends := r.ends ++ [{ band := band, offset := off, end_ := how }] }

/-- The state after the walk of a band, before replay goes on. -/
def State.bandWalked (s : State) (r : Replay) (k : Nat) : State :=
  { s with jc := { s.jc with anomalies := min 0xFFFFFFFF (s.jc.anomalies + k), replay := some r } }

/-- A walked band: the next one is read, or replay is settled. -/
theorem State.walkOne_eq (s : State) (r : Replay) (band : Nat) (todo : List Nat) {w : State} {off : Nat} {how : WalkEnd}
    (hw : s.walkOf r band = (w, off, how)) {x : State}
    (hx : x = w.bandWalked (r.walked band todo off how) (s.jc.walkAnomalies band how)) :
    s.walkOne r band todo = if todo = [] then x.finishWalk else x.readOn := by
  have hwalk : walkBand 320 s band ((s.jc.seqOf band).getD 0)
      ((r.lens.find? fun l => l.1 = band).map fun l => Config.headerBytes + l.2) Config.headerBytes = (w, off, how) := hw
  unfold State.walkOne
  dsimp only
  rw [hwalk, hx]
  cases todo <;> rfl

theorem exec_bandWalk {band : Nat} {todo : List Nat} {r : Replay} {s : State} (hp : s.power = .running)
    (hr : s.jc.replay = some r) (hphase : r.phase = .walk (band :: todo)) (hcmd : s.sp.cmd = .read) :
    exec .bandWalk s = .next (s.walkOne r band todo) := by
  show execBandWalk s = _
  rw [execBandWalk, whenRunning_running hp]
  simp only [hr, hphase, hcmd, if_true]

/-! ### HEADER_SURVEY and BAND_WALK (R87, R133, R140, R164 to R169) -/

/-- Settles O58: a header surveyed, a band walked, and each record as replay takes it. -/
theorem surveyAndWalkReadBands : Obligations.SurveyAndWalkReadBands := by
  refine ⟨fun i r r' s hp hr hphase hcmd => ?_, fun band todo r s hp hr hphase hcmd => ?_,
    fun seq r s => s.replayRecord_replayed seq r⟩
  · obtain ⟨herased, hgarbled, hopened, hfull⟩ := headerRead_gives i (Flash.byte s.flash (i * 4096 + 3)).toNat
      s.straps.bc.toNat (s.headerOf i)
    have hexec := exec_headerSurvey hp hr hphase hcmd
    rw [s.surveyHeader_eq] at hexec
    refine ⟨_, _, _, _, s.surveyed r i, _, hexec, rfl, herased, hgarbled, hopened, hfull, fun hi => ?_, fun hi hr' => ?_⟩
    · exact (if_pos hi).trans (State.setPhase_readOn (s := s.surveyed r i) rfl _)
    · obtain ⟨hsort, hmem⟩ := (s.surveyed r i).jc.walkBands_spec
      have hlast : ¬ i + 1 < bandCount s.straps := Nat.not_lt.mpr hi
      rw [if_neg hlast, hr']
      obtain ⟨hnext, hsettled⟩ := State.endSurvey_spec (x := s.surveyed r i) rfl
      exact ⟨_, _, hsort, hmem, rfl, hnext, hsettled⟩
  · have hexec := exec_bandWalk hp hr hphase hcmd
    obtain ⟨hnone, hunreadable⟩ := s.jc.walkAnomalies_spec band
    obtain ⟨⟨w, off, how⟩, hw⟩ : ∃ walk, s.walkOf r band = walk := ⟨_, rfl⟩
    have hwalked := State.walkOf_walked hw
    have hframe := hwalked.frame
    have hsp : w.sp = s.sp := by rw [hframe]
    have hcp : w.cp = s.cp := by rw [hframe]
    rw [State.walkOne_eq s r band todo hw rfl] at hexec
    refine ⟨w, w.bandWalked (r.walked band todo off how) (s.jc.walkAnomalies band how), _, off, how,
      s.jc.walkAnomalies band how, r.walked band todo off how, hexec, hwalked, hframe, fun h => ?_, fun h => ?_, fun h => ?_,
      rfl, rfl, fun h => ?_, fun h => ?_⟩
    · rw [h]
      exact hnone
    · rw [h]
      exact hunreadable
    · obtain rfl | rfl | rfl := h
      all_goals rfl
    · rw [if_neg h, State.readOn_eq, ← hsp, ← hcp]
      rfl
    · rw [if_pos h]
      exact State.finishWalk_settled _ rfl

end Sys2Proof.Machine
end

section
/-! The reply timer: how it reaches the timeout, and what REPLY_TIMEOUT leaves of a session, by the attempt in force. -/

namespace Sys2Proof.Machine

/-! ### The instant (R112) -/

/-- The reply timer of a SENT request comes to a limit: it runs up to it, or, held by a frame, is past it already. -/
theorem Session.pass_reaches {se : Session} {busy : Bool} {limit : Nat} (hse : se.state ≠ .idle) (hsent : se.raised = false)
    (hdue : busy = false ∨ limit ≤ se.timer) : se.pass busy (limit - se.timer) = { se with timer := max se.timer limit } := by
  rw [Session.pass_eq]
  refine congrArg (fun timer => { se with timer := timer }) ?_
  split
  · omega
  · next hheld =>
    have hpast : limit ≤ se.timer := hdue.resolve_left fun hfree => hheld ⟨hse, hsent, hfree⟩
    omega

theorem State.passLine_session {s : State} (hp : s.power = .running) (n : Nat) :
    (s.passLine n).re.session = s.re.session.pass s.li.receiver.busy n := by
  rw [State.passLine, if_pos hp]

theorem exec_replyTimeout {s : State} (hp : s.power = .running) (hse : s.re.session.state ≠ .idle)
    (hsent : s.re.session.raised = false)
    (hdue : s.li.receiver.busy = false ∨ 10 * s.cp.setup.replyTimeout ≤ s.re.session.timer) {u : State}
    (hu : u = s.passLine (10 * s.cp.setup.replyTimeout - s.re.session.timer)) :
    exec .replyTimeout s = .next u.sessionTimeout := by
  show execReplyTimeout s = _
  rw [execReplyTimeout, whenRunning_running hp, hu]
  dsimp only
  rw [if_pos ⟨hse, hsent, hdue⟩]

/-! ### The timeout, by the attempt (R119) -/

/-- The first timeout of a session that awaits UPDATEs raises its FETCH once more and keeps what it asks for. -/
theorem State.sessionTimeout_firstFetch {s : State} (ha : s.re.session.attempt = 1) (hst : s.re.session.state = .awaitUpdates) :
    s.sessionTimeout = s.setSession { s.re.session with attempt := 2, raised := true, timer := 0 } := by
  unfold State.sessionTimeout
  dsimp only
  rw [if_pos ha, hst]

/-- The second timeout is a failure of the peer, the end of the session and the search for the next (R109, R119). -/
theorem State.sessionTimeout_search {s : State} (ha : s.re.session.attempt ≠ 1) (hpeer : 1 ≤ s.re.session.peer) :
    s.sessionTimeout
      = (s.updatePeer s.re.session.peer (Peer.failed s.re.session)).closeSession.searchSession := by
  have hno : s.re.session.peer ≠ 0 := by omega
  unfold State.sessionTimeout State.giveBack State.updatePeer
  simp only [ha, hno, if_false, List.modify_modify_eq]
  rfl

/-- Settles O46: the timer comes to the timeout, and the session asks again or, after its second attempt, gives way to the next. -/
theorem replyTimeoutResendsOrAbandons : Obligations.ReplyTimeoutResendsOrAbandons := by
  intro s hp hse hsent hdue
  have hexec := exec_replyTimeout hp hse hsent hdue rfl
  have hsession := (State.passLine_session hp _).trans (Session.pass_reaches hse hsent hdue)
  have hroster : (s.passLine (10 * s.cp.setup.replyTimeout - s.re.session.timer)).re.roster = s.re.roster := by
    rw [s.passLine_re]
  refine ⟨_, rfl, hsession, ?_⟩
  generalize s.passLine (10 * s.cp.setup.replyTimeout - s.re.session.timer) = u at hexec hsession hroster ⊢
  have hattempt : u.re.session.attempt = s.re.session.attempt := by rw [hsession]
  have hstate : u.re.session.state = s.re.session.state := by rw [hsession]
  have hpeer : u.re.session.peer = s.re.session.peer := by rw [hsession]
  refine ⟨fun h1 hlisting => ?_, fun h1 hupdates => ?_, fun h1 hn => ?_⟩
  · rw [hexec, State.sessionTimeout_first (hattempt.trans h1) (hstate.trans hlisting)]
    rfl
  · rw [hexec, State.sessionTimeout_firstFetch (hattempt.trans h1) (hstate.trans hupdates)]
    rfl
  · rw [State.sessionTimeout_search (by rwa [hattempt]) (by rwa [hpeer])] at hexec
    refine ⟨_, _, hexec, State.searchSession_searched _, ?_⟩
    have hfailed : Peer.failed u.re.session = Peer.failed s.re.session := by rw [hsession]; rfl
    rw [hfailed, hpeer, State.updatePeer, if_neg (by omega), hroster]
    rfl

end Sys2Proof.Machine
end

section
/-! The flash device when a reset or a loss of supply takes the bus away: the write in hand, or what a host wrote. -/

namespace Sys2Proof.Machine

/-- As many bytes are landed as were sent. -/
theorem landed_length (data : List Byte) (left : DeviceLeft) : (landed data left).length = data.length := by
  cases left <;> simp [landed]

theorem State.land_program {s : State} {p : Prog} (hcmd : s.sp.cmd = .program p .busy) (left : DeviceLeft) :
    (s.land left).flash = Flash.and s.flash (p.band * 4096 + p.offset) (landed p.data left) := by
  rw [State.land, hcmd]
  rfl

theorem State.land_erase {s : State} {b : Nat} (hcmd : s.sp.cmd = .erase b .busy) (left : DeviceLeft) :
    (s.land left).flash = Flash.erase s.flash (b * 4096) left := by
  simp only [State.land, hcmd, bandAddress, Nat.add_zero, Config.bandBytes]

/-- With the write window closed, the device has nothing in hand. -/
theorem State.land_closed {s : State} (hclosed : s.sp.cmd.windowOpen = false) (left : DeviceLeft) : s.land left = s := by
  unfold State.land
  split
  · next p hcmd => simp [hcmd, SpCmd.windowOpen] at hclosed
  · next b hcmd => simp [hcmd, SpCmd.windowOpen] at hclosed
  · rfl

/-- A pin reset and a loss of supply leave the device what `flashAtReset` gives. -/
theorem exec_reset_flash {left : DeviceLeft} {host : List Host.Cell} {s t : State} {c : Instr}
    (hc : c = .pinReset left host ∧ s.power ≠ .inReset ∨ c = .lossOfSupply left host ∧ s.power ≠ .off)
    (ht : exec c s = .next t) : t.flash = s.flashAtReset left host := by
  obtain ⟨rfl, hp⟩ | ⟨rfl, hp⟩ := hc
  · have hreset : exec (.pinReset left host) s = .next (s.cleared .inReset (s.flashAtReset left host)) := if_neg hp
    cases hreset.symm.trans ht
    rfl
  · have hloss : exec (.lossOfSupply left host) s = .next (s.cleared .off (s.flashAtReset left host)) := if_neg hp
    cases hloss.symm.trans ht
    rfl

/-- Settles O15: the device holds what the host wrote, or what landed of the write in hand, byte by byte. -/
theorem resetsTearOnlyTheWriteInHand : Obligations.ResetsTearOnlyTheWriteInHand := by
  intro left host s t c hwf hc ht
  rw [exec_reset_flash hc ht, State.flashAtReset]
  refine ⟨fun hlent => if_pos hlent, fun hown => ?_⟩
  rw [if_neg hown]
  refine ⟨fun p hcmd a => ?_, fun b hcmd a ha => ?_, fun hclosed => ?_⟩
  · rw [State.land_program hcmd, Flash.byte_and _ hwf, landed_length]
  · rw [State.land_erase hcmd]
    exact Flash.byte_erase_outside _ _ ha
  · rw [State.land_closed hclosed]

end Sys2Proof.Machine
end

section
/-! The scheduling of the journal's jobs and the beginning of a write, for APPEND, COPY and ERASE. -/

namespace Sys2Proof.Machine

/-! ### Whose turn it is (R147, R148) -/

theorem journalFree.running {s : State} (hfree : journalFree s) : s.power = .running := hfree.1

/-- The bus is the part's own and no RESTART waits (R161, R175). -/
theorem journalFree.canBegin {s : State} (hfree : journalFree s) : s.canBegin = true := by
  obtain ⟨-, -, -, -, hlend, hrestart, -, -⟩ := hfree
  simp [State.canBegin, hlend, hrestart]

theorem journalFree.jobsFree {s : State} (hfree : journalFree s) : s.jobsFree = true := by
  have hbegin := hfree.canBegin
  obtain ⟨-, hreplay, hfault, hjob, -, -, hcmd, hcheck⟩ := hfree
  simp [State.jobsFree, hreplay, hfault, hjob, hbegin, hcmd, hcheck]

/-- A record of a size does not fit in the head, or there is none: its write needs a band (R138, R146). -/
def Journal.opensBand (jc : Journal) (size : Nat) : Prop := ∀ h, jc.head = some h → 4096 < h.pos + size

theorem Journal.needsBand_iff (jc : Journal) (size : Nat) : jc.needsBand size = true ↔ jc.opensBand size := by
  unfold Journal.needsBand Journal.opensBand Config.bandBytes
  cases jc.head with
  | none => simp
  | some h => simp only [decide_eq_true_eq, Option.some.injEq, forall_eq']

theorem Journal.reserved_append_iff (jc : Journal) :
    jc.reserved .append = true ↔ (jc.bands.countP fun r => r.state = .erased) < 2 := by
  simp [Journal.reserved, Journal.rows]

/-- The reserve holds an append of a size back (R147): it would open the last ERASED band. -/
def Journal.heldBack (jc : Journal) (size : Nat) : Prop :=
  jc.opensBand size ∧ (jc.bands.countP fun r => r.state = .erased) < 2

/-- The write that an append turn would begin for an item of the queue, with the flag of a write that waits (R143, R153). -/
def State.queuedWrite (s : State) (q : QItem) : WriteJob := s.appendJob q (s.jc.held.any fun x => x.changed)

theorem State.nextAppend_cons {s : State} {q : QItem} {rest : List QItem} (hq : s.jc.queue = q :: rest) :
    s.nextAppend = some (s.queuedWrite q) := by
  simp [State.nextAppend, State.queuedWrite, hq]

/-- An append pends unless the reserve holds it back. -/
theorem State.appendPends_iff {s : State} {q : QItem} {rest : List QItem} (hq : s.jc.queue = q :: rest) :
    s.appendPends = true ↔ ¬ s.jc.heldBack (s.queuedWrite q).bytes.length := by
  rw [State.appendPends, State.nextAppend_cons hq, Option.any_some, Journal.heldBack, ← Journal.needsBand_iff,
    ← Journal.reserved_append_iff, Bool.not_eq_true', ← Bool.not_eq_true, Bool.and_eq_true]

theorem Journal.compactionPends_idle {jc : Journal} (hidle : jc.compaction = .idle) (herase : jc.toErase = []) :
    jc.compactionPends = false := by
  simp [Journal.compactionPends, hidle, herase]

/-- Where the turn is the append side's, APPEND begins its write, or does nothing where the reserve holds it back. -/
theorem exec_append {s : State} {q : QItem} {rest : List QItem} (hfree : journalFree s) (hq : s.jc.queue = q :: rest)
    (hside : (s.jc.compaction = .idle ∧ s.jc.toErase = []) ∨ s.jc.lastSide = some .compaction) :
    (¬ s.jc.heldBack (s.queuedWrite q).bytes.length → exec .append s = .next (s.beginWrite (s.queuedWrite q)))
      ∧ (s.jc.heldBack (s.queuedWrite q).bytes.length → exec .append s = .next s) := by
  have hexec : exec .append s = .next (if s.appendTurn then s.beginWrite (s.queuedWrite q) else s) := by
    show execAppend s = _
    rw [execAppend, whenRunning_running hfree.running, State.nextAppend_cons hq]
  have hturn : s.appendTurn = s.appendPends := by
    rw [State.appendTurn, hfree.jobsFree, Bool.true_and]
    obtain ⟨hidle, herase⟩ | hlast := hside
    · simp [Journal.compactionPends_idle hidle herase]
    · simp [hlast]
  rw [hexec, hturn]
  refine ⟨fun hroom => ?_, fun hheld => ?_⟩
  · rw [if_pos ((State.appendPends_iff hq).mpr hroom)]
  · rw [if_neg fun hpends => (State.appendPends_iff hq).mp hpends hheld]

/-! ### The beginning of a write (R132, R139, R143, R146, R150) -/

/-- The state with a write begun and its first program on the bus. -/
def State.writing (s : State) (w : WriteJob) (p : Prog) : State :=
  { s with
    jc := { s.jc.startWrite w with next := none }
    sp := { s.sp with cmd := .program p .busy, poll := some 0 } }

theorem State.issue_begins {s : State} (hbegin : s.canBegin = true) (p : Prog) :
    s.issue p = { s with sp := { s.sp with cmd := .program p .busy, poll := some 0 }, jc := { s.jc with next := none } } :=
  if_pos hbegin

/-- With a head, a write begins with its record where it fits, and otherwise with the close of the head. -/
theorem State.beginWrite_head {s : State} {w : WriteJob} {h : Head} (hbegin : s.canBegin = true) (hh : s.jc.head = some h) :
    s.beginWrite w = s.writing w (if h.pos + w.bytes.length ≤ 4096
      then { purpose := .recordFirst, band := h.band, offset := h.pos, data := w.bytes.take (256 - h.pos % 256) }
      else { purpose := .closeLength, band := h.band, offset := 11, data := closeBytes (h.pos - 16) }) := by
  have hstarted : (s.jc.startWrite w).head = some h := hh
  unfold State.beginWrite Config.bandBytes
  simp only [State.mapJournal_fields, hstarted]
  split
  · exact State.issue_begins (s := { s with jc := s.jc.startWrite w }) hbegin _
  · exact State.issue_begins (s := { s with jc := s.jc.startWrite w }) hbegin _

/-- With no head, a write begins with the opening of a band. -/
theorem State.beginWrite_opens {s : State} {w : WriteJob} (hh : s.jc.head = none) :
    s.beginWrite w = State.openBand { s with jc := s.jc.startWrite w } w := by
  have hstarted : (s.jc.startWrite w).head = none := hh
  unfold State.beginWrite
  simp only [State.mapJournal_fields, hstarted]
  rfl

/-- With no head and a sequence left, a write that may open a band begins with the header of the ERASED band of lowest index. -/
theorem State.beginWrite_header {s : State} {w : WriteJob} {b : Nat} (hbegin : s.canBegin = true) (hh : s.jc.head = none)
    (hopen : s.jc.reserved w.side = false) (hseq : s.jc.lastSeq ≠ 0xFFFFFFFE) (hb : s.jc.lowestErased = some b) :
    s.beginWrite w = { s with
      jc := { s.jc.startWrite w with next := none, lastSeq := s.jc.lastSeq + 1 }
      sp := { s.sp with
        cmd := .program { purpose := .header, band := b, offset := 0, data := headerBytes s.straps (s.jc.lastSeq + 1) } .busy
        poll := some 0 } } := by
  have hres : (s.jc.startWrite w).reserved w.side = false := hopen
  have hlow : (s.jc.startWrite w).lowestErased = some b := hb
  have hseq' : ¬ (s.jc.startWrite w).lastSeq = Config.maxGeneration := hseq
  rw [State.beginWrite_opens hh, State.openBand]
  simp only [hres, hlow, hseq', if_false, Bool.false_eq_true]
  exact State.issue_begins
    (s := { s with jc := { s.jc.startWrite w with lastSeq := s.jc.lastSeq + 1 } }) hbegin _

/-- With no head and no sequence left, a write that may open a band puts the journal in FAULT. -/
theorem State.beginWrite_fault {s : State} {w : WriteJob} (hh : s.jc.head = none) (hopen : s.jc.reserved w.side = false)
    (hseq : s.jc.lastSeq = 0xFFFFFFFE) : FaultEntered s (s.beginWrite w) := by
  have hres : (s.jc.startWrite w).reserved w.side = false := hopen
  have hseq' : (s.jc.startWrite w).lastSeq = Config.maxGeneration := hseq
  rw [State.beginWrite_opens hh, State.openBand]
  simp only [hres, hseq', if_true, if_false, Bool.false_eq_true]
  exact State.enterFault_entered _

/-- With an ERASED band there is one of lowest index. -/
theorem Journal.lowestErased_exists {jc : Journal} (h : 0 < jc.bands.countP fun r => r.state = .erased) :
    ∃ b, jc.lowestErased = some b := by
  obtain ⟨r, hr, her⟩ := List.countP_pos_iff.mp h
  exact Option.isSome_iff_exists.mp (List.findIdx?_isSome.trans (List.any_eq_true.mpr ⟨r, hr, her⟩))

/-- Settles O49: the append's turn, by the room in the head, the reserve and the sequences left. -/
theorem appendBeginsItsProgram : Obligations.AppendBeginsItsProgram := by
  intro q rest s hfree hq hside
  obtain ⟨hturn, hheld⟩ := exec_append hfree hq hside
  obtain ⟨r, hw, htomb, hrecord⟩ := s.appendJob_built q (s.jc.held.any fun x => x.changed)
  change s.queuedWrite q = _ at hw
  have happend : (s.queuedWrite q).side = .append := rfl
  have hbegin := hfree.canBegin
  have hroom : 2 ≤ (s.jc.bands.countP fun x => x.state = .erased) →
      exec .append s = .next (s.beginWrite (s.queuedWrite q)) ∧ s.jc.reserved (s.queuedWrite q).side = false := fun h2 =>
    ⟨hturn fun hb => absurd hb.2 (by omega), by rw [happend, ← Bool.not_eq_true, Journal.reserved_append_iff]; omega⟩
  refine ⟨s.queuedWrite q, r, _, fun p => { s with
    jc := { s.jc with job := some (.write (s.queuedWrite q)), held := none, next := none }
    sp := { s.sp with cmd := .program p .busy, poll := some 0 } }, hw, rfl, fun p => rfl, fun hdel => htomb (.inl hdel),
    fun e hdel he => ?_, fun h hh hfits => ?_, fun h hh hfull h2 => ?_, fun hh h2 hseq => ?_, fun hh h2 hseq => ?_,
    fun hneeds h2 => ?_⟩
  · obtain ⟨hid, hfields⟩ := hrecord e hdel he
    exact ⟨hid.trans (findEntry_id he), hfields⟩
  · rw [hturn fun hb => absurd (hb.1 h hh) (by omega), State.beginWrite_head hbegin hh, if_pos hfits]
    rfl
  · rw [(hroom h2).1, State.beginWrite_head hbegin hh,
      if_neg (Nat.not_le_of_lt hfull)]
    rfl
  · obtain ⟨b, hb⟩ := Journal.lowestErased_exists (jc := s.jc) (by omega)
    refine ⟨b, hb, ?_⟩
    rw [(hroom h2).1, State.beginWrite_header hbegin hh (hroom h2).2 hseq hb]
    rfl
  · exact ⟨_, (hroom h2).1, State.beginWrite_fault hh (hroom h2).2 hseq⟩
  · refine hheld ⟨fun h hh => ?_, h2⟩
    obtain hnone | ⟨h', hh', hfull⟩ := hneeds
    · cases hnone.symm.trans hh
    · cases hh'.symm.trans hh
      exact hfull

/-! ### The compaction side's turn (R148 to R150, R152) -/

/-- Two records of one entry, of the same kind and from the same offset, are the same (R135). -/
theorem JRecord.eq_of_kind_offset {e : Entry} {r r' : JRecord}
    (hr : r.id = e.id ∧ (r.loc = true ↔ e.scope = .loc) ∧ r.gen = e.ver.gen ∧ r.origin = e.ver.origin
      ∧ r.length = e.value.length ∧ r.data = e.value.drop r.offset)
    (hr' : r'.id = e.id ∧ (r'.loc = true ↔ e.scope = .loc) ∧ r'.gen = e.ver.gen ∧ r'.origin = e.ver.origin
      ∧ r'.length = e.value.length ∧ r'.data = e.value.drop r'.offset)
    (hkind : r.kind = r'.kind ∧ r.offset = r'.offset) : r = r' := by
  obtain ⟨hid, hloc, hgen, horigin, hlength, hdata⟩ := hr
  obtain ⟨hid', hloc', hgen', horigin', hlength', hdata'⟩ := hr'
  obtain ⟨k, l, i, g, o, n, off, d⟩ := r
  obtain ⟨k', l', i', g', o', n', off', d'⟩ := r'
  have hll : l = l' := Bool.eq_iff_iff.mpr (hloc.trans hloc'.symm)
  simp only at *
  obtain ⟨rfl, rfl⟩ := hkind
  simp only [hid, hid', hll, hgen, hgen', horigin, horigin', hlength, hlength', hdata, hdata']

/-- The write of an append for an item is one write: Table 7.3.3 leaves nothing open. -/
theorem BuiltFor.unique {s : State} {q : QItem} {changed : Bool} {w w' : WriteJob} (h : BuiltFor s q changed w)
    (h' : BuiltFor s q changed w') : w = w' := by
  obtain ⟨r, rfl, htomb, hrecord⟩ := h
  obtain ⟨r', rfl, htomb', hrecord'⟩ := h'
  suffices r = r' by rw [this]
  by_cases hgone : q.del = true ∨ s.entry q.id = none
  · rw [htomb hgone, htomb' hgone]
  · obtain ⟨hdel, hentry⟩ := not_or.mp hgone
    obtain ⟨e, he⟩ := Option.ne_none_iff_exists'.mp hentry
    obtain ⟨hid, hloc, hgen, horigin, hlength, hdata, hdead, htail, hfull⟩ := hrecord e (by simpa using hdel) he
    obtain ⟨hid', hloc', hgen', horigin', hlength', hdata', hdead', htail', hfull'⟩ := hrecord' e (by simpa using hdel) he
    refine JRecord.eq_of_kind_offset ⟨hid, hloc, hgen, horigin, hlength, hdata⟩
      ⟨hid', hloc', hgen', horigin', hlength', hdata'⟩ ?_
    by_cases hts : e.isTombstone = true
    · exact ⟨(hdead hts).1.trans (hdead' hts).1.symm, (hdead hts).2.trans (hdead' hts).2.symm⟩
    · rw [Bool.not_eq_true] at hts
      by_cases hwhole : e.dirty = .whole ∨ e.dirty = .none ∨ e.dirty = .from_ 0 ∨ e.base = none
      · exact ⟨(hfull hts hwhole).1.trans (hfull' hts hwhole).1.symm, (hfull hts hwhole).2.trans (hfull' hts hwhole).2.symm⟩
      · obtain ⟨d, hd, hpos, hbase⟩ : ∃ d, e.dirty = .from_ d ∧ 0 < d ∧ e.base ≠ none := by
          cases hd : e.dirty with
          | from_ d => exact ⟨d, rfl, Nat.pos_of_ne_zero fun h0 => hwhole (by simp [hd, h0]), fun hb => hwhole (by simp [hb])⟩
          | none => simp [hd] at hwhole
          | whole => simp [hd] at hwhole
        obtain ⟨hk, ho⟩ := htail hts d hd hpos hbase
        obtain ⟨hk', ho'⟩ := htail' hts d hd hpos hbase
        exact ⟨hk.trans hk'.symm, ho.trans ho'.symm⟩

/-- The turn is the compaction side's: nothing is queued, the last job was none of its own, or the reserve holds the append at
the head of the queue back. -/
theorem State.compactionTurn_of {s : State} (hfree : journalFree s) (hpends : s.jc.compactionPends = true)
    (hside : s.jc.queue = [] ∨ s.jc.lastSide ≠ some .compaction
      ∨ ∃ q rest w, s.jc.queue = q :: rest ∧ BuiltFor s q (s.jc.held.any fun x => x.changed) w
        ∧ (s.jc.bands.countP fun x => x.state = .erased) < 2 ∧ ∀ h, s.jc.head = some h → 4096 < h.pos + w.bytes.length) :
    s.compactionTurn = true := by
  suffices s.appendPends = false ∨ s.jc.lastSide ≠ some .compaction by
    rw [State.compactionTurn, hfree.jobsFree, hpends]
    simpa using this
  obtain hempty | hlast | ⟨q, rest, w, hq, hbuilt, hfew, hneeds⟩ := hside
  · left
    simp [State.appendPends, State.nextAppend, hempty]
  · exact .inr hlast
  · left
    have hw : w = s.queuedWrite q := hbuilt.unique (s.appendJob_built q _)
    rw [← Bool.not_eq_true, State.appendPends_iff hq, not_not]
    exact ⟨hw ▸ hneeds, hfew⟩

/-- A copy's turn: FAULT where the copy needs a band and none is ERASED, otherwise its write begins. -/
theorem exec_copy {s : State} {band : Nat} {cursor : Option Nat} {e : Entry} (hp : s.power = .running)
    (hc : s.jc.compaction = .retiring band cursor) (hturn : s.compactionTurn = true) (hdue : s.jc.eraseDue = none)
    (he : s.copyEntry band cursor = some e) :
    (s.jc.opensBand (e.copyJob false).bytes.length ∧ (s.jc.bands.countP fun x => x.state = .erased) = 0 →
        exec .copy s = .next s.enterFault)
      ∧ (¬ (s.jc.opensBand (e.copyJob false).bytes.length ∧ (s.jc.bands.countP fun x => x.state = .erased) = 0) →
        exec .copy s = .next (s.beginWrite (e.copyJob false))) := by
  have hexec : exec .copy s = .next (if s.jc.needsBand (e.copyJob false).bytes.length = true ∧ s.jc.rows .erased = 0
      then s.enterFault else s.beginWrite (e.copyJob false)) := by
    show execCopy s = _
    rw [execCopy, whenRunning_running hp]
    simp only [hc, hturn, hdue, he, and_self, if_true]
  rw [hexec, ← Journal.needsBand_iff]
  exact ⟨fun hbare => congrArg Host.Outcome.next (if_pos hbare), fun hroom => congrArg Host.Outcome.next (if_neg hroom)⟩

theorem exec_erase {s : State} {band : Nat} (hp : s.power = .running) (hturn : s.compactionTurn = true)
    (hdue : s.jc.eraseDue = some band) :
    exec .erase s = .next { s with
      jc := { s.jc with job := some (.erase band) }
      sp := { s.sp with cmd := .erase band .busy, poll := some 0 } } := by
  show execErase s = _
  rw [execErase, whenRunning_running hp]
  simp only [hdue, hturn, if_true]

/-- No erase is due while the RETIRING band holds a base (R149, R152). -/
theorem Journal.eraseDue_none {jc : Journal} {band : Nat} {cursor : Option Nat} {row : BandRow} (herase : jc.toErase = [])
    (hc : jc.compaction = .retiring band cursor) (hrow : jc.bands[band]? = some row) (hlive : row.live ≠ 0) :
    jc.eraseDue = none := by
  simp [Journal.eraseDue, herase, hc, hrow, hlive]

/-- The erase that is due: replay's first, then that of the RETIRING band of count 0 (R148, R152). -/
theorem Journal.eraseDue_some {jc : Journal} {band : Nat}
    (h : (∃ l, jc.toErase = band :: l)
      ∨ (jc.toErase = [] ∧ ∃ cursor row, jc.compaction = .retiring band cursor ∧ jc.bands[band]? = some row
        ∧ row.live = 0)) :
    jc.eraseDue = some band ∧ jc.compactionPends = true := by
  obtain ⟨l, hl⟩ | ⟨herase, cursor, row, hc, hrow, hlive⟩ := h
  · simp [Journal.eraseDue, Journal.compactionPends, hl]
  · simp [Journal.eraseDue, Journal.compactionPends, herase, hc, hrow, hlive]

/-- Settles O50: the copy's turn, by the room in the head and the ERASED bands, and the erase's. -/
theorem copyAndEraseBegin : Obligations.CopyAndEraseBegin := by
  intro s hfree hside
  have hp := hfree.running
  have hbegin := hfree.canBegin
  refine ⟨fun band cursor e row herase hc hrow hlive hseq hsorted hmem hbase habove hleast => ?_, fun band hdue => ?_⟩
  · have hpends : s.jc.compactionPends = true := by simp [Journal.compactionPends, hc]
    have hrowseq : s.jc.seqOf band = row.seq := by simp [Journal.seqOf, hrow]
    have hnext : s.copyEntry band cursor = some e := by
      rw [State.copyEntry_iff hsorted, CopyNext, hrowseq]
      exact ⟨hmem, hbase ▸ hseq, hbase, habove, fun x hx _ hxbase hxabove => hleast x hx hxbase hxabove⟩
    obtain ⟨hfault, hbegins⟩ := exec_copy hp hc (State.compactionTurn_of hfree hpends hside)
      (Journal.eraseDue_none herase hc hrow hlive) hnext
    have hsome : ∀ x ∈ s.jc.bands, x.state = .erased → exec .copy s = .next (s.beginWrite (e.copyJob false)) :=
      fun x hx hxe => hbegins fun hno => absurd hxe (by simpa using List.countP_eq_zero.mp hno.2 x hx)
    refine ⟨e.copyJob false, Entry.copyJob_of e false, fun h hh hfits => ?_, fun h hh hfull hany => ?_,
      fun hh hlast b x hx hxe hlow => ?_, fun hnone => ?_⟩
    · rw [hbegins fun hno => absurd (hno.1 h hh) (by omega), State.beginWrite_head hbegin hh, if_pos hfits]
      rfl
    · obtain ⟨x, hx, hxe⟩ := hany
      rw [hsome x hx hxe, State.beginWrite_head hbegin hh, if_neg (Nat.not_le_of_lt hfull)]
      rfl
    · rw [hsome x (List.mem_of_getElem? hx) hxe,
        State.beginWrite_header hbegin hh rfl hlast (Journal.lowestErased_of hx hxe hlow)]
      rfl
    · by_cases hbare : s.jc.opensBand (e.copyJob false).bytes.length
          ∧ (s.jc.bands.countP fun x => x.state = .erased) = 0
      · exact ⟨_, hfault hbare, State.enterFault_entered s⟩
      · refine ⟨_, hbegins hbare, ?_⟩
        obtain ⟨hh, hlast⟩ | ⟨hno, hneeds⟩ := hnone
        · exact State.beginWrite_fault hh rfl hlast
        · exact absurd ⟨hneeds, List.countP_eq_zero.mpr fun x hx => by simpa using hno x hx⟩ hbare
  · obtain ⟨hdue, hpends⟩ := Journal.eraseDue_some hdue
    exact exec_erase hp (State.compactionTurn_of hfree hpends hside) hdue

end Sys2Proof.Machine
end

section
/-! PROGRAM_VERIFY of a program that reads back as sent: the closes, the openings, and the closes of replay. -/

namespace Sys2Proof.Machine

/-- A program that reads back as sent has succeeded (R174). -/
theorem exec_programVerify_good {s : State} {p : Prog} (hp : s.power = .running) (hcmd : s.sp.cmd = .program p .verify)
    (hread : Flash.read s.flash (p.band * 4096 + p.offset) p.data.length = p.data) :
    exec .programVerify s = .next (s.endCommand.programDone p) := by
  have hgood : s.matches p = true := beq_iff_eq.mpr hread
  show execProgramVerify s = _
  rw [execProgramVerify, whenRunning_running hp]
  simp only [hcmd, hgood, if_true]

/-- A write in hand, at the end of its program. -/
theorem State.withWrite_job {s : State} {w : WriteJob} (hjob : s.jc.job = some (.write w)) (k : WriteJob → State) :
    s.endCommand.withWrite k = k w := by
  simp [State.withWrite, Journal.write, hjob]

theorem State.withHead_head {s : State} {h : Head} (hh : s.jc.head = some h) (k : Head → State) :
    s.endCommand.withHead k = k h := by
  simp [State.withHead, hh]

/-- What follows in the job is issued with the ended command gone. -/
theorem State.endCommand_issued (s : State) (p : Prog) : Issued s (s.endCommand.issue p) p :=
  s.endCommand.issue_issued p

/-- The second part of a record follows the first where the record crosses a page (R139). -/
theorem State.programDone_recordFirst {s : State} {p : Prog} {w : WriteJob} {h : Head} (hjob : s.jc.job = some (.write w))
    (hh : s.jc.head = some h) (hpurpose : p.purpose = .recordFirst) (hcross : 256 - h.pos % 256 < w.bytes.length) :
    s.endCommand.programDone p = s.endCommand.issue
      { purpose := .recordSecond, band := p.band, offset := p.offset + p.data.length
        data := w.bytes.drop (256 - h.pos % 256) } := by
  have hrest : ¬ secondPart h.pos w.bytes = [] := by
    rw [secondPart, List.drop_eq_nil_iff, Nat.not_le]
    exact hcross
  simp only [State.programDone, hpurpose, State.withWrite_job hjob, State.withHead_head hh, if_neg hrest]
  rfl

/-- The state with the head band closed: its row FULL, the bytes that its records leave unused stranded, and no head (R132). -/
def State.bandClosed (s : State) (band len : Nat) : State :=
  { s with jc := { s.jc with
    bands := s.jc.bands.modify band fun r => { r with state := .full }
    stranded := min 0xFFFFFFFF (s.jc.stranded + (4080 - len)), head := none } }

theorem State.bandClosed_eq (s : State) (band len : Nat) :
    (s.mapJournal fun jc => (jc.strand len).leaveHead band) = s.bandClosed band len := rfl

/-- After the close's mark the next band is opened (R146). -/
theorem State.programDone_closeMark {s : State} {p : Prog} {w : WriteJob} {h : Head} (hjob : s.jc.job = some (.write w))
    (hh : s.jc.head = some h) (hpurpose : p.purpose = .closeMark) :
    s.endCommand.programDone p = (s.endCommand.bandClosed p.band (h.pos - 16)).openBand w := by
  simp only [State.programDone, hpurpose, State.withWrite_job hjob, State.withHead_head hh, State.bandClosed_eq,
    Config.headerBytes]

/-- After the mark of a close that a failure forced, the record is written again (R153). -/
theorem State.programDone_forcedMark {s : State} {p : Prog} {w : WriteJob} {h : Head} (hjob : s.jc.job = some (.write w))
    (hh : s.jc.head = some h) (hpurpose : p.purpose = .forcedMark) :
    s.endCommand.programDone p = (s.endCommand.bandClosed p.band (h.pos + w.bytes.length - 16)).rewrite w := by
  simp only [State.programDone, hpurpose, State.withWrite_job hjob, State.withHead_head hh, State.bandClosed_eq,
    forcedLength, Config.headerBytes]

/-- The state with a band as its head, opened with the last sequence, before the trigger is judged (R146). -/
def State.withHeadBand (s : State) (band : Nat) : State :=
  { s with jc := { s.jc with
    bands := s.jc.bands.modify band fun _ => { state := .open_, seq := some s.jc.lastSeq, live := 0 }
    head := some { band := band, pos := 16 } } }

/-- A band opened is the head, the trigger is judged, and the record follows, up to the end of the header's page (R139, R146). -/
theorem State.bandOpened_spec (s : State) (band : Nat) (w : WriteJob) :
    TriggerJudged (s.withHeadBand band) (s.withHeadBand band).judgeTrigger
      ∧ Issued (s.withHeadBand band).judgeTrigger (s.bandOpened band w)
        { purpose := .recordFirst, band := band, offset := 16, data := w.bytes.take 240 } :=
  ⟨State.judgeTrigger_judged _, State.issue_issued _ _⟩

/-! ### The closes of replay (R169, R170) -/

/-- The second program of a close of replay follows the first at once, but for a RESTART that waits. -/
theorem State.issueInReplay_endCommand (s : State) (q : Prog) :
    (s.cp.restarting = false → s.endCommand.issueInReplay q = { s with
        jc := { s.jc with next := none }, sp := { s.sp with cmd := .program q .busy, poll := some 0 } })
      ∧ (s.cp.restarting = true → s.endCommand.issueInReplay q = { s with
        jc := { s.jc with next := some q }, sp := { s.sp with cmd := .none, poll := none } }) := by
  refine ⟨fun hfree => ?_, fun hwaits => ?_⟩
  · simp only [State.issueInReplay, State.endCommand_fields, hfree, Bool.false_eq_true, if_false]
  · simp only [State.issueInReplay, State.endCommand_fields, hwaits, if_true]
    rfl

/-- The state with a close of replay over, its band FULL and its unused bytes stranded, and those to come. -/
def State.replayBandClosed (s : State) (r : Replay) (band off : Nat) (todo : List (Nat × Nat)) : State :=
  { s with jc := { s.jc with
    bands := s.jc.bands.modify band fun r => { r with state := .full }
    stranded := min 0xFFFFFFFF (s.jc.stranded + (4080 - (off - 16)))
    replay := some { r with phase := .closing todo } } }

/-- A close of replay that stands leads on to the next. -/
theorem State.replayClosed_next {s : State} {r : Replay} {band off : Nat} {todo : List (Nat × Nat)} (hr : s.jc.replay = some r)
    (hphase : r.phase = .closing ((band, off) :: todo)) :
    s.replayClosed true = (s.replayBandClosed r band off todo).nextClose todo := by
  have hnow : s.jc.replay.map Replay.phase = some (.closing ((band, off) :: todo)) := by rw [hr, Option.map_some, hphase]
  have hclosed : (s.mapJournal fun jc => (jc.strand (off - Config.headerBytes)).mapRow band (.to .full)).setPhase (.closing todo)
      = s.replayBandClosed r band off todo := by
    simp only [State.setPhase, State.mapJournal, Journal.mapRow, Journal.strand, hr]
    rfl
  rw [State.replayClosed, hnow]
  exact congrArg (State.nextClose · todo) hclosed

/-- Settles O53: what follows each program that leads to a record, and each close of replay. -/
theorem bandsCloseAndOpen : Obligations.BandsCloseAndOpen := by
  refine ⟨fun p w s hp hcmd hread hjob => ?_, fun p r band off todo s hp hcmd hread hr hphase => ?_⟩
  all_goals rw [exec_programVerify_good hp hcmd hread]
  · refine ⟨fun h hh hpurpose hcross => ⟨_, rfl, ?_⟩, fun hpurpose => ⟨_, rfl, ?_⟩, fun h hh hpurpose => ⟨_, rfl, ?_⟩,
      fun hpurpose => ⟨_, (s.endCommand.withHeadBand p.band).judgeTrigger, rfl, ?_⟩, fun h hh hpurpose => ⟨_, rfl, ?_⟩,
      fun hpurpose => ⟨_, rfl, ?_⟩, fun h hh hpurpose hsorted => ⟨_, rfl, ?_⟩⟩
    · rw [State.programDone_recordFirst hjob hh hpurpose hcross]
      exact s.endCommand_issued _
    · simp only [State.programDone, hpurpose]
      exact s.endCommand_issued _
    · rw [State.programDone_closeMark hjob hh hpurpose]
      exact State.openBand_opening _ w
    · simp only [State.programDone, hpurpose, State.withWrite_job hjob]
      exact s.endCommand.bandOpened_spec p.band w
    · simp only [State.programDone, hpurpose, State.withWrite_job hjob, State.withHead_head hh]
      exact s.endCommand_issued _
    · simp only [State.programDone, hpurpose]
      exact s.endCommand_issued _
    · rw [State.programDone_forcedMark hjob hh hpurpose]
      exact State.rewrite_rewritten (s := s.endCommand.bandClosed p.band (h.pos + w.bytes.length - 16)) hsorted w
  · refine ⟨fun hpurpose mark hmark => ?_, fun hpurpose => ⟨_, rfl, ?_⟩⟩
    · have hnext : s.endCommand.programDone p = s.endCommand.issueInReplay mark := by
        rw [State.programDone, hpurpose, hmark]
        rfl
      obtain ⟨hfree, hwaits⟩ := s.issueInReplay_endCommand mark
      rw [hnext]
      exact ⟨fun h => congrArg _ (hfree h), fun h => congrArg _ (hwaits h)⟩
    · have hnext : s.endCommand.programDone p = (s.endCommand.replayBandClosed r band off todo).nextClose todo := by
        rw [State.programDone, hpurpose]
        exact State.replayClosed_next (s := s.endCommand) hr hphase
      rw [hnext]
      exact State.nextClose_closes _ todo

end Sys2Proof.Machine
end

section
/-! The end of a record written whole: the base and the counts, the queue and the entry, the sweep, and a waiting FLUSH. -/

namespace Sys2Proof.Machine

/-! ### The base and the live-base counts (R144, R145, R151) -/

theorem raiseLive_get (rows : List BandRow) (band i : Nat) : (raiseLive rows band)[i]?
    = (rows[i]?).map fun r : BandRow => { r with live := r.live + if i = band then 1 else 0 } := by
  rw [raiseLive, List.getElem?_modify]
  by_cases h : band = i
  · simp [h]
  · simp [h, Ne.symm h]

/-- The base that the record gives its entry, where it moves it: the head band's sequence. -/
def State.movedBase (s : State) (w : WriteJob) (h : Head) : Option Nat :=
  (s.jc.seqOf h.band).filter fun q => w.kind.setsBase && !w.gone && (s.entry w.id).any fun e => e.base ≠ some q

/-- The rows of the band table after the record. -/
def State.rowsAfter (s : State) (w : WriteJob) (h : Head) : List BandRow :=
  match s.movedBase w h with
  | some _ => raiseLive (dropLive s.jc.bands ((s.entry w.id).bind Entry.base)) h.band
  | none => s.jc.bands

/-- An entry with its base moved, where it is moved. -/
def Entry.rebased (id : Nat) (moved : Option Nat) (e : Entry) : Entry :=
  if e.id = id then { e with base := moved <|> e.base } else e

theorem Entry.rebased_none (id : Nat) (e : Entry) : e.rebased id none = e := ite_self e

/-- The settling of the base is the moving of it, if it is moved, and of the counts with it. -/
theorem State.settleBase_eq (s : State) (w : WriteJob) (h : Head) : s.settleBase w h = { s with
    pt := s.pt.mapEntries (Entry.rebased w.id (s.movedBase w h))
    jc := { s.jc with bands := s.rowsAfter w h } } := by
  have hstays : s.movedBase w h = none → s = { s with
      pt := s.pt.mapEntries (Entry.rebased w.id (s.movedBase w h))
      jc := { s.jc with bands := s.rowsAfter w h } } := fun hnone => by
    simp only [State.rowsAfter, hnone, ParamTable.mapEntries, funext (Entry.rebased_none w.id), List.map_id']
  unfold State.settleBase State.moveBase
  cases hseq : s.jc.seqOf h.band with
  | none => exact hstays (by simp [State.movedBase, hseq])
  | some q =>
    dsimp only
    split
    · next hsets =>
      cases he : s.entry w.id with
      | none => exact hstays (by simp [State.movedBase, he])
      | some e =>
        dsimp only
        split
        · next hbase => exact hstays (by simp [State.movedBase, hseq, he, hbase])
        · next hbase =>
          have hmoved : s.movedBase w h = some q := by
            simp [State.movedBase, hseq, he, hsets, hbase]
          simp only [State.rowsAfter, hmoved, he]
          rfl
    · next hsets => exact hstays (by simp [State.movedBase, hseq, hsets])

/-- A FULL or a TOMB of an entry moves its base to the head band, unless it is there (R144, R151). -/
theorem State.movedBase_of {s : State} {w : WriteJob} {h : Head} {e : Entry} {q : Nat} (he : s.entry w.id = some e)
    (hseq : s.jc.seqOf h.band = some q) (hgone : w.gone = false) (hkind : w.kind = .full ∨ w.kind = .tombShared) :
    s.movedBase w h = if e.base = some q then none else some q := by
  have hsets : w.kind.setsBase = true := by obtain hk | hk := hkind <;> rw [hk] <;> rfl
  by_cases hbase : e.base = some q <;> simp [State.movedBase, he, hseq, hgone, hsets, hbase]

/-- A TAIL, a LOCAL TOMB, and a record of an entry deleted since move no base (R144, R151). -/
theorem State.movedBase_none {s : State} {w : WriteJob} {h : Head}
    (hkept : w.gone = true ∨ (∃ o, w.kind = .tail o) ∨ w.kind = .tombLocal ∨ s.entry w.id = none) :
    s.movedBase w h = none := by
  unfold State.movedBase
  obtain hgone | ⟨o, hk⟩ | hk | he := hkept
  · simp [hgone]
  · simp [hk, RecKind.setsBase]
  · simp [hk, RecKind.setsBase]
  · simp [he]

/-- The counts after a base has moved: the old band's falls, the head band's rises. -/
theorem State.rowsAfter_get {s : State} {w : WriteJob} {h : Head} {e : Entry} {q : Nat} (he : s.entry w.id = some e)
    (hmoved : s.movedBase w h = some q) (i : Nat) :
    (s.rowsAfter w h)[i]? = (s.jc.bands[i]?).map fun r : BandRow => { r with
      live := r.live
        - (if (e.base.bind fun b => s.jc.bands.findIdx? fun r => r.seq = some b && r.live ≠ 0) = some i then 1 else 0)
        + (if i = h.band then 1 else 0) } := by
  simp only [State.rowsAfter, hmoved, he, Option.bind_some, raiseLive_get, dropLive_get, Option.map_map]
  rfl

/-! ### The queue and the entry (R142, R144, R151) -/

/-- The queue after the record: an id unchanged leaves, a changed one goes to the tail after an append. -/
def Journal.queueAfter (jc : Journal) (w : WriteJob) : List QItem :=
  if w.changed then
    match w.side with
    | .append => (jc.queue.filter fun x => x.id ≠ w.id) ++ jc.queue.filter fun x => x.id = w.id
    | .compaction => jc.queue
  else jc.queue.filter fun x => x.id ≠ w.id

/-- An entry after the record: its base moved where it is moved, and CLEAN where it did not change meanwhile. -/
def Entry.recorded (w : WriteJob) (moved : Option Nat) (e : Entry) : Entry :=
  if e.id = w.id then
    { e with
      base := moved <|> e.base
      jstate := if w.changed then e.jstate else .clean
      dirty := if w.changed then e.dirty else .none }
  else e

theorem Entry.recorded_id (w : WriteJob) (moved : Option Nat) (e : Entry) : (e.recorded w moved).id = e.id := by
  unfold Entry.recorded
  split <;> rfl

theorem Entry.recorded_other {w : WriteJob} {e : Entry} (h : e.id ≠ w.id) (moved : Option Nat) : e.recorded w moved = e :=
  if_neg h

/-- The record of an unchanged id leaves its entry not UNSAVED. -/
theorem Entry.recorded_unsaved {w : WriteJob} (hw : w.changed = false) (moved : Option Nat) (e : Entry) :
    (e.recorded w moved).jstate = .unsaved ↔ e.jstate = .unsaved ∧ e.id ≠ w.id := by
  unfold Entry.recorded
  split <;> simp_all

/-- The state with base, counts and id settled. -/
theorem State.settleId_settleBase (s : State) (w : WriteJob) (h : Head) : (s.settleBase w h).settleId w = { s with
    pt := s.pt.mapEntries (Entry.recorded w (s.movedBase w h))
    jc := { s.jc with
      bands := s.rowsAfter w h, queue := s.jc.queueAfter w
      held := if w.changed then s.jc.held else s.jc.held.filter fun x => x.id ≠ w.id } } := by
  rw [State.settleBase_eq]
  unfold State.settleId
  cases hw : w.changed with
  | true =>
    have hentry : Entry.recorded w (s.movedBase w h) = Entry.rebased w.id (s.movedBase w h) := by
      funext e
      simp [Entry.recorded, Entry.rebased, hw]
    rw [hentry]
    cases hside : w.side <;> simp [Journal.queueAfter, hw, hside, State.mapJournal, Journal.toTail]
  | false =>
    have hentry : Entry.recorded w (s.movedBase w h)
        = (fun e => if e.id = w.id then e.saved else e) ∘ Entry.rebased w.id (s.movedBase w h) := by
      funext e
      by_cases hid : e.id = w.id <;> simp [Entry.recorded, Entry.rebased, hw, hid, Entry.saved]
    simp only [hentry, Journal.queueAfter, hw, Bool.false_eq_true, if_false, State.mapJournal, State.mapEntry,
      ParamTable.mapEntries, Journal.leave, List.map_map]
    cases w.side <;> rfl

/-- The state after a record written whole, before the sweep. -/
def State.recordSettled (s : State) (w : WriteJob) (h : Head) : State :=
  { s with
    pt := s.pt.mapEntries (Entry.recorded w (s.movedBase w h))
    jc := { s.jc with
      queue := s.jc.queueAfter w, bands := s.rowsAfter w h, head := some { h with pos := h.pos + w.bytes.length }
      compaction := s.jc.compaction.moveCursor w, failCount := 0, job := none
      held := if w.changed then s.jc.held else s.jc.held.filter fun x => x.id ≠ w.id
      next := none, lastSide := some w.side }
    cp := { s.cp with counters := { s.cp.counters with recordsWritten := min 0xFFFFFFFF (s.cp.counters.recordsWritten + 1) } } }

/-- After the sweep the trigger is judged, where it waits for a record, and a waiting FLUSH is settled (R149, R158, R159). -/
theorem State.writeDone_eq (s : State) (w : WriteJob) (h : Head) : s.writeDone w h
    = (if (s.recordSettled w h).sweep.jc.chooseHeld then (s.recordSettled w h).sweep.judgeTrigger
      else (s.recordSettled w h).sweep).settleFlush := by
  have hsettled : (((((s.count fun c => { c with recordsWritten := satInc c.recordsWritten }).mapJournal fun jc => { jc with
      failCount := 0, head := some { h with pos := h.pos + w.bytes.length }
      compaction := jc.compaction.moveCursor w }).settleBase w h).settleId w).mapJournal fun jc => jc.endJob w.side)
      = s.recordSettled w h := by
    rw [State.settleId_settleBase]
    rfl
  unfold State.writeDone
  dsimp only
  rw [hsettled]

/-! ### The sweep (R158) -/

theorem State.sweep_busy {s : State} (hq : s.jc.queue ≠ []) : s.sweep = s := by
  simp [State.sweep, hq]

/-- The ids that a sweep takes into the queue. -/
def State.sweptIds (s : State) : List Nat := ((s.pt.entries.filter fun e => e.jstate = .unsaved).map Entry.id).take 64

theorem State.sweep_free {s : State} (hq : s.jc.queue = []) (hfault : s.jc.fault = false) : s.sweep = { s with
    jc := { s.jc with queue := s.sweptIds.map fun i => { id := i, del := false } }
    pt := s.pt.mapEntries fun e => if s.sweptIds.contains e.id then { e with jstate := .queued } else e } := by
  have hidle : (s.jc.queue.isEmpty && !s.jc.fault) = true := by simp [hq, hfault]
  exact if_pos hidle

theorem State.sweptIds_unsaved {s : State} {i : Nat} (hi : i ∈ s.sweptIds) :
    ∃ e ∈ s.pt.entries, e.id = i ∧ e.jstate = .unsaved := by
  obtain ⟨e, he, rfl⟩ := List.mem_map.mp (List.mem_of_mem_take hi)
  obtain ⟨hmem, hun⟩ := List.mem_filter.mp he
  exact ⟨e, hmem, rfl, of_decide_eq_true hun⟩

/-- A sweep takes an entry into the queue by its journal state. -/
theorem State.sweep_entry_eq (s : State) :
    (fun e : Entry => if s.sweptIds.contains e.id then { e with jstate := .queued } else e)
      = fun e : Entry => { e with jstate := if s.sweptIds.contains e.id then .queued else e.jstate } := by
  funext e
  split <;> rfl

/-- A sweep changes the queue and the journal states of ids that have an UNSAVED entry, and nothing else. -/
theorem State.sweep_spec {s : State} (hfault : s.jc.fault = false) : ∃ js : Entry → JState,
    s.sweep = { s with
      pt := s.pt.mapEntries fun e => { e with jstate := js e }
      jc := { s.jc with queue := s.sweep.jc.queue } }
    ∧ (∀ j, s.sweep.entry j = (s.entry j).map fun e => { e with jstate := js e })
    ∧ ∀ e, (∀ x ∈ s.pt.entries, x.id = e.id → x.jstate ≠ .unsaved) → js e = e.jstate := by
  have hfind : ∀ js : Entry → JState, s.sweep.pt.entries = (s.pt.entries.map fun e => { e with jstate := js e }) →
      ∀ j, s.sweep.entry j = (s.entry j).map fun e => { e with jstate := js e } := fun js hmap j => by
    rw [State.entry, hmap]
    exact findEntry_map (f := fun e => { e with jstate := js e }) (fun _ => rfl) _ _
  by_cases hq : s.jc.queue = []
  · refine ⟨fun e => if s.sweptIds.contains e.id then .queued else e.jstate, ?_, hfind _ ?_, fun e hsaved => if_neg fun hin => ?_⟩
    · rw [State.sweep_free hq hfault, State.sweep_entry_eq]
    · rw [State.sweep_free hq hfault, State.sweep_entry_eq]
      rfl
    · obtain ⟨x, hx, hid, hun⟩ := State.sweptIds_unsaved (List.contains_iff_mem.mp hin)
      exact hsaved x hx hid hun
  · refine ⟨Entry.jstate, ?_, hfind _ ?_, fun _ _ => rfl⟩
    · rw [State.sweep_busy hq]
      simp [ParamTable.mapEntries]
    · rw [State.sweep_busy hq]
      simp

/-! ### The state after the sweep -/

/-- The state after a record written whole and the sweep that follows it. -/
def State.recordDone (s : State) (w : WriteJob) (h : Head) : State := (s.recordSettled w h).sweep

/-- The record and the sweep change the entries, the journal and the count of records, and nothing else. -/
theorem State.recordDone_frame {s : State} (hfault : s.jc.fault = false) (w : WriteJob) (h : Head) :
    s.recordDone w h = { s.recordSettled w h with
      pt := { s.pt with entries := (s.recordDone w h).pt.entries }
      jc := { (s.recordSettled w h).jc with queue := (s.recordDone w h).jc.queue } } := by
  obtain ⟨js, hsweep, -, -⟩ := State.sweep_spec (s := s.recordSettled w h) hfault
  unfold State.recordDone
  rw [hsweep]
  rfl

theorem State.recordDone_bands {s : State} (hfault : s.jc.fault = false) (w : WriteJob) (h : Head) :
    (s.recordDone w h).jc.bands = s.rowsAfter w h := by
  rw [State.recordDone_frame hfault]
  rfl

theorem State.recordSettled_entry (s : State) (w : WriteJob) (h : Head) (j : Nat) :
    (s.recordSettled w h).entry j = (s.entry j).map (Entry.recorded w (s.movedBase w h)) :=
  findEntry_map (Entry.recorded_id w _) _ _

/-- An entry of another id keeps all but its journal state. -/
theorem State.recordDone_other {s : State} (hfault : s.jc.fault = false) (w : WriteJob) (h : Head) {j : Nat} {e : Entry}
    (hj : j ≠ w.id) (he : s.entry j = some e) : ∃ js, (s.recordDone w h).entry j = some { e with jstate := js } := by
  obtain ⟨js, -, hentry, -⟩ := State.sweep_spec (s := s.recordSettled w h) hfault
  have hid : e.id ≠ w.id := findEntry_id he ▸ hj
  refine ⟨js e, ?_⟩
  rw [State.recordDone, hentry, State.recordSettled_entry, he, Option.map_some, Entry.recorded_other hid]
  rfl

/-- The entry of the record has the base that the record gave it, and is CLEAN where it did not change meanwhile. -/
theorem State.recordDone_self {s : State} (hfault : s.jc.fault = false) (w : WriteJob) (h : Head) {e : Entry}
    (he : s.entry w.id = some e) : ∃ e', (s.recordDone w h).entry w.id = some e' ∧ e'.base = (s.movedBase w h <|> e.base)
      ∧ (w.changed = false → e' = { e with jstate := .clean, dirty := .none, base := e'.base }) := by
  obtain ⟨js, -, hentry, hkeeps⟩ := State.sweep_spec (s := s.recordSettled w h) hfault
  have hid := findEntry_id he
  refine ⟨_, by rw [State.recordDone, hentry, State.recordSettled_entry, he]; rfl, by simp [Entry.recorded, hid], fun hw => ?_⟩
  have hsaved : ∀ x ∈ (s.recordSettled w h).pt.entries, x.id = (e.recorded w (s.movedBase w h)).id → x.jstate ≠ .unsaved := by
    intro x hx hxid hun
    obtain ⟨y, -, rfl⟩ := List.mem_map.mp hx
    rw [Entry.recorded_id, Entry.recorded_id, hid] at hxid
    exact ((Entry.recorded_unsaved hw _ y).mp hun).2 hxid
  dsimp only
  rw [hkeeps _ hsaved]
  simp [Entry.recorded, hid, hw]

/-! ### The queue after the sweep -/

/-- With ids left in the queue there is no sweep. -/
theorem State.recordDone_busy {s : State} {w : WriteJob} (h : Head) (hq : s.jc.queueAfter w ≠ []) :
    s.recordDone w h = s.recordSettled w h := State.sweep_busy hq

/-- The ids swept after the record of an unchanged id are those of the other UNSAVED entries. -/
theorem State.recordSettled_sweptIds (s : State) {w : WriteJob} (hw : w.changed = false) (h : Head) :
    (s.recordSettled w h).sweptIds
      = ((s.pt.entries.filter fun e => e.jstate = .unsaved ∧ e.id ≠ w.id).map Entry.id).take 64 := by
  have hfilter : (s.recordSettled w h).pt.entries.filter (fun e => e.jstate = .unsaved)
      = (s.pt.entries.filter fun e => e.jstate = .unsaved ∧ e.id ≠ w.id).map (Entry.recorded w (s.movedBase w h)) := by
    show (s.pt.entries.map (Entry.recorded w (s.movedBase w h))).filter _ = _
    rw [List.filter_map]
    refine congrArg (List.map _) (List.filter_congr fun e _ => ?_)
    exact decide_eq_decide.mpr (Entry.recorded_unsaved hw _ e)
  have hids : Entry.id ∘ Entry.recorded w (s.movedBase w h) = Entry.id := funext (Entry.recorded_id w _)
  rw [State.sweptIds, hfilter, List.map_map, hids]

/-- The ids of items queued from a list of ids. -/
theorem map_id_queued (ids : List Nat) : (ids.map fun i => ({ id := i, del := false } : QItem)).map QItem.id = ids := by
  rw [List.map_map]
  exact List.map_id _

/-- With the queue emptied by the record of an unchanged id, the first 64 other UNSAVED entries are queued (R158). -/
theorem State.recordDone_swept {s : State} (hfault : s.jc.fault = false) {w : WriteJob} (hw : w.changed = false) (h : Head)
    (hq : (s.jc.queue.filter fun x => x.id ≠ w.id) = []) :
    (s.recordDone w h).jc.queue
        = ((((s.pt.entries.filter fun e => e.jstate = .unsaved ∧ e.id ≠ w.id).map Entry.id).take 64).map fun i =>
          { id := i, del := false })
      ∧ ∀ e ∈ (s.recordDone w h).pt.entries, e.id ∈ (s.recordDone w h).jc.queueIds → e.jstate = .queued := by
  have hempty : (s.recordSettled w h).jc.queue = [] := by
    show s.jc.queueAfter w = []
    rw [Journal.queueAfter, hw]
    exact hq
  have hsweep := State.sweep_free hempty hfault
  rw [← State.recordDone] at hsweep
  have hqueue : (s.recordDone w h).jc.queue = (s.recordSettled w h).sweptIds.map fun i => { id := i, del := false } := by
    rw [hsweep]
  refine ⟨by rw [hqueue, State.recordSettled_sweptIds s hw], fun e he hid => ?_⟩
  have hswept : e.id ∈ (s.recordSettled w h).sweptIds := by
    rwa [Journal.queueIds, hqueue, map_id_queued] at hid
  rw [hsweep] at he
  obtain ⟨x, -, rfl⟩ := List.mem_map.mp he
  by_cases hx : (s.recordSettled w h).sweptIds.contains x.id = true
  · rw [if_pos hx]
  · rw [if_neg hx] at hswept
    exact absurd (List.contains_iff_mem.mpr hswept) hx

/-- The queue after a record that leaves ids in it. -/
theorem State.recordDone_queue {s : State} {w : WriteJob} (h : Head) (hq : s.jc.queueAfter w ≠ []) :
    (s.recordDone w h).jc.queue = s.jc.queueAfter w := by
  rw [State.recordDone_busy h hq]
  rfl

/-- An id that changed meanwhile goes to the tail of the queue after an append (R144). -/
theorem State.recordDone_toTail {s : State} {w : WriteJob} (h : Head) (hw : w.changed = true) (hside : w.side = .append)
    (hin : w.id ∈ s.jc.queueIds) : (s.recordDone w h).jc.queue
      = (s.jc.queue.filter fun x => x.id ≠ w.id) ++ (s.jc.queue.filter fun x => x.id = w.id) := by
  have hafter : s.jc.queueAfter w = (s.jc.queue.filter fun x => x.id ≠ w.id) ++ s.jc.queue.filter fun x => x.id = w.id := by
    rw [Journal.queueAfter, if_pos hw, hside]
  rw [← hafter]
  refine State.recordDone_queue h fun hempty => ?_
  obtain ⟨x, hx, hid⟩ := List.mem_map.mp hin
  rw [hafter, List.append_eq_nil_iff] at hempty
  exact List.not_mem_nil (hempty.2 ▸ List.mem_filter.mpr ⟨hx, decide_eq_true hid⟩)

/-- A copy of an id that changed meanwhile leaves the queue as it is (R151). -/
theorem State.recordDone_copied {s : State} {w : WriteJob} (h : Head) (hw : w.changed = true) (hside : w.side = .compaction)
    (hq : s.jc.queue ≠ []) : (s.recordDone w h).jc.queue = s.jc.queue := by
  have hafter : s.jc.queueAfter w = s.jc.queue := by rw [Journal.queueAfter, if_pos hw, hside]
  rw [State.recordDone_queue h (hafter ▸ hq), hafter]

/-- An id that did not change meanwhile leaves the queue; with others left in it no other entry changes. -/
theorem State.recordDone_leaves {s : State} {w : WriteJob} (h : Head) (hw : w.changed = false)
    (hq : (s.jc.queue.filter fun x => x.id ≠ w.id) ≠ []) :
    (s.recordDone w h).jc.queue = (s.jc.queue.filter fun x => x.id ≠ w.id)
      ∧ ∀ j, j ≠ w.id → (s.recordDone w h).entry j = s.entry j := by
  have hafter : s.jc.queueAfter w = s.jc.queue.filter fun x => x.id ≠ w.id := by rw [Journal.queueAfter, hw]; rfl
  refine ⟨(State.recordDone_queue h (hafter ▸ hq)).trans hafter, fun j hj => ?_⟩
  rw [State.recordDone_busy h (hafter ▸ hq), State.recordSettled_entry]
  cases he : s.entry j with
  | none => rfl
  | some e => rw [Option.map_some, Entry.recorded_other (findEntry_id he ▸ hj)]

/-- The id of a record that did not change meanwhile is not in the queue. -/
theorem State.recordDone_left {s : State} (hfault : s.jc.fault = false) {w : WriteJob} (hw : w.changed = false) (h : Head) :
    w.id ∉ (s.recordDone w h).jc.queueIds := by
  by_cases hq : (s.jc.queue.filter fun x => x.id ≠ w.id) = []
  · rw [Journal.queueIds, (State.recordDone_swept hfault hw h hq).1, map_id_queued]
    intro hid
    obtain ⟨e, he, hew⟩ := List.mem_map.mp (List.mem_of_mem_take hid)
    exact (of_decide_eq_true (List.mem_filter.mp he).2).2 hew
  · rw [Journal.queueIds, (State.recordDone_leaves h hw hq).1]
    simp

/-! ### A waiting FLUSH (R159) -/

theorem State.flushed_iff (s : State) : s.flushed = true ↔ s.jc.queue = [] ∧ ∀ e ∈ s.pt.entries, e.jstate ≠ .unsaved := by
  simp [State.flushed]

/-- A FLUSH that waits is DONE where its condition holds, and waits on where it does not; nothing else changes. -/
theorem State.settleFlush_spec (s : State) :
    s.settleFlush = { s with cp := { s.cp with slot := s.settleFlush.cp.slot } }
    ∧ (∀ tag, s.cp.slot = .executing 0x30 tag →
      ((s.jc.queue = [] ∧ ∀ e ∈ s.pt.entries, e.jstate ≠ .unsaved) →
        s.settleFlush.cp.slot = .done { code := 0x30, tag := tag, result := .done, data := [] })
      ∧ (¬ (s.jc.queue = [] ∧ ∀ e ∈ s.pt.entries, e.jstate ≠ .unsaved) → s.settleFlush.cp.slot = s.cp.slot))
    ∧ ((∀ tag, s.cp.slot ≠ .executing 0x30 tag) → s.settleFlush.cp.slot = s.cp.slot) := by
  obtain ⟨hdone, hother, hframe⟩ := s.completeLong_slot flushCode .done
  rw [← s.flushed_iff]
  unfold State.settleFlush
  split
  · next hflushed => exact ⟨hframe, fun tag htag => ⟨fun _ => hdone tag htag, fun hno => absurd hflushed hno⟩, hother⟩
  · next hwaits => exact ⟨rfl, fun tag _ => ⟨fun hyes => absurd hyes hwaits, fun _ => rfl⟩, fun _ => rfl⟩

/-- The judgement of the trigger touches the rows, compaction and what stands passed over. -/
theorem State.judgeTrigger_frame (s : State) : s.judgeTrigger = { s with jc := { s.jc with
    bands := s.judgeTrigger.jc.bands, compaction := s.judgeTrigger.jc.compaction
    chooseHeld := s.judgeTrigger.jc.chooseHeld } } := by
  unfold State.judgeTrigger
  dsimp only
  split
  · split <;> rfl
  · rfl

/-- The state with the trigger judged where it waits for a record (R149, notes/assumptions/23.md). -/
def State.recordJudged (v : State) : State := if v.jc.chooseHeld then v.judgeTrigger else v

theorem State.recordJudged_spec (v : State) : (v.jc.chooseHeld = false → v.recordJudged = v)
    ∧ (v.jc.chooseHeld = true → TriggerJudged v v.recordJudged) := by
  refine ⟨fun hno => if_neg (by simp [hno]), fun hyes => ?_⟩
  rw [State.recordJudged, if_pos hyes]
  exact v.judgeTrigger_judged

/-- What a waiting FLUSH looks at is not touched by the judgement of the trigger. -/
theorem State.recordJudged_keeps (v : State) :
    v.recordJudged.cp = v.cp ∧ v.recordJudged.pt = v.pt ∧ v.recordJudged.jc.queue = v.jc.queue := by
  unfold State.recordJudged
  split
  · rw [v.judgeTrigger_frame]
    exact ⟨rfl, rfl, rfl⟩
  · exact ⟨rfl, rfl, rfl⟩

/-- A waiting FLUSH after the record, by the queue and the entries as the sweep left them. -/
theorem State.recordJudged_flush {v t : State} (ht : t = v.recordJudged.settleFlush) :
    t = { v.recordJudged with cp := { v.recordJudged.cp with slot := t.cp.slot } }
    ∧ (∀ tag, v.cp.slot = .executing 0x30 tag →
      ((v.jc.queue = [] ∧ ∀ e ∈ v.pt.entries, e.jstate ≠ .unsaved) →
        t.cp.slot = .done { code := 0x30, tag := tag, result := .done, data := [] })
      ∧ (¬ (v.jc.queue = [] ∧ ∀ e ∈ v.pt.entries, e.jstate ≠ .unsaved) → t.cp.slot = v.cp.slot))
    ∧ ((∀ tag, v.cp.slot ≠ .executing 0x30 tag) → t.cp.slot = v.cp.slot) := by
  obtain ⟨hframe, hslot, hother⟩ := v.recordJudged.settleFlush_spec
  obtain ⟨hcp, hpt, hqueue⟩ := v.recordJudged_keeps
  rw [hcp, hpt, hqueue, ← ht] at hslot
  rw [hcp, ← ht] at hother
  rw [← ht] at hframe
  exact ⟨hframe, hslot, hother⟩

/-! ### PROGRAM_VERIFY of a record's last program -/

/-- A record of a FULL or a TOMB moves the base of its entry, and the counts follow it (R144, R145, R151). -/
theorem State.recordDone_moves {s : State} (hfault : s.jc.fault = false) {w : WriteJob} {h : Head} {e : Entry} {q : Nat}
    (he : s.entry w.id = some e) (hseq : s.jc.seqOf h.band = some q) (hgone : w.gone = false)
    (hkind : w.kind = .full ∨ w.kind = .tombShared) :
    ∃ e' old, (s.recordDone w h).entry w.id = some e' ∧ e'.base = some q
      ∧ old = (e.base.bind fun b => s.jc.bands.findIdx? fun r => r.seq = some b && r.live ≠ 0)
      ∧ (e.base ≠ some q → ∀ i : Nat, (s.recordDone w h).jc.bands[i]? = (s.jc.bands[i]?).map fun r : BandRow =>
        { r with live := r.live - (if old = some i then 1 else 0) + (if i = h.band then 1 else 0) })
      ∧ (e.base = some q → (s.recordDone w h).jc.bands = s.jc.bands) := by
  have hrows := State.recordDone_bands hfault w h
  have hmoved := State.movedBase_of he hseq hgone hkind
  obtain ⟨e', he', hbase, -⟩ := State.recordDone_self hfault w h he
  refine ⟨e', _, he', ?_, rfl, fun hne i => ?_, fun heq => ?_⟩
  · rw [hbase, hmoved]
    split
    · next heq => exact heq
    · rfl
  · rw [if_neg hne] at hmoved
    rw [hrows, State.rowsAfter_get he hmoved]
  · rw [if_pos heq] at hmoved
    rw [hrows, State.rowsAfter, hmoved]

/-- Any other record leaves the base of its entry and the counts as they were. -/
theorem State.recordDone_stays {s : State} (hfault : s.jc.fault = false) {w : WriteJob} {h : Head}
    (hnone : s.movedBase w h = none) : (s.recordDone w h).jc.bands = s.jc.bands
      ∧ ∀ e, s.entry w.id = some e → ∃ e', (s.recordDone w h).entry w.id = some e' ∧ e'.base = e.base := by
  refine ⟨?_, fun e he => ?_⟩
  · rw [State.recordDone_bands hfault, State.rowsAfter, hnone]
  · obtain ⟨e', he', hbase, -⟩ := State.recordDone_self hfault w h he
    exact ⟨e', he', by rw [hbase, hnone]; rfl⟩

/-- The last program of a record that reads back as sent ends the write. -/
theorem State.programDone_writeDone {s : State} {p : Prog} {w : WriteJob} {h : Head} (hjob : s.jc.job = some (.write w))
    (hh : s.jc.head = some h)
    (hlast : (p.purpose = .recordFirst ∧ w.bytes.length ≤ 256 - h.pos % 256) ∨ p.purpose = .recordSecond) :
    s.endCommand.programDone p = (s.endCommand.recordDone w h).recordJudged.settleFlush := by
  rw [State.recordJudged, State.recordDone, ← State.writeDone_eq]
  obtain ⟨hpurpose, hwhole⟩ | hpurpose := hlast
  · have hnone : secondPart h.pos w.bytes = [] := List.drop_eq_nil_iff.mpr hwhole
    simp only [State.programDone, hpurpose, State.withWrite_job hjob, State.withHead_head hh, hnone, if_true]
  · simp only [State.programDone, hpurpose, State.withWrite_job hjob, State.withHead_head hh]

/-- Settles O52: the record saves its entry, its base and the counts follow, then the sweep, the trigger and a FLUSH. -/
theorem writtenRecordsSaveTheirEntries : Obligations.WrittenRecordsSaveTheirEntries := by
  intro p w h s hp hcmd hread hjob hh hfault hlast
  have hexec := exec_programVerify_good hp hcmd hread
  rw [State.programDone_writeDone hjob hh hlast] at hexec
  have hx : s.endCommand.jc.fault = false := hfault
  have hframe := State.recordDone_frame hx w h
  have hchoose : (s.endCommand.recordDone w h).jc.chooseHeld = s.jc.chooseHeld := by rw [hframe]; rfl
  have hslot : (s.endCommand.recordDone w h).cp.slot = s.cp.slot := by rw [hframe]; rfl
  obtain ⟨hunjudged, hjudged⟩ := (s.endCommand.recordDone w h).recordJudged_spec
  have hflush := State.recordJudged_flush (v := s.endCommand.recordDone w h) rfl
  rw [hchoose] at hunjudged hjudged
  rw [hslot] at hflush
  refine ⟨_, _, s.endCommand.recordDone w h, hexec, ?failCount, ?head, ?job, ?lastSide,
    fun hw => ⟨State.recordDone_left hx hw h, fun e he => ?saved⟩,
    fun e q he hseq hgone hkind => State.recordDone_moves hx he hseq hgone hkind,
    fun hkept => State.recordDone_stays hx (State.movedBase_none hkept), State.recordDone_toTail (s := s.endCommand) h,
    State.recordDone_copied (s := s.endCommand) h, State.recordDone_leaves (s := s.endCommand) h, fun hw hq => State.recordDone_swept hx hw h hq,
    fun j e hj he => State.recordDone_other hx w h hj he, ?held, ?compaction, ?frame, hunjudged, hjudged, hflush⟩
  case saved =>
    obtain ⟨e', he', -, hsaved⟩ := State.recordDone_self hx w h he
    exact ⟨e', he', hsaved hw⟩
  all_goals
    rw [hframe]
    rfl

end Sys2Proof.Machine
end

section
/-! The journal queue and what it must agree with: the part of a state that its law reads, and the operations of the line, the
roster, repair and the Command Port, which leave that part. -/

namespace Sys2Proof.Machine

/-- What the law of the journal queue reads, the station state apart: how each id stands with the journal, the Journal
Controller, and the flash command in progress. -/
def State.queueView (s : State) : List (Nat × JState) × Journal × SpCmd :=
  (s.pt.entries.map fun e => (e.id, e.jstate), s.jc, s.sp.cmd)

/-! ### Time and the judgement of convergence -/

theorem State.passLine_view (s : State) (n : Nat) : (s.passLine n).queueView = s.queueView := by
  obtain ⟨_, _, hpt, hjc, _, _, _⟩ := s.passLine_frame n
  unfold State.queueView
  rw [hpt, hjc, s.passLine_sp n]

theorem State.passUntil_view (s : State) (t l : Nat) : (s.passUntil t l).queueView = s.queueView := by
  rcases s.passUntil_eq t l with h | ⟨n, h⟩ <;> rw [h]
  exact s.passLine_view n

theorem State.passSilence_view (s : State) (p : Peer) (ms : Nat) : (s.passSilence p ms).queueView = s.queueView := by
  unfold State.passSilence
  split
  · exact s.passUntil_view _ _
  · rfl

theorem State.judge_view (s : State) : s.judge.queueView = s.queueView := by
  rw [s.judge_frame]
  rfl

theorem State.endJoinWindow_view (s : State) : s.endJoinWindow.queueView = s.queueView := by
  rw [s.endJoinWindow_frame]
  rfl

theorem State.completeLong_view (s : State) (code : Byte) (r : Result) : (s.completeLong code r).queueView = s.queueView := by
  obtain ⟨_, _, h⟩ := s.completeLong_slot code r
  rw [h]
  rfl

/-! ### Entries that change in their send marks alone -/

/-- A change of fields that keeps ids and journal states. -/
theorem map_queueMark {f : Entry → Entry} (h : ∀ e, ((f e).id, (f e).jstate) = (e.id, e.jstate)) (es : List Entry) :
    (es.map f).map (fun e => (e.id, e.jstate)) = es.map fun e => (e.id, e.jstate) := by
  rw [List.map_map]
  exact List.map_congr_left fun e _ => h e

theorem State.mapEntry_view (s : State) (id : Nat) {f : Entry → Entry} (h : ∀ e, ((f e).id, (f e).jstate) = (e.id, e.jstate)) :
    (s.mapEntry id f).queueView = s.queueView := by
  refine congrArg (·, s.jc, s.sp.cmd) (map_queueMark (fun e => ?_) s.pt.entries)
  split
  · exact h e
  · rfl

theorem State.pushRequest_view (s : State) (id : Nat) : (s.pushRequest id).queueView = s.queueView := by
  unfold State.pushRequest
  split
  · exact State.mapEntry_view _ id fun _ => rfl
  · rfl

theorem State.launchUpdate_view (s : State) (cls : GapClass) (m : Mark) : (s.launchUpdate cls m).queueView = s.queueView := by
  unfold State.launchUpdate
  refine (State.judge_view _).trans (congrArg (·, s.jc, s.sp.cmd) (map_queueMark (fun e => ?_) s.pt.entries))
  split <;> rfl

theorem State.restoreIds_view (s : State) (packed : List Packed) : (s.restoreIds packed).queueView = s.queueView := by
  unfold State.restoreIds
  refine congrArg (·, s.jc, s.sp.cmd) (map_queueMark (fun e => ?_) s.pt.entries)
  split <;> rfl

/-! ### The roster and sessions -/

theorem State.updatePeer_view (s : State) (n : Nat) (f : Peer → Peer) : (s.updatePeer n f).queueView = s.queueView := by
  unfold State.updatePeer
  split <;> rfl

theorem State.searchSession_view (s : State) : s.searchSession.queueView = s.queueView := by
  rw [s.searchSession_frame]
  rfl

theorem State.abandonSession_view (s : State) : s.abandonSession.queueView = s.queueView := by
  unfold State.abandonSession
  split
  · rfl
  · exact s.updatePeer_view _ _

theorem State.sessionSuccess_view (s : State) : s.sessionSuccess.queueView = s.queueView :=
  (State.searchSession_view _).trans (s.updatePeer_view _ _)

theorem State.sessionTimeout_view (s : State) : s.sessionTimeout.queueView = s.queueView := by
  unfold State.sessionTimeout
  dsimp only
  split
  · split <;> rfl
  · exact (State.searchSession_view _).trans ((State.updatePeer_view _ _ _).trans (s.updatePeer_view _ _))

theorem State.dropRequest_view (s : State) (n : Nat) : (s.dropRequest n).queueView = s.queueView := by
  rw [s.dropRequest_eq n]
  rfl

theorem State.replyCompleted_view (s : State) (forHead ends : Bool) (moved : Work) :
    (s.replyCompleted forHead ends moved).queueView = s.queueView := by
  unfold State.replyCompleted
  split
  · split
    · rfl
    · split <;> rfl
  · rfl

/-! ### Station states and own frames -/

theorem State.enterMuted_view (s : State) (c : Cause) : (s.enterMuted c).queueView = s.queueView := s.abandonSession_view

theorem State.endClosing_view (s : State) (r : Result) : (s.endClosing r).queueView = s.queueView :=
  s.enterHeld.completeLong_view _ _

theorem State.takeCause_view (s : State) (c : Cause) : (s.takeCause c).queueView = s.queueView := by
  unfold State.takeCause
  split
  · rfl
  · rfl
  · exact (State.judge_view _).trans (s.enterMuted_view c)
  · exact (State.judge_view _).trans (s.enterMuted_view c)
  · unfold State.furtherCause
    split <;> rfl
  · exact (State.judge_view _).trans (s.endClosing_view _)

theorem State.startDemand_view (s : State) (cls : GapClass) (d : Demand) : (s.startDemand cls d).queueView = s.queueView := by
  unfold State.startDemand
  split
  · split <;> rfl
  · rfl
  · exact s.launchUpdate_view cls _
  · rfl
  · exact s.launchUpdate_view cls _
  · rfl

theorem State.frameSent_view (s : State) (f : Flight) : (s.frameSent f).queueView = s.queueView := s.passLine_view _

theorem State.demandCompleted_view (s : State) (f : Flight) : (s.demandCompleted f).queueView = s.queueView := by
  unfold State.demandCompleted
  split
  · rfl
  · rfl
  · split <;> rfl
  · exact s.replyCompleted_view _ _ _
  · split
    · exact (State.judge_view _).trans (s.endClosing_view _)
    · rfl

theorem State.frameUndone_view (s : State) (f : Flight) : (s.frameUndone f).queueView = s.queueView := by
  unfold State.frameUndone
  split
  · exact s.restoreIds_view _
  · rfl

/-! ### Frames of other stations -/

theorem State.testFrame_view (s : State) (chars : List Byte) : (s.testFrame chars).queueView = s.queueView := by
  unfold State.testFrame
  split
  · rfl
  · split
    · rfl
    · split
      · unfold State.duplicateStation
        refine (State.takeCause_view _ _).trans ?_
        split <;> rfl
      · unfold State.bufferFrame
        split <;> rfl

theorem State.pushBetween_view (s : State) (b : Nat) (lo hi : Option Nat) : (s.pushBetween b lo hi).queueView = s.queueView := by
  unfold State.pushBetween
  generalize (sharedIn s.pt.entries b).filter _ = es
  induction es generalizing s with
  | nil => rfl
  | cons e es ih => exact (ih _).trans (s.pushRequest_view _)

theorem State.compareQuad_view (b : Nat) (s : State) (cursor : Option Nat) (q : Quad) :
    (State.compareQuad b (s, cursor) q).1.queueView = s.queueView := by
  refine Eq.trans ?_ (s.pushBetween_view b cursor (some q.id))
  unfold State.compareQuad
  dsimp only
  split
  · rfl
  · split
    · rfl
    · split
      · rfl
      · split
        · exact State.pushRequest_view _ _
        · rfl

theorem State.compareListing_view (s : State) (b : Nat) (quads : List Quad) (bucketLast : Bool) :
    (s.compareListing b quads bucketLast).queueView = s.queueView := by
  have hfold : ∀ (s : State) cursor, (quads.foldl (State.compareQuad b) (s, cursor)).1.queueView = s.queueView := by
    induction quads with
    | nil => exact fun _ _ => rfl
    | cons q quads ih => exact fun s cursor => (ih _ _).trans (State.compareQuad_view b s cursor q)
  unfold State.compareListing
  dsimp only
  split
  · exact (State.pushBetween_view _ _ _ _).trans (hfold _ _)
  · exact hfold _ _

theorem State.takeListing_view (s : State) (b part : Nat) (quads : List Quad) (fl : FrameFlags) :
    (s.takeListing b part quads fl).queueView = s.queueView := by
  unfold State.takeListing
  dsimp only
  split
  · have hmerged := State.compareListing_view (s.setSession { s.re.session with timer := 0 }) b quads fl.bucketLast
    generalize State.compareListing _ b quads fl.bucketLast = u at hmerged
    refine Eq.trans ?_ hmerged
    split
    · rfl
    · split
      · rfl
      · unfold State.listingComplete
        split
        · exact u.sessionSuccess_view
        · rfl
  · exact s.sessionTimeout_view

theorem State.refresh_view (s : State) (n : Nat) : (s.refresh n).queueView = s.queueView := by
  unfold State.refresh
  split <;> exact s.updatePeer_view _ _

theorem State.testSession_view (s : State) (n : Nat) : (s.testSession n).queueView = s.queueView := by
  unfold State.testSession
  split
  · exact s.updatePeer_view _ _
  · rfl

theorem State.takeSummary_view (s : State) (n h count interval : Nat) (digests : List Half) (joining : Bool) :
    (s.takeSummary n h count interval digests joining).queueView = s.queueView := by
  have hearly : ∀ u : State, (if joining then u.earlySummary else u).queueView = u.queueView := fun u => by
    unfold State.earlySummary
    split
    · split <;> rfl
    · rfl
  have hheard := s.updatePeer_view n fun p => { p with h := h, count := count, interval := some interval, joining := joining }
  unfold State.takeSummary
  generalize s.updatePeer n _ = u at hheard
  dsimp only
  split
  · refine (hearly _).trans (Eq.trans ?_ hheard)
    split
    · exact u.updatePeer_view _ _
    · exact (State.testSession_view _ _).trans (u.updatePeer_view _ _)
  · exact hheard

theorem State.peerLeft_view (s : State) (n : Nat) : (s.peerLeft n).queueView = s.queueView := by
  unfold State.peerLeft
  split
  · rfl
  · have hleft := ((s.updatePeer n fun _ => .cleared).notify .peerLeft n).dropRequest_view n
    generalize State.dropRequest _ n = u at hleft
    refine Eq.trans ?_ (hleft.trans (s.updatePeer_view n _))
    dsimp only
    split
    · exact u.closeSession.searchSession_view
    · rfl

theorem State.takeRequest_view (s : State) (f : Frame) (w : Work) : (s.takeRequest f w).queueView = s.queueView := by
  rw [s.takeRequest_frame f w]
  rfl

theorem State.takeReplyUpdate_view (s : State) (ends : Bool) : (s.takeReplyUpdate ends).queueView = s.queueView := by
  unfold State.takeReplyUpdate
  split
  · exact s.sessionSuccess_view
  · rfl

end Sys2Proof.Machine
end

section
/-! The law of the journal queue in its parts, and what a change of one id does to it. -/

namespace Sys2Proof.Machine

/-! ### The parts of the law (R142, R156, R163, R168) -/

/-- The queue agrees with the entries (R142, R156). -/
structure QueueAgrees (es : List Entry) (q : List QItem) (fault : Bool) : Prop where
  room : q.length ≤ Config.maxQueue
  nodup : (q.map QItem.id).Nodup
  queued : ∀ e ∈ es, e.jstate = .queued ↔ e.id ∈ q.map QItem.id
  deletes : ∀ x ∈ q, x.del = true ↔ ∀ e ∈ es, e.id ≠ x.id
  faulted : fault = true → q = []

/-- Replay goes on with the condition NORMAL, no job and no flash command but its own (R163), and fills the queue only as it settles
the table (R168). -/
structure ReplayGoes (s : State) (r : Replay) : Prop where
  normal : s.jc.fault = false
  jobless : s.jc.job = none
  command : s.sp.cmd.ofReplay = true
  next : ∀ p, s.jc.next = some p → (SpCmd.program p .busy).ofReplay = true
  queue : (∃ todo, r.phase = .closing todo) ∨ s.jc.queue = []

/-- The law of the journal queue, the station state apart. -/
structure QueueHeld (s : State) : Prop where
  agrees : QueueAgrees s.pt.entries s.jc.queue s.jc.fault
  replay : ∀ r, s.jc.replay = some r → ReplayGoes s r

/-- The law of the journal queue of a part that has left replay. -/
structure QueueOutside (s : State) : Prop where
  agrees : QueueAgrees s.pt.entries s.jc.queue s.jc.fault
  left : s.jc.replay = none

theorem queueLaw_iff (s : State) : QueueLaw s ↔ QueueHeld s ∧ (s.jc.replay ≠ none → s.sc.station = .replay) := by
  constructor
  · rintro ⟨hroom, hnodup, hqueued, hdel, hfault, hreplay⟩
    refine ⟨⟨⟨hroom, hnodup, hqueued, hdel, hfault⟩, fun r hr => ?_⟩, fun hr => ?_⟩
    · obtain ⟨hnormal, hjob, -, hcmd, hnext, hq⟩ := hreplay r hr
      exact ⟨hnormal, hjob, hcmd, hnext, hq⟩
    · obtain ⟨r, hr⟩ := Option.ne_none_iff_exists'.mp hr
      obtain ⟨-, -, hst, -⟩ := hreplay r hr
      exact hst
  · rintro ⟨⟨⟨hroom, hnodup, hqueued, hdel, hfault⟩, hreplay⟩, hst⟩
    refine ⟨hroom, hnodup, hqueued, hdel, hfault, fun r hr => ?_⟩
    obtain ⟨hnormal, hjob, hcmd, hnext, hq⟩ := hreplay r hr
    exact ⟨hnormal, hjob, hst (by simp [hr]), hcmd, hnext, hq⟩

theorem QueueOutside.held {s : State} (h : QueueOutside s) : QueueHeld s :=
  ⟨h.agrees, fun r hr => by rw [h.left] at hr; cases hr⟩

theorem QueueHeld.outside {s : State} (h : QueueHeld s) (hr : s.jc.replay = none) : QueueOutside s := ⟨h.agrees, hr⟩

/-- The law holds of a part in replay from what holds of the replay it is at. -/
theorem QueueHeld.of_replay {s : State} {r : Replay} (h : QueueAgrees s.pt.entries s.jc.queue s.jc.fault)
    (hr : s.jc.replay = some r) (hgoes : ReplayGoes s r) : QueueHeld s :=
  ⟨h, fun _ hr' => Option.some.inj (hr.symm.trans hr') ▸ hgoes⟩

/-! ### What leaves the view of the law -/

/-- The agreement speaks of ids and journal states alone. -/
theorem QueueAgrees.of_marks {es es' : List Entry} {q : List QItem} {fault : Bool} (h : QueueAgrees es q fault)
    (hes : (es'.map fun e => (e.id, e.jstate)) = es.map fun e => (e.id, e.jstate)) : QueueAgrees es' q fault := by
  have hall : ∀ P : Nat × JState → Prop, (∀ e ∈ es', P (e.id, e.jstate)) ↔ ∀ e ∈ es, P (e.id, e.jstate) := fun P => by
    rw [← List.forall_mem_map (f := fun e : Entry => (e.id, e.jstate)) (P := P), hes, List.forall_mem_map]
  exact ⟨h.room, h.nodup, (hall fun p => p.2 = .queued ↔ p.1 ∈ q.map QItem.id).mpr h.queued,
    fun x hx => (h.deletes x hx).trans (hall fun p => p.1 ≠ x.id).symm, h.faulted⟩

/-- What leaves the view of the law keeps the law. -/
theorem QueueHeld.of_view {s t : State} (h : QueueHeld s) (hv : t.queueView = s.queueView) : QueueHeld t := by
  simp only [State.queueView, Prod.mk.injEq] at hv
  obtain ⟨hes, hjc, hcmd⟩ := hv
  have hagrees := h.agrees.of_marks hes
  refine ⟨hjc ▸ hagrees, fun r hr => ?_⟩
  rw [hjc] at hr
  obtain ⟨hnormal, hjob, hcommand, hnext, hq⟩ := h.replay r hr
  exact ⟨hjc ▸ hnormal, hjc ▸ hjob, hcmd ▸ hcommand, hjc ▸ hnext, hjc ▸ hq⟩

theorem QueueOutside.of_view {s t : State} (h : QueueOutside s) (hv : t.queueView = s.queueView) : QueueOutside t := by
  refine (h.held.of_view hv).outside ?_
  simp only [State.queueView, Prod.mk.injEq] at hv
  obtain ⟨-, hjc, -⟩ := hv
  rw [hjc, h.left]

/-! ### A change of one id -/

/-- The agreement after a change of one id: the other entries and the other items of the queue are as they were. -/
theorem QueueAgrees.change {es es' : List Entry} {q q' : List QItem} {fault : Bool} (h : QueueAgrees es q fault) (id : Nat)
    (hes : ∀ e, e.id ≠ id → (e ∈ es' ↔ e ∈ es)) (hq : ∀ x, x.id ≠ id → (x ∈ q' ↔ x ∈ q))
    (room : q'.length ≤ Config.maxQueue) (nodup : (q'.map QItem.id).Nodup) (faulted : fault = true → q' = [])
    (queued : ∀ e ∈ es', e.id = id → (e.jstate = .queued ↔ id ∈ q'.map QItem.id))
    (deletes : ∀ x ∈ q', x.id = id → (x.del = true ↔ ∀ e ∈ es', e.id ≠ id)) : QueueAgrees es' q' fault := by
  refine ⟨room, nodup, fun e he => ?_, fun x hx => ?_, faulted⟩
  · by_cases hid : e.id = id
    · rw [hid]
      exact queued e he hid
    · rw [h.queued e ((hes e hid).mp he), List.mem_map, List.mem_map]
      refine exists_congr fun x => and_congr_left fun hx => (hq x ?_).symm
      rwa [hx]
  · by_cases hid : x.id = id
    · rw [hid]
      exact deletes x hx hid
    · rw [h.deletes x ((hq x hid).mp hx)]
      refine forall_congr' fun e => ⟨fun hno he heq => ?_, fun hno he heq => ?_⟩
      · exact hno ((hes e (heq.trans_ne hid)).mp he) heq
      · exact hno ((hes e (heq.trans_ne hid)).mpr he) heq

/-- An id takes its place in the queue with a delete flag, or its item takes the flag (R26, R30). -/
def demanded (q : List QItem) (id : Nat) (del : Bool) : List QItem :=
  if id ∈ q.map QItem.id then q.map fun x => if x.id = id then { x with del := del } else x else q ++ [{ id := id, del := del }]

theorem demanded_ids (q : List QItem) (id : Nat) (del : Bool) : (demanded q id del).map QItem.id
    = if id ∈ q.map QItem.id then q.map QItem.id else q.map QItem.id ++ [id] := by
  unfold demanded
  split
  · rw [List.map_map]
    refine List.map_congr_left fun x _ => ?_
    dsimp only [Function.comp_apply]
    split <;> rfl
  · rw [List.map_append]
    rfl

theorem mem_demanded_ids (q : List QItem) (id : Nat) (del : Bool) : id ∈ (demanded q id del).map QItem.id := by
  rw [demanded_ids]
  split
  · assumption
  · exact List.mem_append_right _ (List.mem_singleton.mpr rfl)

theorem mem_demanded_other {q : List QItem} {id : Nat} (del : Bool) {x : QItem} (hx : x.id ≠ id) :
    x ∈ demanded q id del ↔ x ∈ q := by
  unfold demanded
  split
  · rw [List.mem_map]
    constructor
    · rintro ⟨y, hy, rfl⟩
      split at hx
      · next heq => exact absurd heq hx
      · next hne => rwa [if_neg hne]
    · exact fun h => ⟨x, h, if_neg hx⟩
  · rw [List.mem_append, List.mem_singleton, or_iff_left]
    rintro rfl
    exact hx rfl

theorem demanded_del {q : List QItem} {id : Nat} {del : Bool} {x : QItem} (h : x ∈ demanded q id del) (hx : x.id = id) :
    x.del = del := by
  unfold demanded at h
  split at h
  · obtain ⟨y, -, rfl⟩ := List.mem_map.mp h
    split at hx
    · next heq => rw [if_pos heq]
    · next hne => exact absurd hx hne
  · next hno =>
    rcases List.mem_append.mp h with h | h
    · exact absurd (List.mem_map.mpr ⟨x, h, hx⟩) hno
    · rw [List.mem_singleton.mp h]

/-- An id of the queue has room, and another where there are fewer than 64. -/
theorem QueueAgrees.demanded_fits {es : List Entry} {q : List QItem} {fault : Bool} (h : QueueAgrees es q fault) {id : Nat}
    (hroom : id ∈ q.map QItem.id ∨ q.length < 64) (del : Bool) :
    (demanded q id del).length ≤ Config.maxQueue ∧ ((demanded q id del).map QItem.id).Nodup := by
  have hlen : ((demanded q id del).map QItem.id).length = (demanded q id del).length := List.length_map _
  rw [← hlen, demanded_ids]
  split
  · exact ⟨(List.length_map _).trans_le h.room, h.nodup⟩
  · next hno =>
    refine ⟨?_, List.nodup_append.mpr ⟨h.nodup, List.nodup_singleton _, ?_⟩⟩
    · rw [List.length_append, List.length_map]
      exact hroom.resolve_left hno
    · rintro a ha b hb rfl
      exact hno (List.mem_singleton.mp hb ▸ ha)

/-- The queue of a part in FAULT has no id. -/
theorem QueueAgrees.no_ids {es : List Entry} {q : List QItem} {fault : Bool} (h : QueueAgrees es q fault) (hf : fault = true)
    (id : Nat) : id ∉ q.map QItem.id := by
  rw [h.faulted hf]
  exact List.not_mem_nil

/-! ### An entry put in or deleted (R26, R30) -/

theorem Journal.enqueue_cases (jc : Journal) (id : Nat) :
    (jc.fault = false ∧ (id ∈ jc.queueIds ∨ jc.queue.length < 64) ∧ (jc.enqueue id).queue = demanded jc.queue id false
      ∧ jc.markState id = .queued)
    ∨ ((jc.fault = true ∨ id ∉ jc.queueIds) ∧ (jc.enqueue id).queue = jc.queue ∧ jc.markState id = .unsaved) := by
  rw [jc.enqueue_eq id, jc.markState_eq id]
  unfold demanded
  by_cases hf : jc.fault = true
  · exact .inr ⟨.inl hf, by simp [hf], by simp [hf]⟩
  · by_cases hin : id ∈ jc.queueIds
    · have hin' : id ∈ jc.queue.map QItem.id := hin
      exact .inl ⟨by simpa using hf, .inl hin, by simp [hf, hin, hin'], by simp [hf, hin]⟩
    · have hin' : id ∉ jc.queue.map QItem.id := hin
      by_cases hroom : jc.queue.length < 64
      · exact .inl ⟨by simpa using hf, .inr hroom, by simp only [hf, hin, hin', hroom, if_true, if_false]; rfl, by simp [hf, hroom]⟩
      · exact .inr ⟨.inr hin, by simp [hf, hin, hroom], by simp [hin, hroom]⟩

/-- An entry put in with the journal state that its marking gives (R26). -/
theorem QueueAgrees.put {es : List Entry} {jc : Journal} (hs : es.Pairwise fun a b => a.id < b.id)
    (h : QueueAgrees es jc.queue jc.fault) {e : Entry} (hj : e.jstate = jc.markState e.id) :
    QueueAgrees (insertEntry es e) (jc.enqueue e.id).queue jc.fault := by
  have hmem := mem_insertEntry_iff hs e
  have hself : ∀ x ∈ insertEntry es e, x.id = e.id → x = e := fun x hx hid =>
    ((hmem x).mp hx).resolve_right fun ho => ho.2 hid
  have hothers : ∀ x : Entry, x.id ≠ e.id → (x ∈ insertEntry es e ↔ x ∈ es) := fun x hx => by
    rw [hmem x, or_iff_right fun heq => hx (congrArg Entry.id heq), and_iff_left hx]
  rcases jc.enqueue_cases e.id with ⟨hf, hroom, hq, hmark⟩ | ⟨hout, hq, hmark⟩ <;> rw [hq] <;> rw [hmark] at hj
  · obtain ⟨hlen, hnodup⟩ := h.demanded_fits hroom false
    refine h.change e.id hothers (fun x hx => mem_demanded_other _ hx) hlen hnodup (by simp [hf]) (fun x hx hid => ?_)
      fun x hx hid => ?_
    · rw [hself x hx hid]
      exact iff_of_true hj (mem_demanded_ids _ _ _)
    · rw [demanded_del hx hid]
      exact iff_of_false Bool.false_ne_true fun hno => hno e ((hmem e).mpr (.inl rfl)) rfl
  · have hno : e.id ∉ jc.queue.map QItem.id := hout.elim (fun hf => h.no_ids hf _) id
    refine h.change e.id hothers (fun _ _ => Iff.rfl) h.room h.nodup h.faulted (fun x hx hid => ?_) fun x hx hid => ?_
    · rw [hself x hx hid, hj]
      exact iff_of_false (by simp) hno
    · exact absurd (List.mem_map.mpr ⟨x, hx, hid⟩) hno

/-- An entry deleted with a delete demand (R30). -/
theorem QueueAgrees.delete {es : List Entry} {jc : Journal} (h : QueueAgrees es jc.queue jc.fault) (id : Nat) :
    QueueAgrees (removeEntry es id) (jc.enqueueDelete id).queue jc.fault := by
  have hmem : ∀ x, x ∈ removeEntry es id ↔ x ∈ es ∧ x.id ≠ id := fun x => by simp [removeEntry]
  have hothers : ∀ x : Entry, x.id ≠ id → (x ∈ removeEntry es id ↔ x ∈ es) := fun x hx => by rw [hmem x, and_iff_left hx]
  have hgone : ∀ x ∈ removeEntry es id, x.id ≠ id := fun x hx => ((hmem x).mp hx).2
  have hstays : id ∉ jc.queue.map QItem.id → QueueAgrees (removeEntry es id) jc.queue jc.fault := fun hno =>
    h.change id hothers (fun _ _ => Iff.rfl) h.room h.nodup h.faulted (fun x hx hid => absurd hid (hgone x hx))
      fun x hx hid => absurd (List.mem_map.mpr ⟨x, hx, hid⟩) hno
  have hdemand : jc.fault = false → (id ∈ jc.queueIds ∨ jc.queue.length < 64) →
      QueueAgrees (removeEntry es id) (demanded jc.queue id true) jc.fault := fun hf hroom => by
    obtain ⟨hlen, hnodup⟩ := h.demanded_fits hroom true
    exact h.change id hothers (fun x hx => mem_demanded_other _ hx) hlen hnodup (by simp [hf])
      (fun x hx hid => absurd hid (hgone x hx)) fun x hx hid => iff_of_true (demanded_del hx hid) hgone
  rw [jc.enqueueDelete_eq id]
  dsimp only
  by_cases hin : id ∈ jc.queueIds
  · rw [if_pos hin]
    have hnormal : jc.fault = false := Bool.eq_false_iff.mpr fun hf => h.no_ids hf id hin
    exact (if_pos hin : demanded jc.queue id true = _) ▸ hdemand hnormal (.inl hin)
  · rw [if_neg hin]
    by_cases hf : jc.fault = true
    · rw [if_pos hf]
      exact hstays hin
    · rw [if_neg hf]
      by_cases hroom : jc.queue.length < 64
      · rw [if_pos hroom]
        exact (if_neg hin : demanded jc.queue id true = _) ▸ hdemand (Bool.eq_false_iff.mpr hf) (.inr hroom)
      · rw [if_neg hroom]
        exact hstays hin

end Sys2Proof.Machine
end

section
/-! The journal queue through the changes of entries outside replay: local changes, received records, and the frames taken. -/

namespace Sys2Proof.Machine

/-- Outside replay, with the entries in id order (R3). -/
structure QueueOrdered (s : State) : Prop where
  outside : QueueOutside s
  sorted : s.pt.entries.Pairwise fun a b => a.id < b.id

/-- The view of the law shows the order of the entries. -/
theorem sorted_of_view {s t : State} (hs : s.pt.entries.Pairwise fun a b => a.id < b.id) (hv : t.queueView = s.queueView) :
    t.pt.entries.Pairwise fun a b => a.id < b.id := by
  have hmap : ∀ es : List Entry, (es.Pairwise fun a b => a.id < b.id)
      ↔ (es.map fun e => (e.id, e.jstate)).Pairwise fun a b => a.1 < b.1 := fun es => by
    rw [List.pairwise_map]
  simp only [State.queueView, Prod.mk.injEq] at hv
  obtain ⟨hes, -⟩ := hv
  rw [hmap, hes, ← hmap]
  exact hs

theorem QueueOrdered.of_view {s t : State} (h : QueueOrdered s) (hv : t.queueView = s.queueView) : QueueOrdered t :=
  ⟨h.outside.of_view hv, sorted_of_view h.sorted hv⟩

/-! ### An entry with a new version (R22, R26) -/

/-- The table takes an entry and the journal is told: by the entries, the queue and the condition that are left. -/
theorem QueueOrdered.marked {s t : State} (h : QueueOrdered s) {e : Entry} (hj : e.jstate = s.jc.markState e.id)
    (hes : t.pt.entries = insertEntry s.pt.entries e) (hjc : t.jc = (s.jc.enqueue e.id).touch e.id false) : QueueOrdered t := by
  have hput := h.outside.agrees.put h.sorted hj
  have hq : t.jc.queue = (s.jc.enqueue e.id).queue := by rw [hjc, Journal.touch_eq]
  have hf : t.jc.fault = s.jc.fault := by rw [hjc, Journal.touch_eq, Journal.enqueue_eq]
  have hr : t.jc.replay = s.jc.replay := by rw [hjc, s.jc.enqueue_touch_replay]
  refine ⟨⟨?_, hr.trans h.outside.left⟩, hes ▸ insertEntry_sorted h.sorted e⟩
  rw [hes, hq, hf]
  exact hput

theorem State.commitEntry_ordered {s : State} (h : QueueOrdered s) (old : Option Entry) (e : Entry) :
    QueueOrdered (s.commitEntry old e) := by
  rw [s.commitEntry_eq old e]
  exact h.marked (e := { e with jstate := s.jc.markState e.id }) rfl rfl rfl

/-! ### Local changes (R24, R27, R30) -/

theorem State.localChange_ordered {s : State} (h : QueueOrdered s) (id : Nat) (scope : Scope) (value : List Byte)
    (slot : Option Nat) : QueueOrdered (s.localChange id scope value slot) := by
  have hchanged : QueueOrdered (s.locallyChanged id scope value slot) :=
    h.marked (e := s.localEntry id scope value slot) rfl rfl rfl
  rw [State.localChange_eq]
  split
  · exact hchanged.of_view (State.judge_view _)
  · exact hchanged

theorem State.localPut_ordered {s : State} (h : QueueOrdered s) (id : Nat) (scope : Scope) (value : List Byte) :
    QueueOrdered (s.localPut id scope value).2 := by
  unfold State.localPut
  split
  · exact h
  · exact State.localChange_ordered h _ _ _ _

theorem State.deleteLocal_outside {s : State} (h : QueueOutside s) (e : Entry) : QueueOutside (s.deleteLocal e) := by
  have hdeleted := h.agrees.delete e.id
  obtain ⟨-, -, -, hjc⟩ := s.deleteLocal_deleted e
  have hf : (s.deleteLocal e).jc.fault = s.jc.fault := by rw [hjc]
  have hr : (s.deleteLocal e).jc.replay = s.jc.replay := by rw [hjc]
  have hq : (s.deleteLocal e).jc.queue = (s.jc.enqueueDelete e.id).queue := by
    rw [hjc, Journal.enqueueDelete_eq]
  refine ⟨?_, hr.trans h.left⟩
  rw [hf, hq]
  exact hdeleted

theorem State.localRemove_outside {s : State} (h : QueueOrdered s) (id : Nat) : QueueOutside (s.localRemove id).2 := by
  unfold State.localRemove
  split
  · exact h.outside
  · next e _ =>
    split
    · exact h.outside
    · split
      · exact h.outside
      · split
        · exact (State.localChange_ordered h id .shared [] none).outside
        · exact State.deleteLocal_outside h.outside e

/-! ### Received records (R32 to R36) -/

theorem State.remoteChange_view (s : State) (old : Option Entry) (id : Nat) :
    (s.remoteChange old id).queueView = s.queueView := by
  unfold State.remoteChange
  split <;> rfl

theorem State.takeRecord_ordered {s : State} (h : QueueOrdered s) (old : Option Entry) (r : LineRecord) (slot : Option Nat) :
    QueueOrdered (s.takeRecord old r slot) := by
  unfold State.takeRecord
  dsimp only
  generalize hu : s.commitEntry old _ = u
  exact (hu ▸ State.commitEntry_ordered h old _ : QueueOrdered u).of_view (State.remoteChange_view _ _ _)

theorem State.takeIfRoom_ordered {s : State} (h : QueueOrdered s) (old : Option Entry) (r : LineRecord) :
    QueueOrdered (s.takeIfRoom old r) := by
  unfold State.takeIfRoom
  split
  · exact h.of_view rfl
  · split
    · exact h.of_view rfl
    · exact State.takeRecord_ordered h old r _

theorem State.applyRecord_ordered {s : State} (h : QueueOrdered s) (r : LineRecord) : QueueOrdered (s.applyRecord r) := by
  unfold State.applyRecord
  split
  · exact State.takeIfRoom_ordered h _ _
  · split
    · exact h.of_view rfl
    · split
      · exact State.takeIfRoom_ordered h _ _
      · split
        · exact h
        · exact h.of_view rfl

theorem State.applyRecords_ordered {s : State} (h : QueueOrdered s) (recs : List LineRecord) :
    QueueOrdered (recs.foldl State.applyRecord s) := by
  induction recs generalizing s with
  | nil => exact h
  | cons r recs ih => exact ih (State.applyRecord_ordered h r)

/-! ### Frames taken (R65, R66) -/

theorem State.raiseH_view (s : State) (p : Payload) : (s.raiseH p).queueView = s.queueView := by
  have hfold : ∀ (gs : List Nat) (t : ParamTable), (gs.foldl ParamTable.raiseH t).entries = t.entries := fun gs => by
    induction gs with
    | nil => exact fun _ => rfl
    | cons g gs ih => exact fun t => ih (t.raiseH g)
  unfold State.queueView State.raiseH
  rw [hfold]

theorem State.takeKind_ordered {s : State} (h : QueueOrdered s) (f : Frame) : QueueOrdered (s.takeKind f) := by
  unfold State.takeKind
  split
  · next recs _ =>
    split
    · have hrecs := State.applyRecords_ordered h recs
      dsimp only
      split
      · exact hrecs.of_view (State.takeReplyUpdate_view _ _)
      · exact hrecs
    · exact h
  · exact h.of_view (s.takeSummary_view _ _ _ _ _ _)
  · exact h.of_view (s.takeRequest_view _ _)
  · split
    · exact h.of_view (s.takeListing_view _ _ _ _)
    · exact h
  · exact h.of_view (s.takeRequest_view _ _)
  · exact h.of_view (s.peerLeft_view _)

theorem State.actOn_ordered {s : State} (h : QueueOrdered s) (f : Frame) : QueueOrdered (s.actOn f) := by
  unfold State.actOn
  refine State.takeKind_ordered (h.of_view (Eq.trans ?_ (s.raiseH_view f.payload))) f
  split
  · rfl
  · exact State.refresh_view _ _

end Sys2Proof.Machine
end

section
/-! The journal queue through the jobs of the journal outside replay: openings, writes and their ends, erases and a FAULT. -/

namespace Sys2Proof.Machine

/-- An operation of the journal that leaves the table, the queue, the condition and replay. -/
theorem QueueOutside.of_journal {s t : State} (h : QueueOutside s) (pt : t.pt = s.pt) (queue : t.jc.queue = s.jc.queue)
    (fault : t.jc.fault = s.jc.fault) (replay : t.jc.replay = s.jc.replay) : QueueOutside t := by
  refine ⟨?_, replay.trans h.left⟩
  rw [pt, queue, fault]
  exact h.agrees

/-! ### FAULT and the trigger (R149, R156) -/

theorem State.enterFault_agrees (s : State) :
    QueueAgrees s.enterFault.pt.entries s.enterFault.jc.queue s.enterFault.jc.fault := by
  obtain ⟨_, _, _, _, _, ht⟩ := s.enterFault_entered
  rw [ht]
  refine ⟨Nat.zero_le _, List.nodup_nil, fun e he => ?_, by simp, fun _ => rfl⟩
  obtain ⟨x, -, rfl⟩ := List.mem_map.mp he
  refine iff_of_false ?_ List.not_mem_nil
  split
  · simp
  · assumption

theorem State.enterFault_replay (s : State) : s.enterFault.jc.replay = s.jc.replay := by
  obtain ⟨_, _, _, _, _, ht⟩ := s.enterFault_entered
  rw [ht]

theorem State.enterFault_outside {s : State} (hr : s.jc.replay = none) : QueueOutside s.enterFault :=
  ⟨s.enterFault_agrees, s.enterFault_replay.trans hr⟩

theorem State.judgeTrigger_outside {s : State} (h : QueueOutside s) : QueueOutside s.judgeTrigger := by
  rw [s.judgeTrigger_frame]
  exact h.of_journal rfl rfl rfl rfl

theorem State.judgeUsable_outside {s : State} (h : QueueOutside s) : QueueOutside s.judgeUsable := by
  unfold State.judgeUsable
  split
  · exact State.enterFault_outside h.left
  · exact State.judgeTrigger_outside h

/-! ### Openings and the beginning of a write (R143, R146, R150) -/

theorem State.issue_outside {s : State} (h : QueueOutside s) (p : Prog) : QueueOutside (s.issue p) := by
  rw [s.issue_issued p]
  exact h.of_journal rfl rfl rfl rfl

theorem State.openBand_outside {s : State} (h : QueueOutside s) (w : WriteJob) : QueueOutside (s.openBand w) := by
  unfold State.openBand
  split
  · exact h.of_journal rfl rfl rfl rfl
  · split
    · exact State.enterFault_outside h.left
    · split
      · exact State.enterFault_outside h.left
      · exact State.issue_outside (by exact h.of_journal rfl rfl rfl rfl) _

theorem State.beginWrite_outside {s : State} (h : QueueOutside s) (w : WriteJob) : QueueOutside (s.beginWrite w) := by
  have hstarted : QueueOutside (s.mapJournal fun jc => jc.startWrite w) := h.of_journal rfl rfl rfl rfl
  unfold State.beginWrite
  dsimp only
  split
  · exact State.openBand_outside hstarted w
  · split <;> exact State.issue_outside hstarted _

theorem State.rewrite_outside {s : State} (h : QueueOutside s) (w : WriteJob) : QueueOutside (s.rewrite w) := by
  unfold State.rewrite
  split
  · exact State.openBand_outside (by exact h.of_journal rfl rfl rfl rfl) _
  · exact h.of_journal rfl rfl rfl rfl

/-! ### A record written whole (R144, R151, R158) -/

/-- The order of the queue is nothing to the agreement. -/
theorem QueueAgrees.perm {es : List Entry} {q q' : List QItem} {fault : Bool} (h : QueueAgrees es q fault) (hq : q'.Perm q) :
    QueueAgrees es q' fault := by
  have hids := hq.map QItem.id
  refine ⟨hq.length_eq.trans_le h.room, hids.nodup_iff.mpr h.nodup, fun e he => (h.queued e he).trans hids.mem_iff.symm,
    fun x hx => h.deletes x (hq.mem_iff.mp hx), fun hf => ?_⟩
  rw [h.faulted hf] at hq
  exact hq.eq_nil

/-- A changed id keeps its place in the queue or goes to its tail. -/
theorem Journal.queueAfter_perm (jc : Journal) {w : WriteJob} (hw : w.changed = true) : (jc.queueAfter w).Perm jc.queue := by
  unfold Journal.queueAfter
  rw [if_pos hw]
  split
  · simpa using List.filter_append_perm (fun x : QItem => decide (x.id ≠ w.id)) jc.queue
  · exact List.Perm.refl _

theorem State.recordSettled_outside {s : State} (h : QueueOutside s) (w : WriteJob) (hd : Head) :
    QueueOutside (s.recordSettled w hd) := by
  refine ⟨?_, h.left⟩
  show QueueAgrees (s.pt.entries.map (Entry.recorded w (s.movedBase w hd))) (s.jc.queueAfter w) s.jc.fault
  generalize s.movedBase w hd = moved
  by_cases hw : w.changed = true
  · refine (h.agrees.of_marks (map_queueMark (fun e => ?_) _)).perm (s.jc.queueAfter_perm hw)
    unfold Entry.recorded
    split <;> rfl
  · have hq : s.jc.queueAfter w = s.jc.queue.filter fun x => x.id ≠ w.id := if_neg hw
    have hids : ((s.jc.queue.filter fun x => x.id ≠ w.id).map QItem.id).Sublist (s.jc.queue.map QItem.id) :=
      List.filter_sublist.map _
    have hgone : ∀ x ∈ s.jc.queue.filter fun x => x.id ≠ w.id, x.id ≠ w.id := fun x hx => by
      simpa using (List.mem_filter.mp hx).2
    rw [hq]
    refine h.agrees.change w.id (fun e he => ?_) (fun x hx => ?_) ((List.length_filter_le _ _).trans h.agrees.room)
      (h.agrees.nodup.sublist hids) (fun hf => by rw [h.agrees.faulted hf]; rfl) (fun e he hid => ?_)
      fun x hx hid => absurd hid (hgone x hx)
    · rw [List.mem_map]
      constructor
      · rintro ⟨x, hx, rfl⟩
        rw [Entry.recorded_id] at he
        rwa [Entry.recorded_other he]
      · exact fun hin => ⟨e, hin, Entry.recorded_other he moved⟩
    · simp [hx]
    · obtain ⟨x, -, rfl⟩ := List.mem_map.mp he
      rw [Entry.recorded_id] at hid
      refine iff_of_false (by simp [Entry.recorded, hid, hw]) fun hin => ?_
      obtain ⟨y, hy, hyid⟩ := List.mem_map.mp hin
      exact hgone y hy hyid

/-- A queue filled with ids of entries, QUEUED exactly where their id is taken. -/
theorem QueueAgrees.filled {es : List Entry} {ids : List Nat} (hroom : ids.length ≤ Config.maxQueue) (hnodup : ids.Nodup)
    (hheld : ∀ i ∈ ids, ∃ e ∈ es, e.id = i) (hqueued : ∀ e ∈ es, e.jstate = .queued ↔ e.id ∈ ids) :
    QueueAgrees es (ids.map fun i => { id := i, del := false }) false := by
  refine ⟨(List.length_map _).trans_le hroom, (map_id_queued ids).symm ▸ hnodup, fun e he => ?_, fun x hx => ?_,
    fun hf => by cases hf⟩
  · rw [map_id_queued]
    exact hqueued e he
  · obtain ⟨i, hi, rfl⟩ := List.mem_map.mp hx
    obtain ⟨e, he, hid⟩ := hheld i hi
    exact iff_of_false Bool.false_ne_true fun hno => hno e he hid

/-- The ids of some entries, up to a number, are different ones. -/
theorem ids_take_nodup {es : List Entry} (hs : es.Pairwise fun a b => a.id < b.id) (p : Entry → Bool) (n : Nat) :
    (((es.filter p).map Entry.id).take n).Nodup := by
  have hids : (es.map Entry.id).Nodup := List.Pairwise.imp Nat.ne_of_lt (List.pairwise_map.mpr hs)
  exact hids.sublist ((List.take_sublist _ _).trans (List.filter_sublist.map _))

theorem State.sweep_outside {s : State} (h : QueueOrdered s) : QueueOutside s.sweep := by
  by_cases hq : s.jc.queue = []
  · by_cases hf : s.jc.fault = true
    · have : s.sweep = s := by simp [State.sweep, hf]
      rw [this]
      exact h.outside
    · have hnormal : s.jc.fault = false := Bool.eq_false_iff.mpr hf
      have hfilled := QueueAgrees.filled (es := s.pt.entries.map fun e =>
          if s.sweptIds.contains e.id then { e with jstate := .queued } else e) (ids := s.sweptIds)
        (List.length_take_le _ _) (ids_take_nodup h.sorted _ _) (fun i hi => ?_) (fun e he => ?_)
      · rw [State.sweep_free hq hnormal]
        exact ⟨hnormal.symm ▸ hfilled, h.outside.left⟩
      · obtain ⟨e, he, hid, -⟩ := State.sweptIds_unsaved hi
        exact ⟨_, List.mem_map_of_mem he, by split <;> exact hid⟩
      · obtain ⟨x, hx, rfl⟩ := List.mem_map.mp he
        split
        · next hin => exact iff_of_true rfl (List.contains_iff_mem.mp hin)
        · next hno =>
          rw [h.outside.agrees.queued x hx, hq]
          exact iff_of_false List.not_mem_nil fun hin => hno (List.contains_iff_mem.mpr hin)
  · rw [State.sweep_busy hq]
    exact h.outside

theorem State.settleFlush_view (s : State) : s.settleFlush.queueView = s.queueView := by
  obtain ⟨h, -⟩ := s.settleFlush_spec
  rw [h]
  rfl

theorem State.writeDone_outside {s : State} (h : QueueOrdered s) (w : WriteJob) (hd : Head) : QueueOutside (s.writeDone w hd) := by
  have hswept : QueueOutside (s.recordSettled w hd).sweep :=
    State.sweep_outside ⟨State.recordSettled_outside h.outside w hd,
      mapEntries_sorted h.sorted fun e => e.recorded_id w (s.movedBase w hd)⟩
  rw [s.writeDone_eq w hd]
  refine QueueOutside.of_view ?_ (State.settleFlush_view _)
  split
  · exact State.judgeTrigger_outside hswept
  · exact hswept

/-! ### The ends of programs and erases (R152 to R155) -/

theorem State.withWrite_outside {s : State} (h : QueueOutside s) {k : WriteJob → State} (hk : ∀ w, QueueOutside (k w)) :
    QueueOutside (s.withWrite k) := by
  unfold State.withWrite
  split
  · exact hk _
  · exact h

theorem State.withHead_outside {s : State} (h : QueueOutside s) {k : Head → State} (hk : ∀ x, QueueOutside (k x)) :
    QueueOutside (s.withHead k) := by
  unfold State.withHead
  split
  · exact hk _
  · exact h

/-- A close of replay is nothing outside replay. -/
theorem State.replayClosed_outside {s : State} (h : QueueOutside s) (written : Bool) : s.replayClosed written = s := by
  simp [State.replayClosed, h.left]

theorem State.bandOpened_outside {s : State} (h : QueueOutside s) (band : Nat) (w : WriteJob) :
    QueueOutside (s.bandOpened band w) := by
  unfold State.bandOpened
  refine State.issue_outside (State.judgeTrigger_outside ?_) _
  exact h.of_journal rfl rfl rfl rfl

theorem State.programDone_outside {s : State} (h : QueueOrdered s) (p : Prog) : QueueOutside (s.programDone p) := by
  have hs := h.outside
  unfold State.programDone
  split
  · exact State.issue_outside hs _
  · exact State.withWrite_outside hs fun w => State.withHead_outside hs fun hd =>
      State.openBand_outside (by exact hs.of_journal rfl rfl rfl rfl) w
  · exact State.withWrite_outside hs fun w =>
      State.bandOpened_outside hs _ w
  · refine State.withWrite_outside hs fun w => State.withHead_outside hs fun hd => ?_
    split
    · exact State.writeDone_outside h w hd
    · exact State.issue_outside hs _
  · exact State.withWrite_outside hs fun w => State.withHead_outside hs fun hd => State.writeDone_outside h w hd
  · exact State.withWrite_outside hs fun w => State.withHead_outside hs fun hd => State.issue_outside hs _
  · exact State.issue_outside hs _
  · exact State.withWrite_outside hs fun w => State.withHead_outside hs fun hd =>
      State.rewrite_outside (by exact hs.of_journal rfl rfl rfl rfl) w
  · unfold State.issueInReplay
    split <;> exact hs.of_journal rfl rfl rfl rfl
  · rwa [State.replayClosed_outside hs]

theorem State.headerFailed_outside {s : State} (h : QueueOutside s) (band : Nat) : QueueOutside (s.headerFailed band) := by
  have hbad : QueueOutside (s.mapJournal fun jc => jc.mapRow band (.bare .bad)).judgeUsable :=
    State.judgeUsable_outside (by exact h.of_journal rfl rfl rfl rfl)
  unfold State.headerFailed
  dsimp only
  split
  · exact hbad
  · exact State.withWrite_outside hbad fun w => State.openBand_outside hbad w

/-- A FAULT ends replay, where it goes on. -/
theorem State.fail_outside (s : State) : QueueOutside s.fail := by
  unfold State.fail
  split
  · exact State.enterFault_outside rfl
  · next hr => exact State.enterFault_outside (Option.not_isSome_iff_eq_none.mp hr)

theorem State.programFailed_outside {s : State} (h : QueueOutside s) (p : Prog) : QueueOutside (s.programFailed p) := by
  have hc : QueueOutside s.countFailure := h.of_journal rfl rfl rfl rfl
  unfold State.programFailed
  dsimp only
  split
  · exact State.fail_outside _
  · split
    · exact State.withHead_outside hc fun hd => State.issue_outside hc _
    · exact State.withHead_outside hc fun hd => State.issue_outside hc _
    · exact State.withWrite_outside hc fun w => State.openBand_outside (by exact hc.of_journal rfl rfl rfl rfl) w
    · exact State.withWrite_outside hc fun w => State.openBand_outside (by exact hc.of_journal rfl rfl rfl rfl) w
    · exact State.headerFailed_outside hc _
    · exact State.fail_outside _
    · exact State.fail_outside _
    · exact State.fail_outside _
    · rwa [State.replayClosed_outside hc]
    · rwa [State.replayClosed_outside hc]

/-- The end of an erase job leaves the queue, the condition and replay. -/
theorem Journal.eraseOver_keeps (jc : Journal) (band : Nat) : (jc.eraseOver band).queue = jc.queue
    ∧ (jc.eraseOver band).fault = jc.fault ∧ (jc.eraseOver band).replay = jc.replay := by
  unfold Journal.eraseOver
  dsimp only
  split <;> exact ⟨rfl, rfl, rfl⟩

theorem State.eraseDone_outside {s : State} (h : QueueOutside s) (band : Nat) : QueueOutside (s.eraseDone band) := by
  obtain ⟨hq, hf, hr⟩ := s.jc.eraseOver_keeps band
  exact State.judgeTrigger_outside (h.of_journal rfl hq hf hr)

theorem State.eraseFailed_outside {s : State} (h : QueueOutside s) (band : Nat) : QueueOutside (s.eraseFailed band) := by
  obtain ⟨hq, hf, hr⟩ := s.jc.eraseOver_keeps band
  exact State.judgeUsable_outside (h.of_journal rfl hq hf hr)

/-! ### Going on after a lend or a busy check (R175, R177) -/

theorem State.resume_outside {s : State} (h : QueueOutside s) : QueueOutside s.resume := by
  unfold State.resume
  split
  · rw [h.left]
    dsimp only
    split
    · exact h.of_journal rfl rfl rfl rfl
    · exact h.of_journal rfl rfl rfl rfl
    · split
      · exact State.issue_outside h _
      · exact h
  · exact h

end Sys2Proof.Machine
end

section
/-! The journal queue in replay: readings, the records applied, the settling of the table, the closes, and a FAULT. -/

namespace Sys2Proof.Machine

/-- The part is at replay `r`, with the condition NORMAL and no job; what waits, if anything, is a close of replay (R163, R169). -/
structure Replaying (s : State) (r : Replay) : Prop where
  agrees : QueueAgrees s.pt.entries s.jc.queue s.jc.fault
  going : s.jc.replay = some r
  normal : s.jc.fault = false
  jobless : s.jc.job = none
  next : ∀ p, s.jc.next = some p → (SpCmd.program p .busy).ofReplay = true

theorem QueueHeld.replaying {s : State} {r : Replay} (h : QueueHeld s) (hr : s.jc.replay = some r) : Replaying s r :=
  let ⟨hnormal, hjob, _, hnext, _⟩ := h.replay r hr
  ⟨h.agrees, hr, hnormal, hjob, hnext⟩

theorem Replaying.held {s : State} {r : Replay} (h : Replaying s r) (hcmd : s.sp.cmd.ofReplay = true)
    (hq : (∃ todo, r.phase = .closing todo) ∨ s.jc.queue = []) : QueueHeld s :=
  .of_replay h.agrees h.going ⟨h.normal, h.jobless, hcmd, h.next, hq⟩

/-- A step of replay that leaves the table, the queue, the condition, the job and what waits. -/
theorem Replaying.of_journal {s t : State} {r r' : Replay} (h : Replaying s r) (replay : t.jc.replay = some r')
    (pt : t.pt.entries = s.pt.entries) (queue : t.jc.queue = s.jc.queue) (fault : t.jc.fault = s.jc.fault)
    (job : t.jc.job = s.jc.job) (next : t.jc.next = s.jc.next) : Replaying t r' := by
  refine ⟨?_, replay, fault.trans h.normal, job.trans h.jobless, next ▸ h.next⟩
  rw [pt, queue, fault]
  exact h.agrees

theorem SpCmd.ofReplay_program (p : Prog) (st : Stage) :
    (SpCmd.program p st).ofReplay = true ↔ p.purpose = .replayLength ∨ p.purpose = .replayMark := by
  simp [SpCmd.ofReplay]

/-! ### Readings and closes (R169, R170) -/

/-- A program of replay's closes is begun or waits. -/
theorem State.issue_replaying {s : State} {r : Replay} (h : Replaying s r) {p : Prog}
    (hp : p.purpose = .replayLength ∨ p.purpose = .replayMark) (hphase : ∃ todo, r.phase = .closing todo) :
    QueueHeld (s.issue p) := by
  have hcmd := fun st => (SpCmd.ofReplay_program p st).mpr hp
  rw [s.issue_issued p]
  refine .of_replay h.agrees h.going ⟨h.normal, h.jobless, ?_, fun q hq => ?_, .inl hphase⟩
  · show SpCmd.ofReplay (if _ then _ else _) = true
    split
    · exact hcmd _
    · rfl
  · change (if _ then none else some p) = some q at hq
    split at hq
    · cases hq
    · exact Option.some.inj hq ▸ hcmd _

theorem State.setPhase_eq {s : State} {r : Replay} (hr : s.jc.replay = some r) (p : ReplayPhase) :
    s.setPhase p = { s with jc := { s.jc with replay := some { r with phase := p } } } := by
  rw [State.setPhase, State.mapJournal, hr]
  rfl

theorem State.nextClose_held {s : State} {r : Replay} (h : Replaying s r) (todo : List (Nat × Nat)) :
    QueueHeld (s.nextClose todo) := by
  cases todo with
  | nil => exact (State.judgeTrigger_outside (s := s.leaveReplay) ⟨h.agrees, rfl⟩).held
  | cons c todo =>
    obtain ⟨band, off⟩ := c
    show QueueHeld ((s.setPhase (.closing ((band, off) :: todo))).issue _)
    rw [State.setPhase_eq h.going]
    refine State.issue_replaying (r := { r with phase := .closing ((band, off) :: todo) }) ?_ (.inl ?_) ⟨_, rfl⟩
    · exact h.of_journal rfl rfl rfl rfl rfl rfl
    · rfl

theorem State.readOn_held {s : State} {r : Replay} (h : Replaying s r) (hq : s.jc.queue = []) : QueueHeld s.readOn := by
  rw [s.readOn_eq]
  refine .of_replay h.agrees h.going ⟨h.normal, h.jobless, ?_, h.next, .inr hq⟩
  show SpCmd.ofReplay (if _ then _ else _) = true
  split <;> rfl

/-! ### The table settled and the head (R168, R169) -/

theorem State.settleTable_agrees {s : State} (hs : s.pt.entries.Pairwise fun a b => a.id < b.id) (hf : s.jc.fault = false) :
    QueueAgrees s.settleTable.pt.entries s.settleTable.jc.queue s.settleTable.jc.fault := by
  obtain ⟨lost, hlost, ht⟩ := s.settleTable_settled
  rw [ht]
  refine hf.symm ▸ QueueAgrees.filled (List.length_take_le _ _) (hlost ▸ ids_take_nodup hs _ _) (fun i hi => ?_) fun e he => ?_
  · obtain ⟨e, he, rfl⟩ := List.mem_map.mp (hlost ▸ List.mem_of_mem_take hi)
    exact ⟨_, List.mem_map_of_mem (List.mem_filter.mp he).1, rfl⟩
  · obtain ⟨x, hx, rfl⟩ := List.mem_map.mp he
    dsimp only
    by_cases hin : x.id ∈ lost.take 64
    · obtain ⟨y, hy, hyid⟩ := List.mem_map.mp (hlost ▸ List.mem_of_mem_take hin)
      obtain ⟨hymem, hytwice⟩ := List.mem_filter.mp hy
      have hyx : y = x := Option.some.inj ((findEntry_of_mem hs hymem).symm.trans (hyid ▸ findEntry_of_mem hs hx))
      rw [if_pos (hyx ▸ hytwice), if_pos hin]
      exact iff_of_true rfl hin
    · refine iff_of_false ?_ hin
      rw [if_neg hin]
      split <;> simp

theorem State.finishWalk_held {s : State} {r : Replay} (h : Replaying s r)
    (hs : s.pt.entries.Pairwise fun a b => a.id < b.id) : QueueHeld s.finishWalk := by
  have hagrees := State.settleTable_agrees hs h.normal
  have hkept : s.settleTable.jc.fault = s.jc.fault ∧ s.settleTable.jc.job = s.jc.job ∧ s.settleTable.jc.next = s.jc.next
      ∧ s.settleTable.jc.replay = s.jc.replay := by
    obtain ⟨_, _, ht⟩ := s.settleTable_settled
    rw [ht]
    exact ⟨rfl, rfl, rfl, rfl⟩
  obtain ⟨hfault, hjob, hnext, hreplay⟩ := hkept
  unfold State.finishWalk State.settleHead
  rw [h.going]
  refine State.nextClose_held (r := r) ?_ _
  exact ⟨hagrees, hreplay.trans h.going, hfault.trans h.normal, hjob.trans h.jobless, fun p hp => h.next p (hnext ▸ hp)⟩

/-! ### The survey (R164) -/

theorem State.surveyHeader_held {s : State} {r : Replay} (h : Replaying s r)
    (hs : s.pt.entries.Pairwise fun a b => a.id < b.id) (hq : s.jc.queue = []) (i : Nat) : QueueHeld (s.surveyHeader r i) := by
  have hsurveyed : Replaying (s.surveyed r i) _ := h.of_journal rfl rfl rfl rfl rfl rfl
  have hphase : ∀ {u : State} {r' : Replay}, Replaying u r' → u.jc.queue = [] → ∀ p, QueueHeld (u.setPhase p).readOn := by
    intro u r' hu hqu p
    rw [State.setPhase_eq hu.going]
    exact State.readOn_held (hu.of_journal rfl rfl rfl rfl rfl rfl) hqu
  rw [State.surveyHeader_eq]
  split
  · exact hphase hsurveyed hq _
  · rw [State.endSurvey_eq]
    split
    · exact State.finishWalk_held (hsurveyed.of_journal rfl rfl rfl rfl rfl rfl) hs
    · exact hphase (u := (s.surveyed r i).surveyOver) (hsurveyed.of_journal rfl rfl rfl rfl rfl rfl) hq _

/-! ### The walk of a band (R165 to R167) -/

/-- No entry is QUEUED. -/
def NoneQueued (s : State) : Prop := ∀ e ∈ s.pt.entries, e.jstate ≠ .queued

theorem QueueAgrees.noneQueued {s : State} (h : QueueAgrees s.pt.entries s.jc.queue s.jc.fault) (hq : s.jc.queue = []) :
    NoneQueued s := fun e he hqueued => by
  have := (h.queued e he).mp hqueued
  rw [hq] at this
  cases this

/-- With an empty queue the agreement says that no entry is QUEUED. -/
theorem QueueAgrees.of_empty {s : State} (h : NoneQueued s) (hq : s.jc.queue = []) :
    QueueAgrees s.pt.entries s.jc.queue s.jc.fault := by
  rw [hq]
  exact ⟨Nat.zero_le _, List.nodup_nil, fun e he => iff_of_false (h e he) List.not_mem_nil, by simp, fun _ => rfl⟩

/-- An entry put in keeps the journal state of the one it takes the place of. -/
theorem NoneQueued.put {s t : State} (h : NoneQueued s) {e : Entry} (hes : t.pt.entries = insertEntry s.pt.entries e)
    (he : e.jstate ≠ .queued) : NoneQueued t := fun x hx => by
  rw [hes] at hx
  rcases mem_insertEntry hx with rfl | hx
  · exact he
  · exact h x hx

theorem State.replayEntry_noneQueued {s : State} (h : NoneQueued s) (seq : Nat) (r : JRecord) {old : Option Entry}
    (hold : ∀ e, old = some e → e ∈ s.pt.entries) : NoneQueued (s.replayEntry seq r old) := by
  unfold State.replayEntry
  split
  · exact h
  · split
    · exact h
    · refine h.put rfl (?_ : (old.getD (Entry.fresh r.id .shared)).jstate ≠ .queued)
      cases old with
      | none => simp [Entry.fresh]
      | some e => exact h e (hold e rfl)

theorem State.replayRecord_noneQueued {s : State} (h : NoneQueued s) (seq : Nat) (r : JRecord) :
    NoneQueued (s.replayRecord seq r) := by
  have hraised : NoneQueued { s with pt := s.pt.raiseH r.gen } := h
  unfold State.replayRecord
  split
  · exact h
  · generalize ({ s with pt := s.pt.raiseH r.gen } : State) = u at hraised
    dsimp only
    split
    · unfold State.replayTail
      split
      · exact hraised
      · next e he =>
        dsimp only
        generalize (if r.loc = true then Scope.loc else Scope.shared) = scope
        split
        · exact hraised.put rfl (hraised e (findEntry_mem he))
        · exact hraised
    · split
      · unfold State.replayDelete
        split
        · split
          · exact fun x hx => hraised x (List.mem_filter.mp hx).1
          · exact hraised
        · exact hraised
      · unfold State.replayWhole
        split
        · exact State.replayEntry_noneQueued hraised seq r (by simp)
        · next e he =>
          split
          · exact State.replayEntry_noneQueued hraised seq r fun x hx => Option.some.inj hx ▸ findEntry_mem he
          · exact hraised

theorem Walked.noneQueued {band seq : Nat} {closeEnd : Option Nat} {s t : State} {off off' : Nat} {how : WalkEnd}
    (hw : Walked band seq closeEnd s off t off' how) (h : NoneQueued s) : NoneQueued t := by
  induction hw with
  | record _ _ _ _ ih => exact ih (State.replayRecord_noneQueued h _ _)
  | _ => exact h

/-- What a step does to the table leaves the entries in id order (R3). -/
theorem TableMove.sorted {s t : State} (h : TableMove s t) (hs : s.pt.entries.Pairwise fun a b => a.id < b.id) :
    t.pt.entries.Pairwise fun a b => a.id < b.id := by
  induction h with
  | quiet _ pt _ => exact pt ▸ hs
  | trans _ _ ih1 ih2 => exact ih2 (ih1 hs)
  | fields f keeps _ pt _ => exact pt ▸ mapEntries_sorted hs fun e => (keeps e).1
  | raise g _ _ pt _ => exact pt ▸ hs
  | put e _ _ _ pt _ => exact pt ▸ insertEntry_sorted hs e
  | delete id _ _ pt _ => exact pt ▸ removeEntry_sorted hs id
  | reset pt _ _ _ => exact pt ▸ List.Pairwise.nil

theorem State.walkOne_held {s : State} {r : Replay} (h : Replaying s r) (hs : s.pt.entries.Pairwise fun a b => a.id < b.id)
    (hq : s.jc.queue = []) (band : Nat) (todo : List Nat) : QueueHeld (s.walkOne r band todo) := by
  obtain ⟨hmoves, -⟩ : TableMove s (s.walkOf r band).1 ∧ _ := walkBand_moves 320 (by simp [h.going]) band _ _ _
  obtain ⟨w, off, how, hw⟩ : ∃ w off how, s.walkOf r band = (w, off, how) := ⟨_, _, _, rfl⟩
  rw [hw] at hmoves
  have hwalked := State.walkOf_walked hw
  have hnone := hwalked.noneQueued (h.agrees.noneQueued hq)
  have hframe := hwalked.frame
  have hjc : w.jc = { s.jc with anomalies := w.jc.anomalies } := by rw [hframe]
  have hqw : w.jc.queue = [] := by rw [hjc, hq]
  rw [State.walkOne_eq s r band todo hw rfl]
  have hat : Replaying (w.bandWalked (r.walked band todo off how) (s.jc.walkAnomalies band how)) (r.walked band todo off how) := by
    refine ⟨QueueAgrees.of_empty (s := w) hnone hqw, rfl, ?_, ?_, ?_⟩
    · show w.jc.fault = false
      rw [hjc, h.normal]
    · show w.jc.job = none
      rw [hjc, h.jobless]
    · show ∀ p, w.jc.next = some p → _
      rw [hjc]
      exact h.next
  split
  · exact State.finishWalk_held hat (hmoves.sorted hs)
  · exact State.readOn_held hat hqw

/-! ### The ends of programs, and a FAULT, in replay (R156, R169, R170) -/

theorem State.replayClosed_held {s : State} (h : QueueHeld s) (written : Bool) : QueueHeld (s.replayClosed written) := by
  cases hr : s.jc.replay with
  | none => rwa [State.replayClosed_outside (h.outside hr)]
  | some r =>
    unfold State.replayClosed
    split
    · next band off todo _ =>
      dsimp only
      generalize hu : s.mapJournal _ = u
      have hat : Replaying u r := by
        rw [← hu]
        cases written <;> exact (h.replaying hr).of_journal hr rfl rfl rfl rfl rfl
      rw [State.setPhase_eq hat.going]
      refine State.nextClose_held (r := { r with phase := .closing todo }) ?_ todo
      exact hat.of_journal rfl rfl rfl rfl rfl rfl
    · exact h

theorem QueueHeld.endCommand {s : State} (h : QueueHeld s) : QueueHeld s.endCommand :=
  ⟨h.agrees, fun r hr =>
    let ⟨hnormal, hjob, _, hnext, hq⟩ := h.replay r hr
    ⟨hnormal, hjob, rfl, hnext, hq⟩⟩

/-- The command in progress is a program: in replay it is one of a close. -/
def ClosesInReplay (s : State) (p : Prog) : Prop := s.jc.replay ≠ none → p.purpose = .replayLength ∨ p.purpose = .replayMark

theorem QueueHeld.closesInReplay {s : State} (h : QueueHeld s) {p : Prog} {st : Stage} (hcmd : s.sp.cmd = .program p st) :
    ClosesInReplay s p := fun hr => by
  obtain ⟨r, hr⟩ := Option.ne_none_iff_exists'.mp hr
  have := (h.replay r hr).command
  rwa [hcmd, SpCmd.ofReplay_program] at this

/-- An erase is no command of replay. -/
theorem QueueHeld.erase_outside {s : State} (h : QueueHeld s) {b : Nat} {st : Stage} (hcmd : s.sp.cmd = .erase b st) :
    s.jc.replay = none := by
  by_contra hr
  obtain ⟨r, hr⟩ := Option.ne_none_iff_exists'.mp hr
  have := (h.replay r hr).command
  rw [hcmd] at this
  cases this

end Sys2Proof.Machine
end

section
/-! Every command, and so every step, keeps the law of the journal queue. -/

namespace Sys2Proof.Machine

/-- A command that goes on leaves what the law of the journal queue reads. -/
def Still (s : State) (o : Host.Outcome State Fault Refusal) : Prop := ∀ t, o = .next t → t.queueView = s.queueView

theorem Still.next {s t : State} (h : t.queueView = s.queueView) : Still s (.next t) := fun _ ht => Host.Outcome.next.inj ht ▸ h

theorem Still.running {s : State} {k : State → State} (h : (k s).queueView = s.queueView) : Still s (whenRunning s k) := by
  rcases whenRunning_cases s k with hw | hw <;> rw [hw]
  · exact .next h
  · exact .next rfl

/-- A command that goes on leaves the law of the journal queue holding, the station state apart. -/
def HoldsQueue (o : Host.Outcome State Fault Refusal) : Prop := ∀ t, o = .next t → QueueHeld t

theorem HoldsQueue.next {t : State} (h : QueueHeld t) : HoldsQueue (.next t) := fun _ ht => Host.Outcome.next.inj ht ▸ h

theorem HoldsQueue.running {s : State} (h : QueueHeld s) {k : State → State} (hk : QueueHeld (k s)) :
    HoldsQueue (whenRunning s k) := by
  rcases whenRunning_cases s k with hw | hw <;> rw [hw]
  · exact .next hk
  · exact .next h

theorem Still.holds {s : State} {o : Host.Outcome State Fault Refusal} (ho : Still s o) (h : QueueHeld s) : HoldsQueue o :=
  fun t ht => h.of_view (ho t ht)

theorem QueueLaw.held {s : State} (h : QueueLaw s) : QueueHeld s := ((queueLaw_iff s).mp h).1

/-- Outside the station state REPLAY, with the entries in id order, the part has left replay. -/
theorem QueueLaw.ordered {s : State} (h : QueueLaw s) (hs : s.pt.entries.Pairwise fun a b => a.id < b.id)
    (hst : s.sc.station ≠ .replay) : QueueOrdered s := by
  obtain ⟨hheld, hstation⟩ := (queueLaw_iff s).mp h
  exact ⟨hheld.outside (not_not.mp fun hr => hst (hstation hr)), hs⟩

/-! ### The commands of the host (chapter 11) -/

/-- What the body of a command keeps, the command keeps: the law reads neither slot nor transaction. -/
theorem HoldsQueue.command {s : State} (h : QueueLaw s) {code : Byte} {b : Block} {body : List Byte → State → Reply}
    (hbody : ∀ p, QueueHeld (body p ((s.statusOnly (blockCount b + b.extra)).setSlot (.executing code b.tag))).after) :
    HoldsQueue (sendCommand code b body s) := by
  have hsettle : ∀ k : Reply, QueueHeld k.after → QueueHeld (k.settle code b.tag) := fun k hk => by
    cases k <;> exact hk.of_view rfl
  refine .running h.held ?_
  unfold State.judgeBlock
  dsimp only
  split
  · exact h.held.of_view rfl
  · split
    · exact h.held.of_view rfl
    · exact hsettle _ (hbody _)

/-- A command that changes nothing the law reads. -/
theorem HoldsQueue.commandStill {s : State} (h : QueueLaw s) {code : Byte} {b : Block} {body : List Byte → State → Reply}
    (hbody : ∀ p u, (body p u).after.queueView = u.queueView) : HoldsQueue (sendCommand code b body s) :=
  .command h fun p => h.held.of_view (hbody p _)

theorem tested_view {inReplay fits : Bool} {s : State} {k : Reply} (h : k.after.queueView = s.queueView) :
    (tested inReplay fits s k).after.queueView = s.queueView := by
  unfold tested
  split
  · rfl
  · split
    · rfl
    · exact h

theorem getBody_view (p : List Byte) (s : State) : (getBody p s).after.queueView = s.queueView := by
  refine tested_view ?_
  split
  · rfl
  · split <;> rfl

theorem listBody_view (p : List Byte) (s : State) : (listBody p s).after.queueView = s.queueView := by
  refine tested_view ?_
  split <;> rfl

theorem countersBody_view (p : List Byte) (s : State) : (countersBody p s).after.queueView = s.queueView := by
  refine tested_view ?_
  show (if num p 0 1 = 1 then s.count fun _ => .zero else s).queueView = _
  split <;> rfl

theorem setupBody_view (p : List Byte) (s : State) : (setupBody p s).after.queueView = s.queueView := by
  refine tested_view ?_
  split <;> rfl

theorem openBody_view (p : List Byte) (s : State) : (openBody p s).after.queueView = s.queueView := by
  refine tested_view ?_
  split
  · rfl
  · split
    · rfl
    · exact State.judge_view _

theorem closeBody_view (p : List Byte) (s : State) : (closeBody p s).after.queueView = s.queueView := by
  have hclosing : s.startClosing.queueView = s.queueView := (State.judge_view _).trans s.abandonSession_view
  refine tested_view ?_
  split
  · exact hclosing
  · exact hclosing
  · exact State.judge_view _
  · rfl
  · rfl
  · rfl

theorem watchBody_view (p : List Byte) (s : State) : (watchBody p s).after.queueView = s.queueView := by
  refine tested_view ?_
  split
  · rfl
  · split
    · rfl
    · split
      · rfl
      · exact State.mapEntry_view _ _ fun _ => rfl

theorem flushBody_view (p : List Byte) (s : State) : (flushBody p s).after.queueView = s.queueView := by
  refine tested_view ?_
  split
  · rfl
  · split <;> rfl

/-- A command that passes the tests 1 and 2 of R186 and is refused in REPLAY. -/
theorem tested_held {fits : Bool} {s : State} (h : QueueLaw s) {k : Reply} (hk : s.sc.station ≠ .replay → QueueHeld k.after) :
    QueueHeld (tested false fits s k).after := by
  unfold tested
  split
  · exact h.held
  · next hst =>
    split
    · exact h.held
    · exact hk (by simpa using hst)

theorem putBody_held (p : List Byte) {s : State} (h : QueueLaw s) (hs : s.pt.entries.Pairwise fun a b => a.id < b.id) :
    QueueHeld (putBody p s).after := by
  refine tested_held h fun hst => ?_
  split
  · exact h.held
  · split
    · exact h.held
    · exact (State.localPut_ordered (h.ordered hs hst) _ _ _).outside.held

theorem removeBody_held (p : List Byte) {s : State} (h : QueueLaw s) (hs : s.pt.entries.Pairwise fun a b => a.id < b.id) :
    QueueHeld (removeBody p s).after := by
  refine tested_held h fun hst => ?_
  split
  · exact h.held
  · split
    · exact h.held
    · exact (State.localRemove_outside (h.ordered hs hst) _).held

/-! ### Transactions (R180, R184, R192) -/

theorem execReadStatus_still (r : StatusRead) (s : State) : Still s (execReadStatus r s) := by
  refine .running ?_
  split
  · rfl
  · split <;> rfl

theorem execOtherTransactionCode_still (c : OtherCode) (s : State) : Still s (execOtherTransactionCode c s) := by
  refine .running ?_
  split <;> rfl

theorem execRestart_still (n : Nat) (s : State) : Still s (execRestart n s) := by
  refine .running ?_
  dsimp only
  split <;> rfl

theorem execReadResponse_still (p : Portion) (s : State) : Still s (execReadResponse p s) := by
  have hrest : ∀ (u : State) n, (u.restRead n).queueView = u.queueView := fun u n => by
    unfold State.restRead
    split
    · dsimp only
      split <;> rfl
    · rfl
  refine .running ?_
  split
  · exact hrest _ _
  · rfl
  · exact hrest _ _

theorem execPopEvent_still (p : Portion) (s : State) : Still s (execPopEvent p s) := by
  have hrest : ∀ (u : State) n, (u.restPop n).queueView = u.queueView := fun u n => by
    unfold State.restPop
    split <;> rfl
  refine .running ?_
  split
  · exact hrest _ _
  · rfl
  · exact hrest _ _

theorem execFlushComplete_still (s : State) : Still s (execFlushComplete s) := by
  refine .running ?_
  split
  · exact s.completeLong_view _ _
  · exact s.settleFlush_view

/-! ### The line (chapters 3 and 4) -/

theorem execFrameStart_still (line : Level) (s : State) : Still s (execFrameStart line s) := by
  refine .running ?_
  split
  · next cls d _ =>
    split
    · refine Eq.trans ?_ (s.passLine_view (s.gap cls - s.li.quiet))
      dsimp only
      split
      · rfl
      · exact State.startDemand_view _ _ _
    · rfl
  · rfl

theorem execFrameComplete_still (s : State) : Still s (execFrameComplete s) := by
  refine .running ?_
  split
  · split
    · rfl
    · exact (State.demandCompleted_view _ _).trans (s.frameSent_view _)
  · rfl

theorem execWithdrawal_still (bit : Nat) (s : State) : Still s (execWithdrawal bit s) := by
  refine .running ?_
  split
  · split
    · dsimp only
      split
      · exact (State.judge_view _).trans ((State.restoreIds_view _ _).trans (s.passLine_view _))
      · exact s.passLine_view _
    · rfl
  · rfl

theorem execDriveFault_still (bit : Nat) (s : State) : Still s (execDriveFault bit s) := by
  refine .running ?_
  split
  · split
    · dsimp only
      split
      · exact (State.frameUndone_view _ _).trans (s.passLine_view _)
      · exact (State.takeCause_view _ _).trans ((State.frameUndone_view _ _).trans (s.passLine_view _))
    · rfl
  · rfl

theorem execProbeDue_still (s : State) : Still s (execProbeDue s) := by
  refine .running ?_
  split
  · split
    · rfl
    · exact s.passUntil_view _ _
  · rfl

theorem execProbeStart_still (line : Level) (s : State) : Still s (execProbeStart line s) := by
  refine .running ?_
  split
  · refine Eq.trans ?_ (s.passLine_view (Config.probeGap - s.li.quiet))
    dsimp only
    split <;> rfl
  · rfl

theorem execProbeComplete_still (s : State) : Still s (execProbeComplete s) := by
  refine .running ?_
  split
  · split
    · exact (State.judge_view _).trans ((State.searchSession_view _).trans
        ((State.demandCompleted_view _ _).trans (s.frameSent_view _)))
    · rfl
  · rfl

theorem execStartBit_still (c : LineChange) (s : State) : Still s (execStartBit c s) := by
  refine .running ?_
  split <;> rfl

theorem execFrameReceived_still (chars : List Byte) (s : State) : Still s (execFrameReceived chars s) := by
  refine .running ?_
  split
  · split
    · exact (State.testFrame_view _ _).trans (s.passLine_view _)
    · rfl
  · rfl

theorem execFramingError_still (d : DominantStop) (s : State) : Still s (execFramingError d s) := by
  refine .running ?_
  split
  · split
    · exact s.passLine_view _
    · rfl
  · rfl

theorem execFormatError_still (char4 : Byte) (s : State) : Still s (execFormatError char4 s) := by
  refine .running ?_
  split
  · split
    · exact s.passLine_view _
    · rfl
  · rfl

theorem execGapError_still (quiet : Nat) (s : State) : Still s (execGapError quiet s) := by
  refine .running ?_
  split
  · split
    · exact s.passLine_view _
    · rfl
  · rfl

theorem execReceiverIdle_still (s : State) : Still s (execReceiverIdle s) := by
  refine .running ?_
  split
  · exact State.passLine_view { s with li := s.li.change .release } _
  · rfl

theorem execStuckDeclaration_still (s : State) : Still s (execStuckDeclaration s) := by
  refine .running ?_
  split
  · exact (State.takeCause_view _ _).trans (s.passLine_view _)
  · rfl

/-! ### Frames taken and the timers (chapter 5) -/

theorem execTakeFrame_held {s : State} (h : QueueLaw s) (hs : s.pt.entries.Pairwise fun a b => a.id < b.id) :
    HoldsQueue (execTakeFrame s) := by
  refine .running h.held ?_
  split
  · next rest _ =>
    split
    · exact h.held
    · next hst =>
      have hleft : QueueOrdered { s with re := { s.re with rxBuffer := rest } } := (h.ordered hs hst).of_view rfl
      dsimp only
      split
      · exact ((State.actOn_ordered hleft _).of_view (State.judge_view _)).outside.held
      · exact hleft.outside.held
  · exact h.held

theorem execReplyTimeout_still (s : State) : Still s (execReplyTimeout s) := by
  refine .running ?_
  dsimp only
  split
  · exact (State.sessionTimeout_view _).trans (s.passLine_view _)
  · rfl

theorem execSummaryTimerExpiry_still (s : State) : Still s (execSummaryTimerExpiry s) := by
  refine .running ?_
  split
  · exact s.passUntil_view _ _
  · rfl

theorem execJoinWindowExpiry_still (s : State) : Still s (execJoinWindowExpiry s) := by
  refine .running ?_
  split
  · exact (State.judge_view _).trans ((State.endJoinWindow_view _).trans (s.passUntil_view _ _))
  · rfl

theorem execCloseLimitExpiry_still (s : State) : Still s (execCloseLimitExpiry s) := by
  refine .running ?_
  split
  · exact (State.judge_view _).trans ((State.endClosing_view _ _).trans (s.passUntil_view _ _))
  · rfl

theorem execPeerLost_still (n : Nat) (s : State) : Still s (execPeerLost n s) := by
  refine .running ?_
  dsimp only
  split
  · refine (State.judge_view _).trans ?_
    have hsilent := (s.passSilence_view (s.peer n) (400 * s.intervalOf (s.peer n)))
    generalize s.passSilence _ _ = u at hsilent
    have hdropped := (((u.updatePeer n fun p => { p with presence := .silent }).notify .peerLost n).dropRequest_view n).trans
      ((u.updatePeer_view n _).trans hsilent)
    generalize State.dropRequest _ n = v at hdropped
    refine Eq.trans ?_ hdropped
    split
    · exact (State.searchSession_view _).trans v.abandonSession_view
    · rfl
  · rfl

theorem execPeerAbsent_still (n : Nat) (s : State) : Still s (execPeerAbsent n s) := by
  refine .running ?_
  dsimp only
  split
  · exact (State.judge_view _).trans ((State.updatePeer_view _ _ _).trans (s.passSilence_view _ _))
  · rfl

/-! ### The jobs of the journal (chapter 8) -/

/-- A job starts outside replay (R148). -/
theorem State.jobsFree_replay {s : State} (h : s.jobsFree = true) : s.jc.replay = none := by
  simp only [State.jobsFree, Bool.and_eq_true] at h
  obtain ⟨⟨⟨⟨⟨hr, -⟩, -⟩, -⟩, -⟩, -⟩ := h
  exact Option.isNone_iff_eq_none.mp hr

theorem State.compactionTurn_replay {s : State} (h : s.compactionTurn = true) : s.jc.replay = none := by
  simp only [State.compactionTurn, Bool.and_eq_true] at h
  exact State.jobsFree_replay h.1.1

theorem State.appendTurn_replay {s : State} (h : s.appendTurn = true) : s.jc.replay = none := by
  simp only [State.appendTurn, Bool.and_eq_true] at h
  exact State.jobsFree_replay h.1.1

theorem execAppend_held {s : State} (h : QueueHeld s) : HoldsQueue (execAppend s) := by
  refine .running h ?_
  split
  · split
    · next hturn => exact (State.beginWrite_outside (h.outside (State.appendTurn_replay hturn)) _).held
    · exact h
  · exact h

theorem execCopy_held {s : State} (h : QueueHeld s) : HoldsQueue (execCopy s) := by
  refine .running h ?_
  split
  · split
    · next hturn =>
      have hout := h.outside (State.compactionTurn_replay hturn.1)
      split
      · dsimp only
        split
        · exact (State.enterFault_outside hout.left).held
        · exact (State.beginWrite_outside hout _).held
      · exact h
    · exact h
  · exact h

theorem execErase_held {s : State} (h : QueueHeld s) : HoldsQueue (execErase s) := by
  refine .running h ?_
  split
  · split
    · next hturn =>
      have hout := h.outside (State.compactionTurn_replay hturn)
      refine QueueOutside.held ?_
      exact hout.of_journal rfl rfl rfl rfl
    · exact h
  · exact h

/-! ### Replay (chapter 9) -/

theorem execHeaderSurvey_held {s : State} (h : QueueHeld s) (hs : s.pt.entries.Pairwise fun a b => a.id < b.id) :
    HoldsQueue (execHeaderSurvey s) := by
  refine .running h ?_
  split
  · next r hr =>
    split
    · next hphase =>
      have hq : s.jc.queue = [] := (h.replay r hr).queue.resolve_left (by simp [hphase])
      split
      · exact State.surveyHeader_held (h.replaying hr) hs hq _
      · exact h
    · exact h
  · exact h

theorem execBandWalk_held {s : State} (h : QueueHeld s) (hs : s.pt.entries.Pairwise fun a b => a.id < b.id) :
    HoldsQueue (execBandWalk s) := by
  refine .running h ?_
  split
  · next r hr =>
    split
    · next hphase =>
      have hq : s.jc.queue = [] := (h.replay r hr).queue.resolve_left (by simp [hphase])
      split
      · exact State.walkOne_held (h.replaying hr) hs hq _ _
      · exact h
    · exact h
  · exact h

/-! ### Programs and erases (chapter 10) -/

/-- A change of the Storage Port that leaves replay no command but its own. -/
theorem QueueHeld.port {s : State} (h : QueueHeld s) {f : StoragePort → StoragePort}
    (hf : s.sp.cmd.ofReplay = true → (f s.sp).cmd.ofReplay = true) : QueueHeld (s.mapPort f) :=
  ⟨h.agrees, fun r hr =>
    let ⟨hnormal, hjob, hcmd, hnext, hq⟩ := h.replay r hr
    ⟨hnormal, hjob, hf hcmd, hnext, hq⟩⟩

theorem State.land_view (s : State) (left : DeviceLeft) : (s.land left).queueView = s.queueView := by
  unfold State.land
  split <;> rfl

theorem execProgramNotBusy_held (left : DeviceLeft) {s : State} (h : QueueHeld s) : HoldsQueue (execProgramNotBusy left s) := by
  have hlanded := h.of_view (s.land_view left)
  have hcmd : (s.land left).sp.cmd = s.sp.cmd := by
    unfold State.land
    split <;> rfl
  refine .running h ?_
  split
  · next p _ hbusy _ =>
    split
    · refine hlanded.port fun hof => ?_
      rw [hcmd, hbusy] at hof
      exact hof
    · exact h
  · next b _ hbusy _ =>
    split
    · refine hlanded.port fun hof => ?_
      rw [hcmd, hbusy] at hof
      exact hof
    · exact h
  · exact h

theorem State.issueInReplay_held {s : State} (h : QueueHeld s) {p : Prog}
    (hp : p.purpose = .replayLength ∨ p.purpose = .replayMark) : QueueHeld (s.issueInReplay p) := by
  have hmark := fun st => (SpCmd.ofReplay_program p st).mpr hp
  unfold State.issueInReplay
  split
  · refine ⟨h.agrees, fun r hr => ?_⟩
    obtain ⟨hnormal, hjob, hcmd, -, hq⟩ := h.replay r hr
    exact ⟨hnormal, hjob, hcmd, fun q hnext => Option.some.inj hnext ▸ hmark _, hq⟩
  · refine ⟨h.agrees, fun r hr => ?_⟩
    obtain ⟨hnormal, hjob, -, -, hq⟩ := h.replay r hr
    exact ⟨hnormal, hjob, hmark _, fun q hnext => (nomatch hnext), hq⟩

theorem State.programDone_held {s : State} (h : QueueHeld s) (hs : s.pt.entries.Pairwise fun a b => a.id < b.id) {p : Prog}
    (hp : ClosesInReplay s p) : QueueHeld (s.programDone p) := by
  by_cases hr : s.jc.replay = none
  · exact (State.programDone_outside ⟨h.outside hr, hs⟩ p).held
  · rcases hp hr with hpurpose | hpurpose <;> simp only [State.programDone, hpurpose]
    · exact State.issueInReplay_held h (.inr rfl)
    · exact State.replayClosed_held h true

theorem State.programFailed_held {s : State} (h : QueueHeld s) {p : Prog} (hp : ClosesInReplay s p) :
    QueueHeld (s.programFailed p) := by
  by_cases hr : s.jc.replay = none
  · exact (State.programFailed_outside (h.outside hr) p).held
  · have hcounted : QueueHeld s.countFailure :=
      ⟨h.agrees, fun r hr =>
        let ⟨hnormal, hjob, hcmd, hnext, hq⟩ := h.replay r hr
        ⟨hnormal, hjob, hcmd, hnext, hq⟩⟩
    unfold State.programFailed
    dsimp only
    split
    · exact s.countFailure.fail_outside.held
    · rcases hp hr with hpurpose | hpurpose <;> rw [hpurpose] <;> exact State.replayClosed_held hcounted false

theorem execProgramVerify_held {s : State} (h : QueueHeld s) (hs : s.pt.entries.Pairwise fun a b => a.id < b.id) :
    HoldsQueue (execProgramVerify s) := by
  refine .running h ?_
  split
  · next p hcmd =>
    split
    · exact State.programDone_held h.endCommand hs (h.closesInReplay hcmd)
    · exact State.programFailed_held h.endCommand (h.closesInReplay hcmd)
  · exact h

/-- A program or an erase that has not ended in its time: what was in progress is so no more. -/
theorem QueueHeld.timedOut {s : State} (h : QueueHeld s) (t limit : Nat) (left : DeviceLeft) :
    QueueHeld ((s.passUntil t limit).land left).endCommand ∧ ((s.passUntil t limit).land left).endCommand.jc = s.jc := by
  have hview := (State.land_view (s.passUntil t limit) left).trans (s.passUntil_view t limit)
  refine ⟨(h.of_view hview).endCommand, ?_⟩
  simp only [State.queueView, Prod.mk.injEq] at hview
  obtain ⟨-, hjc, -⟩ := hview
  exact hjc

theorem execProgramTimeout_held (left : DeviceLeft) {s : State} (h : QueueHeld s) : HoldsQueue (execProgramTimeout left s) := by
  refine .running h ?_
  split
  · next p t hcmd _ =>
    obtain ⟨hover, hjc⟩ := h.timedOut t Config.programLimit left
    refine State.programFailed_held hover fun hr => h.closesInReplay hcmd ?_
    rwa [hjc] at hr
  · exact h

theorem execEraseCheck_held {s : State} (h : QueueHeld s) : HoldsQueue (execEraseCheck s) := by
  refine .running h ?_
  split
  · next b hcmd =>
    have hout : QueueOutside s.endCommand := h.endCommand.outside (h.erase_outside hcmd)
    split
    · exact (State.eraseDone_outside hout b).held
    · exact (State.eraseFailed_outside hout b).held
  · exact h

theorem execEraseTimeout_held (left : DeviceLeft) {s : State} (h : QueueHeld s) : HoldsQueue (execEraseTimeout left s) := by
  refine .running h ?_
  split
  · next b t hcmd _ =>
    obtain ⟨hover, hjc⟩ := h.timedOut t Config.eraseLimit left
    exact (State.eraseFailed_outside (hover.outside (hjc ▸ h.erase_outside hcmd)) b).held
  · exact h

/-! ### Lends and busy checks (R175 to R178) -/

theorem State.resume_held {s : State} (h : QueueHeld s) : QueueHeld s.resume := by
  cases hr : s.jc.replay with
  | none => exact (State.resume_outside (h.outside hr)).held
  | some r =>
    have hat := h.replaying hr
    have hq : (∀ todo, r.phase ≠ .closing todo) → s.jc.queue = [] := fun hno =>
      (h.replay r hr).queue.resolve_left fun ⟨todo, htodo⟩ => hno todo htodo
    unfold State.resume
    split
    · rw [hr]
      dsimp only
      unfold State.resumeReplay
      split
      · next hphase =>
        rw [State.setPhase_eq hr]
        refine State.readOn_held (r := { r with phase := .survey 0 }) ?_ (hq (by simp [hphase]))
        exact hat.of_journal rfl rfl rfl rfl rfl rfl
      · next hphase => exact State.readOn_held hat (hq (by simp [hphase]))
      · next hphase => exact State.readOn_held hat (hq (by simp [hphase]))
      · next todo hphase =>
        split
        · next p hnext => exact State.issue_replaying hat ((SpCmd.ofReplay_program p .busy).mp (hat.next p hnext)) ⟨todo, hphase⟩
        · exact h
    · exact h

theorem State.grantWaiting_held {s : State} (h : QueueHeld s) : QueueHeld s.grantWaiting := by
  unfold State.grantWaiting
  split
  · exact h.port id
  · exact h

theorem execLreqAsserted_held {s : State} (h : QueueHeld s) : HoldsQueue (execLreqAsserted s) := by
  unfold execLreqAsserted
  split
  · exact .next h
  · dsimp only
    split
    · refine .next ?_
      split
      · exact State.grantWaiting_held (h.of_view rfl)
      · exact h.of_view rfl
    · exact .next (h.of_view rfl)

theorem execLendGrant_held {s : State} (h : QueueHeld s) : HoldsQueue (execLendGrant s) := by
  refine .running h ?_
  split
  · exact State.grantWaiting_held h
  · exact h

theorem execLreqDeasserted_held (host : List Host.Cell) {s : State} (h : QueueHeld s) :
    HoldsQueue (execLreqDeasserted host s) := by
  unfold execLreqDeasserted
  split
  · dsimp only
    split
    · refine .next ?_
      split
      · exact State.resume_held (h.of_view rfl)
      · exact h.of_view rfl
    · exact .next (h.of_view rfl)
    · exact .next (h.of_view rfl)
  · exact .next h

theorem execBusyCheckEnd_held {s : State} (h : QueueHeld s) : HoldsQueue (execBusyCheckEnd s) := by
  have hover : QueueHeld s.checkOver := h.of_view rfl
  refine .running h ?_
  split
  · exact h
  · split
    · split
      · exact hover.of_view rfl
      · exact State.resume_held hover
    · exact h
  · exact h

theorem execBusyCheckTimeout_held {s : State} (h : QueueHeld s) : HoldsQueue (execBusyCheckTimeout s) := by
  have hgrant : ∀ {u : State}, QueueHeld u → QueueHeld (if u.sp.lreq then u.grantHeld else u) := fun hu => by
    split
    · exact hu.of_view rfl
    · exact hu
  refine .running h ?_
  split
  · exact h
  · next t _ _ =>
    have hover : QueueHeld (s.passUntil t Config.eraseLimit).checkOver := h.of_view (s.passUntil_view t _)
    have hfailed : QueueHeld (if (s.passUntil t Config.eraseLimit).checkOver.jc.fault = true
        then (s.passUntil t Config.eraseLimit).checkOver else (s.passUntil t Config.eraseLimit).checkOver.fail) := by
      split
      · exact hover
      · exact (State.fail_outside _).held
    exact hgrant hfailed
  · exact h

/-! ### Resets (R160 to R163) -/

theorem State.cleared_held (s : State) (p : Power) (flash : List Host.Cell) : QueueHeld (s.cleared p flash) :=
  .of_replay ⟨Nat.zero_le _, List.nodup_nil, fun _ he => (nomatch he), fun _ hx => (nomatch hx), fun _ => rfl⟩ rfl
    ⟨rfl, rfl, rfl, fun _ hp => (nomatch hp), .inr rfl⟩

theorem State.startUp_held {s : State} (h : QueueHeld s) (straps : Straps) : QueueHeld (s.startUp straps) := by
  unfold State.startUp
  dsimp only
  split <;> exact h.of_view rfl

theorem execPinReset_held (left : DeviceLeft) (host : List Host.Cell) {s : State} (h : QueueHeld s) :
    HoldsQueue (execPinReset left host s) := by
  unfold execPinReset
  split
  · exact .next h
  · exact .next (s.cleared_held _ _)

theorem execResetRelease_held (straps : Straps) {s : State} (h : QueueHeld s) : HoldsQueue (execResetRelease straps s) := by
  unfold execResetRelease
  split
  · exact .next h
  · exact .next (State.startUp_held (s.cleared_held _ _) straps)

theorem execRestartTakesEffect_held (straps : Straps) (host : List Host.Cell) {s : State} (h : QueueHeld s) :
    HoldsQueue (execRestartTakesEffect straps host s) := by
  refine .running h ?_
  split
  · exact State.startUp_held (s.cleared_held _ _) straps
  · exact h

theorem execLossOfSupply_held (left : DeviceLeft) (host : List Host.Cell) {s : State} (h : QueueHeld s) :
    HoldsQueue (execLossOfSupply left host s) := by
  unfold execLossOfSupply
  split
  · exact .next h
  · exact .next (s.cleared_held _ _)

/-! ### Every step -/

theorem exec_held (i : Instr) {s : State} (h : QueueLaw s) (hs : s.pt.entries.Pairwise fun a b => a.id < b.id) :
    HoldsQueue (exec i s) := by
  cases i with
  | pinReset left host => exact execPinReset_held left host h.held
  | resetRelease straps => exact execResetRelease_held straps h.held
  | restart n => exact (execRestart_still n s).holds h.held
  | restartTakesEffect straps host => exact execRestartTakesEffect_held straps host h.held
  | readStatus r => exact (execReadStatus_still r s).holds h.held
  | otherTransactionCode c => exact (execOtherTransactionCode_still c s).holds h.held
  | commandBlockAborted bytes => exact .running (k := fun s => s.statusOnly bytes.length) h.held (h.held.of_view rfl)
  | unknownCommand code b => exact .commandStill h fun _ _ => rfl
  | readResponse p => exact (execReadResponse_still p s).holds h.held
  | popEvent p => exact (execPopEvent_still p s).holds h.held
  | cmdStatus b => exact .commandStill h fun _ _ => tested_view rfl
  | cmdSetup b => exact .commandStill h setupBody_view
  | cmdOpen b => exact .commandStill h openBody_view
  | cmdClose b => exact .commandStill h closeBody_view
  | cmdPut b => exact .command h fun p => putBody_held p (by exact h) hs
  | cmdRemove b => exact .command h fun p => removeBody_held p (by exact h) hs
  | cmdGet b => exact .commandStill h getBody_view
  | cmdList b => exact .commandStill h listBody_view
  | cmdWatch b => exact .commandStill h watchBody_view
  | cmdFlush b => exact .commandStill h flushBody_view
  | flushComplete => exact (execFlushComplete_still s).holds h.held
  | cmdJournalInfo b => exact .commandStill h fun _ _ => tested_view rfl
  | cmdRoster b => exact .commandStill h fun _ _ => tested_view rfl
  | cmdCounters b => exact .commandStill h countersBody_view
  | frameStart line => exact (execFrameStart_still line s).holds h.held
  | frameComplete => exact (execFrameComplete_still s).holds h.held
  | withdrawal bit => exact (execWithdrawal_still bit s).holds h.held
  | driveFault bit => exact (execDriveFault_still bit s).holds h.held
  | probeDue => exact (execProbeDue_still s).holds h.held
  | probeStart line => exact (execProbeStart_still line s).holds h.held
  | probeComplete => exact (execProbeComplete_still s).holds h.held
  | frameReceived chars => exact (execFrameReceived_still chars s).holds h.held
  | framingError d => exact (execFramingError_still d s).holds h.held
  | formatError char4 => exact (execFormatError_still char4 s).holds h.held
  | gapError quiet => exact (execGapError_still quiet s).holds h.held
  | receiverIdle => exact (execReceiverIdle_still s).holds h.held
  | stuckDeclaration => exact (execStuckDeclaration_still s).holds h.held
  | takeFrame => exact execTakeFrame_held h hs
  | replyTimeout => exact (execReplyTimeout_still s).holds h.held
  | summaryTimerExpiry => exact (execSummaryTimerExpiry_still s).holds h.held
  | joinWindowExpiry => exact (execJoinWindowExpiry_still s).holds h.held
  | closeLimitExpiry => exact (execCloseLimitExpiry_still s).holds h.held
  | peerLost n => exact (execPeerLost_still n s).holds h.held
  | peerAbsent n => exact (execPeerAbsent_still n s).holds h.held
  | append => exact execAppend_held h.held
  | copy => exact execCopy_held h.held
  | erase => exact execErase_held h.held
  | programNotBusy left => exact execProgramNotBusy_held left h.held
  | programVerify => exact execProgramVerify_held h.held hs
  | programTimeout left => exact execProgramTimeout_held left h.held
  | eraseCheck => exact execEraseCheck_held h.held
  | eraseTimeout left => exact execEraseTimeout_held left h.held
  | lreqAsserted => exact execLreqAsserted_held h.held
  | lendGrant => exact execLendGrant_held h.held
  | lreqDeasserted host => exact execLreqDeasserted_held host h.held
  | busyCheckEnd => exact execBusyCheckEnd_held h.held
  | busyCheckTimeout => exact execBusyCheckTimeout_held h.held
  | headerSurvey => exact execHeaderSurvey_held h.held hs
  | bandWalk => exact execBandWalk_held h.held hs
  | startBit c => exact (execStartBit_still c s).holds h.held
  | lossOfSupply left host => exact execLossOfSupply_held left host h.held

theorem step_held {s : State} (h : QueueLaw s) (hs : s.pt.entries.Pairwise fun a b => a.id < b.id) : HoldsQueue (step s) := by
  unfold step
  split
  · exact .next (h.held.of_view (s.passLine_view 1))
  · next c rest _ => exact exec_held c (s := { s with pending := rest }) h hs

/-- A part that goes on with replay stays in the station state REPLAY. -/
theorem TableMove.station {s t : State} (h : TableMove s t) (hs : s.jc.replay ≠ none → s.sc.station = .replay) :
    t.jc.replay ≠ none → t.sc.station = .replay := by
  have hline : ∀ {s t : State}, LineKept s t → (s.jc.replay ≠ none → s.sc.station = .replay) →
      t.jc.replay ≠ none → t.sc.station = .replay := fun line hs ht =>
    let ⟨hr, hst⟩ := line.replay ht
    (hst (hs hr)).1
  induction h with
  | quiet line _ _ => exact hline line hs
  | trans _ _ ih1 ih2 => exact ih2 (ih1 hs)
  | fields _ _ line _ _ => exact hline line hs
  | raise _ _ line _ _ => exact hline line hs
  | put _ _ _ line _ _ => exact hline line hs
  | delete _ _ line _ _ => exact hline line hs
  | reset _ _ _ station => exact fun _ => station

/-- Settles O12: each command keeps the agreement of queue and entries and what holds of replay, and no part goes on with replay
outside the station state REPLAY. -/
theorem queueLawKept : Obligations.QueueLawKept := fun s t ht hs h =>
  (queueLaw_iff t).mpr ⟨step_held h hs t ht, (step_moves s t ht).station ((queueLaw_iff s).mp h).2⟩

end Sys2Proof.Machine
end

section
/-! FLUSH: what it comes to at once, and what completes it while it waits. -/

namespace Sys2Proof.Machine

/-! ### FLUSH and its completion (R159) -/

/-- What FLUSH without parameters comes to outside REPLAY. -/
theorem flushBody_cases {s : State} (hst : s.sc.station ≠ .replay) :
    (s.jc.fault = true → flushBody [] s = refuse .failedStorage s)
    ∧ (s.jc.fault = false → s.flushed = true → flushBody [] s = refuse .done s)
    ∧ (s.jc.fault = false → s.flushed = false → flushBody [] s = .wait s) := by
  have hfits : ([] : List Byte).isEmpty = true := rfl
  unfold flushBody
  rw [tested_passes _ hst hfits]
  refine ⟨fun hf => ?_, fun hf hd => ?_, fun hf hd => ?_⟩
  · rw [if_pos hf, refuse]
  · rw [if_neg (by simp [hf]), if_pos hd, refuse]
  · rw [if_neg (by simp [hf]), if_neg (by simp [hd])]

/-- The condition of FLUSH does not hold: an id is queued or an entry is UNSAVED. -/
theorem State.not_flushed_iff (s : State) :
    s.flushed = false ↔ s.jc.queue ≠ [] ∨ ∃ e ∈ s.pt.entries, e.jstate = .unsaved := by
  rw [← Bool.not_eq_true, s.flushed_iff, not_and_or]
  simp

/-- A command of the host that waits, completed. -/
theorem State.completeLong_eq {s : State} {code tag : Byte} (hs : s.cp.slot = .executing code tag) (r : Result) :
    s.completeLong code r
      = { s with cp := { s.cp with slot := .done { code := code, tag := tag, result := r, data := [] } } } := by
  obtain ⟨hdone, -, hframe⟩ := s.completeLong_slot code r
  rw [hframe, hdone tag hs]

/-- What FLUSH_COMPLETE does with a FLUSH that waits. -/
theorem exec_flushComplete {s : State} (hp : s.power = .running) :
    (s.jc.fault = true → exec .flushComplete s = .next (s.completeLong flushCode .failedStorage))
    ∧ (s.jc.fault = false → s.flushed = true → exec .flushComplete s = .next (s.completeLong flushCode .done))
    ∧ (s.jc.fault = false → s.flushed = false → exec .flushComplete s = .next s) := by
  have hexec : exec .flushComplete s
      = .next (if s.jc.fault = true then s.completeLong flushCode .failedStorage else s.settleFlush) :=
    whenRunning_running hp fun s => if s.jc.fault then s.completeLong flushCode .failedStorage else s.settleFlush
  rw [hexec]
  refine ⟨fun hf => ?_, fun hf hd => ?_, fun hf hd => ?_⟩
  · rw [if_pos hf]
  · rw [if_neg (by simp [hf]), State.settleFlush, if_pos hd]
  · rw [if_neg (by simp [hf]), State.settleFlush, if_neg (by simp [hd])]

/-- Settles O34: FLUSH and FLUSH_COMPLETE ask the same two questions, FAULT first and then the condition. -/
theorem flushWaitsForFlash : Obligations.FlushWaitsForFlash := by
  refine ⟨fun b s hb hst => ?_, fun tag s hp hs => ?_⟩
  · obtain ⟨hfault, hdone, hwaits⟩ := flushBody_cases (s := s.carriesOut 0x30 b) hst
    exact ⟨fun hf => sendCommand_refuses hb (hfault hf),
      fun hf hq hes => sendCommand_refuses hb (hdone hf (s.flushed_iff.mpr ⟨hq, hes⟩)),
      fun hf hno => sendCommand_waits hb (hwaits hf (s.not_flushed_iff.mpr hno))⟩
  · obtain ⟨hfault, hdone, hwaits⟩ := exec_flushComplete hp
    exact ⟨fun hf => (hfault hf).trans (congrArg _ (State.completeLong_eq hs _)),
      fun hf hq hes => (hdone hf (s.flushed_iff.mpr ⟨hq, hes⟩)).trans (congrArg _ (State.completeLong_eq hs _)),
      fun hf hno => hwaits hf (s.not_flushed_iff.mpr hno)⟩

end Sys2Proof.Machine
end

section
/-! What the journal's shared steps leave alone, and the end of a busy check, in time or not. -/

namespace Sys2Proof.Machine

/-! ### What stands by (R144, R151, R153 to R156, R168 to R170) -/

/-- What no failure of the journal touches: the Replication Engine, Access Control, H, the counters and the flash device. -/
def State.bystanders (s : State) : Replication × AccessCtl × Nat × Counters × List Host.Cell :=
  (s.re, s.ac, s.pt.h, s.cp.counters, s.flash)

theorem FaultEntered.bystanders {s t : State} (h : FaultEntered s t) : t.bystanders = s.bystanders := by
  obtain ⟨_, _, -, -, -, rfl⟩ := h
  rfl

/-- A FAULT in replay finds the table as the settling leaves it, by now or before (R170). -/
theorem ReplayFaulted.entered {s t : State} {r : Replay} (h : ReplayFaulted s t r) :
    ∃ y : State, y.bystanders = s.bystanders ∧ y.sp = s.sp ∧ y.jc.bands.length = 16 * 2 ^ s.straps.bc.toNat
      ∧ FaultEntered { y with
          jc := { y.jc with replay := none, next := none }
          sp := { y.sp with cmd := .none, poll := none }
          sc := { y.sc with station := .held }
          li := { y.li with receiver := .seeking, quiet := 0, stuck := 0, stuckDeclared := false } } t := by
  obtain ⟨x, y, hx, hclosing, hearlier, hfault⟩ := h
  refine ⟨y, ?_⟩
  by_cases hphase : ∃ todo, r.phase = .closing todo
  · obtain ⟨todo, htodo⟩ := hphase
    obtain rfl := hclosing todo htodo
    subst hx
    exact ⟨rfl, rfl, by simp, hfault⟩
  · obtain ⟨_, -, rfl⟩ := hearlier fun todo htodo => hphase ⟨todo, htodo⟩
    subst hx
    exact ⟨rfl, rfl, by simp, hfault⟩

theorem ReplayFaulted.bystanders {s t : State} {r : Replay} (h : ReplayFaulted s t r) : t.bystanders = s.bystanders := by
  obtain ⟨y, hy, -, -, hfault⟩ := h.entered
  exact hfault.bystanders.trans hy

theorem State.judgeTrigger_bystanders (s : State) : s.judgeTrigger.bystanders = s.bystanders :=
  (congrArg State.bystanders s.judgeTrigger_frame).trans rfl

theorem Issued.bystanders {s t : State} {p : Prog} (h : Issued s t p) : t.bystanders = s.bystanders := by
  rw [h]
  rfl

/-! ### FAULT, in replay or not (R156, R170) -/

theorem State.fail_outsideReplay {s : State} (h : s.jc.replay = none) : s.fail = s.enterFault := by simp [State.fail, h]

theorem State.fail_inReplay {s : State} {r : Replay} (h : s.jc.replay = some r) : s.fail = s.replayFault := by
  simp [State.fail, h]

theorem State.fail_bystanders (s : State) : s.fail.bystanders = s.bystanders := by
  cases hr : s.jc.replay with
  | none => rw [State.fail_outsideReplay hr]; exact s.enterFault_entered.bystanders
  | some r => rw [State.fail_inReplay hr]; exact (State.replayFault_faulted s hr).bystanders

/-- A FAULT finds LREQ and the busy check as they are, and with no request waiting it grants none. -/
theorem State.fail_port {s : State} (hl : s.sp.lend = .idle) :
    s.fail.jc.fault = true ∧ s.fail.sp.check = s.sp.check ∧ s.fail.sp.lreq = s.sp.lreq
      ∧ s.fail.sp.lendCount = s.sp.lendCount := by
  cases hr : s.jc.replay with
  | none =>
    rw [State.fail_outsideReplay hr]
    obtain ⟨_, _, -, -, -, ht⟩ := s.enterFault_entered
    rw [ht]
    simp [hl]
  | some r =>
    rw [State.fail_inReplay hr]
    obtain ⟨y, -, hsp, -, _, _, -, -, -, ht⟩ := (State.replayFault_faulted s hr).entered
    rw [ht]
    simp [hsp, hl]

/-- After a FAULT in replay, replay is over, the station is HELD with its line on, and each of the N bands has a row. -/
theorem ReplayFaulted.ends {s t : State} {r : Replay} (h : ReplayFaulted s t r) :
    t.jc.replay = none ∧ t.sc.station = .held ∧ t.li.receiver = .seeking
      ∧ t.jc.bands.length = 16 * 2 ^ s.straps.bc.toNat := by
  obtain ⟨y, -, -, hrows, _, _, -, -, -, rfl⟩ := h.entered
  exact ⟨rfl, rfl, rfl, by simpa using hrows⟩

/-! ### Time spent in polling (R173, R177) -/

theorem State.passLine_poll {s : State} (hp : s.power = .running) (n : Nat) :
    (s.passLine n).sp.poll = s.sp.poll.map (· + msIn s n) := by
  rw [State.passLine, if_pos hp]
  rfl

/-- Polling to its limit leaves what the journal and the storage port hold, but for the time of the polling. -/
theorem State.passUntil_storage (s : State) (t l : Nat) :
    (s.passUntil t l).pt = s.pt ∧ (s.passUntil t l).jc = s.jc ∧ (s.passUntil t l).cp = s.cp
      ∧ (s.passUntil t l).flash = s.flash ∧ (s.passUntil t l).straps = s.straps
      ∧ (s.passUntil t l).sp = { s.sp with poll := (s.passUntil t l).sp.poll } := by
  rcases s.passUntil_eq t l with h | ⟨n, h⟩ <;> rw [h]
  · exact ⟨rfl, rfl, rfl, rfl, rfl, rfl⟩
  · obtain ⟨-, hstraps, hpt, hjc, hcp, hflash, -⟩ := s.passLine_frame n
    exact ⟨hpt, hjc, hcp, hflash, hstraps, s.passLine_sp n⟩

/-! ### The end of a busy check (R163, R177) -/

theorem exec_busyCheckEnd {s : State} {t : Nat} (hp : s.power = .running) (hc : s.sp.check ≠ .none) (ht : s.sp.poll = some t) :
    (500 < t → exec .busyCheckEnd s = .next s)
    ∧ (t ≤ 500 → exec .busyCheckEnd s = .next (if s.sp.lreq = true then s.checkOver.grantHeld else s.checkOver.resume)) := by
  show (_ → execBusyCheckEnd s = _) ∧ (_ → execBusyCheckEnd s = _)
  rw [execBusyCheckEnd, whenRunning_running hp, ht]
  split
  · next hcheck => exact absurd hcheck hc
  · next hpoll _ =>
    obtain rfl := Option.some.inj hpoll
    exact ⟨fun hlate => congrArg _ (if_neg (Nat.not_le.mpr hlate)), fun hle => congrArg _ (if_pos hle)⟩
  · next hpoll _ => cases hpoll

/-- A busy check that is not over in time puts the journal in FAULT, where it is not there already. -/
def State.checkFailed (s : State) : State := if s.jc.fault then s.checkOver else s.checkOver.fail

theorem State.checkFailed_cases (s : State) :
    (s.jc.fault = true → s.checkFailed = s.checkOver)
    ∧ (s.jc.fault = false → s.jc.replay = none → FaultEntered s.checkOver s.checkFailed)
    ∧ ∀ r, s.jc.fault = false → s.jc.replay = some r → ReplayFaulted s.checkOver s.checkFailed r := by
  unfold State.checkFailed
  refine ⟨fun hf => if_pos hf, fun hf hr => ?_, fun r hf hr => ?_⟩
  · rw [if_neg (by simp [hf]), State.fail_outsideReplay (s := s.checkOver) hr]
    exact s.checkOver.enterFault_entered
  · rw [if_neg (by simp [hf]), State.fail_inReplay (s := s.checkOver) hr]
    exact State.replayFault_faulted s.checkOver hr

theorem State.checkFailed_keeps (s : State) :
    s.checkFailed.jc.fault = true ∧ s.checkFailed.sp.check = .none ∧ s.checkFailed.sp.lreq = s.sp.lreq
      ∧ s.checkFailed.sp.lendCount = s.sp.lendCount ∧ s.checkFailed.bystanders = s.bystanders := by
  unfold State.checkFailed
  split
  · next hf => exact ⟨hf, rfl, rfl, rfl, rfl⟩
  · obtain ⟨hfault, hcheck, hreq, hcount⟩ := State.fail_port (s := s.checkOver) rfl
    exact ⟨hfault, hcheck, hreq, hcount, s.checkOver.fail_bystanders⟩

theorem exec_busyCheckTimeout {s : State} {t : Nat} (hp : s.power = .running) (hc : s.sp.check ≠ .none)
    (ht : s.sp.poll = some t) {u : State} (hu : u = s.passUntil t 500) :
    exec .busyCheckTimeout s = .next (if s.sp.lreq = true then u.checkFailed.grantHeld else u.checkFailed) := by
  obtain ⟨-, -, -, -, -, hport⟩ := s.passUntil_storage t 500
  obtain ⟨-, -, hreq, -⟩ := u.checkFailed_keeps
  have hreq : u.checkFailed.sp.lreq = s.sp.lreq := by rw [hreq, hu, hport]
  rw [← hreq, hu]
  show execBusyCheckTimeout s = _
  rw [execBusyCheckTimeout, whenRunning_running hp, ht]
  split
  · next hcheck => exact absurd hcheck hc
  · next hpoll _ =>
    obtain rfl := Option.some.inj hpoll
    rfl
  · next hpoll _ => cases hpoll

/-- A held request is granted, and counted once. -/
theorem State.grantHeld_eq (s : State) : s.grantHeld = { s with sp := { s.sp with
    lend := .granted, lendCount := min 0xFFFFFFFF (s.sp.lendCount + 1) } } := by
  simp [State.grantHeld, State.mapPort, StoragePort.grant, satInc, satAdd, Config.countLimit]

/-- Settles O57: the lend state is IDLE as a check ends, so what goes on or is granted does so there; a check that is not over in
time is a FAULT, unless there is one already, and then the grant of a held request. -/
theorem busyChecksEnd : Obligations.BusyChecksEnd := by
  intro t s hp hc ht
  obtain ⟨hlate, hintime⟩ := exec_busyCheckEnd hp hc ht
  refine ⟨fun hle hreq => ?_, fun hle hreq => ?_, hlate, ?_⟩
  · rw [hintime hle, if_pos hreq, State.grantHeld_eq]
    rfl
  · exact ⟨_, (hintime hle).trans (by rw [if_neg (by simp [hreq])]), State.resume_resumed (s := s.checkOver) rfl⟩
  · obtain ⟨hpt, hjc, -, hflash, hstraps, hport⟩ := s.passUntil_storage t 500
    have htime := timerReaches_passUntil (timer := fun x => x.sp.poll) 500 ht (State.passLine_poll hp)
    have hexec := exec_busyCheckTimeout hp hc ht rfl
    generalize s.passUntil t 500 = u at hpt hjc hflash hstraps hport htime hexec
    obtain ⟨hfaulted, houtside, hreplay⟩ := u.checkFailed_cases
    obtain ⟨hfault, hcheck, -, hcount, hby⟩ := u.checkFailed_keeps
    have hcount : u.checkFailed.sp.lendCount = s.sp.lendCount := by rw [hcount, hport]
    rw [hjc] at hfaulted houtside hreplay
    simp only [State.bystanders, Prod.mk.injEq] at hby
    obtain ⟨hre, hac, hh, -, hflash'⟩ := hby
    have hends : s.jc.fault = false → s.jc.replay ≠ none → u.checkFailed.jc.replay = none
        ∧ u.checkFailed.sc.station = .held ∧ u.checkFailed.li.receiver = .seeking
        ∧ u.checkFailed.jc.bands.length = 16 * 2 ^ s.straps.bc.toNat := fun hf hr => by
      obtain ⟨r, hr⟩ := Option.ne_none_iff_exists'.mp hr
      have hends := (hreplay r hf hr).ends
      rwa [show u.checkOver.straps = s.straps from hstraps] at hends
    refine ⟨u, u.checkOver, u.checkFailed, _, htime, hexec, rfl, hfaulted, houtside, hreplay, fun hreq => ?_, fun hreq => ?_, ?_⟩
    · rw [if_pos hreq, State.grantHeld_eq, hcount]
    · rw [if_neg (by simp [hreq])]
    · split <;> exact ⟨hfault, hcheck, hflash'.trans hflash, hends, hre, hac, hh.trans (congrArg ParamTable.h hpt)⟩

end Sys2Proof.Machine
end

section
/-! The end of an erase: good, failed, or not over in time. -/

namespace Sys2Proof.Machine

/-! ### Rows under the judgements that follow (R149, R155, R156) -/

/-- The usable rows are those that are not BAD. -/
theorem Journal.usable_eq (jc : Journal) : jc.usable = jc.bands.countP fun r => r.state ≠ .bad := by
  have hsplit := List.length_eq_countP_add_countP (fun r : BandRow => decide (r.state = .bad)) (l := jc.bands)
  have hrest : (jc.bands.countP fun r => decide ¬ decide (r.state = .bad) = true)
      = jc.bands.countP fun r => decide (r.state ≠ .bad) := by simp
  unfold Journal.usable Journal.rows
  omega

/-- A row made BAD leaves the usable ones by one, unless it was BAD. -/
theorem countP_usable_modify {rows : List BandRow} {band : Nat} (hb : band < rows.length) :
    (rows.countP fun r => r.state ≠ .bad)
      = ((rows.modify band fun _ => { state := .bad, seq := none, live := 0 }).countP fun r => r.state ≠ .bad)
        + (if (rows[band]?).map BandRow.state = some .bad then 0 else 1) := by
  rw [← List.set_eq_modify, List.countP_set hb, List.getElem?_eq_getElem hb]
  have hpos : rows[band].state ≠ .bad → 0 < rows.countP fun r => r.state ≠ .bad := fun h =>
    List.countP_pos_iff.mpr ⟨_, List.getElem_mem hb, by simpa using h⟩
  by_cases h : rows[band].state = .bad
  · simp [h]
  · have := hpos h
    simp only [Option.map_some, Option.some.injEq, h, ne_eq, not_false_eq_true, decide_true, if_true, if_false, not_true,
      decide_false, Bool.false_eq_true] at this ⊢
    omega

/-- The trigger chooses among FULL rows, and leaves every other row. -/
theorem State.judgeTrigger_row {s : State} {i : Nat} {r : BandRow} (hr : s.jc.bands[i]? = some r) (hfull : r.state ≠ .full) :
    s.judgeTrigger.jc.bands[i]? = some r := by
  obtain ⟨hchosen, -⟩ := Journal.choose_spec s
  unfold State.judgeTrigger
  dsimp only
  split
  · split
    · next b hb =>
      obtain ⟨q, ⟨x, hx, hxfull, -⟩, -⟩ := hchosen b hb
      have hne : b ≠ i := by
        rintro rfl
        exact hfull (Option.some.inj (hr.symm.trans hx) ▸ hxfull)
      show (s.jc.bands.modify b _)[i]? = some r
      rw [List.getElem?_modify_ne _ _ hne, hr]
    · exact hr
  · exact hr

/-- The entry into FAULT leaves a row that is not RETIRING. -/
theorem State.enterFault_row {s : State} {i : Nat} {r : BandRow} (hr : s.jc.bands[i]? = some r) (hret : r.state ≠ .retiring) :
    s.enterFault.jc.bands[i]? = some r := by
  obtain ⟨_, _, -, -, -, ht⟩ := s.enterFault_entered
  rw [ht]
  simp [hr, hret]

/-- What stands after a band has been made BAD, once the usable ones have been counted. -/
theorem State.judgeUsable_cases (s : State) :
    (8 ≤ (s.jc.bands.countP fun r => r.state ≠ .bad) → s.judgeUsable = s.judgeTrigger)
    ∧ ((s.jc.bands.countP fun r => r.state ≠ .bad) < 8 → s.judgeUsable = s.enterFault) := by
  unfold State.judgeUsable
  rw [s.jc.usable_eq]
  exact ⟨fun h => if_neg (Nat.not_lt.mpr h), fun h => if_pos h⟩

/-! ### The erase job ends (R152, R155) -/

/-- The erase of a band has ended, and what follows is not judged yet: its row, the count and the job. -/
def State.eraseEnded (s : State) (band : Nat) (good : Bool) : State :=
  { s with
    cp := { s.cp with counters := { s.cp.counters with
      bandsErased := if good = true then min 0xFFFFFFFF (s.cp.counters.bandsErased + 1) else s.cp.counters.bandsErased } }
    jc := { s.jc with
      bands := s.jc.bands.modify band fun _ => { state := if good = true then .erased else .bad, seq := none, live := 0 }
      job := none, next := none, lastSide := some .compaction
      toErase := if s.jc.toErase.head? = some band then s.jc.toErase.tail else s.jc.toErase
      compaction := if s.jc.toErase.head? = some band then s.jc.compaction else .idle }
    sp := { s.sp with cmd := .none, poll := none } }

theorem BandRow.bare_eq (st : BandState) : BandRow.bare st = fun _ => { state := st, seq := none, live := 0 } := rfl

theorem State.eraseDone_eq (s : State) (band : Nat) :
    s.endCommand.eraseDone band = (s.eraseEnded band true).judgeTrigger := by
  unfold State.eraseDone State.eraseEnded Journal.eraseOver
  congr 1
  by_cases h : s.jc.toErase.head? = some band <;>
    simp [State.endCommand, State.mapPort, State.mapJournal, State.count, Journal.endJob, Journal.mapRow, BandRow.bare_eq, h, satInc,
      satAdd, Config.countLimit]

theorem State.eraseFailed_eq (s : State) (band : Nat) :
    s.endCommand.eraseFailed band = (s.eraseEnded band false).judgeUsable := by
  unfold State.eraseFailed State.eraseEnded Journal.eraseOver
  congr 1
  by_cases h : s.jc.toErase.head? = some band <;>
    simp [State.endCommand, State.mapPort, State.mapJournal, Journal.endJob, Journal.mapRow, BandRow.bare_eq, h]

theorem State.eraseEnded_row (s : State) {band : Nat} (good : Bool) (hb : band < s.jc.bands.length) :
    (s.eraseEnded band good).jc.bands[band]? = some { state := if good = true then .erased else .bad, seq := none, live := 0 } := by
  simp [State.eraseEnded, hb]

/-! ### ERASE_CHECK and ERASE_TIMEOUT (R173, R174) -/

/-- A read answers as many bytes as it asks for. -/
theorem Flash.length_read (f : List Host.Cell) (a n : Nat) : (Flash.read f a n).length = n := by simp [Flash.read]

/-- What an erased band's header area reads. -/
theorem all_erased_iff (f : List Host.Cell) (a : Nat) :
    (Flash.read f a 16).all (· == 0xFF) = true ↔ Flash.read f a 16 = List.replicate 16 0xFF := by
  rw [List.eq_replicate_iff]
  simp [Flash.length_read]

theorem exec_eraseCheck {s : State} {band : Nat} (hp : s.power = .running) (hcmd : s.sp.cmd = .erase band .verify) {good : Bool}
    (hgood : good = true ↔ Flash.read s.flash (band * 4096) 16 = List.replicate 16 0xFF) :
    exec .eraseCheck s = .next (if good = true then s.endCommand.eraseDone band else s.endCommand.eraseFailed band) := by
  have haddr : bandAddress band 0 = band * 4096 := by simp [bandAddress, Config.bandBytes]
  show execEraseCheck s = _
  rw [execEraseCheck, whenRunning_running hp]
  simp only [hcmd, haddr, Config.headerBytes, all_erased_iff, hgood]

theorem exec_eraseTimeout {s v : State} {band t : Nat} {left : DeviceLeft} (hp : s.power = .running)
    (hcmd : s.sp.cmd = .erase band .busy) (ht : s.sp.poll = some t)
    (hv : v = { s.passUntil t 500 with flash := Flash.erase s.flash (band * 4096) left }) :
    exec (.eraseTimeout left) s = .next (v.endCommand.eraseFailed band) := by
  obtain ⟨-, -, -, hflash, -, hport⟩ := s.passUntil_storage t 500
  have hland : (s.passUntil t 500).land left = v := by
    have haddr : bandAddress band 0 = band * 4096 := by simp [bandAddress, Config.bandBytes]
    have hcmd' : (s.passUntil t 500).sp.cmd = .erase band .busy := by rw [hport]; exact hcmd
    simp only [State.land, hcmd', hflash, haddr, hv]
  show execEraseTimeout left s = _
  rw [execEraseTimeout, whenRunning_running hp]
  simp only [hcmd, ht, Config.eraseLimit, hland]

/-! ### What an erase ends with (R148, R152, R155) -/

/-- Either way an erase ends, its busy period has left what the journal works on. -/
theorem exec_eraseEnd {s v : State} {band : Nat} {c : Instr} {good : Bool} (hp : s.power = .running)
    (hc : (c = .eraseCheck ∧ s.sp.cmd = .erase band .verify ∧ v = s
        ∧ (good = true ↔ Flash.read s.flash (band * 4096) 16 = List.replicate 16 0xFF))
      ∨ (∃ left t f, c = .eraseTimeout left ∧ s.sp.cmd = .erase band .busy ∧ s.sp.poll = some t ∧ good = false
        ∧ v = { s.passUntil t 500 with flash := f } ∧ f = Flash.erase s.flash (band * 4096) left)) :
    v.jc = s.jc ∧ v.cp = s.cp ∧ v.pt = s.pt
      ∧ (good = true → exec c s = .next (v.eraseEnded band true).judgeTrigger)
      ∧ (good = false → exec c s = .next (v.eraseEnded band false).judgeUsable) := by
  rw [← v.eraseDone_eq, ← v.eraseFailed_eq]
  obtain ⟨rfl, hcmd, rfl, hread⟩ | ⟨left, t, f, rfl, hcmd, ht, rfl, hv, rfl⟩ := hc
  · have hexec := exec_eraseCheck hp hcmd hread
    exact ⟨rfl, rfl, rfl, fun h => by rw [hexec, if_pos h], fun h => by rw [hexec, if_neg (by simp [h])]⟩
  · obtain ⟨hpt, hjc, hcp, -⟩ := s.passUntil_storage t 500
    have hexec := exec_eraseTimeout hp hcmd ht hv
    subst hv
    exact ⟨hjc, hcp, hpt, fun h => by simp at h, fun _ => hexec⟩

/-- Whatever is judged after the erase, the job is over and the line and the station are not touched. -/
theorem State.eraseEnded_over {v t : State} {band : Nat} {good : Bool}
    (h : t = (v.eraseEnded band good).judgeTrigger ∨ FaultEntered (v.eraseEnded band good) t) :
    t.jc.job = none ∧ t.sp.cmd = .none ∧ t.flash = v.flash ∧ t = { v with pt := t.pt, jc := t.jc, sp := t.sp, cp := t.cp } := by
  obtain ht | ⟨_, _, -, -, -, ht⟩ := h
  · rw [State.judgeTrigger_frame] at ht
    rw [ht]
    exact ⟨rfl, rfl, rfl, rfl⟩
  · rw [ht]
    exact ⟨rfl, rfl, rfl, rfl⟩

/-- Settles O55: the erase leaves its row ERASED or BAD and the job over; a good one is followed by the judgement of the trigger, a
failed one by the count of the usable rows, which only that row has changed. -/
theorem eraseEndsItsJob : Obligations.EraseEndsItsJob := by
  intro band c good s v hp _ hfault _ hb hc
  obtain ⟨hjc, hcp, hpt, hgood, hfailed⟩ := exec_eraseEnd hp hc
  have hx : v.eraseEnded band good = { v with
      cp := { v.cp with counters := { v.cp.counters with
        bandsErased := if good = true then min 0xFFFFFFFF (s.cp.counters.bandsErased + 1) else s.cp.counters.bandsErased } }
      jc := { s.jc with
        bands := s.jc.bands.modify band fun _ => { state := if good = true then .erased else .bad, seq := none, live := 0 }
        job := none, next := none, lastSide := some .compaction
        toErase := if s.jc.toErase.head? = some band then s.jc.toErase.tail else s.jc.toErase
        compaction := if s.jc.toErase.head? = some band then s.jc.compaction else .idle }
      sp := { v.sp with cmd := .none, poll := none } } := by
    rw [State.eraseEnded, hjc, hcp]
  have hrow := v.eraseEnded_row good (hjc ▸ hb)
  cases good with
  | true =>
    refine ⟨_, _, hgood rfl, hx, fun _ => State.judgeTrigger_judged _, nofun, nofun,
      fun _ => ⟨State.judgeTrigger_row hrow (by simp), ?_⟩, nofun, State.eraseEnded_over (.inl rfl)⟩
    rw [State.judgeTrigger_frame, hx]
    exact ⟨by simp [hcp], hpt, hfault, rfl, rfl⟩
  | false =>
    obtain ⟨hmany, hfew⟩ := (v.eraseEnded band false).judgeUsable_cases
    have hcount := countP_usable_modify hb
    have hbands : (v.eraseEnded band false).jc.bands
        = s.jc.bands.modify band fun _ => { state := .bad, seq := none, live := 0 } := by rw [hx]; rfl
    by_cases h8 : 8 ≤ ((v.eraseEnded band false).jc.bands.countP fun r => r.state ≠ .bad)
    · rw [hmany h8] at hfailed
      refine ⟨_, _, hfailed rfl, hx, nofun, fun _ _ => State.judgeTrigger_judged _, fun _ h => absurd h (Nat.not_lt.mpr h8), nofun,
        fun _ => ⟨State.judgeTrigger_row hrow (by simp), ?_, ?_⟩, State.eraseEnded_over (.inl rfl)⟩
      · rw [State.judgeTrigger_frame, hx]
        simp [hcp]
      · have hnone : (v.eraseEnded band false).judgeTrigger.jc.fault = false := by
          rw [State.judgeTrigger_frame, hx]
          exact hfault
        rw [hbands] at h8
        simp only [hnone, Bool.false_eq_true, false_iff]
        omega
    · have hentered := (v.eraseEnded band false).enterFault_entered
      rw [hfew (Nat.lt_of_not_le h8)] at hfailed
      refine ⟨_, _, hfailed rfl, hx, nofun, fun _ h => absurd h h8, fun _ _ => hentered, nofun,
        fun _ => ⟨State.enterFault_row hrow (by simp), ?_, ?_⟩, State.eraseEnded_over (.inr hentered)⟩
      · have hby := hentered.bystanders
        simp only [State.bystanders, Prod.mk.injEq] at hby
        obtain ⟨-, -, -, hcounters, -⟩ := hby
        rw [hcounters, hx]
        simp [hcp]
      · have hyes : (v.eraseEnded band false).enterFault.jc.fault = true := by
          obtain ⟨_, _, -, -, -, ht⟩ := hentered
          rw [ht]
        rw [hbands] at h8
        simp only [hyes, true_iff]
        omega

end Sys2Proof.Machine
end

section
/-! The failure of a program: what it counts, what it leaves, and what its purpose and the failure count make of it. -/

namespace Sys2Proof.Machine

/-! ### What a failure leaves (R153, R154, R156, R169) -/

theorem State.issue_bystanders (s : State) (p : Prog) : (s.issue p).bystanders = s.bystanders := (s.issue_issued p).bystanders

theorem State.enterFault_bystanders (s : State) : s.enterFault.bystanders = s.bystanders := s.enterFault_entered.bystanders

theorem State.withHead_bystanders {s : State} {k : Head → State} (hk : ∀ h, (k h).bystanders = s.bystanders) :
    (s.withHead k).bystanders = s.bystanders := by
  unfold State.withHead
  split
  · exact hk _
  · rfl

theorem State.withWrite_bystanders {s : State} {k : WriteJob → State} (hk : ∀ w, (k w).bystanders = s.bystanders) :
    (s.withWrite k).bystanders = s.bystanders := by
  unfold State.withWrite
  split
  · exact hk _
  · rfl

theorem State.openBand_bystanders (s : State) (w : WriteJob) : (s.openBand w).bystanders = s.bystanders := by
  unfold State.openBand
  split
  · rfl
  · split
    · exact s.enterFault_bystanders
    · split
      · exact s.enterFault_bystanders
      · exact State.issue_bystanders _ _

theorem State.nextClose_bystanders (s : State) (todo : List (Nat × Nat)) : (s.nextClose todo).bystanders = s.bystanders := by
  cases todo with
  | nil => exact s.leaveReplay.judgeTrigger_bystanders
  | cons close todo => exact State.issue_bystanders _ _

theorem State.replayClosed_bystanders (s : State) (written : Bool) : (s.replayClosed written).bystanders = s.bystanders := by
  unfold State.replayClosed
  split
  · exact State.nextClose_bystanders _ _
  · rfl

theorem State.judgeUsable_bystanders (s : State) : s.judgeUsable.bystanders = s.bystanders := by
  unfold State.judgeUsable
  split
  · exact s.enterFault_bystanders
  · exact s.judgeTrigger_bystanders

theorem State.headerFailed_bystanders (s : State) (band : Nat) : (s.headerFailed band).bystanders = s.bystanders := by
  have hjudged := (s.mapJournal fun jc => jc.mapRow band (.bare .bad)).judgeUsable_bystanders
  unfold State.headerFailed
  dsimp only
  split
  · exact hjudged
  · exact (State.withWrite_bystanders fun w => State.openBand_bystanders _ w).trans hjudged

/-! ### What follows a failure, by its place in a row and the purpose (R153, R154) -/

theorem State.programFailed_again {s : State} (hn : 1 ≤ s.jc.failCount) (p : Prog) : s.programFailed p = s.countFailure.fail :=
  if_pos (Nat.succ_le_succ hn)

/-- The first failure in a row is met by the purpose of the program. -/
theorem State.programFailed_first {s : State} (hn : s.jc.failCount = 0) (p : Prog) :
    (p.purpose = .recordFirst ∨ p.purpose = .recordSecond → s.programFailed p = s.countFailure.withHead fun h =>
      s.countFailure.issue { purpose := .voidKind, band := h.band, offset := h.pos, data := [0] })
    ∧ (p.purpose = .closeLength ∨ p.purpose = .closeMark → s.programFailed p = s.countFailure.withWrite fun w =>
      (s.countFailure.mapJournal fun jc => jc.leaveHead p.band).openBand w)
    ∧ (p.purpose = .header → s.programFailed p = s.countFailure.headerFailed p.band)
    ∧ (p.purpose = .voidKind ∨ p.purpose = .forcedLength ∨ p.purpose = .forcedMark →
      s.programFailed p = s.countFailure.fail)
    ∧ (p.purpose = .replayLength ∨ p.purpose = .replayMark → s.programFailed p = s.countFailure.replayClosed false) := by
  have hfirst : ¬ 2 ≤ s.countFailure.jc.failCount := by
    show ¬ 2 ≤ s.jc.failCount + 1
    omega
  simp only [State.programFailed, if_neg hfirst]
  cases p.purpose <;> simp

/-- A failure leaves what stands by as it was when it was counted. -/
theorem State.programFailed_bystanders (s : State) (p : Prog) : (s.programFailed p).bystanders = s.countFailure.bystanders := by
  by_cases hn : s.jc.failCount = 0
  · obtain ⟨hrecord, hclose, hheader, hforced, hreplay⟩ := State.programFailed_first hn p
    cases hp : p.purpose with
    | recordFirst | recordSecond =>
      rw [hrecord (by simp [hp])]
      exact State.withHead_bystanders fun h => State.issue_bystanders _ _
    | closeLength | closeMark =>
      rw [hclose (by simp [hp])]
      exact State.withWrite_bystanders fun w => State.openBand_bystanders _ w
    | header =>
      rw [hheader hp]
      exact State.headerFailed_bystanders _ _
    | voidKind | forcedLength | forcedMark =>
      rw [hforced (by simp [hp])]
      exact State.fail_bystanders _
    | replayLength | replayMark =>
      rw [hreplay (by simp [hp])]
      exact State.replayClosed_bystanders _ _
  · rw [State.programFailed_again (Nat.one_le_iff_ne_zero.mpr hn)]
    exact State.fail_bystanders _

/-! ### The failures of a write's programs (R153, R154) -/

theorem State.withHead_some {s : State} {h : Head} (hh : s.jc.head = some h) (k : Head → State) : s.withHead k = k h := by
  rw [State.withHead, hh]

theorem State.withWrite_some {s : State} {w : WriteJob} (hjob : s.jc.job = some (.write w)) (k : WriteJob → State) :
    s.withWrite k = k w := by
  rw [State.withWrite, Journal.write, hjob]

/-- A failed header leaves its row BAD; with enough usable bands the next one is opened, once the trigger has been judged. -/
theorem State.headerFailed_opens {s y : State} {band : Nat} {w : WriteJob} (hjob : s.jc.job = some (.write w))
    (hf : s.jc.fault = false)
    (hy : y = { s with jc := { s.jc with bands := s.jc.bands.modify band fun _ => { state := .bad, seq := none, live := 0 } } }) :
    ((y.jc.bands.countP fun r => r.state ≠ .bad) < 8 → FaultEntered y (s.headerFailed band))
    ∧ (8 ≤ (y.jc.bands.countP fun r => r.state ≠ .bad) →
      ∃ u, TriggerJudged y u ∧ BandOpening u (s.headerFailed band) w) := by
  have hfailed : s.headerFailed band
      = if y.judgeUsable.jc.fault = true then y.judgeUsable else y.judgeUsable.withWrite fun w => y.judgeUsable.openBand w := by
    rw [hy]
    rfl
  obtain ⟨hmany, hfew⟩ := y.judgeUsable_cases
  rw [hfailed]
  refine ⟨fun h => ?_, fun h => ⟨y.judgeTrigger, y.judgeTrigger_judged, ?_⟩⟩
  · have hentered := y.enterFault_entered
    rw [hfew h]
    split
    · exact hentered
    · next hno =>
      obtain ⟨_, _, -, -, -, ht⟩ := hentered
      exact absurd (by rw [ht]) hno
  · have hjudged : y.judgeTrigger.jc.fault = false ∧ y.judgeTrigger.jc.job = some (.write w) := by
      rw [State.judgeTrigger_frame, hy]
      exact ⟨hf, hjob⟩
    obtain ⟨hnone, hwrite⟩ := hjudged
    rw [hmany h, if_neg (by simp [hnone]), State.withWrite_some hwrite]
    exact State.openBand_opening _ w

/-! ### The failures of the closes of replay (R169, R170) -/

/-- A close of replay that fails leads on to the next, with nothing stranded. -/
theorem State.replayClosed_failed {s : State} {r : Replay} {band off : Nat} {todo : List (Nat × Nat)}
    (hr : s.jc.replay = some r) (hphase : r.phase = .closing ((band, off) :: todo)) :
    ReplayCloses { s with jc := { s.jc with
      bands := s.jc.bands.modify band fun r => { r with state := .full }
      replay := some { r with phase := .closing todo } } } (s.replayClosed false) todo := by
  have hnow : s.jc.replay.map Replay.phase = some (.closing ((band, off) :: todo)) := by rw [hr, Option.map_some, hphase]
  have hclosed : (s.mapJournal fun jc => jc.mapRow band (.to .full)).setPhase (.closing todo) = { s with jc := { s.jc with
      bands := s.jc.bands.modify band fun r => { r with state := .full }
      replay := some { r with phase := .closing todo } } } :=
    State.setPhase_eq (s := s.mapJournal fun jc => jc.mapRow band (.to .full)) hr _
  rw [← hclosed, State.replayClosed, hnow]
  exact State.nextClose_closes _ todo

/-! ### PROGRAM_VERIFY and PROGRAM_TIMEOUT (R173, R174) -/

/-- Either way a program fails, its busy period has left what the journal works on. -/
theorem exec_programFail {p : Prog} {c : Instr} {s v : State} (hp : s.power = .running)
    (hc : (c = .programVerify ∧ s.sp.cmd = .program p .verify
        ∧ Flash.read s.flash (p.band * 4096 + p.offset) p.data.length ≠ p.data ∧ v = s)
      ∨ (∃ left t, c = .programTimeout left ∧ s.sp.cmd = .program p .busy ∧ s.sp.poll = some t
        ∧ v = { s.passUntil t 5 with flash := Flash.and s.flash (p.band * 4096 + p.offset) (landed p.data left) })) :
    v.jc = s.jc ∧ v.cp = s.cp ∧ v.pt = s.pt ∧ exec c s = .next (v.endCommand.programFailed p) := by
  obtain ⟨rfl, hcmd, hread, rfl⟩ | ⟨left, t, rfl, hcmd, ht, hv⟩ := hc
  · have hbad : v.matches p = false := beq_eq_false_iff_ne.mpr hread
    refine ⟨rfl, rfl, rfl, ?_⟩
    show execProgramVerify v = _
    rw [execProgramVerify, whenRunning_running hp]
    simp [hcmd, hbad]
  · obtain ⟨hpt, hjc, hcp, hflash, -, hport⟩ := s.passUntil_storage t 5
    have hbusy : (s.passUntil t 5).sp.cmd = .program p .busy := by rw [hport]; exact hcmd
    have hland : (s.passUntil t 5).land left = v := by
      have hdevice := State.land_program hbusy left
      rw [hflash] at hdevice
      rw [hv, ← hdevice, State.land, hbusy]
    have hexec : exec (.programTimeout left) s = .next (((s.passUntil t 5).land left).endCommand.programFailed p) := by
      show execProgramTimeout left s = _
      rw [execProgramTimeout, whenRunning_running hp]
      simp only [hcmd, ht, Config.programLimit]
    rw [hland] at hexec
    subst hv
    exact ⟨hjc, hcp, hpt, hexec⟩

/-- The failed command has ended, and the failure is counted. -/
theorem State.endCommand_countFailure {s v : State} (hjc : v.jc = s.jc) (hcp : v.cp = s.cp) :
    v.endCommand.countFailure = { v with
      cp := { v.cp with counters := { v.cp.counters with
        programFailures := min 0xFFFFFFFF (s.cp.counters.programFailures + 1) } }
      jc := { v.jc with failCount := s.jc.failCount + 1 }
      sp := { v.sp with cmd := .none, poll := none } } := by
  simp [State.countFailure, State.count, State.mapJournal, State.endCommand, State.mapPort, hjc, hcp, satInc, satAdd,
    Config.countLimit]

/-- Settles O54: the failure is counted, and then its place in a row and its purpose decide; a FAULT is one of replay where replay
goes on. -/
theorem programFailureVoidsOrFaults : Obligations.ProgramFailureVoidsOrFaults := by
  intro p c s v x hp hc hx
  obtain ⟨hjc, hcp, hpt, hexec⟩ := exec_programFail hp hc
  have hcounted : v.endCommand.countFailure = x := (State.endCommand_countFailure hjc hcp).trans hx.symm
  have hby := v.endCommand.programFailed_bystanders p
  have hagain := fun h : 1 ≤ s.jc.failCount => State.programFailed_again (s := v.endCommand) (hjc.symm ▸ h) p
  have hfirst := fun h : s.jc.failCount = 0 => State.programFailed_first (s := v.endCommand) (hjc.symm ▸ h) p
  rw [hcounted] at hby hagain hfirst
  have hjournal : x.jc = { s.jc with failCount := s.jc.failCount + 1 } := by rw [hx, hjc]
  simp only [State.bystanders, Prod.mk.injEq] at hby
  obtain ⟨-, -, hh, hcounters, hflash⟩ := hby
  refine ⟨_, hexec, hcounters.trans (by rw [hx, hcp]), hflash.trans (by rw [hx]), hh.trans (by rw [hx, hpt]),
    fun w hr hjob => ?_, fun r band off todo hr hphase hpurpose => ?_⟩
  · have hr : x.jc.replay = none := by rw [hjournal]; exact hr
    have hjob : x.jc.job = some (.write w) := by rw [hjournal]; exact hjob
    have hfault : FaultEntered x x.fail := by rw [State.fail_outsideReplay hr]; exact x.enterFault_entered
    refine ⟨fun hn hpurpose h hhead => ?_, fun hn hpurpose => ?_, fun hn hpurpose hf => ⟨_, rfl, ?_⟩, fun hends => ?_⟩
    · obtain ⟨hrecord, -⟩ := hfirst hn
      have hhead : x.jc.head = some h := by rw [hjournal]; exact hhead
      rw [hrecord hpurpose, State.withHead_some hhead]
      exact x.issue_issued _
    · obtain ⟨-, hclose, -⟩ := hfirst hn
      rw [hclose hpurpose, State.withWrite_some hjob]
      exact State.openBand_opening _ w
    · obtain ⟨-, -, hheader, -⟩ := hfirst hn
      rw [hheader hpurpose]
      exact State.headerFailed_opens hjob (by rw [hjournal]; exact hf) rfl
    · by_cases hn : s.jc.failCount = 0
      · obtain ⟨-, -, -, hforced, -⟩ := hfirst hn
        rw [hforced (hends.resolve_left (by omega))]
        exact hfault
      · rw [hagain (Nat.one_le_iff_ne_zero.mpr hn)]
        exact hfault
  · have hr : x.jc.replay = some r := by rw [hjournal]; exact hr
    refine ⟨fun hn => ?_, fun hn => ?_⟩
    · obtain ⟨-, -, -, -, hnext⟩ := hfirst hn
      rw [hnext hpurpose]
      exact State.replayClosed_failed hr hphase
    · rw [hagain hn, State.fail_inReplay hr]
      exact State.replayFault_faulted x hr

end Sys2Proof.Machine
end

section
/-! The part in reset and without supply: the commands that find it stopped, the reset state, and what resets and starts leave. -/

namespace Sys2Proof.Machine

/-! ### The stopped part (R160) -/

/-- Every command but a reset, a change of supply and a change of the LREQ level is a step of the running part. -/
theorem exec_whenRunning {c : Instr} (hc : actsStopped c = false) : ∃ k, ∀ s, exec c s = whenRunning s k := by
  cases c
  case pinReset | resetRelease | lossOfSupply | lreqAsserted | lreqDeasserted => cases hc
  all_goals exact ⟨_, fun _ => rfl⟩

/-- Settles O4: what is a step of the running part alone is no event of a stopped one. -/
theorem stoppedPartIgnoresCommands : Obligations.StoppedPartIgnoresCommands := by
  intro c s _ hc hp
  obtain ⟨k, hk⟩ := exec_whenRunning hc
  rw [hk, whenRunning_stopped hp]

/-! ### The reset state (Table 9.1.1) -/

theorem ParamTable.reset_tableLaw : TableLaw .reset :=
  ⟨List.Pairwise.nil, by decide, fun _ he => (nomatch he), List.nodup_nil, fun _ hk => (nomatch hk)⟩

/-- The digest of a bucket without entries is 0000H (R18). -/
theorem ParamTable.reset_digestLaw : DigestLaw .reset :=
  ⟨by decide +kernel, rfl, rfl, rfl⟩

theorem ParamTable.reset_highMarkLaw : HighMarkLaw .reset := ⟨by decide, fun _ he => (nomatch he)⟩

theorem NotifyLaw.nil : NotifyLaw [] :=
  ⟨by decide, fun _ _ he => (nomatch he), fun hlong => absurd hlong (by decide), List.nodup_nil, by decide, by decide⟩

theorem StoragePort.reset_lendLaw : LendLaw .reset := by
  unfold LendLaw
  decide

/-- Replay goes on in reset, with the queue empty and nothing in hand. -/
theorem State.reset_queueLaw : QueueLaw .reset :=
  (queueLaw_iff _).mpr ⟨State.reset.cleared_held .inReset [], fun _ => rfl⟩

theorem State.reset_outboundLaw : OutboundLaw .reset :=
  ⟨List.nodup_nil, fun _ hi => (nomatch hi), fun _ he => (nomatch he), fun _ _ hf => (nomatch hf), fun _ _ => ⟨rfl, rfl, rfl⟩⟩

theorem State.reset_demands (d : Demand) : State.reset.demands d = false := by cases d <;> rfl

/-- Settles O13: each law at empty collections, and the fields as the reset state gives them. -/
theorem resetMeetsTheLaws : Obligations.ResetMeetsTheLaws :=
  ⟨⟨Flash.wf_nil, ParamTable.reset_tableLaw, ParamTable.reset_digestLaw, ParamTable.reset_highMarkLaw, NotifyLaw.nil,
      State.reset_bounded, StoragePort.reset_lendLaw, State.reset_queueLaw, State.reset_outboundLaw⟩,
    ⟨rfl, rfl, rfl, rfl, rfl, rfl⟩, ⟨rfl, rfl, rfl, rfl, rfl, rfl, rfl⟩, ⟨rfl, rfl, rfl, rfl⟩, ⟨rfl, rfl, rfl, rfl⟩,
    ⟨State.reset_demands, rfl, rfl, rfl, rfl⟩, ⟨rfl, rfl, rfl, rfl, rfl, rfl, rfl, rfl, rfl, rfl⟩, ⟨rfl, rfl, rfl, rfl⟩,
    ⟨rfl, rfl, rfl, rfl, rfl, by decide, rfl⟩⟩

/-! ### What resets do (R139, R160 to R163, R178) -/

theorem exec_pinReset {s : State} (hp : s.power ≠ .inReset) (left : DeviceLeft) (host : List Host.Cell) :
    exec (.pinReset left host) s = .next (s.cleared .inReset (s.flashAtReset left host)) := if_neg hp

theorem exec_lossOfSupply {s : State} (hp : s.power ≠ .off) (left : DeviceLeft) (host : List Host.Cell) :
    exec (.lossOfSupply left host) s = .next (s.cleared .off (s.flashAtReset left host)) := if_neg hp

theorem exec_resetRelease {s : State} (hp : s.power ≠ .running) (straps : Straps) :
    exec (.resetRelease straps) s = .next ((s.cleared s.power s.flash).startUp straps) := if_neg hp

theorem exec_restartTakesEffect {s : State} (hp : s.power = .running) (straps : Straps) (host : List Host.Cell) :
    exec (.restartTakesEffect straps host) s = .next (if s.cp.restarting = true ∧ s.sp.cmd.over = true then
      (s.cleared .running (s.flashAtReset .whole host)).startUp straps else s) := whenRunning_running hp _

/-- Settles O14: either clears the part, and a part already so is left as it is. -/
theorem resetsClearAllState : Obligations.ResetsClearAllState := fun left host _ =>
  ⟨fun hp => ⟨_, exec_pinReset hp left host, rfl, rfl, rfl, rfl, rfl⟩, fun hp => if_pos hp,
    fun hp => exec_lossOfSupply hp left host, fun hp => if_pos hp⟩

/-! ### What a start leaves (R162, R163, R178) -/

/-- The Storage Port at a start: the lend granted to an asserted LREQ, or the start-up busy check begun. -/
theorem State.cleared_startUp (s : State) (p : Power) (flash : List Host.Cell) (straps : Straps) :
    (s.cleared p flash).startUp straps = { State.reset with
      power := .running, straps := straps, flash := flash, pending := s.pending
      sp := if s.sp.lreq then { StoragePort.reset with lreq := true, lend := .granted, lendCount := 1 }
        else { StoragePort.reset with check := .startUp, poll := some 0 } } := by
  have hreq : (s.cleared p flash).sp.lreq = s.sp.lreq := rfl
  unfold State.startUp
  dsimp only
  rw [hreq]
  cases h : s.sp.lreq
  all_goals
    unfold State.mapPort State.cleared
    rw [h]
    rfl

/-- With no flash command in progress the write window is closed (R161, R171). -/
theorem SpCmd.windowOpen_of_over {c : SpCmd} (h : c.over = true) : c.windowOpen = false := by
  obtain rfl | ⟨p, rfl⟩ | ⟨b, rfl⟩ := (SpCmd.over_iff c).mp h <;> rfl

/-- With no flash command in progress a reset leaves the device what a host in its lend wrote, or as it is. -/
theorem State.flashAtReset_over {s : State} (h : s.sp.cmd.over = true) (left : DeviceLeft) (host : List Host.Cell) :
    s.flashAtReset left host = if s.sp.lend = .granted then Flash.hostWrite s.flash host else s.flash := by
  rw [State.flashAtReset, State.land_closed (SpCmd.windowOpen_of_over h)]

/-- With no flash command in progress a RESTART that waits takes effect (R161). -/
theorem exec_restartTakesEffect_over {s : State} (hp : s.power = .running) (hr : s.cp.restarting = true)
    (hover : s.sp.cmd.over = true) (straps : Straps) (host : List Host.Cell) :
    exec (.restartTakesEffect straps host) s = .next { State.reset with
      power := .running, straps := straps, pending := s.pending
      flash := if s.sp.lend = .granted then Flash.hostWrite s.flash host else s.flash
      sp := if s.sp.lreq then { StoragePort.reset with lreq := true, lend := .granted, lendCount := 1 }
        else { StoragePort.reset with check := .startUp, poll := some 0 } } := by
  rw [exec_restartTakesEffect hp, if_pos ⟨hr, hover⟩, State.cleared_startUp, State.flashAtReset_over hover]

/-- A header read while a RESTART waits is followed by no other flash command, and leaves the command port (R161, R164). -/
theorem State.surveyHeader_restarting {s : State} {i : Nat} (hr : s.cp.restarting = true) (hi : i + 1 < bandCount s.straps)
    (r : Replay) : (s.surveyHeader r i).sp = { s.sp with cmd := .none } ∧ (s.surveyHeader r i).cp = s.cp := by
  rw [State.surveyHeader_eq, if_pos hi, State.setPhase_readOn (s := s.surveyed r i) rfl]
  have hno : ¬ ((s.surveyed r i).sp.lend = .idle ∧ (s.surveyed r i).cp.restarting = false) := fun ⟨_, h⟩ =>
    absurd (hr.symm.trans h) (by decide)
  rw [if_neg hno]
  exact ⟨rfl, rfl⟩

/-- Settles O16: a part that starts is the cleared one with straps and LREQ sampled, and a RESTART that waits for a flash command
lets none follow it. -/
theorem startUpSamplesStrapsAndLreq : Obligations.StartUpSamplesStrapsAndLreq := by
  intro straps host s
  refine ⟨fun hp => ?_, SpCmd.over_iff s.sp.cmd, fun hp hno => ?_, fun r i hp hr hrep hcmd hi => ?_, fun hp hr hover => ?_⟩
  · rw [exec_resetRelease hp, State.cleared_startUp]
    exact ⟨_, rfl, rfl, rfl⟩
  · have hwaits : ¬ (s.cp.restarting = true ∧ s.sp.cmd.over = true) := by simpa [or_comm, imp_iff_not_or] using hno
    rw [exec_restartTakesEffect hp, if_neg hwaits]
  · obtain ⟨hphase, hi⟩ := hi
    exact ⟨_, exec_headerSurvey hp hrep hphase hcmd, State.surveyHeader_restarting hr hi r⟩
  · exact ⟨_, exec_restartTakesEffect_over hp hr hover straps host, rfl, rfl⟩

/-! ### RESTART (R161, R185) -/

/-- The code alone makes a RESTART, which then waits; any further bit makes the transaction one without effect. -/
theorem exec_restart {s : State} (hp : s.power = .running) (n : Nat) : exec (.restart n) s = .next { s with
    cp := { portAfter s (n / 8) with restarting := s.cp.restarting || n == 0 } } := by
  show execRestart n s = _
  rw [execRestart, whenRunning_running hp]
  refine congrArg _ ?_
  by_cases hn : n = 0
  · rw [if_pos hn, beq_iff_eq.mpr hn, Bool.or_true]
    rfl
  · rw [if_neg hn, beq_eq_false_iff_ne.mpr hn, Bool.or_false]
    rfl

/-- Settles O17: the RESTART waits, and with no flash command in progress it takes effect. -/
theorem restartTakesOnlyItsCode : Obligations.RestartTakesOnlyItsCode := by
  intro n straps s hp
  refine ⟨_, exec_restart hp n, rfl, fun hn hcmd => ?_⟩
  have hr : (s.cp.restarting || n == 0) = true := by rw [hn]; exact Bool.or_true _
  have hover : s.sp.cmd.over = true := by rw [hcmd]; rfl
  refine ⟨_, exec_restartTakesEffect_over ?_ ?_ ?_ straps [], ?_⟩
  · exact hp
  · exact hr
  · exact hover
  · exact ⟨rfl, rfl, rfl, rfl, rfl⟩

end Sys2Proof.Machine
end

section
/-! The status byte: its fields, the instant at which a transaction takes it, and what is returned of it. -/

namespace Sys2Proof.Machine

/-! ### The fields of the status byte (Table 11.1.1) -/

/-- A bit of a byte is the bit of the number that it holds. -/
theorem getLsbD_byte1 (n : Nat) {i : Nat} (hi : i < 8) : (byte1 n).getLsbD i = decide (n / 2 ^ i % 2 = 1) := by
  rw [byte1, BitVec.getLsbD_ofNat, Nat.testBit_eq_decide_div_mod_eq, decide_eq_true hi, Bool.true_and]

/-- Five flags above a number of three bits: each reads back alone. -/
theorem byte1_flags {k : Nat} (hk : k < 8) (a b c d e : Bool) {n : Nat}
    (hn : n = k + 8 * boolCode a + 16 * boolCode b + 32 * boolCode c + 64 * boolCode d + 128 * boolCode e) :
    (byte1 n).toNat % 8 = k ∧ (byte1 n).getLsbD 3 = a ∧ (byte1 n).getLsbD 4 = b ∧ (byte1 n).getLsbD 5 = c
      ∧ (byte1 n).getLsbD 6 = d ∧ (byte1 n).getLsbD 7 = e := by
  have hbit : ∀ x : Bool, boolCode x < 2 ∧ x = decide (boolCode x = 1) := by decide
  obtain ⟨ha, ha'⟩ := hbit a
  obtain ⟨hb, hb'⟩ := hbit b
  obtain ⟨hc, hc'⟩ := hbit c
  obtain ⟨hd, hd'⟩ := hbit d
  obtain ⟨he, he'⟩ := hbit e
  refine ⟨?_, ?_, ?_, ?_, ?_, ?_⟩
  · rw [toNat_byte1 (by omega)]
    omega
  · rw [getLsbD_byte1 n (by decide), ha', decide_eq_decide]
    omega
  · rw [getLsbD_byte1 n (by decide), hb', decide_eq_decide]
    omega
  · rw [getLsbD_byte1 n (by decide), hc', decide_eq_decide]
    omega
  · rw [getLsbD_byte1 n (by decide), hd', decide_eq_decide]
    omega
  · rw [getLsbD_byte1 n (by decide), he', decide_eq_decide]
    omega

theorem Station.code_lt (st : Station) : st.code < 8 := by cases st <;> decide

theorem Slot.isDone_iff (sl : Slot) : sl.isDone = true ↔ ∃ r, sl = .done r := by cases sl <;> simp [Slot.isDone]

theorem Slot.isEmpty_iff (sl : Slot) : sl.isEmpty = true ↔ sl = .empty := by cases sl <;> simp [Slot.isEmpty]

/-- Each field of the status byte. -/
theorem State.statusByte_fields (s : State) : s.statusByte.toNat % 8 = s.sc.station.code
    ∧ s.statusByte.getLsbD 3 = s.cp.slot.isDone ∧ s.statusByte.getLsbD 4 = !s.cp.notify.isEmpty
    ∧ s.statusByte.getLsbD 5 = !s.cp.slot.isEmpty ∧ s.statusByte.getLsbD 6 = s.cp.rejected
    ∧ s.statusByte.getLsbD 7 = s.jc.fault :=
  byte1_flags (Station.code_lt _) _ _ _ _ _ rfl

/-! ### The instant at which the byte is taken (R180) -/

/-- With SSEL told, the byte is the one taken then. -/
theorem State.latched_selected {s : State} {status : Byte} (h : s.cp.transaction = some (.selected status)) :
    s.latched = status := by rw [State.latched, h]

/-- With SSEL asserted in the same step, the byte is taken in it. -/
theorem State.latched_unselected {s : State} (h : ∀ b, s.cp.transaction ≠ some (.selected b)) : s.latched = s.statusByte := by
  unfold State.latched
  split
  · next b hb => exact absurd hb (h b)
  · rfl

/-! ### READ_STATUS (R180, R181) -/

theorem exec_readStatus_select {s : State} (hp : s.power = .running) : exec (.readStatus .select) s = .next s.select :=
  whenRunning_running hp fun s => s.select

theorem exec_readStatus_clocked {s : State} (hp : s.power = .running) (bits : Nat) :
    (8 ≤ bits → exec (.readStatus (.clocked bits)) s = .next (s.statusOnly (bits / 8 - 1)))
    ∧ (bits < 8 → exec (.readStatus (.clocked bits)) s
        = .next { s with cp := { s.cp with transaction := none, smiso := [] } }) := by
  show (_ → execReadStatus (.clocked bits) s = _) ∧ (_ → execReadStatus (.clocked bits) s = _)
  rw [execReadStatus, whenRunning_running hp]
  exact ⟨fun hle => congrArg _ (if_neg (Nat.not_lt.mpr hle)), fun hlt => congrArg _ (if_pos hlt)⟩

/-! ### The byte after a reset (R160, R181) -/

/-- A cleared part is in REPLAY with nothing to report. -/
theorem State.statusByte_cleared {t : State} (hst : t.sc.station = .replay) (hcp : t.cp = .reset) (hf : t.jc.fault = false) :
    t.cp.rejected = false ∧ t.statusByte = 0 := by
  unfold State.statusByte
  rw [hst, hcp, hf]
  exact ⟨rfl, rfl⟩

/-- Settles O18: the fields one by one, the byte taken at SSEL or in the step itself, and the cleared part's byte. -/
theorem statusByteReports : Obligations.StatusByteReports := by
  refine ⟨fun s => ?_, fun s hp => ⟨⟨_, exec_readStatus_select hp, rfl, fun u hu => State.latched_selected hu⟩,
    State.latched_unselected, fun bits hle => ?_, fun bits => (exec_readStatus_clocked hp bits).2⟩,
    fun left s t hp ht => ?_, fun straps s t hp hr hover ht => ?_⟩
  · obtain ⟨hcode, hdone, hwaits, hfull, hrejected, hfault⟩ := s.statusByte_fields
    refine ⟨hcode, ?_, ?_, ?_, hrejected, hfault⟩
    · rw [hdone, Slot.isDone_iff]
    · rw [hwaits]
      simp
    · rw [hfull, Bool.not_eq_true', Bool.eq_false_iff, ne_eq, Slot.isEmpty_iff]
  · exact (exec_readStatus_clocked hp bits).1 hle
  · cases (exec_pinReset hp left []).symm.trans ht
    exact State.statusByte_cleared rfl rfl rfl
  · cases (exec_restartTakesEffect_over hp hr hover straps []).symm.trans ht
    exact State.statusByte_cleared rfl rfl rfl

end Sys2Proof.Machine
end

section
/-! The flash bus: what passes on it for each flash command, the levels of its pins, and the end of a busy period. -/

namespace Sys2Proof.Machine

/-! ### The transfers of each flash command (Table 10.1.1) -/

/-- A program on the bus: while the device works at it, and as it is read back. -/
theorem State.busTransfers_program {s : State} {p : Prog} :
    (s.sp.cmd = .program p .busy → s.busTransfers = [writeEnable, p.transfer, statusRead])
    ∧ (s.sp.cmd = .program p .verify → s.busTransfers = [readTransfer p.address p.data.length]) := by
  constructor
  all_goals
    intro h
    rw [State.busTransfers, h]

/-- The address of a band's first byte (R130). -/
theorem bandAddress_first (b : Nat) : bandAddress b 0 = b * 4096 := Nat.add_zero _

/-- An erase on the bus: while the device works at it, and as its header area is read. -/
theorem State.busTransfers_erase {s : State} {b : Nat} :
    (s.sp.cmd = .erase b .busy →
      s.busTransfers = [writeEnable, { out := 0x20 :: addressBytes (b * 4096), ins := 0 }, statusRead])
    ∧ (s.sp.cmd = .erase b .verify → s.busTransfers = [readTransfer (b * 4096) 16]) := by
  rw [← bandAddress_first]
  constructor
  all_goals
    intro h
    rw [State.busTransfers, h]
    rfl

/-- A reading of replay on the bus: of a header, or of the records of a band. -/
theorem State.busTransfers_read {s : State} {r : Replay} (h : s.sp.cmd = .read) (hr : s.jc.replay = some r) :
    (∀ i, r.phase = .survey i → s.busTransfers = [readTransfer (i * 4096) 16])
    ∧ ∀ b todo, r.phase = .walk (b :: todo) → s.busTransfers = [readTransfer (b * 4096 + 16) 4080] := by
  refine ⟨fun i hphase => ?_, fun b todo hphase => ?_⟩
  · rw [← bandAddress_first, State.busTransfers, h, hr, Option.map_some, hphase]
    rfl
  · rw [State.busTransfers, h, hr, Option.map_some, hphase]
    rfl

/-- With no flash command in progress the bus carries the status reads of a busy check alone. -/
theorem State.busTransfers_pauses {s : State} (h : s.sp.cmd.pauses = true) :
    s.busTransfers = if s.sp.check = .none then [] else [statusRead] := by
  obtain hcmd | ⟨p, hcmd⟩ | ⟨b, hcmd⟩ := (SpCmd.over_iff s.sp.cmd).mp h <;> rw [State.busTransfers, hcmd]

/-! ### The levels of FCS and FSCK (R171, R176 to R178) -/

theorem State.flashPins_floating {s : State} (h : s.power = .off ∨ s.sp.lend = .granted) :
    s.fcs = [.floating] ∧ s.fsck = .floating := by
  have hno : s.drivesFlash = false := by
    rcases h with h | h <;> simp [State.drivesFlash, h]
  rw [State.fcs, State.fsck, hno]
  exact ⟨rfl, rfl⟩

/-- The Storage Port holds the bus: FSCK rests low, and FCS is low once for each transfer. -/
theorem State.flashPins_driven {s : State} (hp : s.power ≠ .off) (hl : s.sp.lend ≠ .granted) :
    s.fsck = .low ∧ s.fcs = .high :: s.busTransfers.flatMap fun _ => [.low, .high] := by
  have hdrives : s.drivesFlash = true := by simp [State.drivesFlash, hp, hl]
  rw [State.fcs, State.fsck, hdrives]
  exact ⟨rfl, rfl⟩

/-- With no flash command in progress FCS is low through the status reads of a busy check alone. -/
theorem State.fcs_pauses {s : State} (hp : s.power ≠ .off) (hl : s.sp.lend ≠ .granted) (hpause : s.sp.cmd.pauses = true) :
    (s.sp.check = .none → s.fcs = [.high]) ∧ (s.sp.check ≠ .none → s.fcs = [.high, .low, .high]) := by
  obtain ⟨-, hfcs⟩ := State.flashPins_driven hp hl
  rw [hfcs, State.busTransfers_pauses hpause]
  refine ⟨fun hc => ?_, fun hc => ?_⟩
  · rw [if_pos hc]
    rfl
  · rw [if_neg hc]
    rfl

/-! ### The end of a busy period (R161, R173, R175) -/

/-- After its busy period a command goes on to its read, unless a lend comes first outside replay, or a RESTART. -/
theorem State.stageAfterBusy_eq (s : State) : s.stageAfterBusy =
    if s.cp.restarting = false ∧ (s.sp.lend = .idle ∨ s.jc.replay ≠ none) then .verify else .ready := by
  unfold State.stageAfterBusy State.canBegin
  cases s.cp.restarting <;> cases s.jc.replay <;> simp

/-- What the device makes of a write is in its content alone. -/
theorem State.land_eq (s : State) (left : DeviceLeft) : s.land left = { s with flash := (s.land left).flash } := by
  unfold State.land
  split <;> rfl

/-- The busy period of a program ends in time, or it is too late for it to. -/
theorem exec_programNotBusy_program {s : State} {p : Prog} {t : Nat} (hp : s.power = .running)
    (hcmd : s.sp.cmd = .program p .busy) (ht : s.sp.poll = some t) (left : DeviceLeft) :
    (t ≤ 5 → exec (.programNotBusy left) s = .next { s with
      flash := Flash.and s.flash (p.band * 4096 + p.offset) (landed p.data left)
      sp := { s.sp with cmd := .program p s.stageAfterBusy, poll := none } })
    ∧ (5 < t → exec (.programNotBusy left) s = .next s) := by
  have hland := s.land_eq left
  rw [State.land_program hcmd] at hland
  show (_ → execProgramNotBusy left s = _) ∧ (_ → execProgramNotBusy left s = _)
  rw [execProgramNotBusy, whenRunning_running hp]
  simp only [hcmd, ht, hland]
  exact ⟨fun hle => congrArg _ (if_pos hle), fun hlate => congrArg _ (if_neg (Nat.not_le.mpr hlate))⟩

/-- The busy period of an erase ends in time, or it is too late for it to. -/
theorem exec_programNotBusy_erase {s : State} {b t : Nat} (hp : s.power = .running) (hcmd : s.sp.cmd = .erase b .busy)
    (ht : s.sp.poll = some t) (left : DeviceLeft) :
    (t ≤ 500 → exec (.programNotBusy left) s = .next { s with
      flash := Flash.erase s.flash (b * 4096) left
      sp := { s.sp with cmd := .erase b s.stageAfterBusy, poll := none } })
    ∧ (500 < t → exec (.programNotBusy left) s = .next s) := by
  have hland := s.land_eq left
  rw [State.land_erase hcmd] at hland
  show (_ → execProgramNotBusy left s = _) ∧ (_ → execProgramNotBusy left s = _)
  rw [execProgramNotBusy, whenRunning_running hp]
  simp only [hcmd, ht, hland]
  exact ⟨fun hle => congrArg _ (if_pos hle), fun hlate => congrArg _ (if_neg (Nat.not_le.mpr hlate))⟩

/-- Settles O51: a busy period ended in time by the kind of its command, and the transfers of each command at its address. -/
theorem pollingEndsTheWriteWindow : Obligations.PollingEndsTheWriteWindow := by
  refine ⟨fun left t stage s hp ht hstage => ?_, fun s a addr haddr => ?_⟩
  · rw [← State.stageAfterBusy_eq] at hstage
    subst hstage
    refine ⟨fun p hcmd => exec_programNotBusy_program hp hcmd ht left, fun b hcmd => ?_⟩
    obtain ⟨hintime, hlate⟩ := exec_programNotBusy_erase hp hcmd ht left
    refine ⟨fun hle => ⟨Flash.erase s.flash (b * 4096) left, hintime hle, fun a ha => ?_, fun hwhole a hlo hhi => ?_⟩, hlate⟩
    · exact Flash.byte_erase_outside s.flash left ha
    · rw [hwhole]
      exact Flash.byte_erase_whole _ hlo hhi
  · have haddr : addr = addressBytes a := haddr
    subst haddr
    refine ⟨fun p ha => ?_, fun b ha => ?_, fun r b ha hcmd hr hphase => ?_, fun hpause hcheck => ?_, fun hpause hcheck => ?_⟩
    · subst ha
      exact State.busTransfers_program
    · subst ha
      exact State.busTransfers_erase
    · subst ha
      exact (State.busTransfers_read hcmd hr).1 b hphase
    · rw [State.busTransfers_pauses hpause, if_neg hcheck]
      rfl
    · rw [State.busTransfers_pauses hpause, if_pos hcheck]

end Sys2Proof.Machine
end

section
/-! The lend handshake: lend points, the request, its grant, its withdrawal and the return of the bus. -/

namespace Sys2Proof.Machine

/-! ### Lend points (R170, R175) -/

theorem State.lendPoint_outsideReplay {s : State} (hr : s.jc.replay = none) : s.lendPoint = true ↔
    s.sp.check = .none ∧ (s.sp.cmd = .none ∨ (∃ p, s.sp.cmd = .program p .ready) ∨ ∃ b, s.sp.cmd = .erase b .ready) := by
  rw [← SpCmd.over_iff, SpCmd.over]
  simp [State.lendPoint, hr]

theorem State.lendPoint_inReplay {s : State} (hr : s.jc.replay ≠ none) : s.lendPoint = true ↔
    s.sp.check = .none ∧ s.sp.cmd = .none ∧ ∀ p, s.jc.next = some p → p.purpose ≠ .replayMark := by
  have hmid : s.jc.midClose = false ↔ ∀ p, s.jc.next = some p → p.purpose ≠ .replayMark := by
    unfold Journal.midClose
    cases s.jc.next <;> simp
  rw [← hmid]
  simp [State.lendPoint, Option.isSome_iff_ne_none.mpr hr]

/-- No lend point lies within a busy check. -/
theorem State.lendPoint_checking {s : State} (h : s.sp.check ≠ .none) : s.lendPoint = false := by
  simp [State.lendPoint, h]

/-! ### The request and its grant (R176 to R178, Table 10.4.1) -/

/-- A waiting request is granted, and counted once. -/
theorem State.grantWaiting_waiting {s : State} (h : s.sp.lend = .waiting) : s.grantWaiting = { s with sp := { s.sp with
    lend := .granted, lendCount := min 0xFFFFFFFF (s.sp.lendCount + 1) } } := by
  rw [State.grantWaiting, if_pos h]
  exact s.grantHeld_eq

/-- A request made: granted at a lend point, waiting elsewhere, and only held where the lend is not IDLE or the part is stopped. -/
theorem exec_lreqAsserted {s : State} (hreq : s.sp.lreq = false) :
    (s.power = .running → s.sp.lend = .idle → s.lendPoint = true →
      exec .lreqAsserted s = .next { s with sp := { s.sp with
        lreq := true, lend := .granted, lendCount := min 0xFFFFFFFF (s.sp.lendCount + 1) } })
    ∧ (s.power = .running → s.sp.lend = .idle → s.lendPoint = false →
      exec .lreqAsserted s = .next { s with sp := { s.sp with lreq := true, lend := .waiting } })
    ∧ (s.power ≠ .running ∨ s.sp.lend ≠ .idle →
      exec .lreqAsserted s = .next { s with sp := { s.sp with lreq := true } }) := by
  have hexec : exec .lreqAsserted s = if s.power = .running ∧ s.sp.lend = .idle then
      .next (if s.lendPoint then ({ s with sp := { s.sp with lreq := true, lend := .waiting } } : State).grantWaiting
        else { s with sp := { s.sp with lreq := true, lend := .waiting } })
      else .next { s with sp := { s.sp with lreq := true } } := if_neg (by simp [hreq])
  rw [hexec]
  refine ⟨fun hp hl hat => ?_, fun hp hl hat => ?_, fun hno => ?_⟩
  · rw [if_pos ⟨hp, hl⟩, if_pos hat, State.grantWaiting_waiting rfl]
  · rw [if_pos ⟨hp, hl⟩, if_neg (by simp [hat])]
  · rw [if_neg (by rwa [not_and_or])]

theorem exec_lendGrant {s : State} (hp : s.power = .running) (hl : s.sp.lend = .waiting) :
    (s.lendPoint = true → exec .lendGrant s = .next { s with sp := { s.sp with
      lend := .granted, lendCount := min 0xFFFFFFFF (s.sp.lendCount + 1) } })
    ∧ (s.lendPoint = false → exec .lendGrant s = .next s) := by
  show (_ → execLendGrant s = _) ∧ (_ → execLendGrant s = _)
  rw [execLendGrant, whenRunning_running hp, State.grantWaiting_waiting hl]
  exact ⟨fun hat => congrArg _ (if_pos hat), fun hno => congrArg _ (if_neg (by simp [hno]))⟩

/-! ### The withdrawal and the return (R176, R177, R179) -/

/-- LREQ goes low: a lend is returned with what the host wrote, a waiting request gives way to what it held back, unless a busy
check runs, and any other level is only told. -/
theorem exec_lreqDeasserted {s : State} (hreq : s.sp.lreq = true) (host : List Host.Cell) :
    (s.sp.lend = .granted → exec (.lreqDeasserted host) s = .next { s with
      flash := Flash.hostWrite s.flash host
      sp := { s.sp with lreq := false, lend := .returning, check := .returning, poll := some 0 } })
    ∧ (s.sp.lend = .waiting → exec (.lreqDeasserted host) s = .next (if s.sp.check = .none
        then ({ s with sp := { s.sp with lreq := false, lend := .idle } } : State).resume
        else { s with sp := { s.sp with lreq := false, lend := .idle } }))
    ∧ (s.sp.lend = .idle ∨ s.sp.lend = .returning →
      exec (.lreqDeasserted host) s = .next { s with sp := { s.sp with lreq := false } }) := by
  show (_ → execLreqDeasserted host s = _) ∧ (_ → execLreqDeasserted host s = _) ∧ (_ → execLreqDeasserted host s = _)
  rw [execLreqDeasserted, if_pos hreq]
  dsimp only [State.mapPort]
  refine ⟨fun hl => ?_, fun hl => ?_, fun hl => ?_⟩
  · rw [hl]
  · rw [hl]
  · rcases hl with hl | hl <;> rw [hl]

/-- Settles O56: the request, its grant and its end by the lend state, and the pins by the flash command in progress. -/
theorem lendHandshake : Obligations.LendHandshake := by
  intro s
  refine ⟨fun hreq => ?_, fun hp hl => exec_lendGrant hp hl, State.lendPoint_outsideReplay, State.lendPoint_inReplay,
    fun host hreq => ?_, State.flashPins_floating, fun hp hl => ?_⟩
  · obtain ⟨hgrant, hwait, hheld⟩ := exec_lreqAsserted hreq
    exact ⟨hgrant, fun hp hl hno => hwait hp hl (hno.elim id State.lendPoint_checking), hheld,
      fun host => if_neg (by simp [hreq])⟩
  · obtain ⟨hreturn, hwithdraw, htold⟩ := exec_lreqDeasserted hreq host
    refine ⟨fun hl => ⟨_, hreturn hl, rfl, fun hp => ⟨?_, fun hpause => ?_⟩⟩, fun hl hc => ⟨_, hwithdraw hl, ?_⟩, fun hl => ?_⟩
    · refine (State.flashPins_driven ?_ ?_).1
      · exact hp
      · exact nofun
    · refine (State.fcs_pauses ?_ ?_ ?_).2 ?_
      · exact hp
      · exact nofun
      · exact hpause
      · exact nofun
    · rw [if_pos hc]
      exact State.resume_resumed rfl
    · rcases hl with ⟨hl, hc⟩ | hl
      · rw [hwithdraw hl, if_neg hc, hl]
        rfl
      · have hlevel : (if s.sp.lend = .returning then Lend.returning else .idle) = s.sp.lend := by
          rcases hl with hl | hl <;> rw [hl] <;> rfl
        rw [htold hl, hlevel]
  · obtain ⟨hfsck, hfcs⟩ := State.flashPins_driven hp hl
    refine ⟨hfsck, fun hpause => (State.fcs_pauses hp hl hpause).1, fun hpause => (State.fcs_pauses hp hl hpause).2, ?_⟩
    rw [hfcs]
    refine ⟨fun hbusy => ?_, fun hverify => ?_, fun r hcmd hr hphase => ?_⟩
    · obtain ⟨p, hcmd⟩ | ⟨b, hcmd⟩ := hbusy
      · rw [State.busTransfers_program.1 hcmd]
        rfl
      · rw [State.busTransfers_erase.1 hcmd]
        rfl
    · obtain ⟨p, hcmd⟩ | ⟨b, hcmd⟩ := hverify
      · rw [State.busTransfers_program.2 hcmd]
        rfl
      · rw [State.busTransfers_erase.2 hcmd]
        rfl
    · obtain ⟨hsurvey, hwalk⟩ := State.busTransfers_read hcmd hr
      obtain ⟨i, hphase⟩ | ⟨b, todo, hphase⟩ := hphase
      · rw [hsurvey i hphase]
        rfl
      · rw [hwalk b todo hphase]
        rfl

end Sys2Proof.Machine
end

section
/-! The Storage Port and the flash device: the operations of the line, the roster, repair, the entries and the Command Port leave
both, the time of polling apart. -/

namespace Sys2Proof.Machine

/-- What the laws of the lend and of the device's content read: the Storage Port, the time of its polling apart, and the content. -/
def State.busView (s : State) : StoragePort × List Host.Cell := ({ s.sp with poll := none }, s.flash)

/-! ### Time, the judgement of convergence and long commands -/

theorem State.passLine_bus (s : State) (n : Nat) : (s.passLine n).busView = s.busView := by
  obtain ⟨_, _, _, _, _, hflash, _⟩ := s.passLine_frame n
  unfold State.busView
  rw [hflash, s.passLine_sp n]

theorem State.passUntil_bus (s : State) (t l : Nat) : (s.passUntil t l).busView = s.busView := by
  rcases s.passUntil_eq t l with h | ⟨n, h⟩ <;> rw [h]
  exact s.passLine_bus n

theorem State.passSilence_bus (s : State) (p : Peer) (ms : Nat) : (s.passSilence p ms).busView = s.busView := by
  unfold State.passSilence
  split
  · exact s.passUntil_bus _ _
  · rfl

theorem State.judge_bus (s : State) : s.judge.busView = s.busView := by
  rw [s.judge_frame]
  rfl

theorem State.endJoinWindow_bus (s : State) : s.endJoinWindow.busView = s.busView := by
  rw [s.endJoinWindow_frame]
  rfl

theorem State.completeLong_bus (s : State) (code : Byte) (r : Result) : (s.completeLong code r).busView = s.busView := by
  obtain ⟨_, _, h⟩ := s.completeLong_slot code r
  rw [h]
  rfl

theorem State.settleFlush_bus (s : State) : s.settleFlush.busView = s.busView := by
  obtain ⟨h, -⟩ := s.settleFlush_spec
  rw [h]
  rfl

/-! ### The roster, sessions and replies -/

theorem State.updatePeer_bus (s : State) (n : Nat) (f : Peer → Peer) : (s.updatePeer n f).busView = s.busView := by
  rw [s.updatePeer_eq n f]
  rfl

theorem State.searchSession_bus (s : State) : s.searchSession.busView = s.busView := by
  rw [s.searchSession_frame]
  rfl

theorem State.abandonSession_bus (s : State) : s.abandonSession.busView = s.busView := by
  obtain ⟨roster, h, -⟩ := s.abandon_emptyReplies
  exact (congrArg State.busView h : s.abandonSession.emptyReplies.busView = (s.repairLeft roster).busView)

theorem ListingFrame.bus {s t : State} (h : ListingFrame s t) : t.busView = s.busView := by
  obtain ⟨ht, -⟩ := h
  rw [ht]
  rfl

theorem State.dropRequest_bus (s : State) (n : Nat) : (s.dropRequest n).busView = s.busView := by
  rw [s.dropRequest_eq n]
  rfl

theorem State.replyCompleted_bus (s : State) (forHead ends : Bool) (moved : Work) :
    (s.replyCompleted forHead ends moved).busView = s.busView := by
  unfold State.replyCompleted
  split
  · split
    · rfl
    · split <;> rfl
  · rfl

/-! ### Station states and own frames -/

theorem State.endClosing_bus (s : State) (r : Result) : (s.endClosing r).busView = s.busView := s.enterHeld.completeLong_bus _ _

theorem State.enterMuted_bus (s : State) (c : Cause) : (s.enterMuted c).busView = s.busView := s.abandonSession_bus

theorem State.takeCause_bus (s : State) (c : Cause) : (s.takeCause c).busView = s.busView := by
  unfold State.takeCause
  split
  · rfl
  · rfl
  · exact (State.judge_bus _).trans (s.enterMuted_bus c)
  · exact (State.judge_bus _).trans (s.enterMuted_bus c)
  · unfold State.furtherCause
    split <;> rfl
  · exact (State.judge_bus _).trans (s.endClosing_bus _)

theorem State.startDemand_bus (s : State) (cls : GapClass) (d : Demand) : (s.startDemand cls d).busView = s.busView := by
  have hupdate : ∀ m, (s.launchUpdate cls m).busView = s.busView := fun m => State.judge_bus _
  unfold State.startDemand
  split
  · split <;> rfl
  · rfl
  · exact hupdate .push
  · rfl
  · exact hupdate .new
  · rfl

theorem State.frameSent_bus (s : State) (f : Flight) : (s.frameSent f).busView = s.busView := s.passLine_bus _

theorem State.demandCompleted_bus (s : State) (f : Flight) : (s.demandCompleted f).busView = s.busView := by
  unfold State.demandCompleted
  split
  · rfl
  · rfl
  · split <;> rfl
  · exact s.replyCompleted_bus _ _ _
  · split
    · exact (State.judge_bus _).trans (s.endClosing_bus _)
    · rfl

theorem State.frameUndone_bus (s : State) (f : Flight) : (s.frameUndone f).busView = s.busView := by
  unfold State.frameUndone
  split <;> rfl

/-! ### Frames of other stations -/

theorem State.testFrame_bus (s : State) (chars : List Byte) : (s.testFrame chars).busView = s.busView := by
  unfold State.testFrame
  split
  · rfl
  · split
    · rfl
    · split
      · unfold State.duplicateStation
        refine (State.takeCause_bus _ _).trans ?_
        split <;> rfl
      · unfold State.bufferFrame
        split <;> rfl

theorem State.refresh_bus (s : State) (n : Nat) : (s.refresh n).busView = s.busView := by
  rw [s.refresh_eq n]
  rfl

theorem State.testSession_bus (s : State) (n : Nat) : (s.testSession n).busView = s.busView := by
  unfold State.testSession
  split
  · exact s.updatePeer_bus _ _
  · rfl

theorem State.takeSummary_bus (s : State) (n h count interval : Nat) (digests : List Half) (joining : Bool) :
    (s.takeSummary n h count interval digests joining).busView = s.busView := by
  have hearly : ∀ u : State, (if joining then u.earlySummary else u).busView = u.busView := fun u => by
    unfold State.earlySummary
    split
    · split <;> rfl
    · rfl
  have hheard := s.updatePeer_bus n fun p => { p with h := h, count := count, interval := some interval, joining := joining }
  unfold State.takeSummary
  generalize s.updatePeer n _ = u at hheard
  dsimp only
  split
  · refine (hearly _).trans (Eq.trans ?_ hheard)
    split
    · exact u.updatePeer_bus _ _
    · exact (State.testSession_bus _ _).trans (u.updatePeer_bus _ _)
  · exact hheard

theorem State.peerLeft_bus (s : State) (n : Nat) : (s.peerLeft n).busView = s.busView := by
  unfold State.peerLeft
  split
  · rfl
  · have hleft := ((s.updatePeer n fun _ => .cleared).notify .peerLeft n).dropRequest_bus n
    generalize State.dropRequest _ n = u at hleft
    refine Eq.trans ?_ (hleft.trans (s.updatePeer_bus n _))
    dsimp only
    split
    · exact u.closeSession.searchSession_bus
    · rfl

theorem State.takeKind_bus (s : State) (f : Frame) : (s.takeKind f).busView = s.busView := by
  cases hp : f.payload with
  | update recs =>
    obtain ⟨w, hw, hframe, -⟩ := s.takeKind_update_frame hp
    rw [hw, hframe]
    rfl
  | summary h count interval digests =>
    unfold State.takeKind
    rw [hp]
    exact s.takeSummary_bus _ _ _ _ _ _
  | listing b part quads =>
    rw [s.takeKind_listing hp]
    split
    · exact (s.takeListing_listing _ _ _ _).bus
    · rfl
  | listingRequest m =>
    unfold State.takeKind
    rw [hp]
    dsimp only
    rw [s.takeRequest_frame]
    rfl
  | fetch ids =>
    unfold State.takeKind
    rw [hp]
    dsimp only
    rw [s.takeRequest_frame]
    rfl
  | leave =>
    unfold State.takeKind
    rw [hp]
    exact s.peerLeft_bus _

theorem State.actOn_bus (s : State) (f : Frame) : (s.actOn f).busView = s.busView := by
  unfold State.actOn
  refine (State.takeKind_bus _ f).trans ?_
  split
  · rfl
  · exact State.refresh_bus _ _

/-! ### Local changes -/

theorem State.localChange_bus (s : State) (id : Nat) (scope : Scope) (value : List Byte) (slot : Option Nat) :
    (s.localChange id scope value slot).busView = s.busView := by
  rw [State.localChange_eq]
  split
  · exact State.judge_bus _
  · rfl

theorem State.localPut_bus (s : State) (id : Nat) (scope : Scope) (value : List Byte) :
    (s.localPut id scope value).2.busView = s.busView := by
  unfold State.localPut
  split
  · rfl
  · exact s.localChange_bus _ _ _ _

theorem State.localRemove_bus (s : State) (id : Nat) : (s.localRemove id).2.busView = s.busView := by
  unfold State.localRemove
  split
  · rfl
  · split
    · rfl
    · split
      · rfl
      · split
        · exact s.localChange_bus _ _ _ _
        · rfl

end Sys2Proof.Machine
end

section
/-! The commands of the host, the line and the timers keep the law of the lend and the canonical form of the device's content: they
leave what both read. -/

namespace Sys2Proof.Machine

/-- The law of the lend and the canonical form of the device's content pass from one state to the other. -/
structure PortKept (s t : State) : Prop where
  flash : Flash.wf s.flash → Flash.wf t.flash
  lend : LendLaw s.sp → LendLaw t.sp

theorem PortKept.refl (s : State) : PortKept s s := ⟨id, id⟩

/-- The law of the lend does not read the time of polling. -/
theorem PortKept.of_view {s t : State} (h : t.busView = s.busView) : PortKept s t := by
  obtain ⟨hport, hflash⟩ := Prod.mk.inj h
  refine ⟨fun hwf => hflash ▸ hwf, fun hlaw => ?_⟩
  have hlaw : LendLaw { s.sp with poll := none } := hlaw
  rw [← hport] at hlaw
  exact hlaw

/-- A command that goes on keeps the two laws. -/
def KeepsPort (s : State) (o : Host.Outcome State Fault Refusal) : Prop := ∀ t, o = .next t → PortKept s t

theorem KeepsPort.next {s t : State} (h : PortKept s t) : KeepsPort s (.next t) := fun _ ht => Host.Outcome.next.inj ht ▸ h

theorem KeepsPort.nothing (s : State) : KeepsPort s (noEvent s) := .next (.refl s)

theorem KeepsPort.running {s : State} {k : State → State} (h : PortKept s (k s)) : KeepsPort s (whenRunning s k) := by
  rcases whenRunning_cases s k with hw | hw <;> rw [hw]
  · exact .next h
  · exact .nothing s

/-- A command of the running part that leaves the port and the device. -/
theorem KeepsPort.still {s : State} {k : State → State} (h : (k s).busView = s.busView) : KeepsPort s (whenRunning s k) :=
  .running (.of_view h)

/-! ### The commands of the host (chapter 11) -/

theorem Reply.settle_bus (k : Reply) (code tag : Byte) : (k.settle code tag).busView = k.after.busView := by
  cases k <;> rfl

/-- A command leaves the port and the device where its body does. -/
theorem KeepsPort.command {s : State} {code : Byte} {b : Block} {body : List Byte → State → Reply}
    (hbody : ∀ p u, (body p u).after.busView = u.busView) : KeepsPort s (sendCommand code b body s) := by
  refine .still ?_
  unfold State.judgeBlock
  dsimp only
  split
  · rfl
  · split
    · rfl
    · exact (Reply.settle_bus _ _ _).trans (hbody _ _)

theorem tested_bus {inReplay fits : Bool} {s : State} {k : Reply} (h : k.after.busView = s.busView) :
    (tested inReplay fits s k).after.busView = s.busView := by
  unfold tested
  split
  · rfl
  · split
    · rfl
    · exact h

theorem setupBody_bus (p : List Byte) (s : State) : (setupBody p s).after.busView = s.busView := by
  refine tested_bus ?_
  split <;> rfl

theorem openBody_bus (p : List Byte) (s : State) : (openBody p s).after.busView = s.busView := by
  refine tested_bus ?_
  split
  · rfl
  · split
    · rfl
    · exact State.judge_bus _

theorem closeBody_bus (p : List Byte) (s : State) : (closeBody p s).after.busView = s.busView := by
  have hclosing : s.startClosing.busView = s.busView := (State.judge_bus _).trans s.abandonSession_bus
  refine tested_bus ?_
  split
  · exact hclosing
  · exact hclosing
  · exact State.judge_bus _
  · rfl
  · rfl
  · rfl

theorem putBody_bus (p : List Byte) (s : State) : (putBody p s).after.busView = s.busView := by
  refine tested_bus ?_
  split
  · rfl
  · split
    · rfl
    · exact s.localPut_bus _ _ _

theorem removeBody_bus (p : List Byte) (s : State) : (removeBody p s).after.busView = s.busView := by
  refine tested_bus ?_
  split
  · rfl
  · split
    · rfl
    · exact s.localRemove_bus _

theorem getBody_bus (p : List Byte) (s : State) : (getBody p s).after.busView = s.busView := by
  refine tested_bus ?_
  split
  · rfl
  · split <;> rfl

theorem listBody_bus (p : List Byte) (s : State) : (listBody p s).after.busView = s.busView := by
  refine tested_bus ?_
  split <;> rfl

theorem watchBody_bus (p : List Byte) (s : State) : (watchBody p s).after.busView = s.busView := by
  refine tested_bus ?_
  split
  · rfl
  · split
    · rfl
    · split <;> rfl

theorem flushBody_bus (p : List Byte) (s : State) : (flushBody p s).after.busView = s.busView := by
  refine tested_bus ?_
  split
  · rfl
  · split <;> rfl

theorem countersBody_bus (p : List Byte) (s : State) : (countersBody p s).after.busView = s.busView := by
  refine tested_bus ?_
  show (if num p 0 1 = 1 then s.count fun _ => .zero else s).busView = _
  split <;> rfl

theorem execReadStatus_keepsPort (r : StatusRead) (s : State) : KeepsPort s (execReadStatus r s) := by
  refine .still ?_
  split
  · rfl
  · split <;> rfl

theorem execOtherTransactionCode_keepsPort (c : OtherCode) (s : State) : KeepsPort s (execOtherTransactionCode c s) := by
  refine .still ?_
  split <;> rfl

theorem execRestart_keepsPort (n : Nat) (s : State) : KeepsPort s (execRestart n s) := by
  refine .still ?_
  dsimp only
  split <;> rfl

theorem State.restRead_bus (s : State) (n : Nat) : (s.restRead n).busView = s.busView := by
  unfold State.restRead
  split
  · dsimp only
    split <;> rfl
  · rfl

theorem execReadResponse_keepsPort (p : Portion) (s : State) : KeepsPort s (execReadResponse p s) := by
  refine .still ?_
  split
  · exact State.restRead_bus _ _
  · rfl
  · exact State.restRead_bus _ _

theorem State.restPop_bus (s : State) (n : Nat) : (s.restPop n).busView = s.busView := by
  unfold State.restPop
  split <;> rfl

theorem execPopEvent_keepsPort (p : Portion) (s : State) : KeepsPort s (execPopEvent p s) := by
  refine .still ?_
  split
  · exact State.restPop_bus _ _
  · rfl
  · exact State.restPop_bus _ _

theorem execFlushComplete_keepsPort (s : State) : KeepsPort s (execFlushComplete s) := by
  refine .still ?_
  split
  · exact s.completeLong_bus _ _
  · exact s.settleFlush_bus

/-! ### The line (chapters 3 and 4) -/

theorem execFrameStart_keepsPort (line : Level) (s : State) : KeepsPort s (execFrameStart line s) := by
  refine .still ?_
  split
  · next cls _ _ =>
    split
    · refine Eq.trans ?_ (s.passLine_bus (s.gap cls - s.li.quiet))
      dsimp only
      split
      · rfl
      · exact State.startDemand_bus _ _ _
    · rfl
  · rfl

theorem execFrameComplete_keepsPort (s : State) : KeepsPort s (execFrameComplete s) := by
  refine .still ?_
  split
  · split
    · rfl
    · exact (State.demandCompleted_bus _ _).trans (s.frameSent_bus _)
  · rfl

theorem execWithdrawal_keepsPort (bit : Nat) (s : State) : KeepsPort s (execWithdrawal bit s) := by
  refine .still ?_
  split
  · split
    · dsimp only
      split
      · exact (State.judge_bus _).trans (s.passLine_bus _)
      · exact s.passLine_bus _
    · rfl
  · rfl

theorem execDriveFault_keepsPort (bit : Nat) (s : State) : KeepsPort s (execDriveFault bit s) := by
  refine .still ?_
  split
  · split
    · dsimp only
      split
      · exact (State.frameUndone_bus _ _).trans (s.passLine_bus _)
      · exact (State.takeCause_bus _ _).trans ((State.frameUndone_bus _ _).trans (s.passLine_bus _))
    · rfl
  · rfl

theorem execProbeDue_keepsPort (s : State) : KeepsPort s (execProbeDue s) := by
  refine .still ?_
  split
  · split
    · rfl
    · exact s.passUntil_bus _ _
  · rfl

theorem execProbeStart_keepsPort (line : Level) (s : State) : KeepsPort s (execProbeStart line s) := by
  refine .still ?_
  split
  · refine Eq.trans ?_ (s.passLine_bus (Config.probeGap - s.li.quiet))
    dsimp only
    split <;> rfl
  · rfl

theorem execProbeComplete_keepsPort (s : State) : KeepsPort s (execProbeComplete s) := by
  refine .still ?_
  split
  · split
    · exact (State.judge_bus _).trans ((State.searchSession_bus _).trans ((State.demandCompleted_bus _ _).trans
        (s.frameSent_bus _)))
    · rfl
  · rfl

theorem execStartBit_keepsPort (c : LineChange) (s : State) : KeepsPort s (execStartBit c s) := by
  refine .still ?_
  split <;> rfl

theorem execFrameReceived_keepsPort (chars : List Byte) (s : State) : KeepsPort s (execFrameReceived chars s) := by
  refine .still ?_
  split
  · split
    · exact (State.testFrame_bus _ _).trans (s.passLine_bus _)
    · rfl
  · rfl

theorem execFramingError_keepsPort (d : DominantStop) (s : State) : KeepsPort s (execFramingError d s) := by
  refine .still ?_
  split
  · split
    · exact s.passLine_bus _
    · rfl
  · rfl

theorem execFormatError_keepsPort (char4 : Byte) (s : State) : KeepsPort s (execFormatError char4 s) := by
  refine .still ?_
  split
  · split
    · exact s.passLine_bus _
    · rfl
  · rfl

theorem execGapError_keepsPort (quiet : Nat) (s : State) : KeepsPort s (execGapError quiet s) := by
  refine .still ?_
  split
  · split
    · exact s.passLine_bus _
    · rfl
  · rfl

theorem execReceiverIdle_keepsPort (s : State) : KeepsPort s (execReceiverIdle s) := by
  refine .still ?_
  split
  · exact State.passLine_bus { s with li := s.li.change .release } _
  · rfl

theorem execStuckDeclaration_keepsPort (s : State) : KeepsPort s (execStuckDeclaration s) := by
  refine .still ?_
  split
  · exact (State.takeCause_bus _ _).trans (s.passLine_bus _)
  · rfl

/-! ### Frames taken and the timers (chapter 5) -/

theorem execTakeFrame_keepsPort (s : State) : KeepsPort s (execTakeFrame s) := by
  refine .still ?_
  split
  · split
    · rfl
    · dsimp only
      split
      · exact (State.judge_bus _).trans (State.actOn_bus _ _)
      · rfl
  · rfl

theorem execReplyTimeout_keepsPort (s : State) : KeepsPort s (execReplyTimeout s) := by
  refine .still ?_
  dsimp only
  split
  · exact (State.sessionTimeout_listing _).bus.trans (s.passLine_bus _)
  · rfl

theorem execSummaryTimerExpiry_keepsPort (s : State) : KeepsPort s (execSummaryTimerExpiry s) := by
  refine .still ?_
  split
  · exact s.passUntil_bus _ _
  · rfl

theorem execJoinWindowExpiry_keepsPort (s : State) : KeepsPort s (execJoinWindowExpiry s) := by
  refine .still ?_
  split
  · exact (State.judge_bus _).trans ((State.endJoinWindow_bus _).trans (s.passUntil_bus _ _))
  · rfl

theorem execCloseLimitExpiry_keepsPort (s : State) : KeepsPort s (execCloseLimitExpiry s) := by
  refine .still ?_
  split
  · exact (State.judge_bus _).trans ((State.endClosing_bus _ _).trans (s.passUntil_bus _ _))
  · rfl

theorem execPeerLost_keepsPort (n : Nat) (s : State) : KeepsPort s (execPeerLost n s) := by
  refine .still ?_
  dsimp only
  split
  · have hpassed := s.passSilence_bus (s.peer n) (400 * s.intervalOf (s.peer n))
    generalize s.passSilence _ _ = u at hpassed
    have hsilenced := (((u.updatePeer n fun p => { p with presence := .silent }).notify .peerLost n).dropRequest_bus n).trans
      ((u.updatePeer_bus n _).trans hpassed)
    generalize State.dropRequest _ n = v at hsilenced
    refine (State.judge_bus _).trans (Eq.trans ?_ hsilenced)
    split
    · exact (State.searchSession_bus _).trans v.abandonSession_bus
    · rfl
  · rfl

theorem execPeerAbsent_keepsPort (n : Nat) (s : State) : KeepsPort s (execPeerAbsent n s) := by
  refine .still ?_
  dsimp only
  split
  · exact (State.judge_bus _).trans ((State.updatePeer_bus _ _ _).trans (s.passSilence_bus _ _))
  · rfl

end Sys2Proof.Machine
end

section
/-! The law of the lend through the work of the journal, which begins and ends flash commands where no busy check runs; the device's
content is left to the ends of busy periods and to the host. -/

namespace Sys2Proof.Machine

/-- The law of the lend with no busy check running: the journal's work on the port lies between such states. -/
structure PortFree (p : StoragePort) : Prop where
  law : LendLaw p
  unchecked : p.check = .none

/-- Without a busy check the law is of a request that waits and of a lend that is granted (R176). -/
theorem portFree_iff {p : StoragePort} (hc : p.check = .none) : PortFree p ↔
    p.lend ≠ .returning ∧ (p.lend = .waiting → p.lreq = true) ∧ (p.lend = .granted → p.lreq = true ∧ p.cmd.pauses = true) := by
  refine ⟨fun ⟨⟨hgranted, hwaiting, hreturning, _⟩, _⟩ => ⟨?_, fun hl => (hwaiting hl).1, fun hl => ?_⟩,
    fun ⟨hno, hwaiting, hgranted⟩ => ⟨⟨fun hl => ?_, fun hl => ?_, ?_, fun hcheck => absurd hc hcheck⟩, hc⟩⟩
  · rw [Ne, hreturning, hc]
    exact nofun
  · obtain ⟨hreq, hpause, -⟩ := hgranted hl
    exact ⟨hreq, hpause⟩
  · obtain ⟨hreq, hpause⟩ := hgranted hl
    exact ⟨hreq, hpause, hc⟩
  · rw [hc]
    exact ⟨hwaiting hl, nofun⟩
  · rw [hc]
    exact iff_of_false hno nofun

/-- The command in progress gives way to another, which leaves a lend point where the bus is lent. -/
theorem PortFree.command {p : StoragePort} (h : PortFree p) {c : SpCmd} (hc : p.lend = .granted → c.pauses = true)
    (poll : Option Nat) : PortFree { p with cmd := c, poll := poll } := by
  obtain ⟨hno, hwaiting, hgranted⟩ := (portFree_iff h.unchecked).mp h
  exact (portFree_iff (p := { p with cmd := c, poll := poll }) h.unchecked).mpr
    ⟨hno, hwaiting, fun hl => ⟨(hgranted hl).1, hc hl⟩⟩

/-- No command is in progress any more. -/
theorem PortFree.idle {p : StoragePort} (h : PortFree p) (poll : Option Nat) : PortFree { p with cmd := .none, poll := poll } :=
  h.command (fun _ => rfl) poll

/-- A waiting request is granted at a command that leaves a lend point (R176). -/
theorem PortFree.granted {p : StoragePort} (h : PortFree p) (hw : p.lend = .waiting) (hp : p.cmd.pauses = true) (n : Nat) :
    PortFree { p with lend := .granted, lendCount := n } := by
  obtain ⟨-, hwaiting, -⟩ := (portFree_iff h.unchecked).mp h
  exact (portFree_iff (p := { p with lend := .granted, lendCount := n }) h.unchecked).mpr
    ⟨nofun, nofun, fun _ => ⟨hwaiting hw, hp⟩⟩

/-- What the journal's work does to the port and the device: it leaves the content, and the law of the lend while no busy check
runs. -/
structure PortWorked (s t : State) : Prop where
  flash : t.flash = s.flash
  free : PortFree s.sp → PortFree t.sp

theorem PortWorked.refl (s : State) : PortWorked s s := ⟨rfl, id⟩

theorem PortWorked.trans {s t u : State} (h : PortWorked s t) (h' : PortWorked t u) : PortWorked s u :=
  ⟨h'.flash.trans h.flash, fun hs => h'.free (h.free hs)⟩

/-- Work on the journal's own state. -/
theorem PortWorked.aside {s t : State} (hsp : t.sp = s.sp) (hflash : t.flash = s.flash) : PortWorked s t :=
  ⟨hflash, fun h => hsp ▸ h⟩

/-- Work on the journal's own state comes first. -/
theorem PortWorked.after {s t u : State} (h : PortWorked t u) (hsp : t.sp = s.sp) (hflash : t.flash = s.flash) : PortWorked s u :=
  (PortWorked.aside hsp hflash).trans h

/-! ### FAULT, the trigger and openings (R146, R147, R149, R156) -/

/-- A FAULT ends the command in progress, so that the waiting request it grants finds the bus free (R156, R178). -/
theorem FaultEntered.worked {s t : State} (h : FaultEntered s t) : PortWorked s t := by
  obtain ⟨_, _, -, -, -, rfl⟩ := h
  refine ⟨rfl, fun hfree => ?_⟩
  have hidle := hfree.idle none
  dsimp only
  split
  · next hw => exact hidle.granted hw rfl _
  · exact hidle

theorem State.enterFault_worked (s : State) : PortWorked s s.enterFault := s.enterFault_entered.worked

theorem State.judgeTrigger_worked (s : State) : PortWorked s s.judgeTrigger := by
  rw [s.judgeTrigger_frame]
  exact .aside rfl rfl

theorem State.judgeUsable_worked (s : State) : PortWorked s s.judgeUsable := by
  unfold State.judgeUsable
  split
  · exact s.enterFault_worked
  · exact s.judgeTrigger_worked

/-- What may begin a flash command has the bus for its own (R175). -/
theorem State.canBegin_unlent {s : State} (h : s.canBegin = true) : s.sp.lend ≠ .granted := by
  have hidle : s.sp.lend = .idle := by
    simp only [State.canBegin, Bool.and_eq_true, decide_eq_true_eq] at h
    obtain ⟨hidle, -⟩ := h
    exact hidle
  rw [hidle]
  exact nofun

theorem State.issue_worked (s : State) (p : Prog) : PortWorked s (s.issue p) := by
  unfold State.issue
  split
  · next hbegin => exact ⟨rfl, fun h => h.command (fun hl => absurd hl (State.canBegin_unlent hbegin)) _⟩
  · exact ⟨rfl, fun h => h.idle none⟩

theorem State.openBand_worked (s : State) (w : WriteJob) : PortWorked s (s.openBand w) := by
  unfold State.openBand
  split
  · exact ⟨rfl, fun h => h.idle none⟩
  · split
    · exact s.enterFault_worked
    · split
      · exact s.enterFault_worked
      · exact (State.issue_worked _ _).after rfl rfl

theorem State.beginWrite_worked (s : State) (w : WriteJob) : PortWorked s (s.beginWrite w) := by
  refine PortWorked.after (t := s.mapJournal fun jc => jc.startWrite w) ?_ rfl rfl
  unfold State.beginWrite
  dsimp only
  split
  · exact State.openBand_worked _ w
  · split <;> exact State.issue_worked _ _

/-! ### A record written whole, or again (R144, R151, R153) -/

theorem State.writeDone_worked (s : State) (w : WriteJob) (h : Head) : PortWorked s (s.writeDone w h) := by
  have hswept : PortWorked s (s.recordSettled w h).sweep := by
    refine PortWorked.after (t := s.recordSettled w h) ?_ rfl rfl
    unfold State.sweep
    split <;> exact .aside rfl rfl
  rw [s.writeDone_eq w h]
  generalize (s.recordSettled w h).sweep = u at hswept
  obtain ⟨hflush, -⟩ := (if u.jc.chooseHeld = true then u.judgeTrigger else u).settleFlush_spec
  rw [hflush]
  split
  · exact (hswept.trans u.judgeTrigger_worked).trans (.aside rfl rfl)
  · exact hswept.trans (.aside rfl rfl)

theorem State.rewrite_worked (s : State) (w : WriteJob) : PortWorked s (s.rewrite w) := by
  unfold State.rewrite
  split
  · exact (State.openBand_worked _ _).after rfl rfl
  · exact .aside rfl rfl

/-! ### Replay (R163 to R170) -/

theorem State.readOn_worked (s : State) : PortWorked s s.readOn := by
  refine ⟨rfl, fun h => h.command (fun hl => ?_) s.sp.poll⟩
  rw [if_neg fun hbegin => State.canBegin_unlent hbegin hl]
  rfl

theorem State.leaveReplay_worked (s : State) : PortWorked s s.leaveReplay := ⟨rfl, fun h => h.idle none⟩

theorem State.nextClose_worked (s : State) (todo : List (Nat × Nat)) : PortWorked s (s.nextClose todo) := by
  cases todo with
  | nil => exact s.leaveReplay_worked.trans (State.judgeTrigger_worked _)
  | cons c todo => exact (State.issue_worked _ _).after rfl rfl

theorem State.settleTable_worked (s : State) : PortWorked s s.settleTable := by
  unfold State.settleTable
  dsimp only
  split <;> exact .aside rfl rfl

theorem State.finishWalk_worked (s : State) : PortWorked s s.finishWalk := by
  unfold State.finishWalk
  split
  · exact s.settleTable_worked.trans ((State.nextClose_worked _ _).after rfl rfl)
  · exact .refl s

theorem State.fail_worked (s : State) : PortWorked s s.fail := by
  cases hr : s.jc.replay with
  | none =>
    rw [State.fail_outsideReplay hr]
    exact s.enterFault_worked
  | some r =>
    rw [State.fail_inReplay hr]
    obtain ⟨y, hby, hsp, -, hfault⟩ := (State.replayFault_faulted s hr).entered
    simp only [State.bystanders, Prod.mk.injEq] at hby
    obtain ⟨-, -, -, -, hflash⟩ := hby
    exact ((PortWorked.aside hsp hflash).trans y.leaveReplay_worked).trans hfault.worked

theorem State.surveyHeader_worked (s : State) (r : Replay) (i : Nat) : PortWorked s (s.surveyHeader r i) := by
  have hread : ∀ (u : State) p, PortWorked u (u.setPhase p).readOn := fun u p =>
    (State.readOn_worked _).after rfl rfl
  rw [s.surveyHeader_eq r i]
  refine PortWorked.after (t := s.surveyed r i) ?_ rfl rfl
  split
  · exact hread _ _
  · rw [State.endSurvey_eq]
    refine PortWorked.after (t := (s.surveyed r i).surveyOver) ?_ rfl rfl
    split
    · exact State.finishWalk_worked _
    · exact hread _ _

theorem walkBand_worked (fuel : Nat) (s : State) (band seq : Nat) (closeEnd : Option Nat) (off : Nat) :
    PortWorked s (walkBand fuel s band seq closeEnd off).1 := by
  induction fuel generalizing s off with
  | zero => exact .refl s
  | succ fuel ih =>
    unfold walkBand
    split
    · exact .refl s
    · split
      · exact .refl s
      · split
        · exact .refl s
        · exact .refl s
        · exact .refl s
        · next r _ _ =>
          refine PortWorked.trans ?_ (ih (s.replayRecord seq r) _)
          rw [s.replayRecord_frame seq r]
          exact .aside rfl rfl

theorem State.walkOne_worked (s : State) (r : Replay) (band : Nat) (todo : List Nat) : PortWorked s (s.walkOne r band todo) := by
  have hwalked : PortWorked s (s.walkOf r band).1 := walkBand_worked _ s band _ _ _
  obtain ⟨⟨w, off, how⟩, hw⟩ : ∃ x, s.walkOf r band = x := ⟨_, rfl⟩
  rw [hw] at hwalked
  rw [s.walkOne_eq r band todo hw rfl]
  refine hwalked.trans (PortWorked.after (t := w.bandWalked (r.walked band todo off how) (s.jc.walkAnomalies band how)) ?_ rfl rfl)
  split
  · exact State.finishWalk_worked _
  · exact State.readOn_worked _

/-! ### Going on at a lend point (R163, R175, R177) -/

theorem State.resume_worked (s : State) : PortWorked s s.resume := by
  have hnext : PortWorked s (match s.jc.next with | some p => s.issue p | none => s) := by
    split
    · exact s.issue_worked _
    · exact .refl s
  unfold State.resume
  split
  · next hbegin =>
    have hverify : ∀ c, PortWorked s (s.mapPort fun sp => { sp with cmd := c }) := fun c =>
      ⟨rfl, fun h => h.command (fun hl => absurd hl (State.canBegin_unlent hbegin)) s.sp.poll⟩
    split
    · unfold State.resumeReplay
      split
      · exact (State.readOn_worked _).after rfl rfl
      · exact s.readOn_worked
      · exact s.readOn_worked
      · exact hnext
    · split
      · exact hverify _
      · exact hverify _
      · exact hnext
  · exact .refl s

/-! ### The ends of programs and erases (chapter 10) -/

theorem State.withWrite_worked {s : State} {k : WriteJob → State} (hk : ∀ w, PortWorked s (k w)) : PortWorked s (s.withWrite k) := by
  unfold State.withWrite
  split
  · exact hk _
  · exact .refl s

theorem State.withHead_worked {s : State} {k : Head → State} (hk : ∀ h, PortWorked s (k h)) : PortWorked s (s.withHead k) := by
  unfold State.withHead
  split
  · exact hk _
  · exact .refl s

theorem State.replayClosed_worked (s : State) (written : Bool) : PortWorked s (s.replayClosed written) := by
  unfold State.replayClosed
  split
  · exact (State.nextClose_worked _ _).after rfl rfl
  · exact .refl s

/-- Work that leaves the content, and the law of the lend from a port that is not lent. -/
structure UnlentWorked (s t : State) : Prop where
  flash : t.flash = s.flash
  free : s.sp.lend ≠ .granted → PortFree s.sp → PortFree t.sp

theorem PortWorked.unlent {s t : State} (h : PortWorked s t) : UnlentWorked s t := ⟨h.flash, fun _ => h.free⟩

/-- The second program of a close of replay follows the first without a lend point between (R170). -/
theorem State.issueInReplay_worked (s : State) (p : Prog) : UnlentWorked s (s.issueInReplay p) := by
  unfold State.issueInReplay
  split
  · refine PortWorked.unlent ?_
    exact .aside rfl rfl
  · exact ⟨rfl, fun hl h => h.command (fun hgranted => absurd hgranted hl) _⟩

theorem State.programDone_worked (s : State) (p : Prog) : UnlentWorked s (s.programDone p) := by
  unfold State.programDone
  split
  · exact (s.issue_worked _).unlent
  · refine (State.withWrite_worked fun w => State.withHead_worked fun h => ?_).unlent
    exact (State.openBand_worked _ w).after rfl rfl
  · refine (State.withWrite_worked fun w => PortWorked.trans ?_ (State.issue_worked _ _)).unlent
    exact (State.judgeTrigger_worked _).after rfl rfl
  · refine (State.withWrite_worked fun w => State.withHead_worked fun h => ?_).unlent
    split
    · exact s.writeDone_worked w h
    · exact s.issue_worked _
  · exact (State.withWrite_worked fun w => State.withHead_worked fun h => s.writeDone_worked w h).unlent
  · exact (State.withWrite_worked fun w => State.withHead_worked fun h => s.issue_worked _).unlent
  · exact (s.issue_worked _).unlent
  · refine (State.withWrite_worked fun w => State.withHead_worked fun h => ?_).unlent
    exact (State.rewrite_worked _ w).after rfl rfl
  · exact s.issueInReplay_worked _
  · exact (s.replayClosed_worked true).unlent

theorem State.headerFailed_worked (s : State) (band : Nat) : PortWorked s (s.headerFailed band) := by
  have hjudged : PortWorked s (s.mapJournal fun jc => jc.mapRow band (.bare .bad)).judgeUsable :=
    (State.judgeUsable_worked _).after rfl rfl
  unfold State.headerFailed
  dsimp only
  split
  · exact hjudged
  · exact hjudged.trans (State.withWrite_worked fun w => State.openBand_worked _ w)

theorem State.programFailed_worked (s : State) (p : Prog) : PortWorked s (s.programFailed p) := by
  have hleft : ∀ w, PortWorked s.countFailure ((s.countFailure.mapJournal fun jc => jc.leaveHead p.band).openBand w) := fun w =>
    (State.openBand_worked _ w).after rfl rfl
  refine PortWorked.after (t := s.countFailure) ?_ rfl rfl
  unfold State.programFailed
  dsimp only
  split
  · exact State.fail_worked _
  · split
    · exact State.withHead_worked fun h => State.issue_worked _ _
    · exact State.withHead_worked fun h => State.issue_worked _ _
    · exact State.withWrite_worked hleft
    · exact State.withWrite_worked hleft
    · exact State.headerFailed_worked _ _
    · exact State.fail_worked _
    · exact State.fail_worked _
    · exact State.fail_worked _
    · exact State.replayClosed_worked _ _
    · exact State.replayClosed_worked _ _

theorem State.eraseDone_worked (s : State) (band : Nat) : PortWorked s (s.eraseDone band) :=
  (State.judgeTrigger_worked _).after rfl rfl

theorem State.eraseFailed_worked (s : State) (band : Nat) : PortWorked s (s.eraseFailed band) :=
  (State.judgeUsable_worked _).after rfl rfl

end Sys2Proof.Machine
end

section
/-! Every command, and so every step, keeps the law of the lend and the canonical form of the device's content. -/

namespace Sys2Proof.Machine

/-! ### Work that begins in a law-abiding port -/

/-- The journal's work after `u`, which the command comes to first: `u` keeps the canonical form, and its port is free. -/
theorem PortWorked.kept {s u t : State} (h : PortWorked u t) (hflash : Flash.wf s.flash → Flash.wf u.flash)
    (hfree : LendLaw s.sp → PortFree u.sp) : PortKept s t :=
  ⟨fun hwf => h.flash ▸ hflash hwf, fun hlaw => (h.free (hfree hlaw)).law⟩

/-- The journal's work where no busy check runs. -/
theorem PortWorked.unchecked {s t : State} (h : PortWorked s t) (hc : s.sp.check = .none) : PortKept s t :=
  h.kept id fun hlaw => ⟨hlaw, hc⟩

/-- While a flash command leaves no lend point, no busy check runs and the bus is not lent (R175, R176). -/
theorem LendLaw.inCommand {p : StoragePort} (h : LendLaw p) (hcmd : p.cmd.pauses = false) :
    PortFree p ∧ p.lend ≠ .granted := by
  have hno : p.cmd.pauses ≠ true := by simp [hcmd]
  have ⟨hgranted, _, _, hcheck⟩ := h
  exact ⟨⟨h, not_not.mp fun hc => hno (hcheck hc)⟩, fun hl => hno (hgranted hl).2.1⟩

/-- The port with no lend, no request waiting and no check keeps the law. -/
theorem portFree_idle {p : StoragePort} (hc : p.check = .none) (hl : p.lend = .idle) : PortFree p := by
  rw [portFree_iff hc, hl]
  exact ⟨nofun, nofun, nofun⟩

/-- A lend granted to an asserted LREQ at a lend point (R176). -/
theorem portFree_lent {p : StoragePort} (hc : p.check = .none) (hreq : p.lreq = true) (hp : p.cmd.pauses = true) (n : Nat) :
    PortFree { p with lend := .granted, lendCount := n } :=
  (portFree_iff (p := { p with lend := .granted, lendCount := n }) hc).mpr ⟨nofun, fun _ => hreq, fun _ => ⟨hreq, hp⟩⟩

/-! ### The jobs of the journal (chapter 8) -/

/-- A job starts with no busy check running and the bus not lent (R148). -/
theorem State.jobsFree_port {s : State} (h : s.jobsFree = true) : s.sp.check = .none ∧ s.sp.lend ≠ .granted := by
  simp only [State.jobsFree, Bool.and_eq_true, beq_iff_eq] at h
  obtain ⟨⟨⟨-, hbegin⟩, -⟩, hcheck⟩ := h
  exact ⟨hcheck, State.canBegin_unlent hbegin⟩

theorem State.appendTurn_port {s : State} (h : s.appendTurn = true) : s.sp.check = .none ∧ s.sp.lend ≠ .granted := by
  simp only [State.appendTurn, Bool.and_eq_true] at h
  obtain ⟨⟨hfree, -⟩, -⟩ := h
  exact State.jobsFree_port hfree

theorem State.compactionTurn_port {s : State} (h : s.compactionTurn = true) : s.sp.check = .none ∧ s.sp.lend ≠ .granted := by
  simp only [State.compactionTurn, Bool.and_eq_true] at h
  obtain ⟨⟨hfree, -⟩, -⟩ := h
  exact State.jobsFree_port hfree

theorem execAppend_keepsPort (s : State) : KeepsPort s (execAppend s) := by
  refine .running ?_
  split
  · split
    · next hturn => exact (s.beginWrite_worked _).unchecked (State.appendTurn_port hturn).1
    · exact .refl s
  · exact .refl s

theorem execCopy_keepsPort (s : State) : KeepsPort s (execCopy s) := by
  refine .running ?_
  split
  · split
    · next hturn =>
      obtain ⟨hcheck, -⟩ := State.compactionTurn_port hturn.1
      split
      · dsimp only
        split
        · exact s.enterFault_worked.unchecked hcheck
        · exact (s.beginWrite_worked _).unchecked hcheck
      · exact .refl s
    · exact .refl s
  · exact .refl s

theorem execErase_keepsPort (s : State) : KeepsPort s (execErase s) := by
  refine .running ?_
  split
  · split
    · next hturn =>
      obtain ⟨hcheck, hunlent⟩ := State.compactionTurn_port hturn
      refine PortWorked.unchecked ⟨rfl, fun h => ?_⟩ hcheck
      exact h.command (fun hl => absurd hl hunlent) _
    · exact .refl s
  · exact .refl s

/-! ### Replay (chapter 9) -/

theorem execHeaderSurvey_keepsPort (s : State) : KeepsPort s (execHeaderSurvey s) := by
  refine .running ?_
  split
  · split
    · split
      · next hcmd => exact (s.surveyHeader_worked _ _).kept id fun hlaw => (hlaw.inCommand (by rw [hcmd]; rfl)).1
      · exact .refl s
    · exact .refl s
  · exact .refl s

theorem execBandWalk_keepsPort (s : State) : KeepsPort s (execBandWalk s) := by
  refine .running ?_
  split
  · split
    · split
      · next hcmd => exact (s.walkOne_worked _ _ _).kept id fun hlaw => (hlaw.inCommand (by rw [hcmd]; rfl)).1
      · exact .refl s
    · exact .refl s
  · exact .refl s

/-! ### Programs and erases (chapter 10) -/

/-- What a program or an erase makes of the device is canonical again (R172). -/
theorem State.land_wf {s : State} (h : Flash.wf s.flash) (left : DeviceLeft) : Flash.wf (s.land left).flash := by
  unfold State.land
  split
  · exact Flash.wf_program h _ _ left
  · exact Flash.wf_erase h _ left
  · exact h

/-- The end of a busy period found in time. -/
theorem State.busyOver_kept {s : State} (hcmd : s.sp.cmd.pauses = false) (left : DeviceLeft) (c : SpCmd) :
    PortKept s ((s.land left).mapPort fun sp => { sp with cmd := c, poll := none }) := by
  refine ⟨fun hwf => State.land_wf hwf left, fun hlaw => ?_⟩
  obtain ⟨hfree, hl⟩ := hlaw.inCommand hcmd
  rw [s.land_eq left]
  exact (hfree.command (fun hgranted => absurd hgranted hl) none).law

theorem execProgramNotBusy_keepsPort (left : DeviceLeft) (s : State) : KeepsPort s (execProgramNotBusy left s) := by
  refine .running ?_
  split
  · next hcmd _ =>
    split
    · exact State.busyOver_kept (by rw [hcmd]; rfl) left _
    · exact .refl s
  · next hcmd _ =>
    split
    · exact State.busyOver_kept (by rw [hcmd]; rfl) left _
    · exact .refl s
  · exact .refl s

/-- The end of a command that was read back frees the port. -/
theorem LendLaw.endCommand {s : State} (hlaw : LendLaw s.sp) (hcmd : s.sp.cmd.pauses = false) : PortFree s.endCommand.sp :=
  (hlaw.inCommand hcmd).1.idle none

theorem execProgramVerify_keepsPort (s : State) : KeepsPort s (execProgramVerify s) := by
  refine .running ?_
  split
  · next p hcmd =>
    have hverify : s.sp.cmd.pauses = false := by rw [hcmd]; rfl
    split
    · obtain ⟨hflash, hfree⟩ := s.endCommand.programDone_worked p
      exact ⟨fun hwf => hflash ▸ hwf, fun hlaw => (hfree (hlaw.inCommand hverify).2 (hlaw.endCommand hverify)).law⟩
    · exact (s.endCommand.programFailed_worked p).kept id fun hlaw => hlaw.endCommand hverify
  · exact .refl s

/-- A command that has not ended in its time lands what it may, and frees the port. -/
theorem PortWorked.timedOut {s t : State} {time limit : Nat} {left : DeviceLeft} (hcmd : s.sp.cmd.pauses = false)
    (h : PortWorked ((s.passUntil time limit).land left).endCommand t) : PortKept s t := by
  obtain ⟨-, -, -, hflash, -, hport⟩ := s.passUntil_storage time limit
  refine h.kept (fun hwf => ?_) fun hlaw => ?_
  · exact State.land_wf (hflash ▸ hwf) left
  · show PortFree { ((s.passUntil time limit).land left).sp with cmd := .none, poll := none }
    rw [State.land_eq, hport]
    exact (hlaw.inCommand hcmd).1.idle none

theorem execProgramTimeout_keepsPort (left : DeviceLeft) (s : State) : KeepsPort s (execProgramTimeout left s) := by
  refine .running ?_
  split
  · next hcmd _ => exact (State.programFailed_worked _ _).timedOut (by rw [hcmd]; rfl)
  · exact .refl s

theorem execEraseCheck_keepsPort (s : State) : KeepsPort s (execEraseCheck s) := by
  refine .running ?_
  split
  · next b hcmd =>
    have hfree : LendLaw s.sp → PortFree s.endCommand.sp := fun hlaw => hlaw.endCommand (by rw [hcmd]; rfl)
    split
    · exact (s.endCommand.eraseDone_worked b).kept id hfree
    · exact (s.endCommand.eraseFailed_worked b).kept id hfree
  · exact .refl s

theorem execEraseTimeout_keepsPort (left : DeviceLeft) (s : State) : KeepsPort s (execEraseTimeout left s) := by
  refine .running ?_
  split
  · next hcmd _ => exact (State.eraseFailed_worked _ _).timedOut (by rw [hcmd]; rfl)
  · exact .refl s

/-! ### The lend handshake (R175 to R178) -/

/-- A lend point has no busy check and no command that the bus waits for (R175). -/
theorem State.lendPoint_free {s : State} (h : s.lendPoint = true) : s.sp.check = .none ∧ s.sp.cmd.pauses = true := by
  by_cases hr : s.jc.replay = none
  · exact ((State.lendPoint_outsideReplay hr).mp h).imp_right (SpCmd.over_iff _).mpr
  · obtain ⟨hcheck, hcmd, -⟩ := (State.lendPoint_inReplay hr).mp h
    exact ⟨hcheck, by rw [hcmd]; rfl⟩

/-- LREQ told asserted. -/
theorem LendLaw.requested {p : StoragePort} (h : LendLaw p) : LendLaw { p with lreq := true } := by
  obtain ⟨hgranted, hwaiting, hreturning, hcheck⟩ := h
  exact ⟨fun hl => ⟨rfl, (hgranted hl).2⟩, fun hl => ⟨rfl, (hwaiting hl).2⟩, hreturning, hcheck⟩

/-- A request that begins to wait (R176). -/
theorem LendLaw.waits {p : StoragePort} (h : LendLaw p) (hl : p.lend = .idle) :
    LendLaw { p with lreq := true, lend := .waiting } := by
  obtain ⟨-, -, hreturning, hcheck⟩ := h
  have hno : p.check ≠ .returning := fun hc => by
    rw [hreturning.mpr hc] at hl
    cases hl
  exact ⟨nofun, fun _ => ⟨rfl, hno⟩, iff_of_false nofun hno, hcheck⟩

/-- LREQ told deasserted where the bus is not lent and no request waits for it. -/
theorem LendLaw.unrequested {p : StoragePort} (h : LendLaw p) (hl : p.lend = .idle ∨ p.lend = .returning) :
    LendLaw { p with lreq := false } := by
  obtain ⟨-, -, hreturning, hcheck⟩ := h
  refine ⟨fun hgranted => ?_, fun hwaiting => ?_, hreturning, hcheck⟩
  · rcases hl with hl | hl <;> cases hl.symm.trans hgranted
  · rcases hl with hl | hl <;> cases hl.symm.trans hwaiting

/-- A waiting request withdrawn (R176). -/
theorem LendLaw.withdrawn {p : StoragePort} (h : LendLaw p) (hl : p.lend = .waiting) :
    LendLaw { p with lreq := false, lend := .idle } := by
  obtain ⟨-, hwaiting, -, hcheck⟩ := h
  exact ⟨nofun, nofun, iff_of_false nofun (hwaiting hl).2, hcheck⟩

/-- The bus returned, its busy check begun (R177). -/
theorem LendLaw.returned {p : StoragePort} (h : LendLaw p) (hl : p.lend = .granted) :
    LendLaw { p with lreq := false, lend := .returning, check := .returning, poll := some 0 } := by
  obtain ⟨hgranted, -, -, -⟩ := h
  exact ⟨nofun, nofun, iff_of_true rfl rfl, fun _ => (hgranted hl).2.1⟩

theorem execLreqAsserted_keepsPort (s : State) : KeepsPort s (exec .lreqAsserted s) := by
  cases hreq : s.sp.lreq with
  | true =>
    have hexec : exec .lreqAsserted s = noEvent s := if_pos hreq
    rw [hexec]
    exact .nothing s
  | false =>
    obtain ⟨hgrant, hwait, hheld⟩ := exec_lreqAsserted hreq
    by_cases hidle : s.power = .running ∧ s.sp.lend = .idle
    · obtain ⟨hp, hl⟩ := hidle
      cases hat : s.lendPoint with
      | true =>
        obtain ⟨hcheck, hpause⟩ := State.lendPoint_free hat
        rw [hgrant hp hl hat]
        exact .next ⟨id, fun _ => (portFree_lent (p := { s.sp with lreq := true }) hcheck rfl hpause _).law⟩
      | false =>
        rw [hwait hp hl hat]
        exact .next ⟨id, fun hlaw => hlaw.waits hl⟩
    · rw [hheld (not_and_or.mp hidle)]
      exact .next ⟨id, LendLaw.requested⟩

theorem execLendGrant_keepsPort (s : State) : KeepsPort s (execLendGrant s) := by
  refine .running ?_
  split
  · next hat =>
    obtain ⟨hcheck, hpause⟩ := State.lendPoint_free hat
    by_cases hl : s.sp.lend = .waiting
    · rw [State.grantWaiting_waiting hl]
      exact ⟨id, fun hlaw => (PortFree.granted ⟨hlaw, hcheck⟩ hl hpause _).law⟩
    · rw [State.grantWaiting, if_neg hl]
      exact .refl s
  · exact .refl s

theorem execLreqDeasserted_keepsPort (host : List Host.Cell) (s : State) : KeepsPort s (exec (.lreqDeasserted host) s) := by
  cases hreq : s.sp.lreq with
  | false =>
    have hexec : exec (.lreqDeasserted host) s = noEvent s := if_neg (by simp [hreq])
    rw [hexec]
    exact .nothing s
  | true =>
    obtain ⟨hreturn, hwithdraw, htold⟩ := exec_lreqDeasserted hreq host
    cases hl : s.sp.lend with
    | idle =>
      rw [htold (.inl hl)]
      exact .next ⟨id, fun hlaw => hlaw.unrequested (.inl hl)⟩
    | waiting =>
      rw [hwithdraw hl]
      refine .next ?_
      split
      · next hcheck => exact (State.resume_worked _).kept id fun _ => portFree_idle hcheck rfl
      · exact ⟨id, fun hlaw => hlaw.withdrawn hl⟩
    | granted =>
      rw [hreturn hl]
      exact .next ⟨Flash.wf_hostWrite host, fun hlaw => hlaw.returned hl⟩
    | returning =>
      rw [htold (.inr hl)]
      exact .next ⟨id, fun hlaw => hlaw.unrequested (.inr hl)⟩

/-! ### The ends of busy checks (R163, R177) -/

/-- A busy check runs with no flash command in progress (R177). -/
theorem LendLaw.checking {p : StoragePort} (h : LendLaw p) (hc : p.check ≠ .none) : p.cmd.pauses = true := by
  obtain ⟨-, -, -, hcheck⟩ := h
  exact hcheck hc

theorem execBusyCheckEnd_keepsPort (s : State) : KeepsPort s (execBusyCheckEnd s) := by
  refine .running ?_
  split
  · exact .refl s
  · next _ hc =>
    split
    · split
      · next hreq => exact ⟨id, fun hlaw => (portFree_lent (p := s.checkOver.sp) rfl hreq (hlaw.checking hc) _).law⟩
      · exact s.checkOver.resume_worked.kept id fun _ => portFree_idle rfl rfl
    · exact .refl s
  · exact .refl s

/-- A FAULT leaves no flash command in progress (R156). -/
theorem State.fail_cmd (s : State) : s.fail.sp.cmd = .none := by
  cases hr : s.jc.replay with
  | none =>
    rw [State.fail_outsideReplay hr]
    obtain ⟨_, _, -, -, -, ht⟩ := s.enterFault_entered
    rw [ht]
  | some r =>
    rw [State.fail_inReplay hr]
    obtain ⟨_, -, -, -, _, _, -, -, -, ht⟩ := (State.replayFault_faulted s hr).entered
    rw [ht]

/-- After a busy check that failed no flash command is in progress. -/
theorem State.checkFailed_pauses {s : State} (h : s.sp.cmd.pauses = true) : s.checkFailed.sp.cmd.pauses = true := by
  unfold State.checkFailed
  split
  · exact h
  · rw [State.fail_cmd]
    rfl

theorem State.checkFailed_worked (s : State) : PortWorked s.checkOver s.checkFailed := by
  unfold State.checkFailed
  split
  · exact .refl _
  · exact s.checkOver.fail_worked

theorem execBusyCheckTimeout_keepsPort (s : State) : KeepsPort s (execBusyCheckTimeout s) := by
  refine .running ?_
  split
  · exact .refl s
  · next t _ hc =>
    obtain ⟨-, -, -, hflash, -, hport⟩ := s.passUntil_storage t Config.eraseLimit
    show PortKept s (if (s.passUntil t Config.eraseLimit).checkFailed.sp.lreq
      then (s.passUntil t Config.eraseLimit).checkFailed.grantHeld else (s.passUntil t Config.eraseLimit).checkFailed)
    generalize s.passUntil t Config.eraseLimit = u at hflash hport
    obtain ⟨-, hcheck, -⟩ := u.checkFailed_keeps
    have hkept : PortKept s u.checkFailed :=
      u.checkFailed_worked.kept (fun hwf => hflash ▸ hwf) fun _ => portFree_idle rfl rfl
    split
    · next hreq =>
      refine ⟨hkept.flash, fun hlaw => (portFree_lent hcheck hreq (State.checkFailed_pauses ?_) _).law⟩
      rw [hport]
      exact hlaw.checking hc
    · exact hkept
  · exact .refl s

/-! ### Resets (R139, R160 to R163, R178) -/

theorem State.flashAtReset_wf {s : State} (h : Flash.wf s.flash) (left : DeviceLeft) (host : List Host.Cell) :
    Flash.wf (s.flashAtReset left host) := by
  unfold State.flashAtReset
  split
  · exact Flash.wf_hostWrite host h
  · exact State.land_wf h left

/-- A part that is cleared keeps the level of LREQ and grants nothing. -/
theorem State.cleared_kept {s : State} {p : Power} {flash : List Host.Cell} (hflash : Flash.wf s.flash → Flash.wf flash) :
    PortKept s (s.cleared p flash) := ⟨hflash, fun _ => (portFree_idle rfl rfl).law⟩

/-- A part that starts grants a lend to an asserted LREQ, and otherwise checks the device (R163, R178). -/
theorem State.startUp_kept {s : State} {p : Power} {flash : List Host.Cell} (hflash : Flash.wf s.flash → Flash.wf flash)
    (straps : Straps) : PortKept s ((s.cleared p flash).startUp straps) := by
  rw [s.cleared_startUp p flash straps]
  refine ⟨hflash, fun _ => ?_⟩
  dsimp only
  split
  · exact (portFree_lent (p := { StoragePort.reset with lreq := true }) rfl rfl rfl 1).law
  · exact ⟨nofun, nofun, iff_of_false nofun nofun, fun _ => rfl⟩

theorem execPinReset_keepsPort (left : DeviceLeft) (host : List Host.Cell) (s : State) :
    KeepsPort s (execPinReset left host s) := by
  unfold execPinReset
  split
  · exact .nothing s
  · exact .next (State.cleared_kept fun hwf => State.flashAtReset_wf hwf left host)

theorem execResetRelease_keepsPort (straps : Straps) (s : State) : KeepsPort s (execResetRelease straps s) := by
  unfold execResetRelease
  split
  · exact .nothing s
  · exact .next (State.startUp_kept id straps)

theorem execRestartTakesEffect_keepsPort (straps : Straps) (host : List Host.Cell) (s : State) :
    KeepsPort s (execRestartTakesEffect straps host s) := by
  refine .running ?_
  split
  · exact State.startUp_kept (fun hwf => State.flashAtReset_wf hwf .whole host) straps
  · exact .refl s

theorem execLossOfSupply_keepsPort (left : DeviceLeft) (host : List Host.Cell) (s : State) :
    KeepsPort s (execLossOfSupply left host s) := by
  unfold execLossOfSupply
  split
  · exact .nothing s
  · exact .next (State.cleared_kept fun hwf => State.flashAtReset_wf hwf left host)

/-! ### Every step -/

theorem exec_keepsPort (i : Instr) (s : State) : KeepsPort s (exec i s) := by
  cases i with
  | pinReset left host => exact execPinReset_keepsPort left host s
  | resetRelease straps => exact execResetRelease_keepsPort straps s
  | restart n => exact execRestart_keepsPort n s
  | restartTakesEffect straps host => exact execRestartTakesEffect_keepsPort straps host s
  | readStatus r => exact execReadStatus_keepsPort r s
  | otherTransactionCode c => exact execOtherTransactionCode_keepsPort c s
  | commandBlockAborted bytes => exact .still (k := fun s => s.statusOnly bytes.length) rfl
  | unknownCommand code b => exact .command fun _ _ => rfl
  | readResponse p => exact execReadResponse_keepsPort p s
  | popEvent p => exact execPopEvent_keepsPort p s
  | cmdStatus b => exact .command fun _ _ => tested_bus rfl
  | cmdSetup b => exact .command setupBody_bus
  | cmdOpen b => exact .command openBody_bus
  | cmdClose b => exact .command closeBody_bus
  | cmdPut b => exact .command putBody_bus
  | cmdRemove b => exact .command removeBody_bus
  | cmdGet b => exact .command getBody_bus
  | cmdList b => exact .command listBody_bus
  | cmdWatch b => exact .command watchBody_bus
  | cmdFlush b => exact .command flushBody_bus
  | flushComplete => exact execFlushComplete_keepsPort s
  | cmdJournalInfo b => exact .command fun _ _ => tested_bus rfl
  | cmdRoster b => exact .command fun _ _ => tested_bus rfl
  | cmdCounters b => exact .command countersBody_bus
  | frameStart line => exact execFrameStart_keepsPort line s
  | frameComplete => exact execFrameComplete_keepsPort s
  | withdrawal bit => exact execWithdrawal_keepsPort bit s
  | driveFault bit => exact execDriveFault_keepsPort bit s
  | probeDue => exact execProbeDue_keepsPort s
  | probeStart line => exact execProbeStart_keepsPort line s
  | probeComplete => exact execProbeComplete_keepsPort s
  | frameReceived chars => exact execFrameReceived_keepsPort chars s
  | framingError d => exact execFramingError_keepsPort d s
  | formatError char4 => exact execFormatError_keepsPort char4 s
  | gapError quiet => exact execGapError_keepsPort quiet s
  | receiverIdle => exact execReceiverIdle_keepsPort s
  | stuckDeclaration => exact execStuckDeclaration_keepsPort s
  | takeFrame => exact execTakeFrame_keepsPort s
  | replyTimeout => exact execReplyTimeout_keepsPort s
  | summaryTimerExpiry => exact execSummaryTimerExpiry_keepsPort s
  | joinWindowExpiry => exact execJoinWindowExpiry_keepsPort s
  | closeLimitExpiry => exact execCloseLimitExpiry_keepsPort s
  | peerLost n => exact execPeerLost_keepsPort n s
  | peerAbsent n => exact execPeerAbsent_keepsPort n s
  | append => exact execAppend_keepsPort s
  | copy => exact execCopy_keepsPort s
  | erase => exact execErase_keepsPort s
  | programNotBusy left => exact execProgramNotBusy_keepsPort left s
  | programVerify => exact execProgramVerify_keepsPort s
  | programTimeout left => exact execProgramTimeout_keepsPort left s
  | eraseCheck => exact execEraseCheck_keepsPort s
  | eraseTimeout left => exact execEraseTimeout_keepsPort left s
  | lreqAsserted => exact execLreqAsserted_keepsPort s
  | lendGrant => exact execLendGrant_keepsPort s
  | lreqDeasserted host => exact execLreqDeasserted_keepsPort host s
  | busyCheckEnd => exact execBusyCheckEnd_keepsPort s
  | busyCheckTimeout => exact execBusyCheckTimeout_keepsPort s
  | headerSurvey => exact execHeaderSurvey_keepsPort s
  | bandWalk => exact execBandWalk_keepsPort s
  | startBit c => exact execStartBit_keepsPort c s
  | lossOfSupply left host => exact execLossOfSupply_keepsPort left host s

theorem step_keepsPort (s : State) : KeepsPort s (step s) := by
  unfold step
  split
  · exact .next (.of_view (s.passLine_bus 1))
  · next c rest _ =>
    intro t ht
    obtain ⟨hflash, hlend⟩ := exec_keepsPort c { s with pending := rest } t ht
    exact ⟨hflash, hlend⟩

/-- Settles O5: the journal's work leaves the content, and a program, an erase and a host's lend end in canonical form. -/
theorem flashStaysCanonical : Obligations.FlashStaysCanonical := fun s t ht => (step_keepsPort s t ht).flash

/-- Settles O11: a flash command begins only with the bus not lent and no busy check running, and a lend is granted only where no
flash command is in progress. -/
theorem lendLawKept : Obligations.LendLawKept := by
  intro s t ht hlaw
  have hkept := (step_keepsPort s t ht).lend hlaw
  refine ⟨hkept, fun hlgnt => ?_⟩
  obtain ⟨hgranted, -⟩ := hkept
  obtain ⟨hreq, hpause, -⟩ := hgranted (of_decide_eq_true hlgnt)
  exact ⟨hreq, hpause⟩

end Sys2Proof.Machine
end

section
/-! The commands of the host that report the state, and SETUP. -/

namespace Sys2Proof.Machine

/-! ### What every report uses -/

theorem num_byte (c : Byte) : num [c] 0 1 = c.toNat := num_one _ _

/-- A byte is the one of a value where its number is that of the value. -/
theorem toNat_beq (w : Byte) (n : Nat) (hn : n < 256) : (w.toNat == n) = (w == BitVec.ofNat 8 n) := by
  rw [Bool.eq_iff_iff, beq_iff_eq, beq_iff_eq, ← BitVec.toNat_inj, BitVec.toNat_ofNat, Nat.mod_eq_of_lt hn]

/-- A command that REPLAY answers too passes the tests 1 and 2 of R186 with parameters that fit. -/
theorem tested_always {fits : Bool} {s : State} (k : Reply) (hf : fits = true) : tested true fits s k = k := by
  simp [tested, hf]

theorem byte1_boolCode (b : Bool) : byte1 (boolCode b) = if b then 1 else 0 := by cases b <;> rfl

/-! ### STATUS, JOURNAL-INFO and ROSTER (R187) -/

/-- The rows that JOURNAL-INFO counts as FULL. -/
theorem Journal.fullRows_eq (jc : Journal) :
    jc.fullRows = jc.bands.countP fun r => r.state = .full ∨ (r.state = .retiring ∧ r.seq ≠ none) := by
  unfold Journal.fullRows
  refine List.countP_congr fun r _ => ?_
  simp [Option.isSome_iff_ne_none]

/-- The data of JOURNAL-INFO, field by field (Table 11.3.1). -/
theorem State.journalData_eq (s : State) : s.journalData =
    [BitVec.ofNat 8 (16 * 2 ^ s.straps.bc.toNat), BitVec.ofNat 8 (s.jc.bands.countP fun r => r.state = .erased),
        BitVec.ofNat 8 (s.jc.bands.countP fun r => r.state = .full ∨ (r.state = .retiring ∧ r.seq ≠ none)),
        BitVec.ofNat 8 (s.jc.bands.countP fun r => r.state = .bad), if s.jc.head.isSome then 1 else 0]
      ++ le32 ((s.jc.head.bind fun h => s.jc.seqOf h.band).getD 0)
      ++ le16 (s.jc.head.elim 0 fun h => 4096 - h.pos) ++ le32 s.jc.stranded ++ le32 s.jc.anomalies
      ++ [if s.jc.compaction = .idle then 0 else 1, BitVec.ofNat 8 s.sp.lend.code] ++ le32 s.sp.lendCount := by
  have hidle : byte1 (boolCode (s.jc.compaction ≠ .idle)) = if s.jc.compaction = .idle then 0 else 1 := by
    rw [byte1_boolCode]
    simp
  unfold State.journalData
  dsimp only
  rw [hidle, byte1_boolCode, ← Journal.fullRows_eq]
  cases s.jc.head <;> rfl

theorem State.msSince_eq (s : State) (p : Peer) :
    s.msSince p = p.lastHeard.elim 0xFFFFFFFF fun h => min 0xFFFFFFFE (s.clk.now - h) := by
  unfold State.msSince
  cases p.lastHeard <;> rfl

/-- Settles O24: the data of each report, field by field. -/
theorem reportsOfTheState : Obligations.ReportsOfTheState := by
  refine fun b s => ⟨fun hb => ?_, fun hb => ?_, fun n h1 h31 hb hst => ?_⟩
  · refine (sendCommand_answers hb (tested_always _ rfl)).trans ?_
    simp only [State.statusData, byte1_boolCode]
    rfl
  · refine (sendCommand_answers hb (tested_always _ rfl)).trans ?_
    rw [State.journalData_eq]
    rfl
  · have hbody : rosterBody [n] (s.carriesOut 0x40 b) = .answer .done (s.rosterData n.toNat) (s.carriesOut 0x40 b) := by
      unfold rosterBody
      rw [num_byte]
      exact tested_passes _ hst (by simp [validStation, h1, h31])
    refine (sendCommand_answers hb hbody).trans ?_
    simp only [State.rosterData, byte1_boolCode, State.msSince_eq]
    rfl

/-! ### GET and LIST (R187) -/

theorem byte1_scope (sc : Scope) : byte1 sc.code = if sc = .shared then 0 else 1 := by cases sc <;> rfl

/-- A GET of a valid id answers with its entry, or NOT-FOUND. -/
theorem getBody_answers {lo hi : Byte} {s : State} (hst : s.sc.station ≠ .replay)
    (hv : validId (lo.toNat + 256 * hi.toNat) = true) :
    getBody [lo, hi] s = (s.entry (lo.toNat + 256 * hi.toNat)).elim (refuse .notFound s) fun e => .answer .done e.getData s := by
  have hn : num [lo, hi] 0 2 = lo.toNat + 256 * hi.toNat := num_two _
  unfold getBody
  rw [tested_passes (fits := [lo, hi].length == 2) _ hst rfl, hn, hv]
  cases s.entry (lo.toNat + 256 * hi.toNat) <;> rfl

/-- The filters of LIST by their bytes. -/
theorem Entry.passes_iff (e : Entry) {f : Byte} (hf : f.toNat ≤ 3) : e.passes f.toNat = true ↔
    f = 0 ∨ (f = 1 ∧ e.scope = .shared) ∨ (f = 2 ∧ e.scope = .loc) ∨ (f = 3 ∧ e.jstate = .unsaved) := by
  obtain rfl | rfl | rfl | rfl : f = 0 ∨ f = 1 ∨ f = 2 ∨ f = 3 := by bv_omega
  all_goals simp [Entry.passes]

/-- A LIST whose fields fit answers with the ids that its filter lets pass. -/
theorem listBody_answers {lo hi max filter : Byte} {s : State} (hst : s.sc.station ≠ .replay)
    (hid : lo.toNat + 256 * hi.toNat ≤ 4094) (h1 : 1 ≤ max.toNat) (h20 : max.toNat ≤ 20) (h3 : filter.toNat ≤ 3) :
    listBody [lo, hi, max, filter] s
      = .answer .done (s.listData (lo.toNat + 256 * hi.toNat) max.toNat filter.toNat) s := by
  have hn : num [lo, hi, max, filter] 0 2 = lo.toNat + 256 * hi.toNat := num_two _
  have hmax : num [lo, hi, max, filter] 2 1 = max.toNat := num_one _ _
  have hfilter : num [lo, hi, max, filter] 3 1 = filter.toNat := num_one _ _
  unfold listBody
  rw [hn, hmax, hfilter, tested_passes _ hst (by simp [h1, h20, h3])]
  exact if_neg (Nat.not_lt.mpr hid)

/-- Settles O25: GET by whether the id has an entry, LIST by the entries that pass. -/
theorem getAndListReport : Obligations.GetAndListReport := by
  refine fun b lo hi s hst => ⟨fun hb hv => ?_, fun max filter hb hid h1 h20 h3 => ⟨_, rfl, ?_⟩⟩
  · have hbody := getBody_answers (s := s.carriesOut 0x22 b) hst hv
    refine ⟨fun e he => ?_, fun hno => sendCommand_refuses hb ?_⟩
    · rw [show (s.carriesOut 0x22 b).entry _ = some e from he] at hbody
      refine (sendCommand_answers hb hbody).trans ?_
      simp only [Entry.getData, byte1_scope]
      rfl
    · rw [hbody, show (s.carriesOut 0x22 b).entry _ = none from hno]
      rfl
  · refine (sendCommand_answers hb (listBody_answers (s := s.carriesOut 0x23 b) hst hid h1 h20 h3)).trans ?_
    have hhits : (s.pt.entries.filter fun e => lo.toNat + 256 * hi.toNat < e.id && e.passes filter.toNat)
        = s.pt.entries.filter fun e => lo.toNat + 256 * hi.toNat < e.id
          ∧ (filter = 0 ∨ (filter = 1 ∧ e.scope = .shared) ∨ (filter = 2 ∧ e.scope = .loc)
            ∨ (filter = 3 ∧ e.jstate = .unsaved)) :=
      List.filter_congr fun e _ => by rw [Bool.eq_iff_iff]; simp [Entry.passes_iff e h3]
    simp only [State.listData, List.length_map, List.length_take, List.flatMap_map, byte1_boolCode, decide_eq_true_eq,
      show (s.carriesOut 0x23 b).pt = s.pt from rfl, hhits]
    rfl

/-! ### COUNTERS (R189) -/

/-- COUNTERS with clear 0 or 1. -/
theorem countersBody_answers {c : Byte} (hc : c.toNat ≤ 1) (s : State) : countersBody [c] s
    = .answer .done (s.cp.counters.all.flatMap le32) (if c.toNat = 1 then s.count fun _ => .zero else s) := by
  unfold countersBody
  rw [num_byte]
  exact tested_always _ (by simpa using hc)

/-- Settles O26: the counters are read before they are cleared. -/
theorem countersReadAndClear : Obligations.CountersReadAndClear := by
  refine fun b c s hb => ⟨?_, ?_, fun h0 h1 => sendCommand_refuses hb ?_⟩
  · rintro rfl
    exact sendCommand_answers hb (countersBody_answers (by decide) _)
  · rintro rfl
    exact ⟨_, sendCommand_answers hb (countersBody_answers (by decide) _), rfl,
      show ∀ n ∈ Counters.zero.all, n = 0 by decide⟩
  · have hc : ¬ c.toNat ≤ 1 := by bv_omega
    unfold countersBody
    rw [num_byte]
    simp [tested, hc]

/-! ### SETUP (R188) -/

/-- SETUP with values in range is taken in HELD while it is still allowed. -/
theorem setupBody_answers {i r w : Byte} {s : State} (hst : s.sc.station ≠ .replay) (hi : 1 ≤ i.toNat) (hr : 16 ≤ r.toNat)
    (hw : w.toNat ≤ 1) :
    setupBody [i, r, w] s = if s.sc.station = .held ∧ s.cp.setupAllowed = true then
        .answer .done [] { s with cp := { s.cp with
          setup := { interval := i.toNat, replyTimeout := r.toNat, watchNew := w == 1 }, setupAllowed := false } }
      else refuse .refusedState s := by
  have hi' : num [i, r, w] 0 1 = i.toNat := num_one _ _
  have hr' : num [i, r, w] 1 1 = r.toNat := num_one _ _
  have hw' : num [i, r, w] 2 1 = w.toNat := num_one _ _
  unfold setupBody
  rw [hi', hr', hw', tested_passes _ hst (by simp [hi, hr, hw]), toNat_beq w 1 (by decide)]
  simp

/-- In REPLAY, SETUP is refused by the state before its values are read. -/
theorem setupBody_replay {s : State} (hst : s.sc.station = .replay) (p : List Byte) :
    setupBody p s = refuse .refusedState s := by
  simp [setupBody, tested, hst]

/-- Settles O27, by the station state and whether SETUP is still allowed. -/
theorem setupOnce : Obligations.SetupOnce := by
  intro b i r w s hb hi hr hw
  have hbody := fun hst => setupBody_answers (s := s.carriesOut 0x11 b) hst hi hr hw
  refine ⟨fun hst ha => ?_, fun hno => sendCommand_refuses hb ?_⟩
  · exact sendCommand_answers hb ((hbody (by simp [State.carriesOut, hst])).trans (if_pos ⟨hst, ha⟩))
  · by_cases hst : s.sc.station = .replay
    · exact setupBody_replay (s := s.carriesOut 0x11 b) hst _
    · refine (hbody hst).trans (if_neg fun ⟨hheld, ha⟩ => ?_)
      have ha : s.cp.setupAllowed = true := ha
      rcases hno with h | h
      · exact h hheld
      · simp [h] at ha

end Sys2Proof.Machine
end

section
/-! The transactions of the Command Port: the command that a transaction's bits make, READ-RESPONSE, POP-EVENT, and ATN. -/

namespace Sys2Proof.Machine

/-! ### The attention pin (R182) -/

theorem State.atn_iff (s : State) : s.atn = true ↔ (∃ r, s.cp.slot = .done r) ∨ s.cp.notify ≠ [] := by
  rw [State.atn, Bool.or_eq_true, Slot.isDone_iff]
  simp

/-- Settles O19: ATN by slot and queue, both empty in a part that a reset has cleared. -/
theorem attentionFollowsSlotAndQueue : Obligations.AttentionFollowsSlotAndQueue := by
  refine ⟨State.atn_iff, fun left s t hp ht => ?_⟩
  rw [exec_pinReset hp left []] at ht
  cases ht
  rfl

/-! ### The command of a transaction (R180, R183) -/

/-- The command of a transaction by what its code byte selects, from the bytes after the code and the count of bits after them. -/
def selectedCommand (code : Byte) (bytes : List Byte) (bits : Nat) : Option TransactionKind → Instr
  | some .sendCommand => decodeBlock bytes
  | some .readResponse => .readResponse (.whole bytes.length)
  | some .popEvent => .popEvent (.whole bytes.length)
  | some .readStatus => .readStatus (.clocked (8 * (bytes.length + 1) + bits))
  | some .restart => .restart (8 * bytes.length + bits)
  | none => .otherTransactionCode { code := code, extra := bytes.length }

theorem decodeTransaction_bytes (code : Byte) (bytes : List Byte) {part : List Bool} (h : part.length < 8) :
    decodeTransaction ((code :: bytes).flatMap byteBits ++ part)
      = selectedCommand code bytes part.length (transactionOf code) := by
  have hbytes := sampledBytes_bytes (code :: bytes) h
  have hlen := sampledBytes_length ((code :: bytes).flatMap byteBits ++ part)
  rw [hbytes, List.length_cons] at hlen
  unfold decodeTransaction
  rw [hbytes, hlen]
  dsimp only
  cases transactionOf code with
  | none => rfl
  | some k => cases k <;> rfl

/-- A code outside the five selects no transaction. -/
theorem transactionOf_none {code : Byte} (h : code ∉ [(0x01 : Byte), 0x02, 0x03, 0x04, 0x0E]) : transactionOf code = none := by
  rw [transactionOf, List.lookup_eq_none_iff]
  simpa [transactionTable] using h

/-- Bytes after a SEND-COMMAND code make a well-formed command (R183). -/
theorem decodeBlock_wf (bytes : List Byte) : (decodeBlock bytes).wf = true := by
  unfold decodeBlock
  split
  · next code tag len rest =>
    split
    · next hlong => exact commandOf_wf _ (by simp [Block.wf, Nat.not_le.mpr hlong])
    · split
      · next hlen hshort =>
        simp only [Instr.wf, incompleteBlock, List.getElem?_cons_succ, List.getElem?_cons_zero, List.length_cons,
          Bool.and_eq_true, decide_eq_true_eq]
        omega
      · next hlen hwhole =>
        refine commandOf_wf _ ?_
        rw [Block.wf, if_pos (Nat.not_lt.mp hlen), beq_iff_eq]
        exact List.length_take_of_le (Nat.le_of_not_le hwhole)
  · next hshort =>
    match bytes with
    | [] => rfl
    | [_] => rfl
    | [_, _] => rfl
    | code :: tag :: len :: rest => exact absurd rfl (hshort code tag len rest)

/-- Every sequence of bits makes a well-formed command (R180). -/
theorem decodeTransaction_wf (bits : List Bool) : (decodeTransaction bits).wf = true := by
  unfold decodeTransaction
  split
  · rfl
  · split
    · exact decodeBlock_wf _
    · rfl
    · rfl
    · rfl
    · rfl
    · next hcode => simp [Instr.wf, hcode]

/-- A transaction that selects nothing, and a block cut before its end, return the status byte and 00H (R180, R183). -/
theorem exec_otherTransactionCode {s : State} (hp : s.power = .running) {t : OtherCode} (h : transactionOf t.code = none) :
    exec (.otherTransactionCode t) s = .next { s with cp := portAfter s t.extra } := by
  show execOtherTransactionCode t s = _
  rw [execOtherTransactionCode, whenRunning_running hp, h]
  rfl

theorem exec_commandBlockAborted {s : State} (hp : s.power = .running) (bytes : List Byte) :
    exec (.commandBlockAborted bytes) s = .next { s with cp := portAfter s bytes.length } :=
  whenRunning_running hp fun s => s.statusOnly bytes.length

theorem State.smisoFloats_iff (s : State) : s.smisoFloats = true ↔ s.power ≠ .running ∨ s.cp.transaction = none := by
  simp [State.smisoFloats]

/-- Settles O20: the code byte's row, then for a SEND-COMMAND the length of its block. -/
theorem codeByteSelectsTheTransaction : Obligations.CodeByteSelectsTheTransaction := by
  refine ⟨fun code bytes part i hpart hi => ?_, fun part hpart => ?_, ?_, fun bits s => ⟨decodeTransaction_wf bits, rfl⟩,
    fun s hp => ⟨fun t ht => exec_otherTransactionCode hp (transactionOf_none ht), exec_commandBlockAborted hp⟩,
    fun s => ⟨s.smisoFloats_iff, fun n => ?_⟩⟩
  · rw [decodeTransaction_bytes code bytes hpart] at hi
    refine ⟨?_, ?_, ?_, ?_, ?_, fun hcode => ?_⟩
    · rintro rfl
      have hi : i = decodeBlock bytes := hi
      refine ⟨fun hcut => hi.trans (decodeBlock_incomplete hcut), fun c tag len rest hbytes => ⟨fun hlong => ⟨0, ?_⟩,
        fun params check after hlen hparams hrest => ?_⟩⟩
      · rw [hi, hbytes, decodeBlock_long c tag len rest hlong]
        exact commandBlock_commandOf _ _
      · rw [hi, hbytes, hrest, decodeBlock_whole c tag len check after hlen hparams]
        exact commandBlock_commandOf _ _
    · rintro rfl; exact hi
    · rintro rfl; exact hi
    · rintro rfl; exact hi
    · rintro rfl; exact hi
    · rwa [transactionOf_none hcode] at hi
  · unfold decodeTransaction
    rw [sampledBytes_part hpart]
  · intro b i hi
    interval_cases i <;> rfl
  · rw [State.smisoFloats_iff]
    exact .inr rfl

/-! ### READ-RESPONSE (R184) -/

/-- The response that a DONE slot holds. -/
def Slot.response : Slot → Option Response
  | .done r => some r
  | _ => none

theorem Slot.response_none {sl : Slot} (h : ∀ r, sl ≠ .done r) : sl.response = none := by
  cases sl with
  | empty => rfl
  | executing _ _ => rfl
  | done r => exact absurd rfl (h r)

/-- READ-RESPONSE up to its code byte: the status byte is out, and the content is fixed by the slot. -/
theorem State.startRead_eq (s : State) : s.startRead =
    { s with cp := { portAfter s 0 with transaction := some (.read s.latched s.cp.slot.response) } } := by
  unfold State.startRead
  cases s.cp.slot <;> rfl

/-- The rest of a READ-RESPONSE of a response. -/
theorem State.restRead_some {s : State} {status : Byte} {r : Response} (h : s.cp.transaction = some (.read status (some r)))
    (n : Nat) : s.restRead n = { s with cp := { s.cp with
      transaction := none
      slot := if r.block.length ≤ n then .empty else s.cp.slot
      smiso := status :: (r.block.take n ++ List.replicate (n - r.block.length) 0) } } := by
  unfold State.restRead
  rw [h]
  by_cases hn : r.block.length ≤ n
  · simp only [responseBytes, hn, Option.isSome_some, and_self, if_true]
    rfl
  · simp only [responseBytes, hn, Option.isSome_some, and_false, if_false]
    rfl

/-- The no-response block is zeros, as is what follows it. -/
theorem clockedOut_zeros (k n : Nat) : clockedOut (List.replicate k 0) n = List.replicate n 0 := by
  rw [clockedOut, List.take_replicate, List.length_replicate, List.replicate_append_replicate]
  congr 1
  omega

/-- The rest of a READ-RESPONSE on a slot that was not DONE. -/
theorem State.restRead_none {s : State} {status : Byte} (h : s.cp.transaction = some (.read status none)) (n : Nat) :
    s.restRead n = { s with cp := { s.cp with transaction := none, smiso := status :: List.replicate n 0 } } := by
  unfold State.restRead
  rw [h]
  show ({ s with cp := { s.cp with transaction := none, smiso := status :: clockedOut (List.replicate 5 0) n } } : State) = _
  rw [clockedOut_zeros]

/-- A rest without its beginning is no event. -/
theorem State.restRead_other {s : State} (h : ∀ b r, s.cp.transaction ≠ some (.read b r)) (n : Nat) : s.restRead n = s := by
  unfold State.restRead
  split
  · next b r hr => exact absurd hr (h b r)
  · rfl

theorem exec_readResponse_whole {s : State} (hp : s.power = .running) (n : Nat) :
    exec (.readResponse (.whole n)) s = .next (s.startRead.restRead n) := whenRunning_running hp fun s => s.startRead.restRead n

theorem exec_readResponse_start {s : State} (hp : s.power = .running) : exec (.readResponse .start) s = .next s.startRead :=
  whenRunning_running hp fun s => s.startRead

theorem exec_readResponse_rest {s : State} (hp : s.power = .running) (n : Nat) :
    exec (.readResponse (.rest n)) s = .next (s.restRead n) := whenRunning_running hp fun s => s.restRead n

/-- The bytes of a response sum to 0 modulo 256 (R183). -/
theorem Response.block_sum (r : Response) : (r.block.map BitVec.toNat).sum % 256 = 0 := by
  rw [← byteSum_eq_zero]
  unfold Response.block byteSum
  rw [List.foldl_append]
  exact add_neg_cancel _

/-- Settles O21: the two parts of a READ-RESPONSE, and the whole as one after the other. -/
theorem readResponseEmptiesADoneSlot : Obligations.ReadResponseEmptiesADoneSlot := by
  have hdone : ∀ {s : State} {r : Response}, s.cp.slot = .done r →
      s.startRead.cp.transaction = some (.read s.latched (some r)) := fun {s r} hr => by
    rw [State.startRead_eq, hr]
    rfl
  have hnot : ∀ {s : State}, (∀ r, s.cp.slot ≠ .done r) → s.startRead.cp.transaction = some (.read s.latched none) :=
    fun {s} hno => by
      rw [State.startRead_eq, Slot.response_none hno]
  refine ⟨fun s hp => ⟨fun r n hr => ?_, fun hno n => ?_, ⟨_, exec_readResponse_start hp, ?_, fun u n hu ht =>
    ⟨fun r hr => ?_, fun hno => ?_⟩⟩, fun n hno => ?_⟩, fun r => ⟨_, rfl, r.block_sum⟩⟩
  · rw [exec_readResponse_whole hp, State.restRead_some (hdone hr), State.startRead_eq]
    rfl
  · rw [exec_readResponse_whole hp, State.restRead_none (hnot hno), State.startRead_eq]
    rfl
  · rw [State.startRead_eq]
  · rw [exec_readResponse_rest hu, State.restRead_some (ht.trans (hdone hr))]
  · rw [exec_readResponse_rest hu, State.restRead_none (ht.trans (hnot hno))]
  · rw [exec_readResponse_rest hp, State.restRead_other hno]

/-! ### POP-EVENT (R192) -/

/-- POP-EVENT up to its code byte: the status byte is out, and the head event is taken up. -/
theorem State.startPop_eq (s : State) : s.startPop =
    { s with cp := { portAfter s 0 with transaction := some (.pop s.latched s.cp.notify.head?) } } := rfl

/-- The rest of a POP-EVENT that took up an event. -/
theorem State.restPop_some {s : State} {status : Byte} {e : Event} (h : s.cp.transaction = some (.pop status (some e)))
    (n : Nat) : s.restPop n = { s with cp := { s.cp with
      transaction := none
      smiso := status :: ([e.kind.code, BitVec.ofNat 8 e.param, BitVec.ofNat 8 (e.param / 256)].take n
        ++ List.replicate (n - 3) 0)
      notify := if 3 ≤ n then popQueue s.cp.notify e else s.cp.notify } } := by
  unfold State.restPop
  rw [h]
  rfl

/-- The rest of a POP-EVENT that found no event. -/
theorem State.restPop_none {s : State} {status : Byte} (h : s.cp.transaction = some (.pop status none)) (n : Nat) :
    s.restPop n = { s with cp := { s.cp with transaction := none, smiso := status :: List.replicate n 0 } } := by
  unfold State.restPop
  rw [h]
  show ({ s with cp := { s.cp with transaction := none, smiso := status :: clockedOut (List.replicate 3 0) n } } : State) = _
  rw [clockedOut_zeros]

theorem State.restPop_other {s : State} (h : ∀ b e, s.cp.transaction ≠ some (.pop b e)) (n : Nat) : s.restPop n = s := by
  unfold State.restPop
  split
  · next b e he => exact absurd he (h b e)
  · rfl

/-- An event taken up from a queue that has not changed since leaves it. -/
theorem popQueue_head (e : Event) (q : List Event) : popQueue (e :: q) e = q :=
  if_neg fun ⟨_, _, h⟩ => Nat.lt_irrefl _ h

theorem popQueue_cons (taken e : Event) (q : List Event) : popQueue (e :: q) taken =
    if taken.kind = .lost ∧ e.kind = .lost ∧ taken.param < e.param
    then { e with param := e.param - taken.param } :: q else q := by
  unfold popQueue
  simp only [and_left_comm]

theorem exec_popEvent_whole {s : State} (hp : s.power = .running) (n : Nat) :
    exec (.popEvent (.whole n)) s = .next (s.startPop.restPop n) := whenRunning_running hp fun s => s.startPop.restPop n

theorem exec_popEvent_start {s : State} (hp : s.power = .running) : exec (.popEvent .start) s = .next s.startPop :=
  whenRunning_running hp fun s => s.startPop

theorem exec_popEvent_rest {s : State} (hp : s.power = .running) (n : Nat) :
    exec (.popEvent (.rest n)) s = .next (s.restPop n) := whenRunning_running hp fun s => s.restPop n

/-- Settles O22: the two parts of a POP-EVENT, and the whole as one after the other. -/
theorem popEventTakesTheHead : Obligations.PopEventTakesTheHead := by
  have htaken : ∀ {s : State} {e : Event} {q : List Event}, s.cp.notify = e :: q →
      s.startPop.cp.transaction = some (.pop s.latched (some e)) := fun {s e q} hq => by
    rw [State.startPop_eq, hq]
    rfl
  have hnone : ∀ {s : State}, s.cp.notify = [] → s.startPop.cp.transaction = some (.pop s.latched none) := fun {s} hq => by
    rw [State.startPop_eq, hq]
    rfl
  refine fun s hp => ⟨fun e q n hq => ?_, fun hq n => ?_, ⟨_, exec_popEvent_start hp, rfl, fun u n hu ht =>
    ⟨fun hq => ?_, fun e q hq => ⟨_, exec_popEvent_rest hu n, ?_⟩⟩⟩, fun n hno => ?_⟩
  · rw [exec_popEvent_whole hp, State.restPop_some (htaken hq)]
    show Host.Outcome.next ({ s with cp := { portAfter s 0 with
      notify := if 3 ≤ n then popQueue s.cp.notify e else s.cp.notify, smiso := _ } } : State) = _
    rw [hq, popQueue_head]
  · rw [exec_popEvent_whole hp, State.restPop_none (hnone hq)]
    rfl
  · rw [exec_popEvent_rest hu, State.restPop_none (ht.trans (hnone hq))]
  · rw [State.restPop_some (ht.trans (htaken hq))]
    refine ⟨rfl, fun hn => if_neg (Nat.not_le.mpr hn), fun hn e' q' hq' => ?_⟩
    show (if 3 ≤ n then popQueue u.cp.notify e else u.cp.notify) = _
    rw [if_pos hn, hq', popQueue_cons]
  · rw [exec_popEvent_rest hp, State.restPop_other hno]

end Sys2Proof.Machine
end

section
/-! The notify queue: how an event is placed, the moves that a step makes of the queue, and the operations that leave it. -/

namespace Sys2Proof.Machine

/-! ### The placing of an event (R191) -/

/-- The events that an event is coalesced with. -/
theorem coalesces_iff (q : List Event) (e : Event) : coalesces q e = true
    ↔ (e.kind = .remoteChange ∧ ∃ x ∈ q, x.kind = .remoteChange ∧ x.param = e.param)
      ∨ ((e.kind = .unsaved ∨ e.kind = .tableFull) ∧ ∃ x ∈ q, x.kind = e.kind) := by
  obtain ⟨kind, param⟩ := e
  have hsame : (∃ x ∈ q, x.kind = .remoteChange ∧ x.param = param) ↔ (⟨.remoteChange, param⟩ : Event) ∈ q :=
    ⟨fun ⟨⟨_, _⟩, hx, hk, hp⟩ => by subst hk hp; exact hx, fun h => ⟨_, h, rfl, rfl⟩⟩
  rw [hsame]
  cases kind <;> simp [coalesces]

theorem anyLost_iff (q : List Event) : (q.any fun x => x.kind = .lost) = true ↔ ∃ x ∈ q, x.kind = .lost := by simp

/-! ### The moves of the queue (R160, R191, R192) -/

/-- `r` comes of `q` by moves: an event is placed, one that was taken up leaves, a reset empties the queue. -/
inductive NotifyMove (q : List Event) : List Event → Prop
  | still : NotifyMove q q
  | placed {r : List Event} (h : NotifyMove q r) (e : Event) : NotifyMove q (placeEvent r e)
  | popped {r : List Event} (h : NotifyMove q r) (taken : Event) : NotifyMove q (popQueue r taken)
  | emptied : NotifyMove q []

/-- Every move keeps the law of the queue. -/
theorem NotifyMove.keeps_law {q r : List Event} (h : NotifyMove q r) (hq : NotifyLaw q) : NotifyLaw r := by
  induction h with
  | still => exact hq
  | placed _ e ih => exact ih.place e
  | popped _ taken ih => exact ih.pop taken
  | emptied => exact .nil

/-- The notify queue of a state comes of `q` by moves. -/
def Notifies (q : List Event) (s : State) : Prop := NotifyMove q s.cp.notify

theorem Notifies.still {q : List Event} {s t : State} (h : Notifies q s) (ht : t.cp.notify = s.cp.notify) : Notifies q t := by
  rw [Notifies, ht]
  exact h

theorem Notifies.placed {q : List Event} {s t : State} (h : Notifies q s) (e : Event)
    (ht : t.cp.notify = placeEvent s.cp.notify e) : Notifies q t := by
  rw [Notifies, ht]
  exact NotifyMove.placed h e

theorem Notifies.notify {q : List Event} {s : State} (h : Notifies q s) (k : EventKind) (p : Nat) : Notifies q (s.notify k p) :=
  h.placed _ rfl

/-! ### Time and long commands -/

@[simp] theorem State.passLine_notify (s : State) (n : Nat) : (s.passLine n).cp.notify = s.cp.notify :=
  let ⟨_, _, _, _, hcp, _, _⟩ := s.passLine_frame n
  congrArg CommandPort.notify hcp

@[simp] theorem State.passUntil_notify (s : State) (t l : Nat) : (s.passUntil t l).cp.notify = s.cp.notify := by
  rcases s.passUntil_eq t l with h | ⟨n, h⟩ <;> simp [h]

@[simp] theorem State.passSilence_notify (s : State) (p : Peer) (ms : Nat) : (s.passSilence p ms).cp.notify = s.cp.notify := by
  unfold State.passSilence
  split <;> simp

@[simp] theorem State.endJoinWindow_notify (s : State) : s.endJoinWindow.cp.notify = s.cp.notify := by
  rw [s.endJoinWindow_frame]

@[simp] theorem State.completeLong_notify (s : State) (code : Byte) (r : Result) :
    (s.completeLong code r).cp.notify = s.cp.notify := by
  obtain ⟨-, -, h⟩ := s.completeLong_slot code r
  rw [h]

@[simp] theorem State.endClosing_notify (s : State) (r : Result) : (s.endClosing r).cp.notify = s.cp.notify :=
  s.enterHeld.completeLong_notify _ _

@[simp] theorem State.settleFlush_notify (s : State) : s.settleFlush.cp.notify = s.cp.notify := by
  unfold State.settleFlush
  split <;> simp

/-! ### The roster, sessions and the reply queue (chapter 6) -/

@[simp] theorem State.updatePeer_notify (s : State) (n : Nat) (f : Peer → Peer) : (s.updatePeer n f).cp.notify = s.cp.notify := by
  rw [s.updatePeer_eq]

@[simp] theorem State.openSession_notify (s : State) (n : Nat) : (s.openSession n).cp.notify = s.cp.notify :=
  s.updatePeer_notify _ _

@[simp] theorem State.searchSession_notify (s : State) : s.searchSession.cp.notify = s.cp.notify := by
  rw [s.searchSession_frame]

@[simp] theorem State.testSession_notify (s : State) (n : Nat) : (s.testSession n).cp.notify = s.cp.notify := by
  unfold State.testSession
  split <;> simp

@[simp] theorem State.closeSession_notify (s : State) : s.closeSession.cp.notify = s.cp.notify := rfl

@[simp] theorem State.abandonSession_notify (s : State) : s.abandonSession.cp.notify = s.cp.notify := by
  unfold State.abandonSession
  split
  · rfl
  · exact s.updatePeer_notify _ _

@[simp] theorem State.sessionSuccess_notify (s : State) : s.sessionSuccess.cp.notify = s.cp.notify := by
  rw [s.sessionSuccess_eq]

@[simp] theorem State.sessionTimeout_notify (s : State) : s.sessionTimeout.cp.notify = s.cp.notify := by
  unfold State.sessionTimeout
  dsimp only
  split
  · split <;> rfl
  · simp [State.giveBack]

@[simp] theorem State.pushRequest_notify (s : State) (id : Nat) : (s.pushRequest id).cp.notify = s.cp.notify := by
  unfold State.pushRequest
  split <;> rfl

@[simp] theorem State.pushBetween_notify (s : State) (b : Nat) (lo hi : Option Nat) :
    (s.pushBetween b lo hi).cp.notify = s.cp.notify :=
  List.foldlRecOn (motive := fun u : State => u.cp.notify = s.cp.notify) _ _ rfl fun u hu e _ =>
    (u.pushRequest_notify e.id).trans hu

@[simp] theorem State.compareQuad_notify (b : Nat) (sc : State × Option Nat) (q : Quad) :
    (State.compareQuad b sc q).1.cp.notify = sc.1.cp.notify := by
  rw [← sc.1.pushBetween_notify b sc.2 (some q.id)]
  unfold State.compareQuad
  dsimp only
  generalize sc.1.pushBetween b sc.2 (some q.id) = u
  split
  · rfl
  · split
    · rfl
    · split
      · rfl
      · split <;> simp

@[simp] theorem State.compareListing_notify (s : State) (b : Nat) (quads : List Quad) (bucketLast : Bool) :
    (s.compareListing b quads bucketLast).cp.notify = s.cp.notify := by
  have hmerged : (quads.foldl (State.compareQuad b) (s, s.re.session.cursor)).1.cp.notify = s.cp.notify :=
    List.foldlRecOn (motive := fun sc : State × Option Nat => sc.1.cp.notify = s.cp.notify) quads _ rfl
      fun sc hsc q _ => (State.compareQuad_notify b sc q).trans hsc
  unfold State.compareListing
  dsimp only
  split <;> simp [hmerged]

@[simp] theorem State.takeListing_notify (s : State) (b part : Nat) (quads : List Quad) (fl : FrameFlags) :
    (s.takeListing b part quads fl).cp.notify = s.cp.notify := by
  unfold State.takeListing State.listingComplete
  dsimp only
  split_ifs <;> simp

@[simp] theorem State.emptyReplies_notify (s : State) : s.emptyReplies.cp.notify = s.cp.notify := rfl

@[simp] theorem State.dropRequest_notify (s : State) (n : Nat) : (s.dropRequest n).cp.notify = s.cp.notify := by
  rw [s.dropRequest_eq]

@[simp] theorem State.replyCompleted_notify (s : State) (forHead ends : Bool) (moved : Work) :
    (s.replyCompleted forHead ends moved).cp.notify = s.cp.notify := by
  unfold State.replyCompleted
  split
  · split
    · rfl
    · split <;> rfl
  · rfl

/-! ### Frames of this station and of others -/

@[simp] theorem State.frameSent_notify (s : State) (f : Flight) : (s.frameSent f).cp.notify = s.cp.notify := s.passLine_notify _

@[simp] theorem State.frameUndone_notify (s : State) (f : Flight) : (s.frameUndone f).cp.notify = s.cp.notify := by
  unfold State.frameUndone
  split <;> rfl

@[simp] theorem State.bufferFrame_notify (s : State) (chars : List Byte) : (s.bufferFrame chars).cp.notify = s.cp.notify := by
  unfold State.bufferFrame
  split <;> rfl

@[simp] theorem State.takeSummary_notify (s : State) (n h count interval : Nat) (digests : List Half) (joining : Bool) :
    (s.takeSummary n h count interval digests joining).cp.notify = s.cp.notify := by
  unfold State.takeSummary State.earlySummary
  dsimp only
  split_ifs <;> simp

@[simp] theorem State.takeRequest_notify (s : State) (f : Frame) (w : Work) : (s.takeRequest f w).cp.notify = s.cp.notify := by
  rw [s.takeRequest_frame]

@[simp] theorem State.takeReplyUpdate_notify (s : State) (e : Bool) : (s.takeReplyUpdate e).cp.notify = s.cp.notify := by
  rw [s.takeReplyUpdate_eq]

/-! ### The journal, replay and the flash device -/

@[simp] theorem State.grantWaiting_notify (s : State) : s.grantWaiting.cp.notify = s.cp.notify := by
  unfold State.grantWaiting
  split <;> rfl

@[simp] theorem State.judgeTrigger_notify (s : State) : s.judgeTrigger.cp.notify = s.cp.notify := by
  rw [s.judgeTrigger_frame]

@[simp] theorem State.issue_notify (s : State) (p : Prog) : (s.issue p).cp.notify = s.cp.notify := by
  unfold State.issue
  split <;> rfl

@[simp] theorem State.sweep_notify (s : State) : s.sweep.cp.notify = s.cp.notify := by
  unfold State.sweep
  split <;> rfl

@[simp] theorem State.writeDone_notify (s : State) (w : WriteJob) (h : Head) : (s.writeDone w h).cp.notify = s.cp.notify := by
  have hsettled : (s.recordSettled w h).cp.notify = s.cp.notify := rfl
  rw [s.writeDone_eq]
  split <;> simp [hsettled]

@[simp] theorem State.nextClose_notify (s : State) (todo : List (Nat × Nat)) : (s.nextClose todo).cp.notify = s.cp.notify := by
  cases todo with
  | nil => exact State.judgeTrigger_notify _
  | cons c todo => exact State.issue_notify _ _

@[simp] theorem State.replayClosed_notify (s : State) (written : Bool) : (s.replayClosed written).cp.notify = s.cp.notify := by
  unfold State.replayClosed
  split
  · exact State.nextClose_notify _ _
  · rfl

theorem State.replayRecord_notify (s : State) (seq : Nat) (r : JRecord) : (s.replayRecord seq r).cp.notify = s.cp.notify := by
  rw [s.replayRecord_frame]

theorem walkBand_notify (fuel : Nat) (s : State) (band seq : Nat) (closeEnd : Option Nat) (off : Nat) :
    (walkBand fuel s band seq closeEnd off).1.cp.notify = s.cp.notify := by
  induction fuel generalizing s off with
  | zero => rfl
  | succ fuel ih =>
    unfold walkBand
    split
    · rfl
    · split
      · rfl
      · split
        · rfl
        · rfl
        · rfl
        · exact (ih _ _).trans (s.replayRecord_notify seq _)

@[simp] theorem State.resume_notify (s : State) : s.resume.cp.notify = s.cp.notify := by
  have hnext : (match s.jc.next with | some p => s.issue p | none => s).cp.notify = s.cp.notify := by
    split
    · exact s.issue_notify _
    · rfl
  unfold State.resume
  split
  · split
    · unfold State.resumeReplay
      split
      · rfl
      · rfl
      · rfl
      · exact hnext
    · split
      · rfl
      · rfl
      · exact hnext
  · rfl

@[simp] theorem State.land_notify (s : State) (left : DeviceLeft) : (s.land left).cp.notify = s.cp.notify := by
  rw [s.land_eq]

@[simp] theorem State.eraseDone_notify (s : State) (band : Nat) : (s.eraseDone band).cp.notify = s.cp.notify :=
  State.judgeTrigger_notify _

end Sys2Proof.Machine
end

section
/-! The operations that raise events: what each makes of the notify queue is a move of it. -/

namespace Sys2Proof.Machine

variable {q : List Event} {s : State}

/-! ### Convergence and station states -/

theorem State.judge_notifies (h : Notifies q s) : Notifies q s.judge := by
  have hflag : Notifies q s.judgeFlag := by
    unfold State.judgeFlag
    split
    · exact h
    · exact Notifies.notify (s := { s with sc := { s.sc with converged := s.convergence } }) h _ _
  unfold State.judge State.joinByConvergence
  split
  · exact hflag.still (by simp)
  · exact hflag

theorem State.enterMuted_notifies (h : Notifies q s) (c : Cause) : Notifies q (s.enterMuted c) := by
  have hleft : Notifies q s.abandonSession.emptyReplies := h.still (by simp)
  exact hleft.placed ⟨.lineMuted, c.code⟩ rfl

theorem State.furtherCause_notifies (h : Notifies q s) (c : Cause) : Notifies q (s.furtherCause c) := by
  unfold State.furtherCause
  split
  · exact h.placed ⟨.lineMuted, Cause.stuck.code⟩ rfl
  · exact h
  · exact h.placed ⟨.lineMuted, Cause.duplicate.code⟩ rfl
  · exact h.placed ⟨.lineMuted, Cause.duplicate.code⟩ rfl
  · exact h

theorem State.takeCause_notifies (h : Notifies q s) (c : Cause) : Notifies q (s.takeCause c) := by
  unfold State.takeCause
  split
  · exact h
  · exact h
  · exact State.judge_notifies (State.enterMuted_notifies h c)
  · exact State.judge_notifies (State.enterMuted_notifies h c)
  · exact State.furtherCause_notifies h c
  · exact State.judge_notifies (h.still (by simp))

/-! ### Own frames and frames of other stations -/

theorem State.startDemand_notifies (h : Notifies q s) (cls : GapClass) (d : Demand) : Notifies q (s.startDemand cls d) := by
  have hupdate : ∀ m, Notifies q (s.launchUpdate cls m) := fun m => State.judge_notifies (by exact h)
  cases d with
  | reply =>
    unfold State.startDemand
    dsimp only
    split <;> exact h
  | repair => exact h
  | push => exact hupdate .push
  | summary => exact h
  | newUpdate => exact hupdate .new
  | leave => exact h

theorem State.demandCompleted_notifies (h : Notifies q s) (f : Flight) : Notifies q (s.demandCompleted f) := by
  unfold State.demandCompleted
  split
  · exact h
  · exact h
  · split <;> exact h
  · exact h.still (by simp)
  · split
    · exact State.judge_notifies (h.still (by simp))
    · exact h

theorem State.recover_notifies (h : Notifies q s) : Notifies q s.recover :=
  h.placed ⟨.lineRestored, 0⟩ (State.searchSession_notify _)

theorem State.testFrame_notifies (h : Notifies q s) (chars : List Byte) : Notifies q (s.testFrame chars) := by
  unfold State.testFrame
  split
  · exact h
  · split
    · exact h
    · split
      · refine State.takeCause_notifies ?_ _
        split
        · exact h
        · exact h.notify _ _
      · exact h.still (by simp)

/-! ### Changes of entries (chapter 2) -/

theorem State.localChange_notifies (h : Notifies q s) (id : Nat) (scope : Scope) (value : List Byte) (slot : Option Nat) :
    Notifies q (s.localChange id scope value slot) := by
  have hchanged : Notifies q (s.locallyChanged id scope value slot) := by
    show NotifyMove q (s.markedNotify id)
    unfold State.markedNotify
    split
    · exact NotifyMove.placed h _
    · exact h
  rw [State.localChange_eq]
  split
  · exact State.judge_notifies (by exact hchanged)
  · exact hchanged

theorem State.localPut_notifies (h : Notifies q s) (id : Nat) (scope : Scope) (value : List Byte) :
    Notifies q (s.localPut id scope value).2 := by
  unfold State.localPut
  split
  · exact h
  · exact State.localChange_notifies h _ _ _ _

theorem State.localRemove_notifies (h : Notifies q s) (id : Nat) : Notifies q (s.localRemove id).2 := by
  unfold State.localRemove
  split
  · exact h
  · split
    · exact h
    · split
      · exact h
      · split
        · exact State.localChange_notifies h _ _ _ _
        · exact h

theorem State.takeRecord_notifies (h : Notifies q s) (old : Option Entry) (r : LineRecord) (slot : Option Nat) :
    Notifies q (s.takeRecord old r slot) := by
  have htold : ∀ u : State, Notifies q u → Notifies q (u.remoteChange old r.id) := fun u hu => by
    unfold State.remoteChange
    split
    · exact hu.notify _ _
    · exact hu
  have hcommitted : ∀ e, Notifies q (s.commitEntry old e) := fun e => by
    rw [State.commitEntry_eq]
    show NotifyMove q (if _ then _ else _)
    split
    · exact NotifyMove.placed h _
    · exact h
  exact htold _ (by exact hcommitted _)

theorem State.takeIfRoom_notifies (h : Notifies q s) (old : Option Entry) (r : LineRecord) :
    Notifies q (s.takeIfRoom old r) := by
  have hdrop : Notifies q s.capacityDrop := h.placed _ rfl
  unfold State.takeIfRoom
  split
  · exact hdrop
  · split
    · exact hdrop
    · exact State.takeRecord_notifies h _ _ _

theorem State.applyRecord_notifies (h : Notifies q s) (r : LineRecord) : Notifies q (s.applyRecord r) := by
  unfold State.applyRecord
  split
  · exact State.takeIfRoom_notifies h _ _
  · split
    · exact h
    · split
      · exact State.takeIfRoom_notifies h _ _
      · split <;> exact h

/-! ### Frames taken (R65, R66) -/

theorem State.refresh_notifies (h : Notifies q s) (n : Nat) : Notifies q (s.refresh n) := by
  rw [State.refresh_eq]
  show NotifyMove q (s.heardNotify n)
  unfold State.heardNotify
  split
  · exact h
  · exact NotifyMove.placed h _

theorem State.peerLeft_notifies (h : Notifies q s) (n : Nat) : Notifies q (s.peerLeft n) := by
  have hleft : Notifies q ((s.updatePeer n fun _ => .cleared).notify .peerLeft n) := .notify (h.still (by simp)) _ _
  unfold State.peerLeft
  dsimp only
  split
  · exact h
  · split <;> exact hleft.still (by simp)

theorem State.takeKind_notifies (h : Notifies q s) (f : Frame) : Notifies q (s.takeKind f) := by
  unfold State.takeKind
  split
  · next recs _ =>
    have hrecs : Notifies q (recs.foldl State.applyRecord s) :=
      List.foldlRecOn _ _ h fun _ hu _ _ => State.applyRecord_notifies hu _
    split
    · dsimp only
      split
      · exact hrecs.still (by simp)
      · exact hrecs
    · exact h
  · exact h.still (by simp)
  · exact h.still (by simp)
  · split
    · exact h.still (by simp)
    · exact h
  · exact h.still (by simp)
  · exact State.peerLeft_notifies h _

theorem State.actOn_notifies (h : Notifies q s) (f : Frame) : Notifies q (s.actOn f) := by
  have hraised : Notifies q (s.raiseH f.payload) := h
  unfold State.actOn
  dsimp only
  split
  · exact State.takeKind_notifies hraised f
  · exact State.takeKind_notifies (State.refresh_notifies hraised _) f

/-! ### The journal and replay (chapters 8 and 9) -/

theorem State.enterFault_notifies (h : Notifies q s) : Notifies q s.enterFault := by
  have hfault := Notifies.notify (s := State.completeLong { s with
    pt := s.pt.mapEntries Entry.unqueue, jc := s.jc.toFault, sp := { s.sp with cmd := .none, poll := none } } flushCode
    .failedStorage) (Notifies.still (s := s) h (by simp)) .journalFault 0
  unfold State.enterFault
  dsimp only
  refine Notifies.still ?_ (State.grantWaiting_notify _)
  split
  · exact hfault.notify _ _
  · exact hfault

theorem State.judgeUsable_notifies (h : Notifies q s) : Notifies q s.judgeUsable := by
  unfold State.judgeUsable
  split
  · exact State.enterFault_notifies h
  · exact h.still (by simp)

theorem State.openBand_notifies (h : Notifies q s) (w : WriteJob) : Notifies q (s.openBand w) := by
  unfold State.openBand
  split
  · exact h
  · split
    · exact State.enterFault_notifies h
    · split
      · exact State.enterFault_notifies h
      · exact h.still (by simp)

theorem State.beginWrite_notifies (h : Notifies q s) (w : WriteJob) : Notifies q (s.beginWrite w) := by
  have hstarted : Notifies q (s.mapJournal fun jc => jc.startWrite w) := h
  unfold State.beginWrite
  dsimp only
  split
  · exact State.openBand_notifies hstarted w
  · split <;> exact hstarted.still (State.issue_notify _ _)

theorem State.rewrite_notifies (h : Notifies q s) (w : WriteJob) : Notifies q (s.rewrite w) := by
  unfold State.rewrite
  split
  · exact State.openBand_notifies (by exact h) _
  · exact h

theorem State.settleTable_notifies (h : Notifies q s) : Notifies q s.settleTable := by
  unfold State.settleTable
  dsimp only
  split
  · exact h.placed ⟨.unsaved, 0⟩ rfl
  · exact h

theorem State.finishWalk_notifies (h : Notifies q s) : Notifies q s.finishWalk := by
  unfold State.finishWalk
  split
  · exact (State.settleTable_notifies h).still (State.nextClose_notify _ _)
  · exact h

theorem State.fail_notifies (h : Notifies q s) : Notifies q s.fail := by
  unfold State.fail State.replayFault
  split
  · refine State.enterFault_notifies (s := State.leaveReplay _) ?_
    split
    · exact h
    · exact State.settleTable_notifies (by exact h)
  · exact State.enterFault_notifies h

/-! ### Programs and erases (chapter 10) -/

theorem State.withWrite_notifies (h : Notifies q s) {k : WriteJob → State} (hk : ∀ w, Notifies q (k w)) :
    Notifies q (s.withWrite k) := by
  unfold State.withWrite
  split
  · exact hk _
  · exact h

theorem State.withHead_notifies (h : Notifies q s) {k : Head → State} (hk : ∀ x, Notifies q (k x)) :
    Notifies q (s.withHead k) := by
  unfold State.withHead
  split
  · exact hk _
  · exact h

theorem State.programDone_notifies (h : Notifies q s) (p : Prog) : Notifies q (s.programDone p) := by
  unfold State.programDone
  split
  · exact h.still (by simp)
  · exact State.withWrite_notifies h fun w => State.withHead_notifies h fun x => State.openBand_notifies (by exact h) w
  · exact State.withWrite_notifies h fun w => h.still (by simp [State.bandOpened, State.writeRecord])
  · refine State.withWrite_notifies h fun w => State.withHead_notifies h fun x => ?_
    split <;> exact h.still (by simp)
  · exact State.withWrite_notifies h fun w => State.withHead_notifies h fun x => h.still (by simp)
  · exact State.withWrite_notifies h fun w => State.withHead_notifies h fun x => h.still (by simp)
  · exact h.still (by simp)
  · exact State.withWrite_notifies h fun w => State.withHead_notifies h fun x => State.rewrite_notifies (by exact h) w
  · unfold State.issueInReplay
    split <;> exact h
  · exact h.still (by simp)

theorem State.headerFailed_notifies (h : Notifies q s) (band : Nat) : Notifies q (s.headerFailed band) := by
  have hjudged : Notifies q (s.mapJournal fun jc => jc.mapRow band (.bare .bad)).judgeUsable :=
    State.judgeUsable_notifies (by exact h)
  unfold State.headerFailed
  dsimp only
  split
  · exact hjudged
  · exact State.withWrite_notifies hjudged fun w => State.openBand_notifies hjudged w

theorem State.programFailed_notifies (h : Notifies q s) (p : Prog) : Notifies q (s.programFailed p) := by
  have hcounted : Notifies q s.countFailure := h
  have hleft : ∀ w, Notifies q ((s.countFailure.mapJournal fun jc => jc.leaveHead p.band).openBand w) :=
    State.openBand_notifies (by exact hcounted)
  unfold State.programFailed
  dsimp only
  split
  · exact State.fail_notifies hcounted
  · split
    · exact State.withHead_notifies hcounted fun x => hcounted.still (by simp)
    · exact State.withHead_notifies hcounted fun x => hcounted.still (by simp)
    · exact State.withWrite_notifies hcounted hleft
    · exact State.withWrite_notifies hcounted hleft
    · exact State.headerFailed_notifies hcounted _
    · exact State.fail_notifies hcounted
    · exact State.fail_notifies hcounted
    · exact State.fail_notifies hcounted
    · exact hcounted.still (by simp)
    · exact hcounted.still (by simp)

theorem State.eraseFailed_notifies (h : Notifies q s) (band : Nat) : Notifies q (s.eraseFailed band) :=
  State.judgeUsable_notifies (by exact h)

/-- A program or an erase that has not ended in its time raises no event before it is judged. -/
theorem State.timedOut_notifies (h : Notifies q s) (t limit : Nat) (left : DeviceLeft) :
    Notifies q ((s.passUntil t limit).land left).endCommand := h.still (by simp)

/-! ### The survey and the walk (R164, R165) -/

theorem State.endSurvey_notifies (h : Notifies q s) : Notifies q s.endSurvey := by
  rw [State.endSurvey_eq]
  split
  · exact State.finishWalk_notifies (by exact h)
  · exact h

theorem State.surveyHeader_notifies (h : Notifies q s) (r : Replay) (i : Nat) : Notifies q (s.surveyHeader r i) := by
  rw [State.surveyHeader_eq]
  split
  · exact h
  · exact State.endSurvey_notifies (by exact h)

theorem State.walkOne_notifies (h : Notifies q s) (r : Replay) (band : Nat) (todo : List Nat) :
    Notifies q (s.walkOne r band todo) := by
  unfold State.walkOne
  dsimp only
  generalize (s.jc.seqOf band).getD 0 = seq
  generalize ((r.lens.find? fun l => l.1 = band).map fun l => Config.headerBytes + l.2) = closeEnd
  have hwalked : Notifies q (walkBand 320 s band seq closeEnd Config.headerBytes).1 := h.still (walkBand_notify ..)
  split
  · exact State.finishWalk_notifies (by exact hwalked)
  · exact hwalked

end Sys2Proof.Machine
end

section
/-! Every command, and so every step, makes moves of the notify queue, which keep its law. -/

namespace Sys2Proof.Machine

section
variable {q : List Event} {s : State}

/-- A command that goes on makes moves of the notify queue. -/
def Tells (q : List Event) (o : Host.Outcome State Fault Refusal) : Prop := ∀ t, o = .next t → Notifies q t

theorem Tells.next {t : State} (h : Notifies q t) : Tells q (.next t) := fun _ ht => Host.Outcome.next.inj ht ▸ h

theorem Tells.running (h : Notifies q s) {k : State → State} (hk : Notifies q (k s)) : Tells q (whenRunning s k) := by
  rcases whenRunning_cases s k with hw | hw <;> rw [hw]
  · exact .next hk
  · exact .next h

/-! ### The commands of the host (chapter 11) -/

theorem Reply.settle_notify (k : Reply) (code tag : Byte) : (k.settle code tag).cp.notify = k.after.cp.notify := by
  cases k <;> rfl

/-- What the body of a command makes of the queue, the command makes of it. -/
theorem Tells.command (h : Notifies q s) {code : Byte} {b : Block} {body : List Byte → State → Reply}
    (hbody : ∀ p u, Notifies q u → Notifies q (body p u).after) : Tells q (sendCommand code b body s) := by
  refine .running h ?_
  unfold State.judgeBlock
  dsimp only
  split
  · exact h
  · split
    · exact h
    · exact (hbody _ _ (by exact h)).still (Reply.settle_notify _ _ _)

/-- What holds before a command and after its work holds after its tests 1 and 2 too. -/
theorem tested_after {P : State → Prop} {inReplay fits : Bool} {k : Reply} (h : P s) (hk : P k.after) :
    P (tested inReplay fits s k).after := by
  unfold tested
  split
  · exact h
  · split
    · exact h
    · exact hk

theorem setupBody_notifies (p : List Byte) (h : Notifies q s) : Notifies q (setupBody p s).after := by
  refine tested_after h ?_
  split <;> exact h

theorem openBody_notifies (p : List Byte) (h : Notifies q s) : Notifies q (openBody p s).after := by
  refine tested_after h ?_
  split
  · exact h
  · split
    · exact h
    · exact State.judge_notifies (by exact h)

theorem closeBody_notifies (p : List Byte) (h : Notifies q s) : Notifies q (closeBody p s).after := by
  have hclosing : Notifies q s.startClosing := State.judge_notifies (Notifies.still (s := s) h (by simp))
  refine tested_after h ?_
  split
  · exact hclosing
  · exact hclosing
  · exact State.judge_notifies (by exact h)
  · exact h
  · exact h
  · exact h

theorem putBody_notifies (p : List Byte) (h : Notifies q s) : Notifies q (putBody p s).after := by
  refine tested_after h ?_
  split
  · exact h
  · split
    · exact h
    · exact State.localPut_notifies h _ _ _

theorem removeBody_notifies (p : List Byte) (h : Notifies q s) : Notifies q (removeBody p s).after := by
  refine tested_after h ?_
  split
  · exact h
  · split
    · exact h
    · exact State.localRemove_notifies h _

theorem getBody_notifies (p : List Byte) (h : Notifies q s) : Notifies q (getBody p s).after := by
  refine tested_after h ?_
  split
  · exact h
  · split <;> exact h

theorem listBody_notifies (p : List Byte) (h : Notifies q s) : Notifies q (listBody p s).after := by
  refine tested_after h ?_
  split <;> exact h

theorem watchBody_notifies (p : List Byte) (h : Notifies q s) : Notifies q (watchBody p s).after := by
  refine tested_after h ?_
  split
  · exact h
  · split
    · exact h
    · split <;> exact h

theorem flushBody_notifies (p : List Byte) (h : Notifies q s) : Notifies q (flushBody p s).after := by
  refine tested_after h ?_
  split
  · exact h
  · split <;> exact h

theorem countersBody_notifies (p : List Byte) (h : Notifies q s) : Notifies q (countersBody p s).after := by
  refine tested_after h ?_
  show Notifies q (if num p 0 1 = 1 then s.count fun _ => .zero else s)
  split <;> exact h

/-! ### Transactions (chapter 11) -/

theorem State.restRead_notifies (h : Notifies q s) (n : Nat) : Notifies q (s.restRead n) := by
  unfold State.restRead
  split
  · dsimp only
    split <;> exact h
  · exact h

/-- The rest of a POP-EVENT takes the event out that was taken up, or leaves the queue (R192). -/
theorem State.restPop_notifies (h : Notifies q s) (n : Nat) : Notifies q (s.restPop n) := by
  unfold State.restPop
  split
  · next status e _ =>
    cases e with
    | none => exact h
    | some e =>
      show NotifyMove q (if 3 ≤ n then popQueue s.cp.notify e else s.cp.notify)
      split
      · exact NotifyMove.popped h e
      · exact h
  · exact h

theorem execReadStatus_tells (r : StatusRead) (h : Notifies q s) : Tells q (execReadStatus r s) := by
  refine .running h ?_
  split
  · exact h
  · split <;> exact h

theorem execOtherTransactionCode_tells (c : OtherCode) (h : Notifies q s) : Tells q (execOtherTransactionCode c s) := by
  refine .running h ?_
  split <;> exact h

theorem execRestart_tells (n : Nat) (h : Notifies q s) : Tells q (execRestart n s) := by
  refine .running h ?_
  dsimp only
  split <;> exact h

theorem execReadResponse_tells (p : Portion) (h : Notifies q s) : Tells q (execReadResponse p s) := by
  refine .running h ?_
  split
  · exact State.restRead_notifies (s := s.startRead) h _
  · exact h
  · exact State.restRead_notifies h _

theorem execPopEvent_tells (p : Portion) (h : Notifies q s) : Tells q (execPopEvent p s) := by
  refine .running h ?_
  split
  · exact State.restPop_notifies (s := s.startPop) h _
  · exact h
  · exact State.restPop_notifies h _

theorem execFlushComplete_tells (h : Notifies q s) : Tells q (execFlushComplete s) := by
  refine .running h ?_
  split <;> exact h.still (by simp)

/-! ### Own frames and recovery (chapter 4) -/

theorem execFrameStart_tells (line : Level) (h : Notifies q s) : Tells q (execFrameStart line s) := by
  refine .running h ?_
  split
  · next cls d _ =>
    split
    · have hpassed : Notifies q (s.passLine (s.gap cls - s.li.quiet)) := h.still (by simp)
      cases line with
      | dominant => exact hpassed
      | recessive => exact State.startDemand_notifies hpassed cls d
    · exact h
  · exact h

theorem execFrameComplete_tells (h : Notifies q s) : Tells q (execFrameComplete s) := by
  refine .running h ?_
  split
  · split
    · exact h
    · exact State.demandCompleted_notifies (h.still (by simp)) _
  · exact h

theorem execWithdrawal_tells (bit : Nat) (h : Notifies q s) : Tells q (execWithdrawal bit s) := by
  refine .running h ?_
  split
  · next f _ =>
    split
    · have hpassed : Notifies q (s.passLine (bit - f.elapsed)) := h.still (by simp)
      dsimp only
      split
      · exact State.judge_notifies (by exact hpassed)
      · exact hpassed
    · exact h
  · exact h

theorem execDriveFault_tells (bit : Nat) (h : Notifies q s) : Tells q (execDriveFault bit s) := by
  refine .running h ?_
  split
  · next f _ =>
    split
    · have hpassed : Notifies q (s.passLine (bit - f.elapsed)) := h.still (by simp)
      dsimp only
      split
      · exact hpassed.still (State.frameUndone_notify _ _)
      · refine State.takeCause_notifies ?_ _
        exact hpassed.still (State.frameUndone_notify _ _)
    · exact h
  · exact h

theorem execProbeDue_tells (h : Notifies q s) : Tells q (execProbeDue s) := by
  refine .running h ?_
  split
  · split
    · exact h
    · exact h.still (State.passUntil_notify _ _ _)
  · exact h

theorem execProbeStart_tells (line : Level) (h : Notifies q s) : Tells q (execProbeStart line s) := by
  have hpassed : Notifies q (s.passLine (Config.probeGap - s.li.quiet)) := h.still (by simp)
  refine .running h ?_
  split
  · cases line <;> exact hpassed
  · exact h

theorem execProbeComplete_tells (h : Notifies q s) : Tells q (execProbeComplete s) := by
  refine .running h ?_
  split
  · split
    · exact State.judge_notifies (State.recover_notifies (State.demandCompleted_notifies (h.still (by simp)) _))
    · exact h
  · exact h

/-! ### The receiver (chapter 3) -/

theorem execStartBit_tells (c : LineChange) (h : Notifies q s) : Tells q (execStartBit c s) := by
  refine .running h ?_
  split <;> exact h

theorem execFrameReceived_tells (chars : List Byte) (h : Notifies q s) : Tells q (execFrameReceived chars s) := by
  refine .running h ?_
  split
  · split
    · exact State.testFrame_notifies (h.still (by simp)) chars
    · exact h
  · exact h

theorem execFramingError_tells (d : DominantStop) (h : Notifies q s) : Tells q (execFramingError d s) := by
  refine .running h ?_
  split
  · split
    · exact h.still (State.passLine_notify _ _)
    · exact h
  · exact h

theorem execFormatError_tells (char4 : Byte) (h : Notifies q s) : Tells q (execFormatError char4 s) := by
  refine .running h ?_
  split
  · split
    · exact h.still (State.passLine_notify _ _)
    · exact h
  · exact h

theorem execGapError_tells (quiet : Nat) (h : Notifies q s) : Tells q (execGapError quiet s) := by
  refine .running h ?_
  split
  · split
    · exact h.still (State.passLine_notify _ _)
    · exact h
  · exact h

theorem execReceiverIdle_tells (h : Notifies q s) : Tells q (execReceiverIdle s) := by
  refine .running h ?_
  split
  · exact h.still (State.passLine_notify _ _)
  · exact h

theorem execStuckDeclaration_tells (h : Notifies q s) : Tells q (execStuckDeclaration s) := by
  refine .running h ?_
  split
  · refine State.takeCause_notifies ?_ _
    exact h.still (State.passLine_notify _ _)
  · exact h

/-! ### Frames taken and the timers (chapter 5) -/

theorem execTakeFrame_tells (h : Notifies q s) : Tells q (execTakeFrame s) := by
  refine .running h ?_
  split
  · split
    · exact h
    · dsimp only
      split
      · exact State.judge_notifies (State.actOn_notifies (by exact h) _)
      · exact h
  · exact h

theorem execReplyTimeout_tells (h : Notifies q s) : Tells q (execReplyTimeout s) := by
  refine .running h ?_
  dsimp only
  split
  · exact h.still (by simp)
  · exact h

theorem execSummaryTimerExpiry_tells (h : Notifies q s) : Tells q (execSummaryTimerExpiry s) := by
  refine .running h ?_
  split
  · exact h.still (State.passUntil_notify _ _ _)
  · exact h

theorem execJoinWindowExpiry_tells (h : Notifies q s) : Tells q (execJoinWindowExpiry s) := by
  refine .running h ?_
  split
  · exact State.judge_notifies (h.still (by simp))
  · exact h

theorem execCloseLimitExpiry_tells (h : Notifies q s) : Tells q (execCloseLimitExpiry s) := by
  refine .running h ?_
  split
  · exact State.judge_notifies (h.still (by simp))
  · exact h

theorem execPeerLost_tells (n : Nat) (h : Notifies q s) : Tells q (execPeerLost n s) := by
  refine .running h ?_
  dsimp only
  split
  · have hsilent := Notifies.notify (h.still (t := (s.passSilence (s.peer n) (400 * s.intervalOf (s.peer n))).updatePeer n
      fun p => { p with presence := .silent }) (by simp)) .peerLost n
    refine State.judge_notifies ?_
    split <;> exact hsilent.still (by simp)
  · exact h

theorem execPeerAbsent_tells (n : Nat) (h : Notifies q s) : Tells q (execPeerAbsent n s) := by
  refine .running h ?_
  dsimp only
  split
  · exact State.judge_notifies (h.still (by simp))
  · exact h

/-! ### The journal and the Storage Port (chapters 8 to 10) -/

theorem execAppend_tells (h : Notifies q s) : Tells q (execAppend s) := by
  refine .running h ?_
  split
  · split
    · exact State.beginWrite_notifies h _
    · exact h
  · exact h

theorem execCopy_tells (h : Notifies q s) : Tells q (execCopy s) := by
  refine .running h ?_
  split
  · split
    · split
      · dsimp only
        split
        · exact State.enterFault_notifies h
        · exact State.beginWrite_notifies h _
      · exact h
    · exact h
  · exact h

theorem execErase_tells (h : Notifies q s) : Tells q (execErase s) := by
  refine .running h ?_
  split
  · split <;> exact h
  · exact h

theorem execHeaderSurvey_tells (h : Notifies q s) : Tells q (execHeaderSurvey s) := by
  refine .running h ?_
  split
  · split
    · split
      · exact State.surveyHeader_notifies h _ _
      · exact h
    · exact h
  · exact h

theorem execBandWalk_tells (h : Notifies q s) : Tells q (execBandWalk s) := by
  refine .running h ?_
  split
  · split
    · split
      · exact State.walkOne_notifies h _ _ _
      · exact h
    · exact h
  · exact h

theorem execProgramNotBusy_tells (left : DeviceLeft) (h : Notifies q s) : Tells q (execProgramNotBusy left s) := by
  have hlanded : Notifies q (s.land left) := h.still (by simp)
  refine .running h ?_
  split
  · split
    · exact hlanded
    · exact h
  · split
    · exact hlanded
    · exact h
  · exact h

theorem execProgramVerify_tells (h : Notifies q s) : Tells q (execProgramVerify s) := by
  have hended : Notifies q s.endCommand := h
  refine .running h ?_
  split
  · split
    · exact State.programDone_notifies hended _
    · exact State.programFailed_notifies hended _
  · exact h

theorem execProgramTimeout_tells (left : DeviceLeft) (h : Notifies q s) : Tells q (execProgramTimeout left s) := by
  refine .running h ?_
  split
  · exact State.programFailed_notifies (State.timedOut_notifies h _ _ _) _
  · exact h

theorem execEraseCheck_tells (h : Notifies q s) : Tells q (execEraseCheck s) := by
  have hended : Notifies q s.endCommand := h
  refine .running h ?_
  split
  · split
    · exact hended.still (by simp)
    · exact State.eraseFailed_notifies hended _
  · exact h

theorem execEraseTimeout_tells (left : DeviceLeft) (h : Notifies q s) : Tells q (execEraseTimeout left s) := by
  refine .running h ?_
  split
  · exact State.eraseFailed_notifies (State.timedOut_notifies h _ _ _) _
  · exact h

theorem execLreqAsserted_tells (h : Notifies q s) : Tells q (execLreqAsserted s) := by
  unfold execLreqAsserted
  split
  · exact .next h
  · dsimp only
    split
    · refine .next ?_
      split
      · exact h.still (State.grantWaiting_notify _)
      · exact h
    · exact .next h

theorem execLendGrant_tells (h : Notifies q s) : Tells q (execLendGrant s) := by
  refine .running h ?_
  split
  · exact h.still (by simp)
  · exact h

theorem execLreqDeasserted_tells (host : List Host.Cell) (h : Notifies q s) : Tells q (execLreqDeasserted host s) := by
  unfold execLreqDeasserted
  split
  · dsimp only
    split
    · refine .next ?_
      split
      · exact h.still (State.resume_notify _)
      · exact h
    · exact .next h
    · exact .next h
  · exact .next h

theorem execBusyCheckEnd_tells (h : Notifies q s) : Tells q (execBusyCheckEnd s) := by
  refine .running h ?_
  split
  · exact h
  · split
    · split
      · exact h
      · exact h.still (State.resume_notify _)
    · exact h
  · exact h

theorem execBusyCheckTimeout_tells (h : Notifies q s) : Tells q (execBusyCheckTimeout s) := by
  refine .running h ?_
  split
  · exact h
  · next t _ _ =>
    have hover : Notifies q (s.passUntil t Config.eraseLimit).checkOver := h.still (by simp)
    dsimp only
    generalize (s.passUntil t Config.eraseLimit).checkOver = u at hover ⊢
    have hfault : Notifies q (if u.jc.fault then u else u.fail) := by
      split
      · exact hover
      · exact State.fail_notifies hover
    generalize (if u.jc.fault then u else u.fail) = v at hfault ⊢
    split <;> exact hfault
  · exact h

/-! ### Resets (chapter 9) -/

/-- A part that a reset has cleared has no event to report. -/
theorem State.cleared_notifies (s : State) (p : Power) (flash : List Host.Cell) : Notifies q (s.cleared p flash) :=
  NotifyMove.emptied

theorem State.startUp_notifies (h : Notifies q s) (straps : Straps) : Notifies q (s.startUp straps) := by
  unfold State.startUp
  dsimp only
  split <;> exact h

theorem execPinReset_tells (left : DeviceLeft) (host : List Host.Cell) (h : Notifies q s) :
    Tells q (execPinReset left host s) := by
  unfold execPinReset
  split
  · exact .next h
  · exact .next (s.cleared_notifies _ _)

theorem execResetRelease_tells (straps : Straps) (h : Notifies q s) : Tells q (execResetRelease straps s) := by
  unfold execResetRelease
  split
  · exact .next h
  · exact .next (State.startUp_notifies (s.cleared_notifies _ _) _)

theorem execRestartTakesEffect_tells (straps : Straps) (host : List Host.Cell) (h : Notifies q s) :
    Tells q (execRestartTakesEffect straps host s) := by
  refine .running h ?_
  split
  · exact State.startUp_notifies (s.cleared_notifies _ _) _
  · exact h

theorem execLossOfSupply_tells (left : DeviceLeft) (host : List Host.Cell) (h : Notifies q s) :
    Tells q (execLossOfSupply left host s) := by
  unfold execLossOfSupply
  split
  · exact .next h
  · exact .next (s.cleared_notifies _ _)

/-! ### Every step -/

theorem exec_tells (i : Instr) (h : Notifies q s) : Tells q (exec i s) := by
  cases i with
  | pinReset left host => exact execPinReset_tells left host h
  | resetRelease straps => exact execResetRelease_tells straps h
  | restart n => exact execRestart_tells n h
  | restartTakesEffect straps host => exact execRestartTakesEffect_tells straps host h
  | readStatus r => exact execReadStatus_tells r h
  | otherTransactionCode c => exact execOtherTransactionCode_tells c h
  | commandBlockAborted bytes => exact .running h (k := fun s => s.statusOnly bytes.length) h
  | unknownCommand code b => exact .command h fun _ _ hu => hu
  | readResponse p => exact execReadResponse_tells p h
  | popEvent p => exact execPopEvent_tells p h
  | cmdStatus b => exact .command h fun _ _ hu => tested_after hu hu
  | cmdSetup b => exact .command h fun p _ => setupBody_notifies p
  | cmdOpen b => exact .command h fun p _ => openBody_notifies p
  | cmdClose b => exact .command h fun p _ => closeBody_notifies p
  | cmdPut b => exact .command h fun p _ => putBody_notifies p
  | cmdRemove b => exact .command h fun p _ => removeBody_notifies p
  | cmdGet b => exact .command h fun p _ => getBody_notifies p
  | cmdList b => exact .command h fun p _ => listBody_notifies p
  | cmdWatch b => exact .command h fun p _ => watchBody_notifies p
  | cmdFlush b => exact .command h fun p _ => flushBody_notifies p
  | flushComplete => exact execFlushComplete_tells h
  | cmdJournalInfo b => exact .command h fun _ _ hu => tested_after hu hu
  | cmdRoster b => exact .command h fun _ _ hu => tested_after hu hu
  | cmdCounters b => exact .command h fun p _ => countersBody_notifies p
  | frameStart line => exact execFrameStart_tells line h
  | frameComplete => exact execFrameComplete_tells h
  | withdrawal bit => exact execWithdrawal_tells bit h
  | driveFault bit => exact execDriveFault_tells bit h
  | probeDue => exact execProbeDue_tells h
  | probeStart line => exact execProbeStart_tells line h
  | probeComplete => exact execProbeComplete_tells h
  | frameReceived chars => exact execFrameReceived_tells chars h
  | framingError d => exact execFramingError_tells d h
  | formatError char4 => exact execFormatError_tells char4 h
  | gapError quiet => exact execGapError_tells quiet h
  | receiverIdle => exact execReceiverIdle_tells h
  | stuckDeclaration => exact execStuckDeclaration_tells h
  | takeFrame => exact execTakeFrame_tells h
  | replyTimeout => exact execReplyTimeout_tells h
  | summaryTimerExpiry => exact execSummaryTimerExpiry_tells h
  | joinWindowExpiry => exact execJoinWindowExpiry_tells h
  | closeLimitExpiry => exact execCloseLimitExpiry_tells h
  | peerLost n => exact execPeerLost_tells n h
  | peerAbsent n => exact execPeerAbsent_tells n h
  | append => exact execAppend_tells h
  | copy => exact execCopy_tells h
  | erase => exact execErase_tells h
  | programNotBusy left => exact execProgramNotBusy_tells left h
  | programVerify => exact execProgramVerify_tells h
  | programTimeout left => exact execProgramTimeout_tells left h
  | eraseCheck => exact execEraseCheck_tells h
  | eraseTimeout left => exact execEraseTimeout_tells left h
  | lreqAsserted => exact execLreqAsserted_tells h
  | lendGrant => exact execLendGrant_tells h
  | lreqDeasserted host => exact execLreqDeasserted_tells host h
  | busyCheckEnd => exact execBusyCheckEnd_tells h
  | busyCheckTimeout => exact execBusyCheckTimeout_tells h
  | headerSurvey => exact execHeaderSurvey_tells h
  | bandWalk => exact execBandWalk_tells h
  | startBit c => exact execStartBit_tells c h
  | lossOfSupply left host => exact execLossOfSupply_tells left host h

end

/-- Every step makes moves of the notify queue. -/
theorem step_tells (s : State) : Tells s.cp.notify (step s) := by
  have hstill : Notifies s.cp.notify s := NotifyMove.still
  unfold step
  split
  · exact .next (hstill.still (s.passLine_notify 1))
  · exact exec_tells _ (by exact hstill)

/-- Settles O9: the four cases in their order, and each move of the queue keeps its law. -/
theorem notifyLawKept : Obligations.NotifyLawKept := by
  refine ⟨fun q e waits lost hwaits hlost => ?_, fun s t ht => (step_tells s t ht).keeps_law⟩
  rw [hwaits, hlost, ← coalesces_iff, ← anyLost_iff]
  refine ⟨fun hw => if_pos hw, fun hw hl => (if_neg hw).trans (if_pos hl), fun hw hl hn => ?_, fun hw hl hn => ?_⟩
  · exact (if_neg hw).trans ((if_neg hl).trans (if_pos hn))
  · exact (if_neg hw).trans ((if_neg hl).trans (if_neg hn))

end Sys2Proof.Machine
end

section
/-! The queue of waiting commands: the shared operations of every block leave it as it is. -/

namespace Sys2Proof.Machine

/-! ### Time, the judgement of convergence and long commands -/

@[simp] theorem State.passLine_pending (s : State) (n : Nat) : (s.passLine n).pending = s.pending :=
  let ⟨_, _, _, _, _, _, hpending⟩ := s.passLine_frame n
  hpending

@[simp] theorem State.passUntil_pending (s : State) (t l : Nat) : (s.passUntil t l).pending = s.pending := by
  rcases s.passUntil_eq t l with h | ⟨n, h⟩ <;> simp [h]

@[simp] theorem State.passSilence_pending (s : State) (p : Peer) (ms : Nat) : (s.passSilence p ms).pending = s.pending := by
  unfold State.passSilence
  split <;> simp

@[simp] theorem State.endJoinWindow_pending (s : State) : s.endJoinWindow.pending = s.pending := by rw [s.endJoinWindow_frame]

@[simp] theorem State.judge_pending (s : State) : s.judge.pending = s.pending := by rw [s.judge_frame]

@[simp] theorem State.completeLong_pending (s : State) (code : Byte) (r : Result) :
    (s.completeLong code r).pending = s.pending := by
  obtain ⟨-, -, h⟩ := s.completeLong_slot code r
  rw [h]

@[simp] theorem State.settleFlush_pending (s : State) : s.settleFlush.pending = s.pending := by
  unfold State.settleFlush
  split <;> simp

@[simp] theorem State.endClosing_pending (s : State) (r : Result) : (s.endClosing r).pending = s.pending :=
  s.enterHeld.completeLong_pending _ _

/-! ### The roster, sessions and the reply queue (chapter 6) -/

@[simp] theorem State.updatePeer_pending (s : State) (n : Nat) (f : Peer → Peer) : (s.updatePeer n f).pending = s.pending := by
  rw [s.updatePeer_eq]

@[simp] theorem State.searchSession_pending (s : State) : s.searchSession.pending = s.pending := by rw [s.searchSession_frame]

@[simp] theorem State.testSession_pending (s : State) (n : Nat) : (s.testSession n).pending = s.pending := by
  unfold State.testSession
  split
  · exact s.updatePeer_pending _ _
  · rfl

@[simp] theorem State.abandonSession_pending (s : State) : s.abandonSession.pending = s.pending := by
  unfold State.abandonSession
  split
  · rfl
  · exact s.updatePeer_pending _ _

theorem ListingFrame.pending {s t : State} (h : ListingFrame s t) : t.pending = s.pending := by
  obtain ⟨ht, -⟩ := h
  rw [ht]

@[simp] theorem State.dropRequest_pending (s : State) (n : Nat) : (s.dropRequest n).pending = s.pending := by
  rw [s.dropRequest_eq]

@[simp] theorem State.replyCompleted_pending (s : State) (forHead ends : Bool) (moved : Work) :
    (s.replyCompleted forHead ends moved).pending = s.pending := by
  unfold State.replyCompleted
  split
  · split
    · rfl
    · split <;> rfl
  · rfl

/-! ### Station states and own frames (chapter 4) -/

theorem State.takeCause_pending (s : State) (c : Cause) : (s.takeCause c).pending = s.pending := by
  have hmuted : (s.enterMuted c).pending = s.pending := s.abandonSession_pending
  unfold State.takeCause
  split
  · rfl
  · rfl
  · exact (State.judge_pending _).trans hmuted
  · exact (State.judge_pending _).trans hmuted
  · unfold State.furtherCause
    split <;> rfl
  · simp

theorem State.startDemand_pending (s : State) (cls : GapClass) (d : Demand) : (s.startDemand cls d).pending = s.pending := by
  have hupdate : ∀ m, (s.launchUpdate cls m).pending = s.pending := fun m => State.judge_pending _
  cases d with
  | reply =>
    unfold State.startDemand
    dsimp only
    split <;> rfl
  | push => exact hupdate .push
  | newUpdate => exact hupdate .new
  | repair => rfl
  | summary => rfl
  | leave => rfl

@[simp] theorem State.frameSent_pending (s : State) (f : Flight) : (s.frameSent f).pending = s.pending := s.passLine_pending _

@[simp] theorem State.demandCompleted_pending (s : State) (f : Flight) : (s.demandCompleted f).pending = s.pending := by
  unfold State.demandCompleted
  split
  · rfl
  · rfl
  · split <;> rfl
  · simp
  · split <;> simp

@[simp] theorem State.frameUndone_pending (s : State) (f : Flight) : (s.frameUndone f).pending = s.pending := by
  unfold State.frameUndone
  split <;> rfl

@[simp] theorem State.recover_pending (s : State) : s.recover.pending = s.pending := State.searchSession_pending _

/-! ### Frames of other stations (chapters 3, 5 and 6) -/

theorem State.testFrame_pending (s : State) (chars : List Byte) : (s.testFrame chars).pending = s.pending := by
  unfold State.testFrame
  split
  · rfl
  · split
    · rfl
    · split
      · refine (State.takeCause_pending _ _).trans ?_
        split <;> rfl
      · unfold State.bufferFrame
        split <;> rfl

@[simp] theorem State.takeSummary_pending (s : State) (n h count interval : Nat) (digests : List Half) (joining : Bool) :
    (s.takeSummary n h count interval digests joining).pending = s.pending := by
  unfold State.takeSummary State.earlySummary
  dsimp only
  split_ifs <;> simp

@[simp] theorem State.peerLeft_pending (s : State) (n : Nat) : (s.peerLeft n).pending = s.pending := by
  have hleft : (((s.updatePeer n fun _ => .cleared).notify .peerLeft n).dropRequest n).pending = s.pending := by simp
  unfold State.peerLeft
  dsimp only
  split
  · rfl
  · split
    · exact (State.searchSession_pending _).trans hleft
    · exact hleft

theorem State.takeKind_pending (s : State) (f : Frame) : (s.takeKind f).pending = s.pending := by
  cases hp : f.payload with
  | update recs =>
    obtain ⟨w, hw, hframe, -⟩ := s.takeKind_update_frame hp
    rw [hw, hframe]
  | listing b part quads =>
    rw [s.takeKind_listing hp]
    split
    · exact (s.takeListing_listing _ _ _ _).pending
    · rfl
  | summary h count interval digests =>
    unfold State.takeKind
    simp [hp]
  | listingRequest m =>
    unfold State.takeKind
    rw [hp]
    dsimp only
    rw [s.takeRequest_frame]
  | fetch ids =>
    unfold State.takeKind
    rw [hp]
    dsimp only
    rw [s.takeRequest_frame]
  | leave =>
    unfold State.takeKind
    simp [hp]

theorem State.actOn_pending (s : State) (f : Frame) : (s.actOn f).pending = s.pending := by
  unfold State.actOn
  refine (State.takeKind_pending _ f).trans ?_
  split
  · rfl
  · rw [State.refresh_eq]
    rfl

/-! ### Local changes (chapter 2) -/

theorem State.localChange_pending (s : State) (id : Nat) (scope : Scope) (value : List Byte) (slot : Option Nat) :
    (s.localChange id scope value slot).pending = s.pending := by
  rw [State.localChange_eq]
  split
  · exact State.judge_pending _
  · rfl

theorem State.localPut_pending (s : State) (id : Nat) (scope : Scope) (value : List Byte) :
    (s.localPut id scope value).2.pending = s.pending := by
  unfold State.localPut
  split
  · rfl
  · exact s.localChange_pending _ _ _ _

theorem State.localRemove_pending (s : State) (id : Nat) : (s.localRemove id).2.pending = s.pending := by
  unfold State.localRemove
  split
  · rfl
  · split
    · rfl
    · split
      · rfl
      · split
        · exact s.localChange_pending _ _ _ _
        · rfl

/-! ### The journal's jobs (chapter 8) -/

@[simp] theorem State.grantWaiting_pending (s : State) : s.grantWaiting.pending = s.pending := by
  unfold State.grantWaiting
  split <;> rfl

theorem FaultEntered.pending {s t : State} (h : FaultEntered s t) : t.pending = s.pending := by
  obtain ⟨_, _, -, -, -, rfl⟩ := h
  rfl

@[simp] theorem State.enterFault_pending (s : State) : s.enterFault.pending = s.pending := s.enterFault_entered.pending

@[simp] theorem State.judgeTrigger_pending (s : State) : s.judgeTrigger.pending = s.pending := by rw [s.judgeTrigger_frame]

@[simp] theorem State.judgeUsable_pending (s : State) : s.judgeUsable.pending = s.pending := by
  unfold State.judgeUsable
  split <;> simp

@[simp] theorem State.issue_pending (s : State) (p : Prog) : (s.issue p).pending = s.pending := by rw [s.issue_issued p]

@[simp] theorem State.openBand_pending (s : State) (w : WriteJob) : (s.openBand w).pending = s.pending := by
  unfold State.openBand
  split
  · rfl
  · split
    · simp
    · split <;> simp

@[simp] theorem State.beginWrite_pending (s : State) (w : WriteJob) : (s.beginWrite w).pending = s.pending := by
  unfold State.beginWrite
  dsimp only
  split
  · exact State.openBand_pending _ w
  · split <;> exact State.issue_pending _ _

@[simp] theorem State.rewrite_pending (s : State) (w : WriteJob) : (s.rewrite w).pending = s.pending := by
  unfold State.rewrite
  split <;> simp

@[simp] theorem State.writeDone_pending (s : State) (w : WriteJob) (h : Head) : (s.writeDone w h).pending = s.pending := by
  have hswept : (s.recordSettled w h).sweep.pending = s.pending := by
    unfold State.sweep
    split <;> rfl
  rw [s.writeDone_eq]
  split <;> simp [hswept]

/-! ### Replay (chapter 9) -/

@[simp] theorem State.nextClose_pending (s : State) (todo : List (Nat × Nat)) : (s.nextClose todo).pending = s.pending := by
  cases todo with
  | nil => exact State.judgeTrigger_pending _
  | cons c todo => exact State.issue_pending _ _

@[simp] theorem State.replayClosed_pending (s : State) (written : Bool) : (s.replayClosed written).pending = s.pending := by
  unfold State.replayClosed
  split
  · exact State.nextClose_pending _ _
  · rfl

theorem State.settleTable_pending (s : State) : s.settleTable.pending = s.pending := by
  unfold State.settleTable
  dsimp only
  split <;> rfl

@[simp] theorem State.finishWalk_pending (s : State) : s.finishWalk.pending = s.pending := by
  unfold State.finishWalk
  split
  · exact (State.nextClose_pending _ _).trans s.settleTable_pending
  · rfl

@[simp] theorem State.fail_pending (s : State) : s.fail.pending = s.pending := by
  unfold State.fail State.replayFault
  split
  · refine (State.enterFault_pending _).trans ?_
    show (if _ then _ else _ : State).pending = _
    split
    · rfl
    · exact State.settleTable_pending _
  · simp

@[simp] theorem State.resume_pending (s : State) : s.resume.pending = s.pending := by
  have hnext : (match s.jc.next with | some p => s.issue p | none => s).pending = s.pending := by
    split <;> simp
  unfold State.resume
  split
  · split
    · unfold State.resumeReplay
      split
      · rfl
      · rfl
      · rfl
      · exact hnext
    · split
      · rfl
      · rfl
      · exact hnext
  · rfl

theorem State.surveyHeader_pending (s : State) (r : Replay) (i : Nat) : (s.surveyHeader r i).pending = s.pending := by
  rw [State.surveyHeader_eq]
  split
  · rfl
  · rw [State.endSurvey_eq]
    split
    · exact State.finishWalk_pending _
    · rfl

theorem walkBand_pending (fuel : Nat) (s : State) (band seq : Nat) (closeEnd : Option Nat) (off : Nat) :
    (walkBand fuel s band seq closeEnd off).1.pending = s.pending := by
  induction fuel generalizing s off with
  | zero => rfl
  | succ fuel ih =>
    unfold walkBand
    split
    · rfl
    · split
      · rfl
      · split
        · rfl
        · rfl
        · rfl
        · rw [ih, s.replayRecord_frame]

theorem State.walkOne_pending (s : State) (r : Replay) (band : Nat) (todo : List Nat) :
    (s.walkOne r band todo).pending = s.pending := by
  have hwalked : ∀ seq closeEnd, (walkBand 320 s band seq closeEnd Config.headerBytes).1.pending = s.pending :=
    fun seq closeEnd => walkBand_pending _ _ _ _ _ _
  unfold State.walkOne
  dsimp only
  split
  · exact (State.finishWalk_pending _).trans (hwalked _ _)
  · exact hwalked _ _

/-! ### The ends of programs and erases (chapter 10) -/

@[simp] theorem State.land_pending (s : State) (left : DeviceLeft) : (s.land left).pending = s.pending := by rw [s.land_eq]

theorem State.withWrite_pending {s : State} {k : WriteJob → State} (hk : ∀ w, (k w).pending = s.pending) :
    (s.withWrite k).pending = s.pending := by
  unfold State.withWrite
  split
  · exact hk _
  · rfl

theorem State.withHead_pending {s : State} {k : Head → State} (hk : ∀ h, (k h).pending = s.pending) :
    (s.withHead k).pending = s.pending := by
  unfold State.withHead
  split
  · exact hk _
  · rfl

theorem State.programDone_pending (s : State) (p : Prog) : (s.programDone p).pending = s.pending := by
  have hhand : ∀ {k : WriteJob → Head → State}, (∀ w h, (k w h).pending = s.pending) →
      (s.withWrite fun w => s.withHead (k w)).pending = s.pending :=
    fun hk => State.withWrite_pending fun w => State.withHead_pending (hk w)
  unfold State.programDone
  cases p.purpose with
  | closeLength => exact s.issue_pending _
  | closeMark => exact hhand fun w h => by simp
  | header => exact State.withWrite_pending fun w => (State.issue_pending _ _).trans (State.judgeTrigger_pending _)
  | recordFirst =>
    refine hhand fun w h => ?_
    split <;> simp
  | recordSecond => exact hhand fun w h => s.writeDone_pending w h
  | voidKind => exact hhand fun w h => s.issue_pending _
  | forcedLength => exact s.issue_pending _
  | forcedMark => exact hhand fun w h => by simp
  | replayLength =>
    show (s.issueInReplay _).pending = _
    unfold State.issueInReplay
    split <;> rfl
  | replayMark => exact s.replayClosed_pending true

theorem State.headerFailed_pending (s : State) (band : Nat) : (s.headerFailed band).pending = s.pending := by
  have hjudged : (s.mapJournal fun jc => jc.mapRow band (.bare .bad)).judgeUsable.pending = s.pending := by simp
  unfold State.headerFailed
  dsimp only
  split
  · exact hjudged
  · exact (State.withWrite_pending fun w => State.openBand_pending _ w).trans hjudged

theorem State.programFailed_pending (s : State) (p : Prog) : (s.programFailed p).pending = s.pending := by
  have hleft : (s.countFailure.withWrite fun w =>
      (s.countFailure.mapJournal fun jc => jc.leaveHead p.band).openBand w).pending = s.pending :=
    State.withWrite_pending fun w => State.openBand_pending _ w
  have hvoid : (s.countFailure.withHead fun h => s.countFailure.issue
      { purpose := .voidKind, band := h.band, offset := h.pos, data := [0] }).pending = s.pending :=
    State.withHead_pending fun h => State.issue_pending _ _
  have hfail : s.countFailure.fail.pending = s.pending := State.fail_pending _
  unfold State.programFailed
  dsimp only
  split
  · exact hfail
  · cases p.purpose with
    | recordFirst => exact hvoid
    | recordSecond => exact hvoid
    | closeLength => exact hleft
    | closeMark => exact hleft
    | header => exact State.headerFailed_pending _ _
    | voidKind => exact hfail
    | forcedLength => exact hfail
    | forcedMark => exact hfail
    | replayLength => exact State.replayClosed_pending _ _
    | replayMark => exact State.replayClosed_pending _ _

theorem State.eraseDone_pending (s : State) (band : Nat) : (s.eraseDone band).pending = s.pending := State.judgeTrigger_pending _

theorem State.eraseFailed_pending (s : State) (band : Nat) : (s.eraseFailed band).pending = s.pending :=
  State.judgeUsable_pending _

@[simp] theorem State.checkFailed_pending (s : State) : s.checkFailed.pending = s.pending := by
  unfold State.checkFailed
  split <;> simp

/-- Time, what the device made of a write and the end of its command leave the queue. -/
theorem State.timedOut_pending (s : State) (t limit : Nat) (left : DeviceLeft) :
    ((s.passUntil t limit).land left).endCommand.pending = s.pending := by simp

/-! ### Transactions and resets (chapters 9 and 11) -/

theorem State.restRead_pending (s : State) (n : Nat) : (s.restRead n).pending = s.pending := by
  unfold State.restRead
  split
  · dsimp only
    split <;> rfl
  · rfl

theorem State.restPop_pending (s : State) (n : Nat) : (s.restPop n).pending = s.pending := by
  unfold State.restPop
  split <;> rfl

theorem State.startUp_pending (s : State) (straps : Straps) : (s.startUp straps).pending = s.pending := by
  unfold State.startUp
  dsimp only
  split <;> rfl

end Sys2Proof.Machine
end

section
/-! Every command goes on, and leaves the queue of waiting commands as it is. -/

namespace Sys2Proof.Machine

/-- A command goes on, and leaves the queue of waiting commands as it is. -/
def GoesOn (s : State) (o : Host.Outcome State Fault Refusal) : Prop := ∃ t, o = .next t ∧ t.pending = s.pending

theorem GoesOn.next {s t : State} (h : t.pending = s.pending) : GoesOn s (.next t) := ⟨t, rfl, h⟩

theorem GoesOn.nothing (s : State) : GoesOn s (noEvent s) := .next rfl

theorem GoesOn.running {s : State} {k : State → State} (hk : (k s).pending = s.pending) : GoesOn s (whenRunning s k) := by
  rcases whenRunning_cases s k with hw | hw <;> rw [hw]
  · exact .next hk
  · exact .nothing s

/-! ### The commands of the host (chapter 11) -/

theorem Reply.settle_pending (k : Reply) (code tag : Byte) : (k.settle code tag).pending = k.after.pending := by
  cases k <;> rfl

/-- A block that is rejected or bad leaves the queue, and a command that is carried out leaves it where its body does. -/
theorem GoesOn.command {s : State} {code : Byte} {b : Block} {body : List Byte → State → Reply}
    (hbody : ∀ p u, (body p u).after.pending = u.pending) : GoesOn s (sendCommand code b body s) := by
  refine .running ?_
  unfold State.judgeBlock
  dsimp only
  split
  · rfl
  · split
    · rfl
    · exact (Reply.settle_pending _ _ _).trans (hbody _ _)

/-- The tests 1 and 2 of R186 refuse a command without effect, and what has passed them keeps the queue where its work does. -/
theorem tested_pending {inReplay fits : Bool} {s : State} {k : Reply} (hk : k.after.pending = s.pending) :
    (tested inReplay fits s k).after.pending = s.pending :=
  tested_after (P := fun u => u.pending = s.pending) rfl hk

theorem setupBody_pending (p : List Byte) (s : State) : (setupBody p s).after.pending = s.pending := by
  refine tested_pending ?_
  split <;> rfl

theorem openBody_pending (p : List Byte) (s : State) : (openBody p s).after.pending = s.pending := by
  refine tested_pending ?_
  split
  · rfl
  · split
    · rfl
    · exact State.judge_pending _

theorem closeBody_pending (p : List Byte) (s : State) : (closeBody p s).after.pending = s.pending := by
  have hclosing : s.startClosing.pending = s.pending := (State.judge_pending _).trans s.abandonSession_pending
  refine tested_pending ?_
  cases s.sc.station with
  | joining => exact hclosing
  | active => exact hclosing
  | muted => exact State.judge_pending _
  | replay => rfl
  | held => rfl
  | closing => rfl

theorem putBody_pending (p : List Byte) (s : State) : (putBody p s).after.pending = s.pending := by
  refine tested_pending ?_
  split
  · rfl
  · split
    · rfl
    · exact s.localPut_pending _ _ _

theorem removeBody_pending (p : List Byte) (s : State) : (removeBody p s).after.pending = s.pending := by
  refine tested_pending ?_
  split
  · rfl
  · split
    · rfl
    · exact s.localRemove_pending _

theorem getBody_pending (p : List Byte) (s : State) : (getBody p s).after.pending = s.pending := by
  refine tested_pending ?_
  split
  · rfl
  · split <;> rfl

theorem listBody_pending (p : List Byte) (s : State) : (listBody p s).after.pending = s.pending := by
  refine tested_pending ?_
  split <;> rfl

theorem watchBody_pending (p : List Byte) (s : State) : (watchBody p s).after.pending = s.pending := by
  refine tested_pending ?_
  split
  · rfl
  · split
    · rfl
    · split <;> rfl

theorem flushBody_pending (p : List Byte) (s : State) : (flushBody p s).after.pending = s.pending := by
  refine tested_pending ?_
  split
  · rfl
  · split <;> rfl

theorem countersBody_pending (p : List Byte) (s : State) : (countersBody p s).after.pending = s.pending := by
  refine tested_pending ?_
  show (if num p 0 1 = 1 then s.count fun _ => .zero else s).pending = _
  split <;> rfl

/-! ### Transactions (chapter 11) -/

theorem execReadStatus_goesOn (r : StatusRead) (s : State) : GoesOn s (execReadStatus r s) := by
  refine .running ?_
  cases r with
  | select => rfl
  | clocked bits =>
    dsimp only
    split <;> rfl

theorem execOtherTransactionCode_goesOn (c : OtherCode) (s : State) : GoesOn s (execOtherTransactionCode c s) := by
  refine .running ?_
  split <;> rfl

theorem execRestart_goesOn (n : Nat) (s : State) : GoesOn s (execRestart n s) := by
  refine .running ?_
  dsimp only
  split <;> rfl

theorem execReadResponse_goesOn (p : Portion) (s : State) : GoesOn s (execReadResponse p s) := by
  refine .running ?_
  cases p with
  | whole n => exact State.restRead_pending _ n
  | start => rfl
  | rest n => exact s.restRead_pending n

theorem execPopEvent_goesOn (p : Portion) (s : State) : GoesOn s (execPopEvent p s) := by
  refine .running ?_
  cases p with
  | whole n => exact State.restPop_pending _ n
  | start => rfl
  | rest n => exact s.restPop_pending n

theorem execFlushComplete_goesOn (s : State) : GoesOn s (execFlushComplete s) := by
  refine .running ?_
  split <;> simp

/-! ### Own frames and recovery (chapter 4) -/

theorem execFrameStart_goesOn (line : Level) (s : State) : GoesOn s (execFrameStart line s) := by
  refine .running ?_
  split
  · next cls _ _ =>
    split
    · refine Eq.trans ?_ (s.passLine_pending (s.gap cls - s.li.quiet))
      cases line with
      | dominant => rfl
      | recessive => exact State.startDemand_pending _ _ _
    · rfl
  · rfl

theorem execFrameComplete_goesOn (s : State) : GoesOn s (execFrameComplete s) := by
  refine .running ?_
  split
  · split <;> simp
  · rfl

theorem execWithdrawal_goesOn (bit : Nat) (s : State) : GoesOn s (execWithdrawal bit s) := by
  refine .running ?_
  split
  · next f _ =>
    split
    · refine Eq.trans ?_ (s.passLine_pending (bit - f.elapsed))
      dsimp only
      split
      · exact State.judge_pending _
      · rfl
    · rfl
  · rfl

theorem execDriveFault_goesOn (bit : Nat) (s : State) : GoesOn s (execDriveFault bit s) := by
  refine .running ?_
  split
  · next f _ =>
    split
    · refine Eq.trans ?_ (s.passLine_pending (bit - f.elapsed))
      dsimp only
      split
      · exact State.frameUndone_pending _ f
      · exact (State.takeCause_pending _ _).trans (State.frameUndone_pending _ f)
    · rfl
  · rfl

theorem execProbeDue_goesOn (s : State) : GoesOn s (execProbeDue s) := by
  refine .running ?_
  split
  · split
    · rfl
    · exact s.passUntil_pending _ _
  · rfl

theorem execProbeStart_goesOn (line : Level) (s : State) : GoesOn s (execProbeStart line s) := by
  refine .running ?_
  split
  · cases line <;> exact s.passLine_pending _
  · rfl

theorem execProbeComplete_goesOn (s : State) : GoesOn s (execProbeComplete s) := by
  refine .running ?_
  split
  · split <;> simp
  · rfl

/-! ### The receiver (chapter 3) -/

theorem execStartBit_goesOn (c : LineChange) (s : State) : GoesOn s (execStartBit c s) := by
  refine .running ?_
  split <;> rfl

theorem execFrameReceived_goesOn (chars : List Byte) (s : State) : GoesOn s (execFrameReceived chars s) := by
  refine .running ?_
  split
  · split
    · exact (State.testFrame_pending _ chars).trans (s.passLine_pending _)
    · rfl
  · rfl

theorem execFramingError_goesOn (d : DominantStop) (s : State) : GoesOn s (execFramingError d s) := by
  refine .running ?_
  split
  · split
    · exact s.passLine_pending _
    · rfl
  · rfl

theorem execFormatError_goesOn (char4 : Byte) (s : State) : GoesOn s (execFormatError char4 s) := by
  refine .running ?_
  split
  · split
    · exact s.passLine_pending _
    · rfl
  · rfl

theorem execGapError_goesOn (quiet : Nat) (s : State) : GoesOn s (execGapError quiet s) := by
  refine .running ?_
  split
  · split
    · exact s.passLine_pending _
    · rfl
  · rfl

theorem execReceiverIdle_goesOn (s : State) : GoesOn s (execReceiverIdle s) := by
  refine .running ?_
  split
  · exact State.passLine_pending { s with li := s.li.change .release } _
  · rfl

theorem execStuckDeclaration_goesOn (s : State) : GoesOn s (execStuckDeclaration s) := by
  refine .running ?_
  split
  · exact (State.takeCause_pending _ _).trans (s.passLine_pending _)
  · rfl

/-! ### Frames taken and the timers (chapter 5) -/

theorem execTakeFrame_goesOn (s : State) : GoesOn s (execTakeFrame s) := by
  refine .running ?_
  split
  · split
    · rfl
    · dsimp only
      split
      · exact (State.judge_pending _).trans (State.actOn_pending _ _)
      · rfl
  · rfl

theorem execReplyTimeout_goesOn (s : State) : GoesOn s (execReplyTimeout s) := by
  refine .running ?_
  dsimp only
  split
  · exact (State.sessionTimeout_listing _).pending.trans (s.passLine_pending _)
  · rfl

theorem execSummaryTimerExpiry_goesOn (s : State) : GoesOn s (execSummaryTimerExpiry s) := by
  refine .running ?_
  split
  · exact s.passUntil_pending _ _
  · rfl

theorem execJoinWindowExpiry_goesOn (s : State) : GoesOn s (execJoinWindowExpiry s) := by
  refine .running ?_
  split <;> simp

theorem execCloseLimitExpiry_goesOn (s : State) : GoesOn s (execCloseLimitExpiry s) := by
  refine .running ?_
  split <;> simp

theorem execPeerLost_goesOn (n : Nat) (s : State) : GoesOn s (execPeerLost n s) := by
  refine .running ?_
  dsimp only
  split
  · refine (State.judge_pending _).trans ?_
    split <;> simp
  · rfl

theorem execPeerAbsent_goesOn (n : Nat) (s : State) : GoesOn s (execPeerAbsent n s) := by
  refine .running ?_
  dsimp only
  split <;> simp

/-! ### The journal and replay (chapters 8 and 9) -/

theorem execAppend_goesOn (s : State) : GoesOn s (execAppend s) := by
  refine .running ?_
  split
  · split <;> simp
  · rfl

theorem execCopy_goesOn (s : State) : GoesOn s (execCopy s) := by
  refine .running ?_
  split
  · split
    · split
      · dsimp only
        split <;> simp
      · rfl
    · rfl
  · rfl

theorem execErase_goesOn (s : State) : GoesOn s (execErase s) := by
  refine .running ?_
  split
  · split <;> rfl
  · rfl

theorem execHeaderSurvey_goesOn (s : State) : GoesOn s (execHeaderSurvey s) := by
  refine .running ?_
  split
  · split
    · split
      · exact s.surveyHeader_pending _ _
      · rfl
    · rfl
  · rfl

theorem execBandWalk_goesOn (s : State) : GoesOn s (execBandWalk s) := by
  refine .running ?_
  split
  · split
    · split
      · exact s.walkOne_pending _ _ _
      · rfl
    · rfl
  · rfl

/-! ### The Storage Port (chapter 10) -/

theorem execProgramNotBusy_goesOn (left : DeviceLeft) (s : State) : GoesOn s (execProgramNotBusy left s) := by
  refine .running ?_
  split
  · split <;> simp
  · split <;> simp
  · rfl

theorem execProgramVerify_goesOn (s : State) : GoesOn s (execProgramVerify s) := by
  refine .running ?_
  split
  · split
    · exact s.endCommand.programDone_pending _
    · exact s.endCommand.programFailed_pending _
  · rfl

theorem execProgramTimeout_goesOn (left : DeviceLeft) (s : State) : GoesOn s (execProgramTimeout left s) := by
  refine .running ?_
  split
  · exact (State.programFailed_pending _ _).trans (s.timedOut_pending _ _ left)
  · rfl

theorem execEraseCheck_goesOn (s : State) : GoesOn s (execEraseCheck s) := by
  refine .running ?_
  split
  · split
    · exact s.endCommand.eraseDone_pending _
    · exact s.endCommand.eraseFailed_pending _
  · rfl

theorem execEraseTimeout_goesOn (left : DeviceLeft) (s : State) : GoesOn s (execEraseTimeout left s) := by
  refine .running ?_
  split
  · exact (State.eraseFailed_pending _ _).trans (s.timedOut_pending _ _ left)
  · rfl

theorem execLreqAsserted_goesOn (s : State) : GoesOn s (execLreqAsserted s) := by
  unfold execLreqAsserted
  split
  · exact .nothing s
  · dsimp only
    split
    · refine .next ?_
      split <;> simp
    · exact .next rfl

theorem execLendGrant_goesOn (s : State) : GoesOn s (execLendGrant s) := by
  refine .running ?_
  split <;> simp

theorem execLreqDeasserted_goesOn (host : List Host.Cell) (s : State) : GoesOn s (execLreqDeasserted host s) := by
  unfold execLreqDeasserted
  split
  · dsimp only
    split
    · refine .next ?_
      split <;> simp
    · exact .next rfl
    · exact .next rfl
  · exact .nothing s

theorem execBusyCheckEnd_goesOn (s : State) : GoesOn s (execBusyCheckEnd s) := by
  refine .running ?_
  split
  · rfl
  · split
    · split
      · rfl
      · exact s.checkOver.resume_pending
    · rfl
  · rfl

theorem execBusyCheckTimeout_goesOn (s : State) : GoesOn s (execBusyCheckTimeout s) := by
  refine .running ?_
  split
  · rfl
  · next t _ _ =>
    refine Eq.trans ?_ ((State.checkFailed_pending _).trans (s.passUntil_pending t Config.eraseLimit))
    generalize s.passUntil t Config.eraseLimit = u
    show (if u.checkFailed.sp.lreq then u.checkFailed.grantHeld else u.checkFailed).pending = _
    split <;> rfl
  · rfl

/-! ### Resets (chapter 9) -/

theorem execPinReset_goesOn (left : DeviceLeft) (host : List Host.Cell) (s : State) : GoesOn s (execPinReset left host s) := by
  unfold execPinReset
  split
  · exact .nothing s
  · exact .next rfl

theorem execResetRelease_goesOn (straps : Straps) (s : State) : GoesOn s (execResetRelease straps s) := by
  unfold execResetRelease
  split
  · exact .nothing s
  · exact .next (State.startUp_pending _ _)

theorem execRestartTakesEffect_goesOn (straps : Straps) (host : List Host.Cell) (s : State) :
    GoesOn s (execRestartTakesEffect straps host s) := by
  refine .running ?_
  split
  · exact State.startUp_pending _ _
  · rfl

theorem execLossOfSupply_goesOn (left : DeviceLeft) (host : List Host.Cell) (s : State) :
    GoesOn s (execLossOfSupply left host s) := by
  unfold execLossOfSupply
  split
  · exact .nothing s
  · exact .next rfl

/-! ### Every command, and the step that runs it -/

theorem exec_goesOn (i : Instr) (s : State) : GoesOn s (exec i s) := by
  cases i with
  | pinReset left host => exact execPinReset_goesOn left host s
  | resetRelease straps => exact execResetRelease_goesOn straps s
  | restart n => exact execRestart_goesOn n s
  | restartTakesEffect straps host => exact execRestartTakesEffect_goesOn straps host s
  | readStatus r => exact execReadStatus_goesOn r s
  | otherTransactionCode c => exact execOtherTransactionCode_goesOn c s
  | commandBlockAborted bytes => exact .running (k := fun s => s.statusOnly bytes.length) rfl
  | unknownCommand code b => exact .command fun _ _ => rfl
  | readResponse p => exact execReadResponse_goesOn p s
  | popEvent p => exact execPopEvent_goesOn p s
  | cmdStatus b => exact .command fun _ _ => tested_pending rfl
  | cmdSetup b => exact .command setupBody_pending
  | cmdOpen b => exact .command openBody_pending
  | cmdClose b => exact .command closeBody_pending
  | cmdPut b => exact .command putBody_pending
  | cmdRemove b => exact .command removeBody_pending
  | cmdGet b => exact .command getBody_pending
  | cmdList b => exact .command listBody_pending
  | cmdWatch b => exact .command watchBody_pending
  | cmdFlush b => exact .command flushBody_pending
  | flushComplete => exact execFlushComplete_goesOn s
  | cmdJournalInfo b => exact .command fun _ _ => tested_pending rfl
  | cmdRoster b => exact .command fun _ _ => tested_pending rfl
  | cmdCounters b => exact .command countersBody_pending
  | frameStart line => exact execFrameStart_goesOn line s
  | frameComplete => exact execFrameComplete_goesOn s
  | withdrawal bit => exact execWithdrawal_goesOn bit s
  | driveFault bit => exact execDriveFault_goesOn bit s
  | probeDue => exact execProbeDue_goesOn s
  | probeStart line => exact execProbeStart_goesOn line s
  | probeComplete => exact execProbeComplete_goesOn s
  | frameReceived chars => exact execFrameReceived_goesOn chars s
  | framingError d => exact execFramingError_goesOn d s
  | formatError char4 => exact execFormatError_goesOn char4 s
  | gapError quiet => exact execGapError_goesOn quiet s
  | receiverIdle => exact execReceiverIdle_goesOn s
  | stuckDeclaration => exact execStuckDeclaration_goesOn s
  | takeFrame => exact execTakeFrame_goesOn s
  | replyTimeout => exact execReplyTimeout_goesOn s
  | summaryTimerExpiry => exact execSummaryTimerExpiry_goesOn s
  | joinWindowExpiry => exact execJoinWindowExpiry_goesOn s
  | closeLimitExpiry => exact execCloseLimitExpiry_goesOn s
  | peerLost n => exact execPeerLost_goesOn n s
  | peerAbsent n => exact execPeerAbsent_goesOn n s
  | append => exact execAppend_goesOn s
  | copy => exact execCopy_goesOn s
  | erase => exact execErase_goesOn s
  | programNotBusy left => exact execProgramNotBusy_goesOn left s
  | programVerify => exact execProgramVerify_goesOn s
  | programTimeout left => exact execProgramTimeout_goesOn left s
  | eraseCheck => exact execEraseCheck_goesOn s
  | eraseTimeout left => exact execEraseTimeout_goesOn left s
  | lreqAsserted => exact execLreqAsserted_goesOn s
  | lendGrant => exact execLendGrant_goesOn s
  | lreqDeasserted host => exact execLreqDeasserted_goesOn host s
  | busyCheckEnd => exact execBusyCheckEnd_goesOn s
  | busyCheckTimeout => exact execBusyCheckTimeout_goesOn s
  | headerSurvey => exact execHeaderSurvey_goesOn s
  | bandWalk => exact execBandWalk_goesOn s
  | startBit c => exact execStartBit_goesOn c s
  | lossOfSupply left host => exact execLossOfSupply_goesOn left host s

/-- Settles O3, command by command: none stops the part, and no operation that one is made of touches the queue. -/
theorem wellFormedCommandsGoOn : Obligations.WellFormedCommandsGoOn := exec_goesOn

/-- Settles O1: the step matches on the queue, and its branch for a queue with a front is the statement. -/
theorem stepRunsTheFrontCommand : Obligations.StepRunsTheFrontCommand := fun _ _ _ => rfl

end Sys2Proof.Machine
end
